-- ==== Sys2Proof/Word.lean ====
section
/-! DEFINITION. Words, indexes and tags of the WLT-3224 (spec 00 "Conventions", 12 "Formats"). -/

namespace Sys2Proof

abbrev Byte := BitVec 8
abbrev Word16 := BitVec 16
/-- A nonce fills 8 bytes (spec 12). -/
abbrev Nonce := BitVec 64
/-- A key or the shelf secret fills 16 bytes (spec 12). -/
abbrev Key := BitVec 128
/-- An epoch is a 16-bit count that wraps (spec 00). -/
abbrev Epoch := BitVec 16

/-- Stations 0 to 15 (spec 00). -/
abbrev Station := Fin 16
/-- Ports 0 to 23 (spec 00). -/
abbrev Port := Fin 24
/-- Voice slots 0 to 255 (spec 00). -/
abbrev Slot := Fin 256
/-- Call records 0 to 63 (R46). -/
abbrev RecordId := Fin 64
/-- Talk lanes 0 to 23 (R109). -/
abbrev TalkId := Fin 24
/-- Listen lanes 0 to 47 (R124). -/
abbrev ListenId := Fin 48
/-- Places of the query list (R24). -/
abbrev QueryId := Fin 4
/-- Entries of the conference table (R81). -/
abbrev ConfId := Fin 6
/-- A dialled digit. -/
abbrev Digit := Fin 10
/-- The four rights classes (spec 00). -/
abbrev Rights := Fin 4
/-- An extension number, 0 to 9999 where the rules say so. -/
abbrev Ext := Nat

/-- A tag: an index byte and an incarnation byte (spec 00 "Tags and epochs"). -/
structure Tag where
  index : Byte
  incarnation : Byte
  deriving DecidableEq, Repr

/-- FFFFh in a tag field means no tag. -/
def Tag.absent : Tag := ⟨255, 255⟩

/-- One place of a table replaced. -/
def upd {α : Type} {n : Nat} (v : Vector α n) (i : Fin n) (x : α) : Vector α n :=
  v.set i.val x i.isLt

/-- Add 1 and stop at the largest value (spec 00: counters that saturate). -/
def saturate (limit n : Nat) : Nat := min (n + 1) limit

end Sys2Proof
end

