-- ==== Sys2Proof/Config.lean ====
section
/-! DEFINITION. What the manual does not give: free values without a body (log 3, log 4). -/

namespace Sys2Proof

/-- The mixing function of key input, nonce A, nonce B and count (R107). Free: "The function itself is
not given in this manual". -/
opaque Config.mixer : Key → Nonce → Nonce → Word16 → Key

/-- The keystream byte of a frame from key, position and frame number (R114). Free. -/
opaque Config.keystream : Key → Word16 → Fin 64 → Byte

/-- The sync word of a superframe from key and position (R114). Free. -/
opaque Config.syncWord : Key → Word16 → BitVec 64

/-- The proving byte of a frame number (R115). Free: the sequence is fixed but not given. -/
opaque Config.provingByte : Fin 64 → Byte

/-- What the nonce source's noise proposes: by starting state (counted in cold resets) and number of
values already given (R108). Free. -/
opaque Config.nonceNoise : Nat → Nat → Nonce

/-- The slot a CONF-SET lists for a controller whose talk lane is MOVING and so holds none, by lane number
(R82, R85). Free: the rules list "*F*'s talk slot" and give no value for a lane without one. -/
opaque Config.unheldSlot : Nat → Slot

end Sys2Proof
end

