-- ==== Sys2Proof/Syntax.lean ====
section
/-! DEFINITION. The commands: one constructor of Instr for each row of spec/opcode_table.json. -/

namespace Sys2Proof

/-- The five feature keys of a set (spec 05). -/
inductive FeatureKey where
  | holdKey | returnKey | swapKey | transferKey | conferenceKey
  deriving DecidableEq, Repr

/-- An admission message of a set (R143, R148). -/
inductive AdmissionMessage where
  | loginReq (ext : Ext)
  | response (value : Nonce)
  | logout
  deriving DecidableEq, Repr

/-- The commands. What the outside supplies is an operand; what a command only names (a port, a lane, a
record) is its index; all else the meaning reads from the state. -/
inductive Instr where
  -- reset and loading (spec 11)
  | coldReset
  | readCompletion (image : List Byte)
  | readFailure
  | listeningCountLimit
  -- the shelf highway (spec 10)
  | sendWindow
  | cellCarried
  | transmitChoice
  | windowHeard (window : Station) (bytes : List Byte)
  | refusalListOffer
  | noticeOffer
  | census
  | missedCensusLimit (peer : Station)
  | renewalOffer
  -- voice slots (spec 06)
  | slotJudgment
  | claimRetry (lane : TalkId)
  -- key mixer and talk lanes (spec 07)
  | mixerCompletion
  | firstKeyInstall (lane : TalkId)
  | talkKeySwap (lane : TalkId)
  | listenKeySwap (lane : ListenId)
  | keyAgeLimit (lane : TalkId)
  | rekeyWantedRetry (lane : TalkId)
  | talkFirstKeyRetry (lane : TalkId)
  | keyNextReoffer (lane : TalkId)
  | listenFirstKeyRetry (lane : ListenId)
  | talkLaneBoundary (lane : TalkId)
  -- listen lanes (spec 08)
  | listenLaneBoundary (lane : ListenId)
  | lowFigureLimit (lane : ListenId)
  | recoveryLimit (lane : ListenId)
  | waitkeyTimerExpiry (lane : ListenId)
  | syncAskTimerExpiry (lane : ListenId)
  -- line ports (spec 09)
  | setFrameReceived (port : Port) (sample octet check : Byte)
  | portTrainingJudgment (port : Port)
  | goodCountLimit (port : Port)
  | badCountLimit (port : Port)
  | hookMessageArrival (port : Port) (offHook : Bool)
  | admissionMessageArrival (port : Port) (message : AdmissionMessage)
  | featureKeyArrival (port : Port) (key : FeatureKey)
  | digitArrival (port : Port) (digit : Digit)
  | lineLoss (port : Port)
  | loginReq (port : Port)
  | response (port : Port)
  | logout (port : Port)
  | offHook (port : Port)
  | onHook (port : Port)
  | digit (port : Port)
  | hold (port : Port)
  | returnCall (port : Port)
  | swap (port : Port)
  | transfer (port : Port)
  | conference (port : Port)
  | burstTimerExpiry (port : Port)
  -- admission cells and timers (spec 01, 02)
  | admitAsk
  | admitTell
  | admitMove
  | admitLeave
  | admitChange
  | challengingTimerExpiry (port : Port)
  | confirmingTimerExpiry (port : Port)
  | renewalTimerExpiry (port : Port)
  | lockoutTimerExpiry (port : Port)
  | queryTimerExpiry (place : QueryId)
  -- call cells (spec 04, 05), key cells (07, 08), refusals (10), maintenance cells (11)
  | callOffer
  | callAnswer
  | callConnect
  | callClear
  | callRedirect
  | confSet
  | keyNext
  | syncAskAtTalker
  | refuse
  | maintReq
  | maintReply
  | notice
  -- call timers (R61, R76)
  | digitTimerExpiry (record : RecordId)
  | onwardPauseExpiry (record : RecordId)
  | answerTimerExpiry (record : RecordId)
  | ringingTimerExpiry (record : RecordId)
  | alertingTimerExpiry (record : RecordId)
  | recallTimerExpiry (record : RecordId)
  -- maintenance requests (spec 11)
  | portEnable
  | portDisable
  | setRights
  | bar
  | unbar
  | forceLogout
  | freezeCounts
  | thawCounts
  | clearCounts
  | readFaultClear
  | restart
  | readPort
  | readLogin
  | readHome
  | readCall
  | readLane
  | readCounts
  | readFault
  | readPlan
  -- the voice path (R126, R153, R188)
  | readingTheSlot (bus : List (Byte × Bool))
  | setFrameSent (port : Port)
  | setFrameNotReceived (port : Port)
  deriving DecidableEq, Repr

end Sys2Proof
end

