-- ==== Sys2Proof/WellFormed.lean ====
section
/-! DEFINITION. Which commands carry operands of the form the formats chapter gives (spec 12). Indexes are
bounded by their types; payloads are checked here. -/

namespace Sys2Proof

/-- An admission message whose extension fits the two octets that carry it (spec 12, set frames). -/
def AdmissionMessage.wellFormed : AdmissionMessage → Bool
  | .loginReq e => decide (e < 65536)
  | .response _ => true
  | .logout => true

/-- The payload of a command has the length the formats give it: a window 40 bytes (spec 12), the image
89 bytes (spec 12), the backplane 256 voice slots (spec 00). -/
def Instr.wellFormed : Instr → Bool
  | .readCompletion image => decide (image.length = 89)
  | .windowHeard _ bytes => decide (bytes.length = 40)
  | .readingTheSlot bus => decide (bus.length = 256)
  | .admissionMessageArrival _ message => message.wellFormed
  | _ => true

end Sys2Proof
end

