-- ==== Sys2Proof/Machine/State.lean ====
section
/-! DEFINITION. The state of the station as plain data, block by block (spec 00 "Block diagram"), and
its value after reset. -/

namespace Sys2Proof.Machine

open Sys2Proof

/-! ### Names shared by the blocks -/

/-- Station states (R173). -/
inductive StationState where
  | loading | halted | listening | active | isolated
  deriving DecidableEq, Repr

/-- Tone states in the order of their codes (R143, spec 12). -/
inductive Tone where
  | none | dial | ringback | busy | reorder | confirm
  deriving DecidableEq, Repr

/-- Hook states: ON before OFF, the order R143 lists them in. -/
inductive Hook where
  | on | off
  deriving DecidableEq, Repr

/-- Results of a login (spec 12, LOGIN-RESULT). -/
inductive LoginResult where
  | ok | denied | barred | noHome | busy | locked
  deriving DecidableEq, Repr

/-- One-off messages for a set (R153). -/
inductive SetMessage where
  | challenge (nonce : Nonce)
  | loginResult (result : LoginResult)
  deriving DecidableEq, Repr

/-- Causes in the order of their codes (R66, spec 12). -/
inductive Cause where
  | none | normal | busy | unreachable | noNumber | restricted | congestion | noSlot | noAnswer
  | pathFailed | syncLost | farAbsent | admission | homeLost | confEnded | transferred | gone
  | homeAbsent | noDigits | isolated | stale
  deriving DecidableEq, Repr

/-- Fault kinds in the order of the fault table (R169). -/
inductive FaultKind where
  | badCheck | badKind | wrongWindow | windowClash | storeFull | queueFull | refuseLost | strayCell
  | slotConflict | rangeOverlap | mixerFull | digitOverrun
  deriving DecidableEq, Repr

/-- Severities in rising order (R169). -/
inductive Severity where
  | note | minor | major
  deriving DecidableEq, Repr

/-! ### Cells (spec 12) -/

/-- Status of an ADMIT-TELL. -/
inductive TellStatus where
  | admitted | notIn | barred | notHome
  deriving DecidableEq, Repr

/-- Reason of an ADMIT-CHANGE. -/
inductive ChangeReason where
  | moved | left | barred | forced | lost | rights
  deriving DecidableEq, Repr

/-- Outcome of a CALL-ANSWER. -/
inductive AnswerOutcome where
  | ringing | busy | stale | congestion
  deriving DecidableEq, Repr

/-- Cause of a REFUSE. -/
inductive RefuseCause where
  | storeFull | badCode | notAllowed
  deriving DecidableEq, Repr

/-- Status of a MAINT-REPLY. -/
inductive ReplyStatus where
  | ok | absent | badArg
  deriving DecidableEq, Repr

/-- One member place of a CONF-SET: station, tag, slot. -/
structure MemberPlace where
  station : Station
  tag : Tag
  slot : Slot
  deriving DecidableEq, Repr

/-- SLOT cells other than the census (R93). -/
inductive SlotCell where
  | claim (slot : Slot)
  | free (slot : Slot)
  | move (old new : Slot)
  deriving DecidableEq, Repr

/-- The body of a CENSUS (R158). The range is kept as the low number and the length 1 to 256. -/
structure CensusBody where
  low : Nat
  length : Nat
  startTag : Word16
  held : List Slot
  deriving DecidableEq, Repr

/-- The body of a cell, one constructor for each kind (spec 12, kind table). -/
inductive Body where
  | census (body : CensusBody)
  | slot (cell : SlotCell)
  | refuse (kind : Byte) (tag : Tag) (cause : RefuseCause)
  | admitAsk (ext : Ext)
  | admitTell (ext : Ext) (status : TellStatus) (location : Option (Station × Port)) (rights : Rights)
      (epoch : Epoch)
  | admitMove (ext : Ext) (port : Port)
  | admitLeave (ext : Ext) (epoch : Epoch)
  | admitChange (ext : Ext) (reason : ChangeReason) (location : Option (Station × Port))
      (rights : Rights) (epoch : Epoch)
  | callOffer (caller called : Ext) (epoch : Epoch) (slot : Slot) (nonce : Nonce) (onward : List Digit)
  | callAnswer (outcome : AnswerOutcome)
  | callConnect (slot : Slot) (nonce : Nonce)
  | callClear (cause : Cause)
  | callRedirect (station : Station) (tag : Tag) (slot : Slot) (nonce : Nonce)
  | confSet (nonce : Nonce) (members : List MemberPlace)
  | keyNext (slot : Slot) (talker partner : Nonce) (count : Nat) (lead : Nat)
  | syncAsk (slot : Slot)
  | maintReq (code : Byte) (argument : List Byte)
  | maintReply (code : Byte) (status : ReplyStatus) (data : List Byte)
  | notice (kind : FaultKind) (severity : Severity) (multiple : Bool)
  deriving DecidableEq, Repr

/-- Destination: one station, or all (spec 00). -/
inductive Dest where
  | one (station : Station)
  | all
  deriving DecidableEq, Repr

/-- A window cell without its check (spec 12). The flags are COLD, RENEW, MOVE and DIVERT. -/
structure Cell where
  source : Station
  dest : Dest
  cold : Bool := false
  renew : Bool := false
  move : Bool := false
  divert : Bool := false
  sender : Tag := Tag.absent
  receiver : Tag := Tag.absent
  body : Body
  deriving DecidableEq, Repr

/-! ### Highway Interface (spec 10) -/

/-- What an offer named, for the carried report (R157). -/
inductive OfferName where
  | plain
  | slotCell (cell : SlotCell)
  | keyNext (lane : TalkId) (opening : Byte)
  | callConnect (record : RecordId) (incarnation : Byte)
  | clearing (record : RecordId) (incarnation : Byte)
  | notice
  | restartReply
  deriving DecidableEq, Repr

/-- A cell of the transmit queue with what its offer named (R159). -/
structure Queued where
  cell : Cell
  name : OfferName
  deriving DecidableEq, Repr

/-- The four classes of the receive store (R161). -/
inductive StoreClass where
  | admitC | callC | keyC | maintC
  deriving DecidableEq, Repr

/-- A stored cell, its header as heard, and its stamp (R162). -/
structure Stored where
  cell : Cell
  header : List Byte
  stamp : Nat
  deriving DecidableEq, Repr

/-- A presence entry's state (R167). -/
inductive PresenceState where
  | unknown | present | absent
  deriving DecidableEq, Repr

/-- A presence entry (R167). R172 gives only UNKNOWN after a cold reset: that such an entry then holds start tag 0000h and
missed count 0 is the model's choice (log 5). -/
structure Presence where
  state : PresenceState := .unknown
  startTag : Word16 := 0
  missed : Nat := 0
  deriving DecidableEq, Repr

/-- A census heard in the present frame 0, with its header (R98). -/
structure HeardCensus where
  station : Station
  cold : Bool
  header : List Byte
  body : CensusBody
  deriving DecidableEq, Repr

/-- The captured content of the fault record (R170). -/
structure Captured where
  kind : FaultKind
  severity : Severity
  frame : Fin 64
  window : Station
  header : Option (List Byte)
  deriving DecidableEq, Repr

/-- The fault record (R170). LOCKED is set exactly while content is captured, so it is not a field. -/
structure FaultRecord where
  content : Option Captured := none
  multiple : Bool := false
  majorSinceClear : Bool := false
  deriving DecidableEq, Repr

structure Highway where
  queue : List Queued := []
  chosen : Option Queued := none
  sent : Option Queued := none
  windowOut : Option (List Byte) := none
  store : List Stored := []
  /-- consumers that have taken their cell of the present frame end (R162) -/
  taken : List StoreClass := []
  refusals : List Cell := []
  censusCount : Nat := 0
  presence : Vector Presence 16 := Vector.replicate 16 {}
  slotCells : List (Station × SlotCell) := []
  censuses : List HeardCensus := []
  refusesHeard : List Cell := []
  /-- the slot judgment or the census of the present frame end has been made (log 2) -/
  judged : Bool := false
  fault : FaultRecord := {}
  counters : Vector Nat 12 := Vector.replicate 12 0
  deriving DecidableEq, Repr

/-! ### Slot Map (spec 06) -/

/-- Kinds of a claims list entry (R90). -/
inductive ClaimKind where
  | claim | move | release
  deriving DecidableEq, Repr

/-- An entry of the own claims list (R90). `refused` marks an entry whose cell the queue refused (R92,
R96), and `fresh` one refused since the present frame began, whose attempt after it waits for the next frame
end (R92, R94); `omitted` a RELEASE whose slot a census sent since then did not list (R96). -/
structure Claim where
  kind : ClaimKind
  slot : Slot
  oldSlot : Option Slot := none
  lane : Option TalkId := none
  attempt : Nat := 1
  carried : Option (Fin 64) := none
  refused : Bool := false
  fresh : Bool := false
  omitted : Bool := false
  deriving DecidableEq, Repr

structure SlotMap where
  map : Vector (Option Station) 256 := Vector.replicate 256 none
  /-- the map as the present frame began (R93) -/
  atFrameStart : Vector (Option Station) 256 := Vector.replicate 256 none
  claims : List Claim := []
  deriving DecidableEq, Repr

/-! ### Line Port Unit (spec 09) -/

/-- Port states (R143). -/
inductive PortState where
  | disabled | down | training | up
  deriving DecidableEq, Repr

/-- A line message being read: its code octet and the payload octets so far, oldest first (R188). -/
structure OpenMessage where
  code : Byte
  octets : List Byte
  deriving DecidableEq, Repr

structure PortUnit where
  state : PortState := .down
  enable : Bool := false
  good : Nat := 0
  bad : Nat := 0
  setFrames : Nat := 0
  lineLoss : Bool := false
  admission : Option AdmissionMessage := none
  hook : Option Hook := none
  keys : List FeatureKey := []
  digits : List Digit := []
  reportedHook : Hook := .on
  tone : Tone := .none
  ring : Bool := false
  outbound : List SetMessage := []
  lineLossCount : Nat := 0
  replacedCount : Nat := 0
  openMessage : Option OpenMessage := none
  talkSample : Byte := 0
  listenSample : Byte := 0
  frameOut : Option (List Byte) := none
  /-- a set frame was received or found missing in the present frame (R155, R188) -/
  heard : Bool := false
  /-- an event was offered at the present frame end (R150) -/
  offered : Bool := false
  deriving DecidableEq, Repr

/-! ### Admission Unit (spec 01, 02) -/

/-- Check step of a challenge (R1). -/
inductive CheckStep where
  | none | setKey | expected
  deriving DecidableEq, Repr

/-- Renewal of an ADMITTED login (R1). -/
inductive Renewal where
  | none | pending | sent
  deriving DecidableEq, Repr

/-- The part of a login entry that its state decides (R1). -/
inductive LoginBody where
  | challenging (claimed : Ext) (nonce : Nonce) (response : Option Nonce) (step : CheckStep)
  | confirming (ext : Ext)
  | admitted (ext : Ext) (rights : Rights) (epoch : Epoch) (renewal : Renewal)
  deriving DecidableEq, Repr

structure LoginEntry where
  body : LoginBody
  timer : Option Nat
  deriving DecidableEq, Repr

/-- A port's login place (R1, R2) with its failure count and lockout (R4). -/
structure LoginPlace where
  incarnation : Byte := 0
  entry : Option LoginEntry := none
  failures : Nat := 0
  lockedOut : Bool := false
  lockoutTimer : Option Nat := none
  deriving DecidableEq, Repr

/-- A home record (R5). -/
structure HomeRecord where
  location : Option (Station × Port)
  rights : Rights
  barred : Bool
  epoch : Epoch
  deriving DecidableEq, Repr

/-- An entry of the remote admission cache (R22). -/
structure CacheEntry where
  ext : Ext
  station : Station
  epoch : Epoch
  deriving DecidableEq, Repr

/-- A query (R24). -/
structure Query where
  ext : Ext
  home : Station
  timer : Option Nat
  waiters : List RecordId
  deriving DecidableEq, Repr

structure QueryPlace where
  incarnation : Byte := 0
  query : Option Query := none
  deriving DecidableEq, Repr

structure Admission where
  logins : Vector LoginPlace 24 := Vector.replicate 24 {}
  /-- the record of number `low + i` of the own range stands at index `i` (R5) -/
  homes : List HomeRecord := []
  cache : List CacheEntry := []
  queries : Vector QueryPlace 4 := Vector.replicate 4 {}
  deriving DecidableEq, Repr

/-! ### Call Controller (spec 03, 04, 05) -/

/-- A contiguous range of numbers (R35). -/
structure Range where
  low : Nat
  length : Nat
  deriving DecidableEq, Repr

/-- A home entry of the number plan (R35). -/
inductive HomeEntry where
  | unknown
  | present (range : Range)
  | absent (range : Range)
  deriving DecidableEq, Repr

/-- A divert entry (R39). -/
structure DivertEntry where
  low : Nat := 0
  high : Nat := 0
  target : Station := 0
  outside : Bool := false
  enable : Bool := false
  deriving DecidableEq, Repr

/-- States of a record in use, in the order of R47's table. -/
inductive CallState where
  | dialing | routing | offering | ringback | alerting | proving | connected | held | clearing
  deriving DecidableEq, Repr

inductive Role where
  | caller | callee
  deriving DecidableEq, Repr

inductive ConfRole where
  | none | controller | member
  deriving DecidableEq, Repr

/-- A call record in use (R46). `clears` counts the cells a CLEARING record waits for (R62, R86). `controllerTag` is the
tag under which a MEMBER record's last CONF-SET lists the controller (R84), by which it knows the GONE of an ended
conference (R86); it is FFFFh in any other role. -/
structure Call where
  state : CallState
  port : Port
  ownExt : Ext
  role : Role
  confRole : ConfRole := .none
  dialled : List Digit := []
  farExt : Option Ext := none
  calledEpoch : Option Epoch := none
  divert : Bool := false
  farStation : Option Station := none
  farTag : Tag := Tag.absent
  farSlot : Option Slot := none
  farNonce : Option Nonce := none
  talkLane : Option TalkId := none
  listenLanes : List ListenId := []
  timer : Option Nat := none
  cause : Cause := .none
  onward : List Digit := []
  staleRetried : Bool := false
  clears : Nat := 0
  controllerTag : Tag := Tag.absent
  deriving DecidableEq, Repr

/-- A call record: its incarnation byte, kept while FREE, and the call while in use (R46). -/
structure CallRecord where
  incarnation : Byte := 0
  call : Option Call := none
  deriving DecidableEq, Repr

/-- What the Call Controller keeps of a port: hook view (R47), hold stack with its top first, recall
flag and burst timer (R71). -/
structure CallPort where
  hookView : Hook := .on
  stack : List RecordId := []
  recalled : Bool := false
  burst : Option Nat := none
  deriving DecidableEq, Repr

/-- A remote member of a conference (R81). -/
structure Member where
  station : Station
  tag : Tag
  slot : Slot
  link : Tag
  deriving DecidableEq, Repr

/-- A conference in use (R81). -/
structure Conf where
  controller : RecordId
  members : List Member
  deriving DecidableEq, Repr

/-- The Call Controller with the number plan and the divert table. Between a cold reset and the load the station's own
home entry is UNKNOWN as a peer's is (the model's choice, log 5). -/
structure CallController where
  plan : Vector HomeEntry 16 := Vector.replicate 16 .unknown
  diverts : Vector DivertEntry 8 := Vector.replicate 8 {}
  records : Vector CallRecord 64 := Vector.replicate 64 {}
  ports : Vector CallPort 24 := Vector.replicate 24 {}
  confs : Vector (Option Conf) 6 := Vector.replicate 6 none
  waitList : List RecordId := []
  deriving DecidableEq, Repr

/-! ### Scrambler (spec 07, 08) -/

/-- Who receives a mixer result (R105). -/
inductive Requester where
  | login (port : Port) (incarnation : Byte) (step : CheckStep)
  | talk (lane : TalkId) (opening : Byte)
  | listen (lane : ListenId) (opening : Byte)
  deriving DecidableEq, Repr

/-- A request of the key mixer (R105). `fresh` marks one that joined at the present frame end (R106). -/
structure MixRequest where
  requester : Requester
  key : Key
  nonceA : Nonce
  nonceB : Nonce
  count : Nat
  fresh : Bool := true
  deriving DecidableEq, Repr

/-- States of a talk lane in use (R109). -/
inductive TalkState where
  | claiming | active | moving
  deriving DecidableEq, Repr

/-- A talk lane's outstanding request (R109). -/
inductive TalkRequest where
  | none
  | first
  | next (count : Nat) (partner : Nonce)
  deriving DecidableEq, Repr

/-- A talk lane's staged key (R109). `countdown` is the boundaries to its swap, absent until known, and
below 0 once the boundary has passed; `isFirst` marks the first key; `queued` an accepted KEY-NEXT; and `fresh` one
refused at its completion in the present frame, which is offered again from the next boundary (R119, log 2). -/
structure TalkStaged where
  key : Key
  count : Nat
  partner : Nonce
  isFirst : Bool
  countdown : Option Int := none
  queued : Bool := false
  fresh : Bool := false
  deriving DecidableEq, Repr

/-- Rekey-wanted: clear, or set with an optional wanted partner nonce (R109). -/
inductive RekeyWanted where
  | clear
  | set (partner : Option Nonce)
  deriving DecidableEq, Repr

/-- Send modes (R109). -/
inductive SendMode where
  | prove | voice | silence
  deriving DecidableEq, Repr

/-- A talk lane in use (R109). `firstBoundary` counts boundaries to the first key's swap boundary, and
below 0 those passed since (R112, R113). -/
structure TalkLane where
  state : TalkState
  owner : RecordId
  ownerTag : Tag
  slot : Option Slot := none
  ownNonce : Nonce
  partner : Option Nonce := none
  keyCount : Nat := 0
  activeKey : Option Key := none
  staged : Option TalkStaged := none
  request : TalkRequest := .none
  wanted : RekeyWanted := .clear
  age : Nat := 0
  position : Word16 := 0
  mode : SendMode := .silence
  lastAsked : Option Slot := none
  firstBoundary : Option Int := none
  deriving DecidableEq, Repr

structure TalkPlace where
  opening : Byte := 0
  lane : Option TalkLane := none
  deriving DecidableEq, Repr

/-- States of a listen lane in use (R124). -/
inductive ListenState where
  | waitkey | proving | locked | search | lost
  deriving DecidableEq, Repr

inductive Purpose where
  | setup | join
  deriving DecidableEq, Repr

/-- A key of a listen lane, a record of its own (R124). -/
structure ListenKey where
  key : Key
  talker : Nonce
  partner : Nonce
  count : Nat
  position : Word16 := 0
  deriving DecidableEq, Repr

/-- A staged key with its countdown; at or below 0 it is overdue by the negated count (R124, R131,
R132). -/
structure ListenStaged where
  key : Key
  talker : Nonce
  partner : Nonce
  count : Nat
  countdown : Option Int
  deriving DecidableEq, Repr

/-- An outstanding key request with the inputs asked for and the boundary kept with it (R124, R130). -/
structure ListenRequest where
  isFirst : Bool
  talker : Nonce
  partner : Nonce
  count : Nat
  countdown : Option Int
  deriving DecidableEq, Repr

/-- The present candidate of a search and the cursor (R124, R135). `restart` marks a cursor reset by a
KEY-NEXT: the next candidate is phase 1 again (R130, R136). -/
structure Search where
  phase : Nat
  slot : Slot
  previous : Bool
  cursor : Option Slot
  restart : Bool := false
  deriving DecidableEq, Repr

/-- The error counters of a listen lane (R140). -/
structure Counters where
  frames : Nat := 0
  markErrors : Nat := 0
  provingBits : Nat := 0
  provingErrors : Nat := 0
  deriving DecidableEq, Repr

/-- A listen lane in use (R124). `framesRead` and `marksAgreed` count the frames of the present superframe
read under the present key (R126). `provingClock` counts boundaries to the first key's swap boundary and
goes on below 0 through proving (R127, R128). `awaiting` marks a lane that awaits its first figure after a
swap (R133, R138). `syncLost` marks a lane that has reported SYNC-LOST (R137). -/
structure ListenLane where
  state : ListenState
  owner : RecordId
  ownerTag : Tag
  purpose : Purpose
  talker : Station
  talkerTag : Tag
  slot : Slot
  talkerNonce : Option Nonce := none
  partnerNonce : Option Nonce := none
  active : Option ListenKey := none
  previous : Option ListenKey := none
  staged : Option ListenStaged := none
  request : Option ListenRequest := none
  lastFigure : Option Nat := none
  lowCount : Nat := 0
  search : Option Search := none
  recovery : Nat := 0
  timer : Option Nat := none
  counters : Counters := {}
  frozen : Bool := false
  provingErrors : Nat := 0
  framesRead : Nat := 0
  marksAgreed : Nat := 0
  provingClock : Option Int := none
  awaiting : Bool := false
  syncLost : Bool := false
  firstAsked : Bool := false
  deriving DecidableEq, Repr

structure ListenPlace where
  opening : Byte := 0
  lane : Option ListenLane := none
  deriving DecidableEq, Repr

structure Scrambler where
  mixer : List MixRequest := []
  /-- the mixer has completed its request of the present frame end (R106) -/
  mixerDone : Bool := false
  /-- starting state of the nonce source, counted in cold resets (R108; the MODEL's own, log 4) -/
  nonceSeed : Nat := 0
  /-- values given since the last cold reset, newest first (R108; the MODEL's own, log 4) -/
  noncesGiven : List Nonce := []
  talk : Vector TalkPlace 24 := Vector.replicate 24 {}
  listen : Vector ListenPlace 48 := Vector.replicate 48 {}
  /-- voice slots written in the present frame: slot, sample, mark (R115) -/
  slotsOut : List (Slot × Byte × Bool) := []
  deriving DecidableEq, Repr

/-! ### Maintenance Responder and Configuration Loader (spec 10, 11, 12) -/

/-- The notice mark (R171) and the restart due mark (R184). `newlyPresent` marks that the maintenance
station's presence entry has become PRESENT at the present frame end (R171). -/
structure Maintenance where
  pending : Bool := false
  queued : Bool := false
  refused : Bool := false
  newlyPresent : Bool := false
  restartDue : Bool := false
  deriving DecidableEq, Repr

/-- The contents of the image as fields (spec 12, configuration image). Zero fields of R175's last five
numeric rows have taken their defaults. -/
structure Image where
  station : Station
  range : Range
  defaultRights : Rights
  mask : BitVec 24
  reservedAdmit : Nat
  reservedCall : Nat
  reservedKey : Nat
  reservedMaint : Nat
  maintenance : Option Station
  lockThreshold : Nat
  lossThreshold : Nat
  lockoutTime : Nat
  keyAgeLimit : Nat
  provingLimit : Nat
  secret : Key
  diverts : Vector DivertEntry 8
  deriving DecidableEq, Repr

structure StationBlock where
  state : StationState := .loading
  startTag : Word16 := 0
  listeningCount : Nat := 0
  /-- LISTENING since frame 0 of the present superframe (R177) -/
  sinceFrame0 : Bool := false
  /-- LISTENING was entered in the present frame: windows are heard from the next one (R177) -/
  entered : Bool := false
  faultOutput : Bool := false
  image : Option Image := none
  deriving DecidableEq, Repr

/-! ### The clock and the sequencer (log 1) -/

/-- The stages of a frame that the sequencer goes through (the MODEL's own, log 1, log 8). -/
inductive Stage where
  | frameStart | sendSets | missing | tick | expiries | carried | mixer
  | talkBoundary | listenBoundary | judge | claims | refuse | training | renewals | listening | take | offers
  | refusalList | notice | choice | frameEnd
  deriving DecidableEq, Repr

structure Clock where
  frame : Fin 64 := 0
  stage : Stage := .frameStart
  index : Nat := 0
  deriving DecidableEq, Repr

/-- The station. `pending` is the queue of commands that wait, first in first out. -/
structure State where
  station : StationBlock := {}
  clock : Clock := {}
  highway : Highway := {}
  slots : SlotMap := {}
  ports : Vector PortUnit 24 := Vector.replicate 24 {}
  adm : Admission := {}
  calls : CallController := {}
  scr : Scrambler := {}
  maint : Maintenance := {}
  pending : List Instr := []
  deriving DecidableEq, Repr

/-- Why the machine may stop with a fault: never. The spec gives every command an effect in every state;
its own faults (R169) are counted and recorded in the state. -/
inductive Fault where
  deriving DecidableEq, Repr

/-- Why a command may be refused. -/
inductive Refusal where
  /-- Raised by `exec`'s arm of a command that has no meaning yet. Safe: the model stops where the
  hardware goes on. No arm raises it. -/
  | notModelled (mnemonic : String)
  deriving DecidableEq, Repr

/-- The station right after its first cold reset: LOADING, every field at its cold reset value (R21, R34,
R45, R70, R88, R104, R123, R142, R156, R172, R186), nothing waiting. Fields the spec gives no value for are
named in log 5. -/
def State.reset : State := {}

end Sys2Proof.Machine
end

