-- ==== Sys2Proof/Machine/Operands.lean ====
section
/-! DEFINITION. The layouts of spec 12: bytes and fields, the check codes, window cells, set frames and line
messages, and the configuration image. -/

namespace Sys2Proof.Machine

open Sys2Proof

/-! ### Bytes and fields: most significant byte first (spec 12) -/

def byteAt (bs : List Byte) (i : Nat) : Byte := bs.getD i 0

/-- A field of `n` bytes at offset `i`, as a number. -/
def fieldAt (bs : List Byte) (i n : Nat) : Nat :=
  (List.range n).foldl (fun acc k => acc * 256 + (byteAt bs (i + k)).toNat) 0

/-- The low 8 bits of a number as a byte. -/
def byteOf (n : Nat) : Byte := BitVec.ofNat 8 n

/-- A number as a field of `n` bytes. -/
def fieldOf (n value : Nat) : List Byte :=
  (List.range n).map fun k => byteOf (value / 256 ^ (n - 1 - k))

def tagAt (bs : List Byte) (i : Nat) : Tag := ⟨byteAt bs i, byteAt bs (i + 1)⟩

def tagBytes (t : Tag) : List Byte := [t.index, t.incarnation]

def nonceAt (bs : List Byte) (i : Nat) : Nonce := BitVec.ofNat 64 (fieldAt bs i 8)

def nonceBytes (n : Nonce) : List Byte := fieldOf 8 n.toNat

def slotAt (bs : List Byte) (i : Nat) : Slot := ⟨(byteAt bs i).toNat, (byteAt bs i).isLt⟩

/-- A byte as an index below `n`, or none when it is out of range. -/
def indexOf (n : Nat) (b : Byte) : Option (Fin n) :=
  if h : b.toNat < n then some ⟨b.toNat, h⟩ else none

def boolByte (b : Bool) : Byte := if b then 1 else 0

/-- Bytes cut or filled with 00h to a length (spec 12: unused bytes are sent as 00h). -/
def padTo (n : Nat) (bs : List Byte) : List Byte := (bs ++ List.replicate n 0).take n

/-! ### The checks -/

/-- One bit of the cyclic code with generator 1021h, most significant bit first (spec 12). -/
def crcBit (c : Word16) (b : Bool) : Word16 :=
  if c.msb != b then (c <<< 1) ^^^ 0x1021 else c <<< 1

def crcByte (c : Word16) (b : Byte) : Word16 :=
  (List.range 8).foldl (fun c i => crcBit c (b.getMsbD i)) c

/-- The 16-bit check of the window cell and the image, started at FFFFh (spec 12). -/
def check16 (bs : List Byte) : Word16 := bs.foldl crcByte 0xFFFF

/-- One bit of the set frame's 8-bit check, generator 07h (spec 12). -/
def crc8Bit (c : Byte) (b : Bool) : Byte :=
  if c.msb != b then (c <<< 1) ^^^ 0x07 else c <<< 1

/-- The 8-bit check of a set frame from the set, started at 00h (spec 12). Each byte is taken most significant bit first, as
the 16-bit check takes it (the model's choice, log 57). -/
def check8 (bs : List Byte) : Byte :=
  bs.foldl (fun c b => (List.range 8).foldl (fun c i => crc8Bit c (b.getMsbD i)) c) 0

/-- Bytes closed with their 16-bit check. -/
def withCheck (bs : List Byte) : List Byte := bs ++ fieldOf 2 (check16 bs).toNat

/-- The last two of the first `n + 2` bytes are the check of the first `n`. -/
def checkGood (n : Nat) (bs : List Byte) : Bool :=
  decide ((check16 (padTo n bs)).toNat = fieldAt bs n 2)

/-! ### Codes (spec 12, field codes) -/

def TellStatus.code : TellStatus → Byte
  | .admitted => 1 | .notIn => 2 | .barred => 3 | .notHome => 4

def TellStatus.ofCode (b : Byte) : Option TellStatus :=
  [TellStatus.admitted, .notIn, .barred, .notHome].find? fun x => x.code == b

def ChangeReason.code : ChangeReason → Byte
  | .moved => 1 | .left => 2 | .barred => 3 | .forced => 4 | .lost => 5 | .rights => 6

def ChangeReason.ofCode (b : Byte) : Option ChangeReason :=
  [ChangeReason.moved, .left, .barred, .forced, .lost, .rights].find? fun x => x.code == b

def AnswerOutcome.code : AnswerOutcome → Byte
  | .ringing => 1 | .busy => 2 | .stale => 3 | .congestion => 4

def AnswerOutcome.ofCode (b : Byte) : Option AnswerOutcome :=
  [AnswerOutcome.ringing, .busy, .stale, .congestion].find? fun x => x.code == b

def RefuseCause.code : RefuseCause → Byte
  | .storeFull => 1 | .badCode => 2 | .notAllowed => 3

def RefuseCause.ofCode (b : Byte) : Option RefuseCause :=
  [RefuseCause.storeFull, .badCode, .notAllowed].find? fun x => x.code == b

def ReplyStatus.code : ReplyStatus → Byte
  | .ok => 0 | .absent => 1 | .badArg => 2

def ReplyStatus.ofCode (b : Byte) : Option ReplyStatus :=
  [ReplyStatus.ok, .absent, .badArg].find? fun x => x.code == b

def Cause.code : Cause → Byte
  | .none => 0x00 | .normal => 0x01 | .busy => 0x02 | .unreachable => 0x03 | .noNumber => 0x04
  | .restricted => 0x05 | .congestion => 0x06 | .noSlot => 0x07 | .noAnswer => 0x08
  | .pathFailed => 0x09 | .syncLost => 0x0A | .farAbsent => 0x0B | .admission => 0x0C
  | .homeLost => 0x0D | .confEnded => 0x0E | .transferred => 0x0F | .gone => 0x10
  | .homeAbsent => 0x11 | .noDigits => 0x12 | .isolated => 0x13 | .stale => 0x14

/-- The causes a CALL-CLEAR may carry: all but 00h and 14h (R187). -/
def Cause.carried : List Cause :=
  [.normal, .busy, .unreachable, .noNumber, .restricted, .congestion, .noSlot, .noAnswer, .pathFailed,
    .syncLost, .farAbsent, .admission, .homeLost, .confEnded, .transferred, .gone, .homeAbsent, .noDigits,
    .isolated]

def Cause.ofCode (b : Byte) : Option Cause := Cause.carried.find? fun x => x.code == b

/-- Fault kinds in the order of the fault table (R169, spec 12). -/
def FaultKind.all : List FaultKind :=
  [.badCheck, .badKind, .wrongWindow, .windowClash, .storeFull, .queueFull, .refuseLost, .strayCell,
    .slotConflict, .rangeOverlap, .mixerFull, .digitOverrun]

/-- Index of the kind's counter, 0 to 11. -/
def FaultKind.index : FaultKind → Fin 12
  | .badCheck => 0 | .badKind => 1 | .wrongWindow => 2 | .windowClash => 3 | .storeFull => 4
  | .queueFull => 5 | .refuseLost => 6 | .strayCell => 7 | .slotConflict => 8 | .rangeOverlap => 9
  | .mixerFull => 10 | .digitOverrun => 11

def FaultKind.code (k : FaultKind) : Byte := byteOf (k.index.val + 1)

def FaultKind.ofCode (b : Byte) : Option FaultKind := FaultKind.all.find? fun x => x.code == b

def Severity.rank : Severity → Nat
  | .note => 1 | .minor => 2 | .major => 3

def Severity.code (v : Severity) : Byte := byteOf v.rank

def Severity.ofCode (b : Byte) : Option Severity :=
  [Severity.note, .minor, .major].find? fun x => x.code == b

/-! ### Window cells (spec 12, kind codes and bodies) -/

def Body.kind : Body → Byte
  | .census _ => 0x01
  | .slot (.claim _) => 0x02
  | .slot (.free _) => 0x03
  | .slot (.move _ _) => 0x04
  | .refuse .. => 0x08
  | .admitAsk .. => 0x10
  | .admitTell .. => 0x11
  | .admitMove .. => 0x12
  | .admitLeave .. => 0x13
  | .admitChange .. => 0x14
  | .callOffer .. => 0x20
  | .callAnswer .. => 0x21
  | .callConnect .. => 0x22
  | .callClear .. => 0x23
  | .callRedirect .. => 0x24
  | .confSet .. => 0x25
  | .keyNext .. => 0x30
  | .syncAsk .. => 0x31
  | .maintReq .. => 0x40
  | .maintReply .. => 0x41
  | .notice .. => 0x42

/-- A location as station and port bytes, FFh and 00h for none. The 00h is R27's own for a NOT-HOME; for the other
cells that send no location (a BARRED or NOT-IN ADMIT-TELL, an ADMIT-CHANGE) it is the model's choice (log 50). -/
def locationBytes : Option (Station × Port) → List Byte
  | some (st, p) => [byteOf st.val, byteOf p.val]
  | none => [0xFF, 0]

/-- Onward digits two per byte, the earlier in bits 7:4. -/
def packDigits : List Digit → List Byte
  | [] => []
  | [a] => [byteOf (a.val * 16)]
  | a :: b :: rest => byteOf (a.val * 16 + b.val) :: packDigits rest

def placeBytes (m : MemberPlace) : List Byte :=
  byteOf m.station.val :: tagBytes m.tag ++ [byteOf m.slot.val]

/-- Named body bytes from offset 08h; the rest of the body is 00h. -/
def Body.bytes : Body → List Byte
  | .census b =>
    fieldOf 2 b.low ++ [byteOf (b.length - 1)] ++ fieldOf 2 b.startTag.toNat ++ [byteOf b.held.length] ++
      b.held.map fun x => byteOf x.val
  | .slot (.claim x) => [byteOf x.val]
  | .slot (.free x) => [byteOf x.val]
  | .slot (.move old new) => [byteOf old.val, byteOf new.val]
  | .refuse kind tag cause => kind :: tagBytes tag ++ [cause.code]
  | .admitAsk e => fieldOf 2 e
  | .admitTell e st loc r ep =>
    fieldOf 2 e ++ [st.code] ++ locationBytes loc ++ [byteOf r.val] ++ fieldOf 2 ep.toNat
  | .admitMove e p => fieldOf 2 e ++ [byteOf p.val]
  | .admitLeave e ep => fieldOf 2 e ++ fieldOf 2 ep.toNat
  | .admitChange e reason loc r ep =>
    fieldOf 2 e ++ [reason.code] ++ locationBytes loc ++ [byteOf r.val] ++ fieldOf 2 ep.toNat
  | .callOffer caller called ep x n onward =>
    fieldOf 2 caller ++ fieldOf 2 called ++ fieldOf 2 ep.toNat ++ [0, byteOf x.val] ++ nonceBytes n ++
      [byteOf onward.length] ++ packDigits onward
  | .callAnswer o => [o.code]
  | .callConnect x n => byteOf x.val :: nonceBytes n
  | .callClear c => [c.code]
  | .callRedirect st t x n => byteOf st.val :: tagBytes t ++ [byteOf x.val] ++ nonceBytes n
  | .confSet n ms => nonceBytes n ++ [byteOf ms.length] ++ ms.flatMap placeBytes
  | .keyNext x t p count lead =>
    byteOf x.val :: nonceBytes t ++ nonceBytes p ++ fieldOf 2 count ++ [byteOf lead]
  | .syncAsk x => [byteOf x.val]
  | .maintReq code arg => code :: padTo 8 arg
  | .maintReply code st data => [code, st.code] ++ padTo 28 data
  | .notice k v m => [k.code, v.code, boolByte m]

def Dest.byte : Dest → Byte
  | .one st => byteOf st.val
  | .all => 0xFF

/-- Flags of a cell: bit 0 COLD, bit 1 RENEW, bit 2 MOVE, bit 3 DIVERT (spec 12). -/
def Cell.flags (c : Cell) : Byte :=
  boolByte c.cold ||| boolByte c.renew <<< 1 ||| boolByte c.move <<< 2 ||| boolByte c.divert <<< 3

/-- The first 8 bytes of the cell as it is sent (spec 12; the header of a captured fault, R169). -/
def Cell.header (c : Cell) : List Byte :=
  [c.body.kind, byteOf c.source.val, c.dest.byte, c.flags] ++ tagBytes c.sender ++ tagBytes c.receiver

/-- The 40 bytes of the cell, with its check. -/
def Cell.encode (c : Cell) : List Byte := withCheck (padTo 38 (c.header ++ c.body.bytes))

/-- A location field: none for FFh, refused when the station is above 15 or the port above 23 (R187). -/
def locationAt (bs : List Byte) (i : Nat) : Option (Option (Station × Port)) :=
  match indexOf 24 (byteAt bs (i + 1)) with
  | none => none
  | some p =>
    if byteAt bs i = 0xFF then some none
    else (indexOf 16 (byteAt bs i)).map fun st => some (st, p)

/-- An extension field of an ADMIT cell or CALL-OFFER: refused above 9999 (R187). -/
def extAt (bs : List Byte) (i : Nat) : Option Ext :=
  if fieldAt bs i 2 ≤ 9999 then some (fieldAt bs i 2) else none

def epochAt (bs : List Byte) (i : Nat) : Epoch := BitVec.ofNat 16 (fieldAt bs i 2)

/-- Onward digit `k` of the half-bytes from offset 19h. -/
def onwardDigitAt (bs : List Byte) (k : Nat) : Option Digit :=
  let b := (byteAt bs (0x19 + k / 2)).toNat
  let h := if k % 2 = 0 then b / 16 else b % 16
  if hlt : h < 10 then some ⟨h, hlt⟩ else none

def placeAt (bs : List Byte) (i : Nat) : Option MemberPlace :=
  (indexOf 16 (byteAt bs i)).map fun st => ⟨st, tagAt bs (i + 1), slotAt bs (i + 3)⟩

/-- The body of a cell of a kind, or none for a kind that is not assigned or a value out of range (R165
step 4, R187). -/
def decodeBody (bs : List Byte) : Option Body :=
  match (byteAt bs 0).toNat with
  | 0x01 =>
    some (.census {
      low := fieldAt bs 0x08 2
      length := (byteAt bs 0x0A).toNat + 1
      startTag := BitVec.ofNat 16 (fieldAt bs 0x0B 2)
      held := (List.range (min (byteAt bs 0x0D).toNat 24)).map fun k => slotAt bs (0x0E + k) })
  | 0x02 => some (.slot (.claim (slotAt bs 0x08)))
  | 0x03 => some (.slot (.free (slotAt bs 0x08)))
  | 0x04 => some (.slot (.move (slotAt bs 0x08) (slotAt bs 0x09)))
  | 0x08 => (RefuseCause.ofCode (byteAt bs 0x0B)).map fun c => .refuse (byteAt bs 0x08) (tagAt bs 0x09) c
  | 0x10 => (extAt bs 0x08).map .admitAsk
  | 0x11 => do
    let e ← extAt bs 0x08
    let st ← TellStatus.ofCode (byteAt bs 0x0A)
    let loc ← locationAt bs 0x0B
    let r ← indexOf 4 (byteAt bs 0x0D)
    return .admitTell e st loc r (epochAt bs 0x0E)
  | 0x12 => do
    let e ← extAt bs 0x08
    let p ← indexOf 24 (byteAt bs 0x0A)
    return .admitMove e p
  | 0x13 => (extAt bs 0x08).map fun e => .admitLeave e (epochAt bs 0x0A)
  | 0x14 => do
    let e ← extAt bs 0x08
    let reason ← ChangeReason.ofCode (byteAt bs 0x0A)
    let loc ← locationAt bs 0x0B
    let r ← indexOf 4 (byteAt bs 0x0D)
    return .admitChange e reason loc r (epochAt bs 0x0E)
  | 0x20 => do
    let caller ← extAt bs 0x08
    let called ← extAt bs 0x0A
    let n := (byteAt bs 0x18).toNat
    if n ≤ 12 then
      let onward ← (List.range n).mapM (onwardDigitAt bs)
      return .callOffer caller called (epochAt bs 0x0C) (slotAt bs 0x0F) (nonceAt bs 0x10) onward
    else none
  | 0x21 => (AnswerOutcome.ofCode (byteAt bs 0x08)).map .callAnswer
  | 0x22 => some (.callConnect (slotAt bs 0x08) (nonceAt bs 0x09))
  | 0x23 => (Cause.ofCode (byteAt bs 0x08)).map .callClear
  | 0x24 => (indexOf 16 (byteAt bs 0x08)).map fun st =>
      .callRedirect st (tagAt bs 0x09) (slotAt bs 0x0B) (nonceAt bs 0x0C)
  | 0x25 =>
    let n := (byteAt bs 0x10).toNat
    if 2 ≤ n ∧ n ≤ 4 then
      ((List.range n).mapM fun k => placeAt bs (0x11 + 4 * k)).map fun ms => .confSet (nonceAt bs 0x08) ms
    else none
  | 0x30 =>
    if fieldAt bs 0x19 2 = 65535 ∨ (byteAt bs 0x1B).toNat ≠ 2 then none
    else some (.keyNext (slotAt bs 0x08) (nonceAt bs 0x09) (nonceAt bs 0x11) (fieldAt bs 0x19 2) 2)
  | 0x31 => some (.syncAsk (slotAt bs 0x08))
  | 0x40 => some (.maintReq (byteAt bs 0x08) ((List.range 8).map fun k => byteAt bs (0x09 + k)))
  | 0x41 => (ReplyStatus.ofCode (byteAt bs 0x09)).map fun st =>
      .maintReply (byteAt bs 0x08) st ((List.range 28).map fun k => byteAt bs (0x0A + k))
  | 0x42 => do
    let k ← FaultKind.ofCode (byteAt bs 0x08)
    let v ← Severity.ofCode (byteAt bs 0x09)
    return .notice k v (byteAt bs 0x0A != 0)
  | _ => none

/-- Destination byte: 0 to 15 or 255; 16 to 254 is refused (R165 step 4). -/
def decodeDest (b : Byte) : Option Dest :=
  if b = 0xFF then some .all else (indexOf 16 b).map .one

/-- The cell that 40 bytes heard in window `w` carry, checks 4 and 5 of R165 apart from the frame: flags are
read only where they belong to the kind (R187). -/
def decodeCell (w : Station) (bs : List Byte) : Option Cell :=
  match decodeDest (byteAt bs 2), decodeBody bs with
  | some d, some body =>
    let f := byteAt bs 3
    let isTell := match body with | .admitTell .. => true | _ => false
    let isMove := match body with | .admitMove .. => true | _ => false
    let isCensus := match body with | .census _ => true | _ => false
    let isOffer := match body with | .callOffer .. => true | _ => false
    some {
      source := w
      dest := d
      cold := isCensus && f.getLsbD 0
      renew := (isTell || isMove) && f.getLsbD 1
      move := isTell && f.getLsbD 2
      divert := isOffer && f.getLsbD 3
      sender := tagAt bs 4
      receiver := tagAt bs 6
      body := body }
  | _, _ => none

/-! ### Set frames and line messages (spec 12, R188) -/

def Tone.code : Tone → Byte
  | .none => 0 | .dial => 1 | .ringback => 2 | .busy => 3 | .reorder => 4 | .confirm => 5

def LoginResult.code : LoginResult → Byte
  | .ok => 1 | .denied => 2 | .barred => 3 | .noHome => 4 | .busy => 5 | .locked => 6

/-- The message octets of a set frame to the set: code and payload (spec 12). -/
def SetMessage.octets : SetMessage → List Byte
  | .challenge n => 0x50 :: nonceBytes n
  | .loginResult r => [0x51, r.code]

/-- The 13 bytes of a set frame to the set: sample, state octet, message of 9 octets, check. -/
def setFrameBytes (sample : Byte) (tone : Tone) (ring : Bool) (message : Option SetMessage) : List Byte :=
  withCheck (sample :: (tone.code ||| boolByte ring <<< 3) ::
    padTo 9 ((message.map SetMessage.octets).getD []))

/-- The code octet of a feature key (spec 12). -/
def featureKeyCode : FeatureKey → Byte
  | .holdKey => 0x20 | .returnKey => 0x21 | .swapKey => 0x22 | .transferKey => 0x23
  | .conferenceKey => 0x24

/-- A line message whole at its port. -/
inductive LineMessage where
  | digit (d : Digit)
  | key (k : FeatureKey)
  | hook (h : Hook)
  | admission (m : AdmissionMessage)
  deriving DecidableEq, Repr

/-- What an octet read where no message is open means (R188). -/
inductive CodeOctet where
  | message (m : LineMessage)
  | opens
  | idle
  deriving DecidableEq, Repr

def decodeCodeOctet (b : Byte) : CodeOctet :=
  let n := b.toNat
  if h : 0x10 ≤ n ∧ n ≤ 0x19 then .message (.digit ⟨n - 0x10, by omega⟩)
  else match n with
    | 0x20 => .message (.key .holdKey)
    | 0x21 => .message (.key .returnKey)
    | 0x22 => .message (.key .swapKey)
    | 0x23 => .message (.key .transferKey)
    | 0x24 => .message (.key .conferenceKey)
    | 0x30 => .message (.hook .off)
    | 0x31 => .message (.hook .on)
    | 0x40 => .opens
    | 0x41 => .opens
    | 0x42 => .message (.admission .logout)
    | _ => .idle

/-- Payload octets an open message needs: 2 for LOGIN-REQ (40h), 8 for RESPONSE (41h). -/
def payloadLength (code : Byte) : Nat := if code = 0x40 then 2 else 8

/-- The message an open message becomes when its last payload octet is read. -/
def closeMessage (code : Byte) (octets : List Byte) : AdmissionMessage :=
  if code = 0x40 then .loginReq (fieldAt octets 0 2) else .response (BitVec.ofNat 64 (fieldAt octets 0 8))

/-! ### The configuration image (spec 12, R175) -/

def divertAt (bs : List Byte) (i : Nat) : Option DivertEntry :=
  let low := fieldAt bs i 2
  let high := fieldAt bs (i + 2) 2
  match indexOf 16 (byteAt bs (i + 4)) with
  | some t =>
    if low ≤ high ∧ high ≤ 9999 then
      some ⟨low, high, t, (byteAt bs (i + 5)).getLsbD 0, (byteAt bs (i + 5)).getLsbD 1⟩
    else none
  | none => none

/-- A numeric field in which zero selects a default, refused outside its range after that (R175). -/
def defaulted (value default low high : Nat) : Option Nat :=
  let v := if value = 0 then default else value
  if low ≤ v ∧ v ≤ high then some v else none

/-- A field that must lie in a range. -/
def inRange (value low high : Nat) : Option Nat := if low ≤ value ∧ value ≤ high then some value else none

/-- The maintenance station byte: FFh for none, else a station other than this one (R175). -/
def maintenanceAt (b : Byte) (self : Station) : Option (Option Station) :=
  if b = 0xFF then some none
  else match indexOf 16 b with
    | some st => if st = self then none else some (some st)
    | none => none

/-- The image of 89 bytes when it passes the check, the format code and every value check of R175. -/
def decodeImage (bs : List Byte) : Option Image :=
  if checkGood 0x57 bs ∧ byteAt bs 0 = 0x31 then do
    let self ← indexOf 16 (byteAt bs 1)
    let low ← inRange (fieldAt bs 2 2) 0 9999
    let length ← inRange (fieldAt bs 4 2) 1 256
    let _ ← inRange (low + length - 1) 0 9999
    let rights ← indexOf 4 (byteAt bs 6)
    let ra ← inRange (byteAt bs 0x0A).toNat 1 8
    let rc ← inRange (byteAt bs 0x0B).toNat 1 8
    let rk ← inRange (byteAt bs 0x0C).toNat 1 8
    let rm ← inRange (byteAt bs 0x0D).toNat 1 8
    let maint ← maintenanceAt (byteAt bs 0x0E) self
    let lock ← defaulted (byteAt bs 0x0F).toNat 60 1 64
    let loss ← defaulted (byteAt bs 0x10).toNat 48 1 64
    let _ ← inRange loss 1 lock
    let lockout ← defaulted (fieldAt bs 0x11 2) 3750 1 65535
    let age ← defaulted (fieldAt bs 0x13 2) 7500 1024 65535
    let proving ← defaulted (fieldAt bs 0x15 2) 8 1 511
    let d0 ← divertAt bs 0x27
    let d1 ← divertAt bs 0x2D
    let d2 ← divertAt bs 0x33
    let d3 ← divertAt bs 0x39
    let d4 ← divertAt bs 0x3F
    let d5 ← divertAt bs 0x45
    let d6 ← divertAt bs 0x4B
    let d7 ← divertAt bs 0x51
    return {
      station := self
      range := ⟨low, length⟩
      defaultRights := rights
      mask := byteAt bs 9 ++ byteAt bs 8 ++ byteAt bs 7
      reservedAdmit := ra
      reservedCall := rc
      reservedKey := rk
      reservedMaint := rm
      maintenance := maint
      lockThreshold := lock
      lossThreshold := loss
      lockoutTime := lockout
      keyAgeLimit := age
      provingLimit := proving
      secret := BitVec.ofNat 128 (fieldAt bs 0x17 16)
      diverts := #v[d0, d1, d2, d3, d4, d5, d6, d7] }
  else none

end Sys2Proof.Machine
end

