-- ==== Sys2Proof/Machine/Flags.lean ====
section
/-! DEFINITION. The tables and tests the rules read: severities, classes, privileges, tones, and the
predicates over one record, login or lane. -/

namespace Sys2Proof.Machine

open Sys2Proof

/-- Fixed severity of a fault kind (R169). -/
def FaultKind.severity : FaultKind → Severity
  | .wrongWindow | .windowClash => .major
  | .refuseLost | .strayCell | .digitOverrun => .note
  | .badCheck | .badKind | .storeFull | .queueFull | .slotConflict | .rangeOverlap | .mixerFull => .minor

/-! ### Classes of cells (spec 10) -/

/-- Classes in the order of R160's choice, with the census apart. -/
inductive CellClass where
  | refuse | slot | key | call | adm | maint
  deriving DecidableEq, Repr

def Body.cellClass : Body → CellClass
  | .census _ | .slot _ => .slot
  | .refuse .. => .refuse
  | .admitAsk .. | .admitTell .. | .admitMove .. | .admitLeave .. | .admitChange .. => .adm
  | .callOffer .. | .callAnswer .. | .callConnect .. | .callClear .. | .callRedirect .. | .confSet .. => .call
  | .keyNext .. | .syncAsk .. => .key
  | .maintReq .. | .maintReply .. | .notice .. => .maint

/-- The order in which the classes are chosen (R160). -/
def CellClass.order : List CellClass := [.refuse, .slot, .key, .call, .adm, .maint]

/-- The class of the receive store, for the classes that have one (R161). -/
def CellClass.store : CellClass → Option StoreClass
  | .adm => some .admitC
  | .call => some .callC
  | .key => some .keyC
  | .maint => some .maintC
  | .refuse | .slot => none

/-- Cells the last four places of the transmit queue are kept for (R159). -/
def Body.reserve : Body → Bool
  | .callClear _ => true
  | b => match b.cellClass with
    | .slot | .key | .refuse => true
    | .call | .adm | .maint => false

/-! ### Rights (spec 00) -/

def Rights.mayInternal (r : Rights) : Bool := decide (1 ≤ r.val)
def Rights.mayTransfer (r : Rights) : Bool := decide (2 ≤ r.val)
def Rights.mayConference (r : Rights) : Bool := decide (2 ≤ r.val)
def Rights.mayOutside (r : Rights) : Bool := decide (r.val = 3)

/-! ### Causes and tones (R66) -/

/-- The tone of a clearing's cause (R66). GONE has none of its own, and STALE is never final. -/
def Cause.tone : Cause → Option Tone
  | .normal | .busy | .confEnded | .transferred => some .busy
  | .unreachable | .noNumber | .restricted | .congestion | .noSlot | .noAnswer | .pathFailed | .syncLost
  | .farAbsent | .admission | .homeLost | .homeAbsent | .noDigits | .isolated => some .reorder
  | .none | .gone | .stale => Option.none

/-! ### One call record -/

/-- A front record is in use and neither HELD nor CLEARING (R47). -/
def Call.isFront (k : Call) : Bool :=
  match k.state with
  | .held | .clearing => false
  | .dialing | .routing | .offering | .ringback | .alerting | .proving | .connected => true

/-- ALERTING and ringing: the set has not gone off-hook, so no talk lane is open (R47, R57). -/
def Call.ringing (k : Call) : Bool := decide (k.state = .alerting) && k.talkLane.isNone

/-- Whether the far record may exist, so that a CALL-CLEAR is due (R62). -/
def Call.farMayExist (k : Call) : Bool :=
  match k.state with
  | .offering | .ringback | .alerting | .proving | .connected | .held => true
  | .dialing | .routing | .clearing => false

/-- The front record lets its port offer all but digits (R151, fourth row); ALERTING depends on the talk lane. -/
def Call.holdsDigits (k : Call) : Bool :=
  match k.state with
  | .routing | .offering => true
  | .alerting | .dialing | .ringback | .proving | .connected | .held | .clearing => false

/-- Send mode of a talk lane from the state of its owner record (R116). -/
def Call.sendMode (k : Call) : SendMode :=
  match k.state with
  | .proving => .prove
  | .connected => .voice
  | .dialing | .routing | .offering | .ringback | .alerting | .held | .clearing => .silence

/-! ### One login -/

/-- The extension field, present in CONFIRMING and ADMITTED (R1). -/
def LoginBody.ext : LoginBody → Option Ext
  | .challenging .. => none
  | .confirming e => some e
  | .admitted e _ _ _ => some e

def LoginBody.isAdmitted : LoginBody → Bool
  | .admitted .. => true
  | .challenging .. | .confirming _ => false

def LoginBody.isConfirming : LoginBody → Bool
  | .confirming _ => true
  | .challenging .. | .admitted .. => false

/-! ### One talk lane -/

/-- A rekey is in progress while a request is outstanding or a key is staged (R109). -/
def TalkLane.rekeying (t : TalkLane) : Bool := decide (t.request ≠ .none) || t.staged.isSome

/-- A trigger starts a rekey at once on an ACTIVE or MOVING lane with an active key and none in progress
(R118). -/
def TalkLane.mayRekey (t : TalkLane) : Bool :=
  decide (t.state ≠ .claiming) && t.activeKey.isSome && !t.rekeying

/-- The key count after this one: 65534 wraps to 0 (R118). -/
def nextKeyCount (n : Nat) : Nat := if n < 65534 then n + 1 else 0

/-! ### One listen lane -/

/-- A key whose boundary has passed is still to come from the mixer: the lane is muted and reads nothing
(R132). -/
def ListenLane.overdue (l : ListenLane) : Bool :=
  match l.request with
  | some { countdown := some b, .. } => decide (b ≤ 0)
  | _ => false

/-- The slot and key a lane reads in a frame (R126). -/
def ListenLane.reads (l : ListenLane) : Option (Slot × ListenKey) :=
  if l.overdue then none
  else match l.state with
    | .waitkey | .proving | .locked => l.active.map fun k => (l.slot, k)
    | .lost => if l.awaiting then l.active.map fun k => (l.slot, k) else none
    | .search => match l.search with
      | some c => if c.previous then l.previous.map fun k => (c.slot, k)
                  else l.active.map fun k => (c.slot, k)
      | none => none

/-- A figure is judged for a superframe read under one key in all its 64 frames (R126). -/
def ListenLane.figure (l : ListenLane) : Option Nat :=
  if l.framesRead = 64 then some l.marksAgreed else none

/-! ### Ranges and number plan entries -/

def Range.covers (r : Range) (n : Nat) : Bool := decide (r.low ≤ n ∧ n < r.low + r.length)

/-- The range of a PRESENT or ABSENT entry (R35). -/
def HomeEntry.range : HomeEntry → Option Range
  | .unknown => none
  | .present r => some r
  | .absent r => some r

def DivertEntry.covers (d : DivertEntry) (n : Nat) : Bool := d.enable && decide (d.low ≤ n ∧ n ≤ d.high)

/-- A superframe is good for a port when 63, 64 or 65 set frames were received in it (R144). -/
def goodSuperframe (n : Nat) : Bool := decide (63 ≤ n ∧ n ≤ 65)

end Sys2Proof.Machine
end

