-- ==== Sys2Proof/Machine/Ops.lean ====
section
/-! DEFINITION. The named operations over the state that every block uses: table accessors, faults, the
transmit queue, what a set receives, the nonce source and the key mixer's queue. -/

namespace Sys2Proof.Machine

open Sys2Proof

namespace State

/-! ### Table accessors -/

/-- The station's own number (R173). Before an image is loaded the number is not read by any rule; 0 stands
there (log 5). -/
def self (s : State) : Station :=
  match s.station.image with
  | some im => im.station
  | none => 0

def active (s : State) : Bool := decide (s.station.state = .active)

def port (s : State) (p : Port) : PortUnit := s.ports.get p

def setPort (p : Port) (u : PortUnit) (s : State) : State := { s with ports := upd s.ports p u }

def modPort (p : Port) (f : PortUnit → PortUnit) (s : State) : State := s.setPort p (f (s.port p))

def callPort (s : State) (p : Port) : CallPort := s.calls.ports.get p

def modCallPort (p : Port) (f : CallPort → CallPort) (s : State) : State :=
  { s with calls := { s.calls with ports := upd s.calls.ports p (f (s.callPort p)) } }

def login (s : State) (p : Port) : LoginPlace := s.adm.logins.get p

def modLogin (p : Port) (f : LoginPlace → LoginPlace) (s : State) : State :=
  { s with adm := { s.adm with logins := upd s.adm.logins p (f (s.login p)) } }

/-- The login tag of port `p` (R2). -/
def loginTag (s : State) (p : Port) : Tag := ⟨byteOf p.val, (s.login p).incarnation⟩

def record (s : State) (r : RecordId) : CallRecord := s.calls.records.get r

def call? (s : State) (r : RecordId) : Option Call := (s.record r).call

def setRecord (r : RecordId) (x : CallRecord) (s : State) : State :=
  { s with calls := { s.calls with records := upd s.calls.records r x } }

def setCall (r : RecordId) (k : Call) (s : State) : State :=
  s.setRecord r { s.record r with call := some k }

def modCall (r : RecordId) (f : Call → Call) (s : State) : State :=
  match s.call? r with
  | some k => s.setCall r (f k)
  | none => s

/-- A record becomes FREE and keeps its incarnation byte (R46). -/
def freeRecord (r : RecordId) (s : State) : State := s.setRecord r { s.record r with call := none }

/-- The call tag of record `r` (R46). -/
def callTag (s : State) (r : RecordId) : Tag := ⟨byteOf r.val, (s.record r).incarnation⟩

/-- The record in use that a call tag names (R46): index and incarnation. -/
def recordOf (s : State) (t : Tag) : Option RecordId :=
  match indexOf 64 t.index with
  | some r => if (s.call? r).isSome ∧ (s.record r).incarnation = t.incarnation then some r else none
  | none => none

/-- The front record of a port (R47). -/
def front (s : State) (p : Port) : Option RecordId :=
  (List.finRange 64).find? fun r =>
    match s.call? r with
    | some k => decide (k.port = p) && k.isFront
    | none => false

def talkPlace (s : State) (l : TalkId) : TalkPlace := s.scr.talk.get l

def talk? (s : State) (l : TalkId) : Option TalkLane := (s.talkPlace l).lane

def setTalkPlace (l : TalkId) (x : TalkPlace) (s : State) : State :=
  { s with scr := { s.scr with talk := upd s.scr.talk l x } }

def setTalk (l : TalkId) (t : TalkLane) (s : State) : State :=
  s.setTalkPlace l { s.talkPlace l with lane := some t }

def modTalk (l : TalkId) (f : TalkLane → TalkLane) (s : State) : State :=
  match s.talk? l with
  | some t => s.setTalk l (f t)
  | none => s

def listenPlace (s : State) (l : ListenId) : ListenPlace := s.scr.listen.get l

def listen? (s : State) (l : ListenId) : Option ListenLane := (s.listenPlace l).lane

def setListenPlace (l : ListenId) (x : ListenPlace) (s : State) : State :=
  { s with scr := { s.scr with listen := upd s.scr.listen l x } }

def setListen (l : ListenId) (t : ListenLane) (s : State) : State :=
  s.setListenPlace l { s.listenPlace l with lane := some t }

def modListen (l : ListenId) (f : ListenLane → ListenLane) (s : State) : State :=
  match s.listen? l with
  | some t => s.setListen l (f t)
  | none => s

def setHighway (h : Highway) (s : State) : State := { s with highway := h }

def setMaint (m : Maintenance) (s : State) : State := { s with maint := m }

def setClaims (cs : List Claim) (s : State) : State := { s with slots := { s.slots with claims := cs } }

def setSlot (x : Slot) (h : Option Station) (s : State) : State :=
  { s with slots := { s.slots with map := upd s.slots.map x h } }

def setConf (e : ConfId) (c : Option Conf) (s : State) : State :=
  { s with calls := { s.calls with confs := upd s.calls.confs e c } }

def setQuery (q : QueryId) (x : QueryPlace) (s : State) : State :=
  { s with adm := { s.adm with queries := upd s.adm.queries q x } }

def setWaitList (rs : List RecordId) (s : State) : State := { s with calls := { s.calls with waitList := rs } }

def setCache (c : List CacheEntry) (s : State) : State := { s with adm := { s.adm with cache := c } }

/-! ### Faults (R169, R170) -/

/-- A fault is counted, and reaches the fault record: captured when nothing is, replacing a captured fault of
strictly lower severity, setting MULTIPLE when the record is locked and MAJOR-SINCE-CLEAR when MAJOR (R170).
Each capture and replacement marks a NOTICE pending (R171). -/
def recordFault (k : FaultKind) (window : Station) (header : Option (List Byte)) (s : State) : State :=
  let rec0 := s.highway.fault
  let new : Captured :=
    { kind := k, severity := k.severity, frame := s.clock.frame, window := window, header := header }
  let taken : Bool := match rec0.content with
    | none => true
    | some old => decide (old.severity.rank < k.severity.rank)
  { s with
    highway := { s.highway with
      counters := upd s.highway.counters k.index (saturate 65535 (s.highway.counters.get k.index))
      fault := {
        content := if taken then some new else rec0.content
        multiple := rec0.multiple || rec0.content.isSome
        majorSinceClear := rec0.majorSinceClear || decide (k.severity = .major) } }
    maint := { s.maint with pending := s.maint.pending || taken } }

/-! ### The transmit queue (R159) -/

/-- Whether the queue accepts a cell: 0 to 19 queued, every cell; 20 to 23, only the cells the reserve is for;
24, none. While the station is not ACTIVE it refuses every offer (R159). -/
def accepts (s : State) (b : Body) : Bool :=
  s.active && (decide (s.highway.queue.length < 20) ||
    (decide (s.highway.queue.length < 24) && b.reserve))

def enqueue (q : Queued) (s : State) : State :=
  s.setHighway { s.highway with queue := s.highway.queue ++ [q] }

/-- An offer: accepted, or refused and counted QUEUE-FULL while ACTIVE with the header as it would have been
sent, this station's window and the present frame (R159). -/
def offer (c : Cell) (name : OfferName) (s : State) : State × Bool :=
  if s.accepts c.body then (s.enqueue ⟨c, name⟩, true)
  else if s.active then (s.recordFault .queueFull s.self (some c.header), false)
  else (s, false)

/-- An offer whose refusal the offering rule skips. -/
def offerSkip (c : Cell) (name : OfferName) (s : State) : State := (s.offer c name).1

/-- A cell of this station to one station. -/
def cellTo (s : State) (d : Station) (sender receiver : Tag) (b : Body) : Cell :=
  { source := s.self, dest := .one d, sender := sender, receiver := receiver, body := b }

/-- A cell of this station to all. -/
def cellToAll (s : State) (b : Body) : Cell := { source := s.self, dest := .all, body := b }

/-! ### What a set receives (R153) -/

/-- "The set receives TONE t": discarded for a port that is not UP. Any tone stops the burst timer (R72). -/
def setTone (p : Port) (t : Tone) (s : State) : State :=
  if (s.port p).state = .up then
    (s.modPort p fun u => { u with tone := t }).modCallPort p fun c => { c with burst := none }
  else s

/-- "The set receives RING ON or RING OFF" (R153). -/
def setRing (p : Port) (on : Bool) (s : State) : State :=
  if (s.port p).state = .up then s.modPort p fun u => { u with ring := on } else s

/-- A one-off message joins the outbound list; a list of 4 loses its oldest (R153). -/
def sendMessage (p : Port) (m : SetMessage) (s : State) : State :=
  if (s.port p).state = .up then
    s.modPort p fun u =>
      { u with outbound := (if u.outbound.length < 4 then u.outbound else u.outbound.drop 1) ++ [m] }
  else s

def sendResult (p : Port) (r : LoginResult) (s : State) : State := s.sendMessage p (.loginResult r)

/-- A refusal burst: TONE REORDER and the burst timer at 25, or nothing when the hook view is ON (R72). -/
def refuseKey (p : Port) (s : State) : State :=
  if (s.callPort p).hookView = .off then
    (s.setTone p .reorder).modCallPort p fun c => { c with burst := some 25 }
  else s

/-! ### The nonce source (R108) -/

/-- The first value at or after `c`, going upward, that was not given before. -/
def firstUnused (given : List Nonce) (c : Nonce) : Nonce :=
  (((List.range (given.length + 1)).map fun k => c + BitVec.ofNat 64 k).find? fun x => !given.contains x).getD c

/-- A draw: a free value, moved on past the values given since the last cold reset (R108, log 4). -/
def drawNonce (s : State) : State × Nonce :=
  let given := s.scr.noncesGiven
  let x := firstUnused given (Config.nonceNoise s.scr.nonceSeed given.length)
  ({ s with scr := { s.scr with noncesGiven := x :: given } }, x)

/-! ### The key mixer's queue (R105) -/

def secret (s : State) : Key :=
  match s.station.image with
  | some im => im.secret
  | none => 0

/-- A request joins the end of the queue, or is refused and counted MIXER-FULL when it holds 16 (R105). -/
def mixRequest (who : Requester) (key : Key) (a b : Nonce) (count : Nat) (s : State) : State × Bool :=
  if s.scr.mixer.length < 16 then
    ({ s with scr := { s.scr with
        mixer := s.scr.mixer ++ [{ requester := who, key := key, nonceA := a, nonceB := b, count := count }] } },
      true)
  else (s.recordFault .mixerFull s.self none, false)

end State

end Sys2Proof.Machine
end

