-- ==== Sys2Proof/Machine/SlotMap.lean ====
section
/-! DEFINITION. The Slot Map's own operations: choosing a slot, making an attempt, giving a slot back (spec 06,
R89 to R96, R100). The judgment and the reconciliation, which reach other blocks, stand in Judgment.lean and
Census.lean. -/

namespace Sys2Proof.Machine

open Sys2Proof

/-- An entry names its slot, and the old slot of a MOVE (R90). -/
def Claim.names (e : Claim) (x : Slot) : Bool := decide (e.slot = x) || decide (e.oldSlot = some x)

/-- The SLOT cell of an entry (R90). -/
def Claim.cell (e : Claim) : SlotCell :=
  match e.kind with
  | .claim => .claim e.slot
  | .move => .move (e.oldSlot.getD e.slot) e.slot
  | .release => .free e.slot

/-- A CLAIM or MOVE entry serves this lane (R90). -/
def Claim.serves (e : Claim) (l : TalkId) : Bool := decide (e.lane = some l)

/-- The slots in the order a station tries them: from 16 times its number upward, wrapping (R91). -/
def slotsFrom (st : Station) : List Slot :=
  (List.range 256).map fun k => Fin.ofNat 256 (16 * st.val + k)

namespace State

def holder (s : State) (x : Slot) : Option Station := s.slots.map.get x

/-- The slots the map shows held by a station, ascending. -/
def slotsOf (s : State) (st : Station) : List Slot :=
  (List.finRange 256).filter fun x => decide (s.holder x = some st)

/-- The first slot that is FREE in the map and that no entry of the own claims list names (R91). -/
def selectSlot (s : State) : Option Slot :=
  (slotsFrom s.self).find? fun x => (s.holder x).isNone && !s.slots.claims.any (fun e => e.names x)

/-- The slot of an ACTIVE talk lane. -/
def activeSlot (s : State) (l : TalkId) : Option Slot :=
  match s.talk? l with
  | some t => if t.state = .active then t.slot else none
  | none => none

/-- A slot shown held by this station while no talk lane is ACTIVE on it becomes FREE (R89, R98). -/
def freeIdleSlots (s : State) : State :=
  let used := (List.finRange 24).filterMap fun l => s.activeSlot l
  let map := Vector.ofFn fun x => if s.holder x = some s.self ∧ !used.contains x then none else s.holder x
  { s with slots := { s.slots with map := map } }

/-- The cell of an entry is offered; the second component says whether the queue accepted it (R92). -/
def offerClaim (e : Claim) (s : State) : State × Bool :=
  s.offer (s.cellToAll (.slot e.cell)) (.slotCell e.cell)

/-- An entry joins the list and its cell is offered; a refusal leaves the entry marked (R92, R96). -/
def addClaim (e : Claim) (s : State) : State :=
  let r := s.offerClaim e
  r.1.setClaims (r.1.slots.claims ++ [{ e with refused := !r.2, fresh := !r.2 }])

/-- The first attempt of a CLAIM (R92): the second component is false when there is no free slot. -/
def firstClaim (l : TalkId) (s : State) : State × Bool :=
  match s.selectSlot with
  | none => (s, false)
  | some x => (s.addClaim { kind := .claim, slot := x, lane := some l }, true)

/-- The first attempt of a MOVE away from `old` (R100). `old` is skipped even where the map shows it FREE. -/
def firstMove (l : TalkId) (old : Slot) (s : State) : State × Bool :=
  match (slotsFrom s.self).find? fun x =>
      (s.holder x).isNone && !s.slots.claims.any (fun e => e.names x) && decide (x ≠ old) with
  | none => (s, false)
  | some x => (s.addClaim { kind := .move, slot := x, oldSlot := some old, lane := some l }, true)

/-- The entry that serves a lane. -/
def claimOf (s : State) (l : TalkId) : Option Claim := s.slots.claims.find? fun e => e.serves l

def removeClaimOf (l : TalkId) (s : State) : State :=
  s.setClaims (s.slots.claims.filter fun e => !e.serves l)

/-- The attempt after a failed one (R94, R100): the entry, which still stands in the list, takes a newly
selected slot and the next attempt number, and its cell is offered. After the third attempt, or with no free
slot, the entry is removed and the second component is false: the lane reports NO-SLOT. -/
def nextAttempt (l : TalkId) (s : State) : State × Bool :=
  match s.claimOf l with
  | none => (s, false)
  | some e =>
    if 3 ≤ e.attempt then (s.removeClaimOf l, false)
    else match s.selectSlot with
      | none => (s.removeClaimOf l, false)
      | some x =>
        let e' : Claim := { e with slot := x, attempt := e.attempt + 1, carried := none }
        let r := s.offerClaim e'
        (r.1.setClaims (r.1.slots.claims.map fun c =>
          if c.serves l then { e' with refused := !r.2, fresh := !r.2 } else c), true)

/-- A held slot is given up: FREE in this map, a RELEASE entry, SLOT-FREE offered (R95). -/
def releaseSlot (x : Slot) (s : State) : State :=
  (s.setSlot x none).addClaim { kind := .release, slot := x }

/-- The entry of a closing lane loses its lane; one whose cell was refused is removed at once (R95). A carried entry
that is not yet judged loses its lane as any other and is judged by R94 and R96 as one whose lane has closed: R95 says
that this case cannot arise, and between the carried report and the judgment of one frame end it can (the model's choice,
log 65). -/
def orphanClaim (l : TalkId) (s : State) : State :=
  s.setClaims (s.slots.claims.filterMap fun e =>
    if e.serves l then (if e.refused then none else some { e with lane := none }) else some e)

/-- SLOT_CELL_CARRIED: the entry of the cell's kind and slot takes the frame that carried it; a RELEASE entry
is removed (R90, R96). -/
def slotCellCarried (c : SlotCell) (s : State) : State :=
  s.setClaims (s.slots.claims.filterMap fun e =>
    if e.cell = c ∧ e.refused = false then
      (match e.kind with
        | .release => none
        | .claim | .move => some { e with carried := some s.clock.frame })
    else some e)

end State

end Sys2Proof.Machine
end

