-- ==== Sys2Proof/Machine/TalkLanes.lean ====
section
/-! DEFINITION. Talk lanes: opening, closing, first keys, rekeys and KEY-NEXT (spec 07, R109 to R121), and the
commands that act on one lane at a superframe boundary. -/

namespace Sys2Proof.Machine

open Sys2Proof

/-- No first key has been asked for: none requested, staged or active (R110, R112). -/
def TalkLane.noFirstKey (t : TalkLane) : Bool :=
  decide (t.request = .none) && t.staged.isNone && t.activeKey.isNone

/-- A trigger met by a rekey in progress: a nonce replaces any wanted one, a SYNC-ASK keeps it (R118). -/
def RekeyWanted.trigger (w : RekeyWanted) (nonce : Option Nonce) : RekeyWanted :=
  match nonce, w with
  | some n, _ => .set (some n)
  | none, .set p => .set p
  | none, .clear => .set none

/-- A swap is due: a key staged by a NEXT request whose countdown has reached 0 (R120). -/
def TalkLane.swapDue (t : TalkLane) : Bool :=
  match t.staged with
  | some { isFirst := false, countdown := some b, .. } => decide (b ≤ 0)
  | _ => false

namespace State

def talkOpening (s : State) (l : TalkId) : Byte := (s.talkPlace l).opening

def firstFreeTalk (s : State) : Option TalkId :=
  (List.finRange 24).find? fun l => (s.talk? l).isNone

/-- The lane asks for its first key when it holds both nonces; a refusal leaves the request NONE (R112). -/
def requestFirstTalkKey (l : TalkId) (s : State) : State :=
  match s.talk? l with
  | some t => match t.partner with
    | some p =>
      let r := s.mixRequest (.talk l (s.talkOpening l)) s.secret t.ownNonce p 0
      if r.2 then r.1.modTalk l fun t => { t with request := .first } else r.1
    | none => s
  | none => s

/-- A talk lane is opened for a record (R110). The second component is false when the record gets NO-SLOT: no
lane is FREE, or the first attempt finds no free slot (R52, R92). -/
def openTalk (r : RecordId) (partner : Option Nonce) (s : State) : State × Bool :=
  match s.firstFreeTalk with
  | none => (s, false)
  | some l =>
    let d := s.drawNonce
    let lane : TalkLane := {
      state := .claiming, owner := r, ownerTag := s.callTag r, ownNonce := d.2, partner := partner }
    let s1 := (d.1.setTalkPlace l { opening := (s.talkPlace l).opening + 1, lane := some lane }).modCall r
      fun k => { k with talkLane := some l }
    let s2 := s1.firstClaim l
    if s2.2 then (s2.1.requestFirstTalkKey l, true) else (s2.1, false)

/-- A partner nonce given to a lane replaces an earlier one only while no first key has been asked for; the
lane then asks (R110, R112). -/
def givePartner (l : TalkId) (n : Nonce) (s : State) : State :=
  match s.talk? l with
  | some t =>
    if t.noFirstKey then (s.modTalk l fun t => { t with partner := some n }).requestFirstTalkKey l else s
  | none => s

/-- A talk lane closes: its slot is released by its state, its keys are discarded (R95, R111). -/
def closeTalk (l : TalkId) (s : State) : State :=
  match s.talk? l with
  | none => s
  | some t =>
    let s1 := s.setTalkPlace l { s.talkPlace l with lane := none }
    match t.state, t.slot with
    | .active, some x => s1.releaseSlot x
    | .active, none => s1
    | .claiming, _ => s1.orphanClaim l
    | .moving, _ => s1.orphanClaim l

/-- A rekey starts (R118, with no rekey in progress). Refused by the mixer, a trigger without a nonce leaves
rekey-wanted set without one, whatever it carried before (the model's choice, log 46). -/
def startRekey (l : TalkId) (nonce : Option Nonce) (s : State) : State :=
  match s.talk? l with
  | none => s
  | some t =>
    let p := nonce.getD (t.partner.getD 0)
    let c := nextKeyCount t.keyCount
    let r := s.mixRequest (.talk l (s.talkOpening l)) s.secret t.ownNonce p c
    r.1.modTalk l fun t =>
      if r.2 then { t with request := .next c p, wanted := .clear } else { t with wanted := .set nonce }

/-- A conference, transfer or SYNC-ASK trigger (R118). -/
def rekeyTrigger (l : TalkId) (nonce : Option Nonce) (s : State) : State :=
  match s.talk? l with
  | none => s
  | some t =>
    if t.mayRekey then s.startRekey l nonce
    else s.modTalk l fun t => { t with wanted := t.wanted.trigger nonce }

/-- The rekey of a record's talk lane. -/
def rekeyRecord (r : RecordId) (nonce : Option Nonce) (s : State) : State :=
  match (s.call? r).bind (·.talkLane) with
  | some l => s.rekeyTrigger l nonce
  | none => s

/-- The KEY-NEXT of a lane's staged key (R119). -/
def keyNextCell (s : State) (t : TalkLane) (g : TalkStaged) (x : Slot) : Cell :=
  { s.cellToAll (.keyNext x t.ownNonce g.partner g.count 2) with sender := t.ownerTag }

/-- An ACTIVE lane offers the KEY-NEXT of a staged key that no accepted KEY-NEXT announces (R119). -/
def offerKeyNext (l : TalkId) (s : State) : State :=
  match s.talk? l with
  | none => s
  | some t => match t.state, t.slot, t.staged with
    | .active, some x, some g =>
      if g.isFirst || g.queued then s
      else
        let r := s.offer (s.keyNextCell t g x) (.keyNext l (s.talkOpening l))
        if r.2 then r.1.modTalk l fun t => { t with staged := some { g with queued := true } } else r.1
    | _, _, _ => s

/-- The staged key becomes the active key at a position; the key age is 0 (R113, R120). -/
def installTalkKey (l : TalkId) (position : Nat) (s : State) : State :=
  s.modTalk l fun t =>
    match t.staged with
    | some g => { t with
        activeKey := some g.key, keyCount := g.count, partner := some g.partner, staged := none,
        position := BitVec.ofNat 16 position, age := 0 }
    | none => t

/-- A first key whose boundary is known and past is installed at the position counted from it (R113). -/
def installDueFirstKey (l : TalkId) (s : State) : State :=
  match (s.talk? l).bind (·.staged) with
  | some { isFirst := true, countdown := some b, .. } =>
    if b ≤ 0 then s.installTalkKey l (-b).toNat else s
  | _ => s

/-- The swap boundary of a lane's first key becomes known, `b` boundaries ahead (R112). -/
def setFirstBoundary (l : TalkId) (b : Int) (s : State) : State :=
  s.modTalk l fun t => { t with
    firstBoundary := some b
    staged := t.staged.map fun g => if g.isFirst then { g with countdown := some b } else g }

/-- A KEY-NEXT that an ACTIVE lane offered at its key's completion and the queue refused is offered again from the
next boundary, and not at a boundary of this very frame end (R119, log 2). -/
def markRefusedNext (l : TalkId) (s : State) : State :=
  s.modTalk l fun t => { t with
    staged := t.staged.map fun g => { g with fresh := decide (t.state = .active) && !g.queued } }

/-- A mixer result reaches a talk lane: staged, and for a NEXT key announced (R112, R113, R119). -/
def deliverTalkKey (l : TalkId) (result : Key) (s : State) : State :=
  match s.talk? l with
  | none => s
  | some t => match t.request with
    | .none => s
    | .first =>
      (s.modTalk l fun t => { t with
        request := .none
        staged := some { key := result, count := 0, partner := t.partner.getD 0, isFirst := true,
                         countdown := t.firstBoundary } }).installDueFirstKey l
    | .next c p =>
      (s.modTalk l fun t => { t with
        request := .none
        staged := some { key := result, count := c, partner := p, isFirst := false } }).offerKeyNext l
        |>.markRefusedNext l

/-- KEY_NEXT_CARRIED: the staged key of the lane that offered the cell takes a swap countdown of 2 (R120). -/
def keyNextCarried (l : TalkId) (opening : Byte) (s : State) : State :=
  if s.talkOpening l = opening then
    s.modTalk l fun t => { t with
      staged := t.staged.map fun g => if g.queued then { g with countdown := some 2 } else g }
  else s

/-! ### Commands on one lane -/

/-- TALK_LANE_BOUNDARY, at a superframe boundary: position and age of an ACTIVE or MOVING lane with an active
key add 1 (R117); swap countdowns are lessened by 1 (R112, R120). R117 does not say whether the boundary of the frame
end that installs a late first key counts toward its age; here it does (the model's choice, log 53). -/
def talkLaneBoundary (l : TalkId) (s : State) : State :=
  if s.clock.frame = 63 then
    s.modTalk l fun t =>
      let t := if t.state ≠ .claiming ∧ t.activeKey.isSome then
        { t with position := t.position + 1, age := saturate 65535 t.age } else t
      { t with
        firstBoundary := t.firstBoundary.map (· - 1)
        staged := t.staged.map fun g => { g with countdown := g.countdown.map (· - 1) } }
  else s

/-- FIRST_KEY_INSTALL (R113). -/
def firstKeyInstall (l : TalkId) (s : State) : State := s.installDueFirstKey l

/-- TALK_KEY_SWAP (R120): the swap, and then the fresh rekey of a rekey-wanted that is set. -/
def talkKeySwap (l : TalkId) (s : State) : State :=
  match s.talk? l with
  | none => s
  | some t =>
    if s.clock.frame = 63 ∧ t.swapDue then
      let s1 := s.installTalkKey l 0
      match t.wanted with
      | .set n => s1.startRekey l n
      | .clear => s1
    else s

/-- KEY_AGE_LIMIT (R118). -/
def keyAgeLimit (l : TalkId) (s : State) : State :=
  match s.talk? l, s.station.image with
  | some t, some im =>
    if s.clock.frame = 63 ∧ im.keyAgeLimit ≤ t.age ∧ t.mayRekey then s.startRekey l none else s
  | _, _ => s

/-- REKEY_WANTED_RETRY (R118). -/
def rekeyWantedRetry (l : TalkId) (s : State) : State :=
  match s.talk? l with
  | some t => match t.wanted with
    | .set n => if s.clock.frame = 63 ∧ t.mayRekey then s.startRekey l n else s
    | .clear => s
  | none => s

/-- TALK_FIRST_KEY_RETRY (R112). -/
def talkFirstKeyRetry (l : TalkId) (s : State) : State :=
  match s.talk? l with
  | some t => if s.clock.frame = 63 ∧ t.partner.isSome ∧ t.noFirstKey then s.requestFirstTalkKey l else s
  | none => s

/-- KEY_NEXT_REOFFER (R119): at each boundary after the one whose frame end refused the KEY-NEXT. -/
def keyNextReoffer (l : TalkId) (s : State) : State :=
  if s.clock.frame = 63 ∧ ((s.talk? l).bind (·.staged)).all (!·.fresh) then s.offerKeyNext l else s

end State

end Sys2Proof.Machine
end

