-- ==== Sys2Proof/Machine/ListenLanes.lean ====
section
/-! DEFINITION. Listen lanes: opening, closing, keys, KEY-NEXT, the candidates of a search, SYNC-ASK and the
lane rule (spec 08, R124 to R138; R83, R103). What a lane reports to its record stands in ListenBoundary.lean. -/

namespace Sys2Proof.Machine

open Sys2Proof

/-! ### One lane -/

/-- The lane's first key: a SETUP lane with no active key, the nonces of its opening and count 0 (R127). -/
def ListenLane.firstKey (l : ListenLane) (talker partner : Nonce) (count : Nat) : Bool :=
  decide (l.purpose = .setup) && l.active.isNone && decide (l.talkerNonce = some talker) &&
    decide (l.partnerNonce = some partner) && decide (count = 0)

/-- The first candidate of a search: the lane's own slot with its active key (R135). -/
def ListenLane.phaseOne (l : ListenLane) : Search := { phase := 1, slot := l.slot, previous := false, cursor := none }

def ListenLane.enterSearch (l : ListenLane) : ListenLane :=
  { l with state := .search, search := some l.phaseOne, timer := none, awaiting := false }

def ListenLane.enterLocked (l : ListenLane) : ListenLane :=
  { l with state := .locked, lowCount := 0, recovery := 0, search := none, awaiting := false, timer := none }

/-- A key is installed: the active key becomes the previous one, the new key stands at a position (R131, R132).
A SETUP lane enters PROVING from WAITKEY (R127); a search starts again (R136); a lane in LOST awaits its first
figure, its timer stopped, unless the key is its first (R127, R138) or the lane has reported SYNC-LOST (R137). The
superframe of a change gives no figure (R126). -/
def ListenLane.install (l : ListenLane) (g : ListenStaged) (position : Nat) : ListenLane :=
  let isFirst := l.firstKey g.talker g.partner g.count
  let key : ListenKey :=
    { key := g.key, talker := g.talker, partner := g.partner, count := g.count,
      position := BitVec.ofNat 16 position }
  let l1 := { l with
    previous := match l.active with | some k => some k | none => l.previous
    active := some key
    staged := none
    talkerNonce := some g.talker
    partnerNonce := some g.partner
    framesRead := 0 }
  match l1.state with
  | .waitkey => if l1.purpose = .setup then { l1 with state := .proving, timer := none } else l1
  | .search => { l1 with search := some l1.phaseOne }
  | .lost => if isFirst || l1.syncLost then l1 else { l1 with awaiting := true, timer := none }
  | .proving | .locked => l1

/-- A staged key whose boundary is past is installed at the position counted from it (R127, R132). -/
def ListenLane.installOverdue (l : ListenLane) : ListenLane :=
  match l.staged with
  | some g => match g.countdown with
    | some b => if b ≤ 0 then l.install g (-b).toNat else l
    | none => l
  | none => l

/-- The swap boundary of a SETUP lane's first key becomes known, `b` boundaries ahead; the WAITKEY timer stops
(R127). -/
def ListenLane.setProvingClock (l : ListenLane) (b : Int) : ListenLane :=
  { l with
    provingClock := some b
    timer := if l.state = .waitkey then none else l.timer
    staged := l.staged.map fun g =>
      if l.firstKey g.talker g.partner g.count then { g with countdown := some b } else g
    request := l.request.map fun q => if q.isFirst then { q with countdown := some b } else q }

/-- A result for the inputs asked for becomes the staged key, and is installed if its boundary is past (R127,
R130, R132). A result that does not match the request held is discarded. -/
def ListenLane.deliver (l : ListenLane) (key : Key) (talker partner : Nonce) (count : Nat) : ListenLane :=
  match l.request with
  | some q =>
    if q.talker = talker ∧ q.partner = partner ∧ q.count = count then
      { l with
        request := none
        talkerNonce := some (l.talkerNonce.getD talker)
        partnerNonce := some (l.partnerNonce.getD partner)
        staged := some { key := key, talker := talker, partner := partner, count := count,
                         countdown := q.countdown } }.installOverdue
    else l
  | none => l

/-- The cell's inputs are those of the active key, the staged key or the request (R130 step 2). -/
def ListenLane.holdsInputs (l : ListenLane) (talker partner : Nonce) (count : Nat) : Bool :=
  (match l.active with
    | some k => decide (k.talker = talker ∧ k.partner = partner ∧ k.count = count)
    | none => false) ||
  (match l.staged with
    | some k => decide (k.talker = talker ∧ k.partner = partner ∧ k.count = count)
    | none => false) ||
  (match l.request with
    | some k => decide (k.talker = talker ∧ k.partner = partner ∧ k.count = count)
    | none => false)

/-- Distance of a slot after another, going upward and wrapping: the order of the reading (R103). -/
def slotsAfter (origin x : Slot) : Nat := (x.val + 256 - origin.val) % 256

/-- The lane may ask for its first key again: SETUP, never asked with acceptance, nothing held (R127). A request, a staged
key or an active key that a KEY-NEXT has brought it ends its asking for the first one (the model's choice, log 61). -/
def ListenLane.awaitsFirstRequest (l : ListenLane) : Bool :=
  decide (l.purpose = .setup) && !l.firstAsked && l.request.isNone && l.staged.isNone && l.active.isNone

namespace State

def listenOpening (s : State) (l : ListenId) : Byte := (s.listenPlace l).opening

def freeListens (s : State) : List ListenId :=
  (List.finRange 48).filter fun l => (s.listen? l).isNone

/-! ### Opening and closing -/

/-- A SETUP lane asks for its first key (R127). -/
def requestFirstListenKey (l : ListenId) (s : State) : State :=
  match s.listen? l with
  | some t => match t.talkerNonce, t.partnerNonce with
    | some a, some b =>
      let r := s.mixRequest (.listen l (s.listenOpening l)) s.secret a b 0
      if r.2 then
        r.1.modListen l fun t => { t with
          request := some { isFirst := true, talker := a, partner := b, count := 0, countdown := t.provingClock }
          firstAsked := true }
      else r.1
    | _, _ => s
  | none => s

/-- The lowest FREE listen lane opens for a record, in WAITKEY with its timer at 8; the second component is
false when none is FREE (R125). -/
def openListen (r : RecordId) (purpose : Purpose) (talker : Station) (talkerTag : Tag) (x : Slot)
    (nonces : Option (Nonce × Nonce)) (s : State) : State × Bool :=
  match s.freeListens with
  | [] => (s, false)
  | l :: _ =>
    let lane : ListenLane := {
      state := .waitkey, owner := r, ownerTag := s.callTag r, purpose := purpose, talker := talker,
      talkerTag := talkerTag, slot := x, talkerNonce := nonces.map (·.1), partnerNonce := nonces.map (·.2),
      timer := some 8 }
    let s1 := (s.setListenPlace l { opening := (s.listenPlace l).opening + 1, lane := some lane }).modCall r
      fun k => { k with listenLanes := k.listenLanes ++ [l] }
    (if purpose = .setup then s1.requestFirstListenKey l else s1, true)

/-- A listen lane closes; its record no longer holds it (R125, R46). -/
def closeListen (l : ListenId) (s : State) : State :=
  match s.listen? l with
  | none => s
  | some t =>
    (s.setListenPlace l { s.listenPlace l with lane := none }).modCall t.owner
      fun k => { k with listenLanes := k.listenLanes.erase l }

def closeListens (ls : List ListenId) (s : State) : State := ls.foldl (fun s l => s.closeListen l) s

/-- A lane passes to another record (R82, R83). -/
def passListen (r : RecordId) (l : ListenId) (s : State) : State :=
  match s.listen? l with
  | none => s
  | some t =>
    ((s.modCall t.owner fun k => { k with listenLanes := k.listenLanes.erase l }).modListen l
      fun t => { t with owner := r, ownerTag := s.callTag r }).modCall r
        fun k => { k with listenLanes := k.listenLanes ++ [l] }

/-- The lanes of a record learn the boundary of their first keys (R127). -/
def setProvingClocks (r : RecordId) (b : Int) (s : State) : State :=
  match s.call? r with
  | some k => k.listenLanes.foldl (fun s l => s.modListen l fun t =>
      if t.purpose = .setup ∧ t.provingClock.isNone then t.setProvingClock b else t) s
  | none => s

/-! ### The lane rule (R83) -/

/-- A lane listens to a listed member. -/
def hears (s : State) (l : ListenId) (m : MemberPlace) : Bool :=
  match s.listen? l with
  | some t => decide (t.talker = m.station ∧ t.talkerTag = m.tag)
  | none => false

/-- The places of a list, each call record once: a record listed twice keeps its first place (log 48). -/
def distinctPlaces (ms : List MemberPlace) : List MemberPlace :=
  ms.foldl (fun done m => if done.any fun d => d.station == m.station && d.tag == m.tag then done else done ++ [m]) []

/-- A record's lanes are set to a list of other members. Too few FREE lanes: nothing changes and the second
component is false (R83). The missing lanes open in the order of the list: the model's choice (log 68). -/
def setLanes (r : RecordId) (listed : List MemberPlace) (s : State) : State × Bool :=
  match s.call? r with
  | none => (s, false)
  | some k =>
    let members := distinctPlaces listed
    let closing := k.listenLanes.filter fun l => !members.any fun m => s.hears l m
    let missing := members.filter fun m => !k.listenLanes.any fun l => s.hears l m
    if s.freeListens.length + closing.length < missing.length then (s, false)
    else
      let s1 := s.closeListens closing
      let s2 := members.foldl (fun s' m =>
        (k.listenLanes.filter fun l => s.hears l m).foldl
          (fun s' l => s'.modListen l fun t => { t with slot := m.slot }) s') s1
      let s3 := missing.foldl (fun s' m => (s'.openListen r .join m.station m.tag m.slot none).1) s2
      (s3, true)

/-! ### KEY-NEXT and SYNC-ASK -/

/-- A KEY-NEXT acts on one listen lane of its talker (R130, R131). `remaining` is the lead less the stamp. -/
def keyNextAtLane (x : Slot) (talker partner : Nonce) (count : Nat) (remaining : Int) (l : ListenId) (s : State) :
    State :=
  let s1 := s.modListen l fun t => { t with
    slot := x
    search := t.search.map fun c => { c with restart := true } }
  match s1.listen? l with
  | none => s1
  | some t =>
    if t.holdsInputs talker partner count then s1
    else
      let r := s1.mixRequest (.listen l (s1.listenOpening l)) s1.secret talker partner count
      r.1.modListen l fun t =>
        if r.2 then { t with
          staged := none
          request := some { isFirst := false, talker := talker, partner := partner, count := count,
                            countdown := some remaining }
          timer := if t.state = .waitkey ∧ t.purpose = .join then none else t.timer
          framesRead := if remaining ≤ 0 then 0 else t.framesRead }
        else { t with
          staged := none
          request := none
          timer := if t.state = .waitkey then some 8 else t.timer }

/-- A KEY-NEXT acts on every listen lane of its talker, in ascending lane number (R130). -/
def keyNextAtLanes (source : Station) (tag : Tag) (x : Slot) (talker partner : Nonce) (count : Nat)
    (remaining : Int) (s : State) : State :=
  ((List.finRange 48).filter fun l => s.hears l { station := source, tag := tag, slot := x }).foldl
    (fun s l => s.keyNextAtLane x talker partner count remaining l) s

/-- SYNC-ASK is offered to the talker and the SYNC-ASK timer starts at 8, accepted or not (R137). -/
def offerSyncAsk (l : ListenId) (s : State) : State :=
  match s.listen? l with
  | none => s
  | some t =>
    (s.offerSkip (s.cellTo t.talker t.ownerTag t.talkerTag (.syncAsk t.slot)) .plain).modListen l
      fun t => { t with timer := some 8 }

/-- A lane enters LOST and asks (R133, R137). -/
def enterLost (l : ListenId) (s : State) : State :=
  (s.modListen l fun t => { t with state := .lost, search := none, awaiting := false }).offerSyncAsk l

/-- A mixer result reaches a listen lane (R127, R130, R132). -/
def deliverListenKey (l : ListenId) (key : Key) (talker partner : Nonce) (count : Nat) (s : State) : State :=
  s.modListen l fun t => t.deliver key talker partner count

/-! ### The candidates of a search (R135) -/

/-- The first slot of the reading of R103 after the lane's own slot that lies after the cursor. -/
def phaseTwoSlot (s : State) (t : ListenLane) (cursor : Option Slot) : Option Slot :=
  (s.slotsOf t.talker).foldl (fun best x =>
    let d : Nat := slotsAfter t.slot x
    let tried : Bool := match cursor with
      | some c => decide (d ≤ slotsAfter t.slot c)
      | none => false
    if d = 0 ∨ tried then best
    else match best with
      | none => some x
      | some y => if d < slotsAfter t.slot y then some x else some y) none

/-- Phase 3: the lane's own slot with its previous key, passed over without one. -/
def phaseThree (t : ListenLane) : Option Search :=
  if t.previous.isSome then some { phase := 3, slot := t.slot, previous := true, cursor := none } else none

/-- The candidate after a failed one; none when the search is exhausted (R135, R136). -/
def nextCandidate (s : State) (t : ListenLane) (c : Search) : Option Search :=
  if c.restart then some t.phaseOne
  else if c.phase = 1 ∨ c.phase = 2 then
    match s.phaseTwoSlot t c.cursor with
    | some x => some { phase := 2, slot := x, previous := false, cursor := some x }
    | none => phaseThree t
  else none

/-! ### Commands on one lane -/

/-- LISTEN_FIRST_KEY_RETRY (R127). -/
def listenFirstKeyRetry (l : ListenId) (s : State) : State :=
  match s.listen? l with
  | some t => if s.clock.frame = 63 ∧ t.awaitsFirstRequest then s.requestFirstListenKey l else s
  | none => s

end State

end Sys2Proof.Machine
end

