-- ==== Sys2Proof/Machine/Clearing.lean ====
section
/-! DEFINITION. Clearing a record (R62, R63, R66, R86), hold stacks (R71, R76), and conferences losing members
(R81, R85). -/

namespace Sys2Proof.Machine

open Sys2Proof

/-- CLEARING is left alone by everything but its own carried report and the far end (R62). -/
def Call.isClearing (k : Call) : Bool := decide (k.state = .clearing)

/-- A member as a CONF-SET lists it (R82). -/
def Member.place (m : Member) : MemberPlace := { station := m.station, tag := m.tag, slot := m.slot }

namespace State

/-- A record changes state; its talk lane takes the send mode of the state (R116). -/
def setCallState (r : RecordId) (st : CallState) (s : State) : State :=
  let s1 := s.modCall r fun k => { k with state := st }
  match s1.call? r with
  | some k => match k.talkLane with
    | some l => s1.modTalk l fun t => { t with mode := k.sendMode }
    | none => s1
  | none => s1

/-! ### Hold stacks (R71, R76) -/

def pushStack (p : Port) (r : RecordId) (s : State) : State :=
  s.modCallPort p fun c => { c with stack := r :: c.stack }

/-- A record leaves its port's stack, from wherever it stands. When it was the top of a recalled stack, the new
top's timer starts at 3,875, or with an empty stack the recall ends (R71, R76). -/
def leaveStack (p : Port) (r : RecordId) (s : State) : State :=
  let c := s.callPort p
  let rest := c.stack.erase r
  let s1 := s.modCallPort p fun c => { c with stack := rest }
  if c.recalled ∧ c.stack.head? = some r then
    match rest with
    | [] => (s1.setRing p false).modCallPort p fun c => { c with recalled := false }
    | top :: _ => s1.modCall top fun k => { k with timer := some 3875 }
  else s1

/-- The top is popped and becomes the front record, CONNECTED, its talk lane sending VOICE (R71). -/
def popTop (p : Port) (s : State) : State :=
  match (s.callPort p).stack with
  | [] => s
  | top :: rest =>
    ((s.modCallPort p fun c => { c with stack := rest }).modCall top
      fun k => { k with timer := none }).setCallState top .connected

/-! ### Clearing one record (R62) -/

/-- A record is detached from any query and from the query wait list (R30). -/
def detach (r : RecordId) (s : State) : State :=
  { s with
    adm := { s.adm with queries := s.adm.queries.map fun q =>
      { q with query := q.query.map fun x => { x with waiters := x.waiters.filter fun w => w != r } } }
    calls := { s.calls with waitList := s.calls.waitList.filter fun w => w != r } }

/-- Steps 1 to 3 of a clearing: cause, ringing and tone, lanes, query; a HELD record leaves its stack (R62, R77).
The tone is sent to the set of a front record whose hook view is OFF (R66). -/
def endRecord (r : RecordId) (c : Cause) (tone : Option Tone) (s : State) : State :=
  match s.call? r with
  | none => s
  | some k =>
    let s1 := s.modCall r fun k => { k with cause := c }
    let s2 := if k.isFront && k.ringing then s1.setRing k.port false else s1
    let s3 := match tone with
      | some t => if k.isFront && decide ((s.callPort k.port).hookView = Hook.off) then s2.setTone k.port t else s2
      | none => s2
    let s4 := match k.talkLane with
      | some l => s3.closeTalk l
      | none => s3
    let s5 := (s4.closeListens k.listenLanes).detach r
    let s6 := if k.state = .held then s5.leaveStack k.port r else s5
    s6.modCall r fun k => { k with talkLane := none, listenLanes := [], timer := none }

/-- A cleared record waits in CLEARING for `n` cells to be carried, or is FREE at once (R62, R86). -/
def awaitClears (r : RecordId) (n : Nat) (s : State) : State :=
  if n = 0 then s.freeRecord r
  else s.modCall r fun k => { k with state := .clearing, clears := n }

/-- The entry of the conference table that a record controls (R81). -/
def confOf (s : State) (r : RecordId) : Option (ConfId × Conf) :=
  (List.finRange 6).findSome? fun e => match s.calls.confs.get e with
    | some c => if c.controller = r then some (e, c) else none
    | none => none

def freeConfOf (r : RecordId) (s : State) : State :=
  match s.confOf r with
  | some (e, _) => s.setConf e none
  | none => s

/-- A clearing that sends no cell: the record is FREE at once (R62 step 5, R63, R68, R69, R87). -/
def clearQuiet (r : RecordId) (c : Cause) (tone : Option Tone) (s : State) : State :=
  ((s.endRecord r c tone).freeConfOf r).freeRecord r

/-- The name of a record's own clearing cell. -/
def clearingName (s : State) (r : RecordId) : OfferName := .clearing r (s.record r).incarnation

/-- A clearing cell to a conference member, under its link tag (R85, R86). -/
def memberClear (s : State) (m : Member) (c : Cause) : Cell :=
  s.cellTo m.station m.link m.tag (.callClear c)

/-- Step 4 of R62 for a CONTROLLER record: CALL-CLEAR CONF-ENDED to each member in list order, the entry FREE,
the record of conference role NONE (R81) and waiting for the accepted cells (R86). -/
def endConference (r : RecordId) (s : State) : State :=
  match s.confOf r with
  | none => s.freeRecord r
  | some (e, c) =>
    let x := c.members.foldl (fun (a : State × Nat) m =>
      let o := a.1.offer (a.1.memberClear m .confEnded) (a.1.clearingName r)
      (o.1, if o.2 then a.2 + 1 else a.2)) (s, 0)
    ((x.1.setConf e none).modCall r fun k => { k with confRole := .none }).awaitClears r x.2

/-- CALL-CLEAR is offered to the far station (R62 step 4); a refusal frees the record (step 5). -/
def offerCallClear (r : RecordId) (c : Cause) (far : Station) (farTag : Tag) (s : State) : State :=
  let o := s.offer (s.cellTo far (s.callTag r) farTag (.callClear c)) (s.clearingName r)
  o.1.awaitClears r (if o.2 then 1 else 0)

/-- Clearing a record with a cause and a tone, CALL-CLEAR offered where the far record may exist (R62). A record
already in CLEARING ignores it. -/
def clearRecordTone (r : RecordId) (c : Cause) (tone : Option Tone) (s : State) : State :=
  match s.call? r with
  | none => s
  | some k =>
    if k.isClearing then s
    else
      let s1 := s.endRecord r c tone
      if k.confRole = .controller then s1.endConference r
      else match k.farMayExist, k.farStation with
        | true, some far => s1.offerCallClear r c far k.farTag
        | true, none => s1.freeRecord r
        | false, _ => s1.freeRecord r

/-- Clearing with the tone of the cause (R62, R66). -/
def clearRecord (r : RecordId) (c : Cause) (s : State) : State := s.clearRecordTone r c c.tone

/-- Clearing after an answer or a refusal that shows no far record: no CALL-CLEAR (R62). -/
def clearNoCell (r : RecordId) (c : Cause) (s : State) : State := s.clearQuiet r c c.tone

/-- The records in use for which a test holds, ascending. -/
def recordsWhere (s : State) (p : Call → Bool) : List RecordId :=
  (List.finRange 64).filter fun r => match s.call? r with
    | some k => p k
    | none => false

/-- A drop or logout clears every record in use on the port but those in CLEARING (R67). -/
def clearPort (p : Port) (c : Cause) (s : State) : State :=
  (s.recordsWhere fun k => decide (k.port = p) && !k.isClearing).foldl (fun s r => s.clearRecord r c) s

/-- CALL_CLEAR_CARRIED: a CLEARING record counts down its carried cells and becomes FREE with the last (R62, R78,
R86). A report that finds another incarnation is discarded. -/
def clearCarried (r : RecordId) (incarnation : Byte) (s : State) : State :=
  match s.call? r with
  | some k =>
    if (s.record r).incarnation = incarnation ∧ k.isClearing then s.awaitClears r (k.clears - 1) else s
  | none => s

/-! ### Conferences (R81 to R85) -/

/-- The slot a CONF-SET lists for the controller: its talk lane's, or a free value while it holds none. -/
def controllerSlot (s : State) (r : RecordId) : Slot :=
  match (s.call? r).bind (·.talkLane) with
  | some l => match (s.talk? l).bind (·.slot) with
    | some x => x
    | none => Config.unheldSlot l.val
  | none => Config.unheldSlot 24

/-- The member places of a CONF-SET: the controller first, then the remote members in order (R82). A member's slot is
the one it had at joining: a slot its talker moves to later is not followed (the model's choice, log 43). -/
def confPlaces (s : State) (r : RecordId) (ms : List Member) : List MemberPlace :=
  { station := s.self, tag := s.callTag r, slot := s.controllerSlot r } :: ms.map Member.place

/-- CONF-SET is offered to each remote member in list order; the second component lists the members whose cell
was refused (R82 step 4). -/
def offerConfSets (r : RecordId) (k : Nonce) (ms : List Member) (s : State) : State × List Member :=
  let body := Body.confSet k (s.confPlaces r ms)
  ms.foldl (fun (a : State × List Member) m =>
    let o := a.1.offer (a.1.cellTo m.station m.link m.tag body) .plain
    (o.1, if o.2 then a.2 else a.2 ++ [m])) (s, [])

/-- Members are taken from an entry, and the controller's lanes on them close (R85). -/
def removeMembers (e : ConfId) (r : RecordId) (gone : List Member) (s : State) : State :=
  match s.calls.confs.get e, s.call? r with
  | some c, some k =>
    (s.setConf e (some { c with members := c.members.filter fun m => !gone.contains m })).closeListens
      (k.listenLanes.filter fun l => gone.any fun m => s.hears l m.place)
  | _, _ => s

/-- Two members remain: the entry is FREE, the controller record takes role NONE and the remaining member as its
far end, CONF-SET of count 2 is offered and the talk lane rekeys (R85). A refused CONF-SET removes that member
too: CALL-CLEAR CONGESTION to it, and the record clears with CONGESTION. -/
def revertConference (e : ConfId) (r : RecordId) (m : Member) (s : State) : State :=
  let s1 := (s.setConf e none).modCall r fun k => { k with
    confRole := .none, farStation := some m.station, farTag := m.tag, farSlot := some m.slot,
    farNonce := none, farExt := none }
  let d := s1.drawNonce
  let o := d.1.offerConfSets r d.2 [m]
  let s2 := o.1.rekeyRecord r (some d.2)
  match o.2 with
  | [] => s2
  | _ :: _ =>
    let x := s2.offer (s2.memberClear m .congestion) (s2.clearingName r)
    (x.1.endRecord r .congestion Cause.congestion.tone).awaitClears r (if x.2 then 1 else 0)

/-- A conference is formed or reformed with a new nonce (R82 to R85). Members whose CONF-SET is refused are
removed together, each told CALL-CLEAR CONGESTION, and the conference is reformed; `fuel` bounds the rounds, for
each removes a member. With no member left the record clears with `lost`. The controller's rekey with the nonce that a
refused round abandons still comes, before the next round's rekey with its new nonce (the model's choice, log 11). -/
def reform (lost : Cause) : Nat → ConfId → RecordId → State → State
  | 0, _, _, s => s
  | fuel + 1, e, r, s =>
    match s.calls.confs.get e with
    | none => s
    | some c => match c.members with
      | [] => (s.setConf e none).clearQuiet r lost lost.tone
      | [m] => s.revertConference e r m
      | ms =>
        let d := s.drawNonce
        let o := d.1.offerConfSets r d.2 ms
        let s1 := o.1.rekeyRecord r (some d.2)
        match o.2 with
        | [] => s1
        | refused =>
          let s2 := refused.foldl (fun s m => s.offerSkip (s.memberClear m .congestion) .plain) s1
          (s2.removeMembers e r refused).reform .congestion fuel e r

/-- Members leave a conference, which is reformed once (R85, R87). -/
def membersLeave (lost : Cause) (e : ConfId) (r : RecordId) (gone : List Member) (s : State) : State :=
  (s.removeMembers e r gone).reform lost 4 e r

end State

end Sys2Proof.Machine
end

