-- ==== Sys2Proof/Machine/Routing.lean ====
section
/-! DEFINITION. The number plan's lookup (R6, R40), the remote admission cache and the query list (R22 to R32),
and what a routed caller does with a result (R43, R51 to R53). -/

namespace Sys2Proof.Machine

open Sys2Proof

/-- Results of the lookup of a number (R40). -/
inductive NumberResult where
  | divert (target : Station) (outside : Bool)
  | home (station : Station)
  | homeAbsent
  | noNumber
  deriving DecidableEq, Repr

/-- Results of an admission lookup (spec 02, "Lookup results"). -/
inductive LookupResult where
  | located (station : Station) (epoch : Epoch)
  | unreachable
  | congestion
  | homeAbsent
  | noNumber
  deriving DecidableEq, Repr

/-- An immediate result, a deferred one, or a need for a query while no place is empty (R25, R28). -/
inductive Answer where
  | now (result : LookupResult)
  | later
  | full
  deriving DecidableEq, Repr

/-- An entry at rank 1, no other entry for its extension, 32 entries at most (R22, R26). -/
def cacheWith (x : CacheEntry) (c : List CacheEntry) : List CacheEntry :=
  (x :: c.filter fun y => y.ext != x.ext).take 32

/-- The lowest-numbered station whose range covers a number, in a home table (R6). -/
def homeIn (plan : Vector HomeEntry 16) (n : Ext) : Option Station :=
  (List.finRange 16).find? fun st => match (plan.get st).range with
    | some r => r.covers n
    | none => false

namespace State

/-! ### Homes (R5, R6) -/

def homeOf (s : State) (n : Ext) : Option Station := homeIn s.calls.plan n

/-- A number homed at this station (R6). -/
def homedHere (s : State) (n : Ext) : Bool := decide (s.homeOf n = some s.self)

/-- The index of a number of the own range among the home records (R5). -/
def homeIndex (s : State) (n : Ext) : Option Nat :=
  match s.station.image with
  | some im => if im.range.covers n then some (n - im.range.low) else none
  | none => none

def homeRecord (s : State) (n : Ext) : Option HomeRecord := (s.homeIndex n).bind fun i => s.adm.homes[i]?

def setHomeRecord (n : Ext) (h : HomeRecord) (s : State) : State :=
  match s.homeIndex n with
  | some i => { s with adm := { s.adm with homes := s.adm.homes.set i h } }
  | none => s

/-! ### The number plan's lookup (R40) -/

/-- Steps 2 and 3 of the lookup. -/
def lookupHome (s : State) (n : Ext) : NumberResult :=
  match s.homeOf n with
  | none => .noNumber
  | some st => match s.calls.plan.get st with
    | .present _ => .home st
    | .absent _ => .homeAbsent
    | .unknown => .noNumber

/-- The lookup of a four-digit number (R40). -/
def lookupNumber (s : State) (n : Ext) : NumberResult :=
  match s.calls.diverts.toList.find? fun d => d.covers n with
  | some d => .divert d.target d.outside
  | none => s.lookupHome n

/-! ### A routed caller (R51 to R53) -/

/-- CALL-OFFER for a ROUTING record whose talk lane holds its slot; refused by the queue, the record clears with
CONGESTION (R53). A record whose lane holds no slot waits. -/
def issueOffer (r : RecordId) (s : State) : State :=
  match s.call? r with
  | none => s
  | some k => match k.state, k.farStation, k.talkLane.bind s.talk? with
    | .routing, some far, some t => match t.state, t.slot with
      | .active, some x =>
        let body := Body.callOffer k.ownExt (k.farExt.getD 0)
          (if k.divert then 0 else k.calledEpoch.getD 0) x t.ownNonce k.onward
        let cell := { s.cellTo far (s.callTag r) Tag.absent body with divert := k.divert }
        let o := s.offer cell .plain
        if o.2 then (o.1.modCall r fun k => { k with timer := some 250 }).setCallState r .offering
        else o.1.clearNoCell r .congestion
      | _, _ => s
    | _, _, _ => s

/-- A routed caller opens its talk lane and claims a slot; without lane or slot it clears with NO-SLOT (R52). -/
def claimPath (r : RecordId) (s : State) : State :=
  let o := s.openTalk r none
  if o.2 then o.1 else o.1.clearRecord r .noSlot

/-- LOCATED, or a divert target: the far station is known; on to claiming, or with a lane kept from before a STALE
retry to the offer (R51). -/
def routeTo (r : RecordId) (far : Station) (epoch : Option Epoch) (s : State) : State :=
  let s1 := s.modCall r fun k => { k with farStation := some far, calledEpoch := epoch, farTag := Tag.absent }
  match (s1.call? r).bind (·.talkLane) with
  | some _ => s1.issueOffer r
  | none => s1.claimPath r

/-- A result reaches a record that is still ROUTING (R51). -/
def giveResult (r : RecordId) (x : LookupResult) (s : State) : State :=
  match s.call? r with
  | none => s
  | some k =>
    if k.state = .routing then match x with
      | .located st ep => s.routeTo r st (some ep)
      | .unreachable => s.clearRecord r .unreachable
      | .congestion => s.clearRecord r .congestion
      | .homeAbsent => s.clearRecord r .homeAbsent
      | .noNumber => s.clearRecord r .noNumber
    else s

/-! ### The cache and the query list (R22 to R30) -/

def cacheEntry (s : State) (e : Ext) : Option CacheEntry := s.adm.cache.find? fun x => x.ext == e

def cacheFilter (keep : CacheEntry → Bool) (s : State) : State := s.setCache (s.adm.cache.filter keep)

def cacheRemove (e : Ext) (s : State) : State := s.cacheFilter fun x => x.ext != e

/-- The immediate result of the home record of a number homed here (R23 step 1). -/
def homeAnswer (s : State) (e : Ext) : LookupResult :=
  match s.homeRecord e with
  | some h => match h.location with
    | some (st, _) => .located st h.epoch
    | none => .unreachable
  | none => .unreachable

/-- The place that holds the query for an extension. -/
def queryFor (s : State) (e : Ext) : Option QueryId :=
  (List.finRange 4).find? fun q => match (s.adm.queries.get q).query with
    | some x => x.ext == e
    | none => false

def emptyQueryPlace (s : State) : Option QueryId :=
  (List.finRange 4).find? fun q => (s.adm.queries.get q).query.isNone

def queryTag (s : State) (q : QueryId) : Tag := ⟨byteOf q.val, (s.adm.queries.get q).incarnation⟩

def endQuery (q : QueryId) (s : State) : State :=
  s.setQuery q { s.adm.queries.get q with query := none }

/-- A lookup that misses the cache joins a query, starts one, or needs a place (R25). -/
def startQuery (e : Ext) (h : Station) (r : RecordId) (s : State) : State × Answer :=
  match s.queryFor e with
  | some q =>
    let p := s.adm.queries.get q
    (s.setQuery q { p with query := p.query.map fun x => { x with waiters := x.waiters ++ [r] } }, .later)
  | none => match s.emptyQueryPlace with
    | none => (s, .full)
    | some q =>
      let s1 := s.setQuery q { incarnation := (s.adm.queries.get q).incarnation + 1,
                               query := some { ext := e, home := h, timer := none, waiters := [r] } }
      let o := s1.offer (s1.cellTo h (s1.queryTag q) Tag.absent (.admitAsk e)) .plain
      if o.2 then
        let p := o.1.adm.queries.get q
        (o.1.setQuery q { p with query := p.query.map fun x => { x with timer := some 8 } }, .later)
      else (o.1.endQuery q, .now .congestion)

/-- The lookup at a peer from step 2 of R23. -/
def lookupAtPeer (e : Ext) (h : Station) (r : RecordId) (s : State) : State × Answer :=
  match s.calls.plan.get h with
  | .absent _ => (s, .now .homeAbsent)
  | .present _ | .unknown => match s.cacheEntry e with
    | some x => (s.setCache (cacheWith x s.adm.cache), .now (.located x.station x.epoch))
    | none => s.startQuery e h r

/-- The admission lookup of a record's number, with the home table as it stands (R23, R44). -/
def lookupAgain (r : RecordId) (s : State) : State × Answer :=
  match (s.call? r).bind (·.farExt) with
  | none => (s, .now .noNumber)
  | some e => match s.lookupHome e with
    | .home h => if h = s.self then (s, .now (s.homeAnswer e)) else s.lookupAtPeer e h r
    | .homeAbsent => (s, .now .homeAbsent)
    | .noNumber | .divert _ _ => (s, .now .noNumber)

/-- The query wait list is drained (R28). `fuel` bounds the records taken. -/
def drainWith : Nat → State → State
  | 0, s => s
  | fuel + 1, s => match s.calls.waitList with
    | [] => s
    | r :: rest =>
      let a := (s.setWaitList rest).lookupAgain r
      match a.2 with
      | .now x => drainWith fuel (a.1.giveResult r x)
      | .later => drainWith fuel a.1
      | .full => a.1.setWaitList (r :: a.1.calls.waitList)

def drain (s : State) : State := s.drainWith (s.calls.waitList.length + 1)

/-- A lookup is run for a record: an immediate result is given, a record that needs a place joins the end of the
query wait list (R23, R25, R33). -/
def relookup (r : RecordId) (s : State) : State :=
  let a := s.lookupAgain r
  match a.2 with
  | .now x => a.1.giveResult r x
  | .later => a.1
  | .full => a.1.setWaitList (a.1.calls.waitList ++ [r])

/-- A new lookup (R41, R58). A query that could not be started has left its place empty, so the wait list is then
drained (R24). -/
def runLookup (r : RecordId) (s : State) : State :=
  let s1 := s.relookup r
  if (s.lookupAgain r).2 = .now .congestion then s1.drain else s1

/-- A query ends: its place is empty, its waiters receive the result in order, the wait list is drained (R24, R28,
R29). -/
def settleQuery (q : QueryId) (x : LookupResult) (s : State) : State :=
  match (s.adm.queries.get q).query with
  | none => s
  | some y => (y.waiters.foldl (fun s r => s.giveResult r x) (s.endQuery q)).drain

/-- The query that a query tag names (R24). -/
def queryOf (s : State) (t : Tag) : Option (QueryId × Query) :=
  match indexOf 4 t.index with
  | some q =>
    let p := s.adm.queries.get q
    if p.incarnation = t.incarnation then p.query.map fun x => (q, x) else none
  | none => none

/-- QUERY_TIMER_EXPIRY (R29): the waiters receive CONGESTION. -/
def queryTimerExpiry (q : QueryId) (s : State) : State :=
  match (s.adm.queries.get q).query with
  | some { timer := some 0, .. } => s.settleQuery q .congestion
  | _ => s

end State

end Sys2Proof.Machine
end

