-- ==== Sys2Proof/Machine/Store.lean ====
section
/-! DEFINITION. The receive store: places, taking, matching of CALL cells to records (R64, R81, R161, R162). -/

namespace Sys2Proof.Machine

open Sys2Proof

/-- The four store classes (R161), in the order in which the sequencer lets their consumers take a cell at one frame end
(R162). The spec gives no order among the four: it is the model's choice (log 8). -/
def StoreClass.all : List StoreClass := [.admitC, .callC, .keyC, .maintC]

/-- What a CALL cell names: a record, or a controller's conference for one of its members (R64, R81). -/
inductive CallTarget where
  | record (r : RecordId)
  | member (e : ConfId) (r : RecordId) (m : Member)
  deriving DecidableEq, Repr

/-- The class of a stored cell. -/
def Stored.inClass (x : Stored) (c : StoreClass) : Bool := decide (x.cell.body.cellClass.store = some c)

/-- Reserved counts of the image (R161). -/
def Image.reserved (im : Image) : StoreClass → Nat
  | .admitC => im.reservedAdmit
  | .callC => im.reservedCall
  | .keyC => im.reservedKey
  | .maintC => im.reservedMaint

/-- The pool: 32 less the sum of the reserved counts (R161). -/
def Image.pool (im : Image) : Nat :=
  32 - (im.reservedAdmit + im.reservedCall + im.reservedKey + im.reservedMaint)

namespace State

/-! ### Buffers (R161) -/

/-- Cells the store holds of a class. -/
def stored (s : State) (c : StoreClass) : Nat := (s.highway.store.filter fun x => x.inClass c).length

/-- Pool buffers in use: what each class holds beyond its reserved count. -/
def poolUsed (s : State) (im : Image) : Nat :=
  (StoreClass.all.map fun c => s.stored c - im.reserved c).sum

/-- A cell of a class finds a reserved buffer or a pool buffer. -/
def hasBuffer (s : State) (c : StoreClass) : Bool :=
  match s.station.image with
  | some im => decide (s.stored c < im.reserved c) || decide (s.poolUsed im < im.pool)
  | none => false

/-- A cell joins the end of the store with stamp 0 (R162). -/
def storeCell (x : Cell) (header : List Byte) (s : State) : State :=
  s.setHighway { s.highway with store := s.highway.store ++ [{ cell := x, header := header, stamp := 0 }] }

/-! ### Taking (R162) -/

/-- The cell a consumer takes next: the oldest of its class, unless it has taken one at this frame end. -/
def nextCell (s : State) (c : StoreClass) : Option Stored :=
  if s.highway.taken.contains c then none else s.highway.store.find? fun x => x.inClass c

/-- The oldest cell of a class leaves the store. -/
def takeCell (c : StoreClass) (s : State) : State :=
  s.setHighway { s.highway with
    store := s.highway.store.eraseP fun x => x.inClass c
    taken := s.highway.taken ++ [c] }

/-- A consumer takes its next cell when it is of the kind the command names, and acts on it (R162, log 2). -/
def consume (c : StoreClass) (kind : Body → Bool) (act : Stored → State → State) (s : State) : State :=
  match s.nextCell c with
  | some x => if kind x.cell.body then act x (s.takeCell c) else s
  | none => s

/-! ### Matching (R64, R81) -/

/-- The sender tag of a cell is right for a record, or need not be (R64 step 2). A CALL-CLEAR GONE about the controller's
listed tag is right for a MEMBER record too, which R86 lets end with it, though its far call tag may be another link tag:
the model's choice between R86 and the end of R121 (log 64). -/
def senderMatches (x : Cell) (k : Call) : Bool :=
  decide (x.sender = k.farTag) ||
  (match x.body with
    | .callAnswer .busy | .callAnswer .stale | .callAnswer .congestion => true
    | .callAnswer .ringing | .callConnect _ _ => decide (k.state = .offering ∧ k.farTag = Tag.absent)
    | .callClear .gone => decide (k.confRole = .member ∧ x.sender = k.controllerTag)
    | _ => false)

/-- The record, CONTROLLER records apart, that a cell names by its receiver tag (R64 steps 1 and 2). -/
def namedRecord (s : State) (x : Cell) : Option RecordId :=
  match s.recordOf x.receiver with
  | some r => match s.call? r with
    | some k =>
      if k.confRole ≠ .controller ∧ k.farStation = some x.source ∧ senderMatches x k then some r else none
    | none => none
  | none => none

/-- The member a cell concerns at its controller (R81). A CALL-CLEAR GONE names the member by source and sender tag
alone (R85), also one drawn by a member record of the controller's own station about a fellow member: the model's choice
between row 5 of R85 and R85's last paragraph with R81 (log 51). -/
def namedMember (s : State) (x : Cell) : Option CallTarget :=
  (List.finRange 6).findSome? fun e => match s.calls.confs.get e with
    | some c =>
      (c.members.find? fun m =>
        decide (m.station = x.source ∧ m.tag = x.sender) &&
          (decide (x.receiver = s.callTag c.controller ∨ x.receiver = m.link) ||
            decide (x.body = .callClear .gone))).map fun m => .member e c.controller m
    | none => none

/-- The record that a caller's CALL-CLEAR with receiver tag FFFFh names (R64 step 3). -/
def namedByFarTag (s : State) (x : Cell) : Option RecordId :=
  match x.body with
  | .callClear _ =>
    if x.receiver = Tag.absent then
      (List.finRange 64).find? fun r => match s.call? r with
        | some k => decide (k.farStation = some x.source ∧ k.farTag = x.sender)
        | none => false
    else none
  | _ => none

/-- What a CALL cell other than CALL-OFFER names (R64, R81). -/
def callTarget (s : State) (x : Cell) : Option CallTarget :=
  match s.namedRecord x, s.namedMember x, s.namedByFarTag x with
  | some r, _, _ => some (.record r)
  | none, some m, _ => some m
  | none, none, some r => some (.record r)
  | none, none, none => none

/-- A cell that names nothing is discarded and STRAY-CELL reported (R64). -/
def strayCell (x : Stored) (s : State) : State := s.recordFault .strayCell x.cell.source (some x.header)

end State

end Sys2Proof.Machine
end

