-- ==== Sys2Proof/Machine/Calls.lean ====
section
/-! DEFINITION. The caller and the callee: hook events, digits, call cells, reports of the lanes, and the timers of a
record (spec 04, R41 to R65; R76, R79, R84, R85). -/

namespace Sys2Proof.Machine

open Sys2Proof

/-- The four digits of a number, earliest first. -/
def numberOf (ds : List Digit) : Ext := ds.foldl (fun n d => n * 10 + d.val) 0

namespace State

/-! ### Logins as the Call Controller sees them -/

/-- The ADMITTED login of a port: extension, rights, epoch. -/
def admitted (s : State) (p : Port) : Option (Ext × Rights × Epoch) :=
  match (s.login p).entry with
  | some { body := .admitted e r x _, .. } => some (e, r, x)
  | _ => none

/-- The port whose ADMITTED login holds an extension. -/
def admittedPort (s : State) (e : Ext) : Option Port :=
  (List.finRange 24).find? fun p => match s.admitted p with
    | some (e', _, _) => e' == e
    | none => false

/-- A port is busy to offers with a front record, a hook view OFF or a stack that is not empty (R55 step 2). -/
def isBusy (s : State) (p : Port) : Bool :=
  (s.front p).isSome || decide ((s.callPort p).hookView = Hook.off) || !(s.callPort p).stack.isEmpty

/-! ### Allocating (R46, R48) -/

def firstFreeRecord (s : State) : Option RecordId :=
  (List.finRange 64).find? fun r => (s.call? r).isNone

/-- A record is allocated: its incarnation byte is incremented (R46). -/
def allocate (r : RecordId) (k : Call) (s : State) : State :=
  s.setRecord r { incarnation := (s.record r).incarnation + 1, call := some k }

/-- A DIALING record for a port, with dial tone, or TONE REORDER when no record is FREE (R48, R73). -/
def startDialing (p : Port) (e : Ext) (s : State) : State :=
  match s.firstFreeRecord with
  | some r =>
    (s.allocate r { state := .dialing, port := p, ownExt := e, role := .caller, timer := some 1250 }).setTone p
      .dial
  | none => s.setTone p .reorder

/-! ### Hook events (R48, R50, R57, R76) -/

/-- The callee answers: ringing and the alerting timer stop, a talk lane opens with the far nonce as partner and
claims a slot (R57). -/
def calleeAnswers (r : RecordId) (k : Call) (s : State) : State :=
  let s1 := (s.setRing k.port false).modCall r fun k => { k with timer := none }
  let o := s1.openTalk r k.farNonce
  if o.2 then o.1 else o.1.clearRecord r .noSlot

/-- The recall, or a waiting stack, is answered: the top becomes front and CONNECTED (R48, R76). -/
def answerRecall (p : Port) (s : State) : State :=
  let s1 := if (s.callPort p).recalled then
    (s.setRing p false).modCallPort p fun c => { c with recalled := false } else s
  (s1.popTop p).setTone p .none

/-- OFF-HOOK at the Call Controller (R48). -/
def offHook (p : Port) (s : State) : State :=
  let s1 := s.modCallPort p fun c => { c with hookView := .off }
  match s1.admitted p with
  | none => s1.setTone p .reorder
  | some (e, _, _) => match s1.front p with
    | some r => match s1.call? r with
      | some k => if k.ringing then s1.calleeAnswers r k else s1
      | none => s1
    | none => if (s1.callPort p).stack.isEmpty then s1.startDialing p e else s1.answerRecall p

/-- ON-HOOK at the Call Controller (R50), and the recall of a waiting stack (R76). -/
def onHook (p : Port) (s : State) : State :=
  let s1 := (s.modCallPort p fun c => { c with hookView := .on }).setTone p .none
  let s2 := match s1.front p with
    | some r => s1.clearRecord r .normal
    | none => s1
  match (s2.callPort p).stack with
  | [] => s2
  | top :: _ =>
    ((s2.modCallPort p fun c => { c with recalled := true }).setRing p true).modCall top
      fun k => { k with timer := some 3875 }

/-! ### Digits (R41 to R43, R49) -/

/-- A number that routes to a divert is complete: the target is checked (R43). -/
def completeDivert (r : RecordId) (target : Station) (s : State) : State :=
  let s1 := s.modCall r fun k => { k with timer := none }
  let reachable := match s1.calls.plan.get target with
    | .present _ => true
    | .absent _ | .unknown => decide (target = s1.self)
  if reachable then (s1.setCallState r .routing).routeTo r target none
  else s1.clearRecord r .farAbsent

/-- The onward digits are complete: the divert of the dialled number is found again, for it does not change after
load (R42, R43). -/
def completeOnward (r : RecordId) (s : State) : State :=
  match (s.call? r).bind (·.farExt) with
  | some n => match s.lookupNumber n with
    | .divert target _ => s.completeDivert r target
    | .home _ | .homeAbsent | .noNumber => s.clearRecord r .noNumber
  | none => s

/-- The fourth digit: lookup and rights in one handling (R41). -/
def fourthDigit (r : RecordId) (p : Port) (n : Ext) (s : State) : State :=
  let s1 := s.modCall r fun k => { k with timer := none, farExt := some n, dialled := [] }
  let rights : Rights := match s1.admitted p with
    | some (_, x, _) => x
    | none => 0
  match s1.lookupNumber n with
  | .noNumber => s1.clearRecord r .noNumber
  | .home _ =>
    if Rights.mayInternal rights then (s1.setCallState r .routing).runLookup r else s1.clearRecord r .restricted
  | .homeAbsent =>
    if Rights.mayInternal rights then s1.clearRecord r .homeAbsent else s1.clearRecord r .restricted
  | .divert target false =>
    if Rights.mayInternal rights then (s1.modCall r fun k => { k with divert := true }).completeDivert r target
    else s1.clearRecord r .restricted
  | .divert _ true =>
    if Rights.mayOutside rights then
      s1.modCall r fun k => { k with divert := true, onward := [], timer := some 500 }
    else s1.clearRecord r .restricted

/-- A digit at a DIALING record (R42, R49). -/
def dialDigit (r : RecordId) (k : Call) (d : Digit) (s : State) : State :=
  match k.farExt with
  | some _ =>
    let s1 := s.modCall r fun k => { k with onward := k.onward ++ [d], timer := some 500 }
    if k.onward.length + 1 < 12 then s1 else s1.completeOnward r
  | none =>
    let s1 := if k.dialled.isEmpty then s.setTone k.port .none else s
    if k.dialled.length < 3 then
      s1.modCall r fun k => { k with dialled := k.dialled ++ [d], timer := some 1250 }
    else s1.fourthDigit r k.port (numberOf (k.dialled ++ [d]))

/-- A digit at the Call Controller: for a DIALING front record, else discarded (R49). -/
def takeDigit (p : Port) (d : Digit) (s : State) : State :=
  match s.front p with
  | some r => match s.call? r with
    | some k => if k.state = .dialing then s.dialDigit r k d else s
    | none => s
  | none => s

/-! ### Reports of the lanes to the record (R52, R57, R60, R85, R94) -/

/-- The callee's lane holds its slot: a listen lane opens on the far slot and CALL-CONNECT is offered (R57). -/
def calleeConnects (r : RecordId) (k : Call) (s : State) : State :=
  match k.farStation, k.farSlot, k.farNonce, k.talkLane.bind s.talk? with
  | some far, some fx, some fn, some t =>
    let o := s.openListen r .setup far k.farTag fx (some (fn, t.ownNonce))
    if o.2 then
      let c := o.1.offer (o.1.cellTo far (o.1.callTag r) k.farTag (.callConnect (t.slot.getD fx) t.ownNonce))
        (.callConnect r (o.1.record r).incarnation)
      if c.2 then c.1.setCallState r .proving else c.1.clearRecord r .congestion
    else o.1.clearRecord r .congestion
  | _, _, _, _ => s

/-- A talk lane reports that it holds its slot (R52, R57, R100). -/
def laneHolds (r : RecordId) (s : State) : State :=
  match s.call? r with
  | some k => match k.state with
    | .routing => s.issueOffer r
    | .alerting => s.calleeConnects r k
    | _ => s
  | none => s

/-- A talk lane reports NO-SLOT (R52, R57, R60, R100). -/
def laneNoSlot (r : RecordId) (s : State) : State := s.clearRecord r .noSlot

/-- The record a listen lane reports to, if its owner still stands under the lane's tag. -/
def ownerOf (s : State) (owner : RecordId) (tag : Tag) : Option (RecordId × Call) :=
  if s.callTag owner = tag then (s.call? owner).map fun k => (owner, k) else none

/-- PASS: a PROVING record enters CONNECTED (R60). -/
def provingPass (r : RecordId) (s : State) : State :=
  match s.call? r with
  | some k => if k.state = .proving then s.setCallState r .connected else s
  | none => s

/-- FAIL: a PROVING record clears with PATH-FAILED (R60). -/
def provingFail (r : RecordId) (s : State) : State :=
  match s.call? r with
  | some k => if k.state = .proving then s.clearRecord r .pathFailed else s
  | none => s

/-- SYNC-LOST from a lane on a talker: a CONTROLLER drops that member, any other record in PROVING, CONNECTED or
HELD clears (R60, R77, R85). -/
def syncLost (r : RecordId) (talker : Station) (talkerTag : Tag) (s : State) : State :=
  match s.call? r with
  | none => s
  | some k =>
    if k.confRole = .controller then match s.confOf r with
      | some (e, c) => match c.members.find? fun m => decide (m.station = talker ∧ m.tag = talkerTag) with
        | some m => (s.offerSkip (s.memberClear m .syncLost) .plain).membersLeave .syncLost e r [m]
        | none => s
      | none => s
    else match k.state with
      | .proving | .connected | .held => s.clearRecord r .syncLost
      | .dialing | .routing | .offering | .ringback | .alerting | .clearing => s

/-- CALL_CONNECT_CARRIED: the first keys of the callee's lanes take the boundary that ends this superframe (R112,
R127). -/
def callConnectCarried (r : RecordId) (incarnation : Byte) (s : State) : State :=
  match s.call? r with
  | some k =>
    if (s.record r).incarnation = incarnation then
      let s1 := match k.talkLane with
        | some l => s.setFirstBoundary l 1
        | none => s
      s1.setProvingClocks r 1
    else s
  | none => s

/-! ### Call cells at the callee (R54 to R56) -/

/-- The cell that answers an offer (R55). -/
def answerCell (s : State) (offer : Cell) (sender : Tag) (o : AnswerOutcome) : Cell :=
  s.cellTo offer.source sender offer.sender (.callAnswer o)

def answerWith (offer : Cell) (o : AnswerOutcome) (s : State) : State :=
  s.offerSkip (s.answerCell offer Tag.absent o) .plain

/-- Steps 3 and 4 of R55: CONGESTION without a FREE record, else a ringing record answered RINGING. A RINGING the
queue refuses frees the record with CONGESTION and RING OFF. -/
def acceptOffer (offer : Cell) (p : Port) (own caller : Ext) (x : Slot) (n : Nonce) (s : State) : State :=
  match s.firstFreeRecord with
  | none => s.answerWith offer .congestion
  | some r =>
    let s1 := (s.allocate r {
      state := .alerting, port := p, ownExt := own, role := .callee, farExt := some caller,
      farStation := some offer.source, farTag := offer.sender, farSlot := some x, farNonce := some n,
      timer := some 3875 }).setRing p true
    let o := s1.offer (s1.answerCell offer (s1.callTag r) .ringing) .plain
    if o.2 then o.1 else o.1.clearNoCell r .congestion

/-- A CALL-OFFER without DIVERT (R55). -/
def homeOffer (offer : Cell) (caller called : Ext) (epoch : Epoch) (x : Slot) (n : Nonce) (s : State) : State :=
  match s.admittedPort called with
  | none => s.answerWith offer .stale
  | some p => match s.admitted p with
    | some (_, _, e) =>
      if e ≠ epoch then s.answerWith offer .stale
      else if s.isBusy p then s.answerWith offer .busy
      else s.acceptOffer offer p called caller x n
    | none => s.answerWith offer .stale

/-- The called port of a divert offer: that of the called extension's login, else the lowest ADMITTED port that is
not busy; none answers BUSY (R56). -/
def divertPort (s : State) (called : Ext) : Option Port :=
  match s.admittedPort called with
  | some p => if s.isBusy p then none else some p
  | none => (List.finRange 24).find? fun p => (s.admitted p).isSome && !s.isBusy p

/-- A CALL-OFFER with DIVERT (R56). -/
def divertOffer (offer : Cell) (caller called : Ext) (x : Slot) (n : Nonce) (s : State) : State :=
  match s.divertPort called with
  | none => s.answerWith offer .busy
  | some p => match s.admitted p with
    | some (own, _, _) => s.acceptOffer offer p own caller x n
    | none => s.answerWith offer .busy

def actCallOffer (x : Stored) (s : State) : State :=
  match x.cell.body with
  | .callOffer caller called epoch slot nonce _ =>
    if x.cell.divert then s.divertOffer x.cell caller called slot nonce
    else s.homeOffer x.cell caller called epoch slot nonce
  | _ => s

/-! ### Call cells at a record (R58 to R64, R79, R84, R85) -/

/-- The one retry on STALE (R58). -/
def retryStale (r : RecordId) (k : Call) (s : State) : State :=
  let s1 := s.modCall r fun k => { k with staleRetried := true, cause := .stale }
  let s2 := s1.cacheFilter fun y => !(decide (some y.ext = k.farExt) && decide (some y.epoch = k.calledEpoch))
  let s3 := (s2.modCall r fun k => { k with farStation := none, calledEpoch := none, farTag := Tag.absent })
  (s3.setCallState r .routing).runLookup r

/-- A CALL-ANSWER at an OFFERING record (R58). Only the STALE that is retried is reported to the Admission Unit; one that
ends the call leaves the cache as it is (the model's choice between R58 and R31, log 55). -/
def answered (r : RecordId) (k : Call) (sender : Tag) (o : AnswerOutcome) (s : State) : State :=
  let s1 := s.modCall r fun k => { k with timer := none }
  match o with
  | .ringing =>
    ((s1.modCall r fun k => { k with farTag := sender, timer := some 3750 }).setCallState r .ringback).setTone
      k.port .ringback
  | .busy => s1.clearNoCell r .busy
  | .congestion => s1.clearNoCell r .congestion
  | .stale =>
    if k.staleRetried || k.divert then s1.clearNoCell r .unreachable else s1.retryStale r k

/-- A CALL-CONNECT at a caller in RINGBACK or OFFERING (R59, R112, R127). `stamp` counts the boundaries since the
cell was carried. -/
def connected (r : RecordId) (k : Call) (sender : Tag) (x : Slot) (n : Nonce) (stamp : Nat) (s : State) : State :=
  match k.farStation, k.talkLane with
  | some far, some l =>
    let tag := if k.state = .offering then sender else k.farTag
    let s1 := s.modCall r fun k => { k with
      timer := none, farTag := tag, farSlot := some x, farNonce := some n }
    let b : Int := 1 - (stamp : Int)
    let s2 := (s1.setFirstBoundary l b).givePartner l n
    let own : Nonce := match s2.talk? l with
      | some t => t.ownNonce
      | none => 0
    let o := s2.openListen r .setup far tag x (some (n, own))
    if o.2 then ((o.1.setProvingClocks r b).setTone k.port .none).setCallState r .proving
    else o.1.clearRecord r .congestion
  | _, _ => s

/-- A CALL-REDIRECT at its record (R79). -/
def redirected (r : RecordId) (k : Call) (st : Station) (tag : Tag) (x : Slot) (n : Nonce) (s : State) : State :=
  match k.state with
  | .connected | .held =>
    if k.confRole = .none then
      let s1 := (s.modCall r fun k => { k with
        farStation := some st, farTag := tag, farSlot := some x, farNonce := none,
        farExt := none }).closeListens k.listenLanes
      let o := s1.openListen r .join st tag x none
      if o.2 then o.1.rekeyRecord r (some n) else o.1.clearRecord r .congestion
    else s
  | .proving => if k.confRole = .none then s.clearRecord r .congestion else s
  | .dialing | .routing | .offering | .ringback | .alerting | .clearing => s

/-- A CONF-SET at a member record whose station and tag it lists (R84). One of count 2 sets the lanes to the record
that its first place names at the far station, which is the controller's (log 48). One that does not list the record
is discarded in PROVING too, where R84's sentences say both that and a clearing (the model's choice, log 42). -/
def conferenceSet (r : RecordId) (k : Call) (n : Nonce) (ms : List MemberPlace) (s : State) : State :=
  let own (m : MemberPlace) : Bool := decide (m.station = s.self ∧ m.tag = s.callTag r)
  match ms.head?, ms.any own && decide (k.confRole ≠ .controller), k.state with
  | some head, true, .connected | some head, true, .held =>
    let s1 :=
      if ms.length = 2 then
        s.modCall r fun k => { k with
          confRole := .none, farTag := head.tag, farSlot := some head.slot, controllerTag := Tag.absent }
      else
        s.modCall r fun k => { k with
          confRole := .member, farSlot := some head.slot, farNonce := none, farExt := none, controllerTag := head.tag }
    let others :=
      if ms.length = 2 then [{ head with station := k.farStation.getD head.station }] else ms.filter fun m => !own m
    let o := s1.setLanes r others
    if o.2 then o.1.rekeyRecord r (some n) else o.1.clearRecord r .congestion
  | some _, true, .proving => s.clearRecord r .congestion
  | _, _, _ => s

/-- A CALL cell other than an offer finds what it names and acts on it, or is stray (R58 to R64, R79, R84, R85). -/
def actCallCell (x : Stored) (s : State) : State :=
  match s.callTarget x.cell with
  | none => s.strayCell x
  | some (.member e r m) => match x.cell.body with
    | .callClear _ => s.membersLeave .confEnded e r [m]
    | _ => s
  | some (.record r) => match s.call? r with
    | none => s
    | some k => match x.cell.body with
      | .callAnswer o => if k.state = .offering then s.answered r k x.cell.sender o else s
      | .callConnect slot n =>
        if k.role = .caller ∧ (k.state = .ringback ∨ k.state = .offering) then
          s.connected r k x.cell.sender slot n x.stamp
        else s
      | .callClear c => s.clearQuiet r c (some .busy)
      | .callRedirect st tag slot n => s.redirected r k st tag slot n
      | .confSet n ms => s.conferenceSet r k n ms
      | _ => s

/-- CALL cells are acted on while ACTIVE; taken while LISTENING they are discarded without a fault (R54). -/
def whileActive (act : Stored → State → State) (x : Stored) (s : State) : State :=
  if s.active then act x s else s

/-! ### Timers (R42, R49, R61, R76) -/

/-- The timer of a record in a given state has run out. -/
def expired (s : State) (r : RecordId) (p : Call → Bool) : Bool :=
  match s.call? r with
  | some k => decide (k.timer = some 0) && p k
  | none => false

def digitTimerExpiry (r : RecordId) (s : State) : State :=
  if s.expired r fun k => decide (k.state = .dialing) && k.farExt.isNone then s.clearRecord r .noDigits else s

def onwardPauseExpiry (r : RecordId) (s : State) : State :=
  match s.call? r with
  | some k =>
    if s.expired r fun k => decide (k.state = .dialing) && k.farExt.isSome then
      if k.onward.isEmpty then s.clearRecord r .noDigits else s.completeOnward r
    else s
  | none => s

def answerTimerExpiry (r : RecordId) (s : State) : State :=
  if s.expired r fun k => decide (k.state = .offering) then s.clearRecord r .congestion else s

def ringingTimerExpiry (r : RecordId) (s : State) : State :=
  if s.expired r fun k => decide (k.state = .ringback) then s.clearRecord r .noAnswer else s

def alertingTimerExpiry (r : RecordId) (s : State) : State :=
  if s.expired r fun k => k.ringing then s.clearRecord r .noAnswer else s

def recallTimerExpiry (r : RecordId) (s : State) : State :=
  if s.expired r fun k => decide (k.state = .held) then s.clearRecord r .noAnswer else s

/-- BURST_TIMER_EXPIRY (R72). -/
def burstTimerExpiry (p : Port) (s : State) : State :=
  if (s.callPort p).burst = some 0 then
    (s.modCallPort p fun c => { c with burst := none }).setTone p .none
  else s

end State

end Sys2Proof.Machine
end

