-- ==== Sys2Proof/Machine/Features.lean ====
section
/-! DEFINITION. The five feature keys (spec 05, R72 to R83) and REFUSE for CALL cells (R65, R85). -/

namespace Sys2Proof.Machine

open Sys2Proof

namespace State

/-- The front record and the top of a port's stack, as the keys see them. -/
def frontCall (s : State) (p : Port) : Option (RecordId × Call) :=
  (s.front p).bind fun r => (s.call? r).map fun k => (r, k)

def topCall (s : State) (p : Port) : Option (RecordId × Call) :=
  (s.callPort p).stack.head?.bind fun r => (s.call? r).map fun k => (r, k)

/-- The rights class of a port's login; class 0 without one. -/
def rightsAt (s : State) (p : Port) : Rights :=
  match s.admitted p with
  | some (_, x, _) => x
  | none => 0

/-- A key whose port has its hook view ON is discarded (R72, R76). -/
def whenOffHook (p : Port) (key : State → State) (s : State) : State :=
  if (s.callPort p).hookView = .off then key s else s

/-- HOLD (R73). -/
def keyHold (p : Port) (s : State) : State :=
  match s.frontCall p with
  | some (f, k) =>
    if k.state = .connected ∧ (s.callPort p).stack.length < 3 then
      ((s.pushStack p f).setCallState f .held).startDialing p k.ownExt
    else s.refuseKey p
  | none => s.refuseKey p

/-- RETURN (R74). -/
def keyReturn (p : Port) (s : State) : State :=
  match (s.callPort p).stack with
  | [] => s.refuseKey p
  | _ :: _ =>
    let s1 := match s.front p with
      | some f => s.clearRecordTone f .normal none
      | none => s
    (s1.popTop p).setTone p .none

/-- SWAP (R75). -/
def keySwap (p : Port) (s : State) : State :=
  match s.frontCall p, s.topCall p with
  | some (f, k), some _ =>
    if k.state = .connected then ((s.popTop p).pushStack p f).setCallState f .held else s.refuseKey p
  | _, _ => s.refuseKey p

/-- The far end of a plain record: station, call tag, and the present slot of its listen lane (R78, R82). -/
def farEnd (s : State) (r : RecordId) (k : Call) : Option Member :=
  match k.farStation, k.listenLanes.head?.bind s.listen? with
  | some st, some t => some { station := st, tag := k.farTag, slot := t.slot, link := s.callTag r }
  | _, _ => none

/-- CALL-REDIRECT for the far end `near` of record `r`, naming the far end `other` (R78). -/
def redirectCell (s : State) (r : RecordId) (near other : Member) (n : Nonce) : Cell :=
  s.cellTo near.station (s.callTag r) near.tag (.callRedirect other.station other.tag other.slot n)

/-- A transfer whose needs are met (R78). -/
def transferRecords (p : Port) (f h : RecordId) (b c : Member) (s : State) : State :=
  let d := s.drawNonce
  let o1 := d.1.offer (d.1.redirectCell f b c d.2) (d.1.clearingName f)
  if o1.2 then
    let o2 := o1.1.offer (o1.1.redirectCell h c b d.2) (o1.1.clearingName h)
    let s1 := (o2.1.endRecord f .transferred Cause.transferred.tone).awaitClears f 1
    if o2.2 then (s1.endRecord h .transferred none).awaitClears h 1
    else s1.clearRecord h .congestion
  else o1.1.refuseKey p

/-- TRANSFER (R78). -/
def keyTransfer (p : Port) (s : State) : State :=
  match s.frontCall p, s.topCall p with
  | some (f, kf), some (h, kh) =>
    match s.farEnd f kf, s.farEnd h kh with
    | some b, some c =>
      if kf.state = .connected ∧ kf.confRole = .none ∧ kh.confRole = .none ∧
          Rights.mayTransfer (s.rightsAt p) then s.transferRecords p f h b c
      else s.refuseKey p
    | _, _ => s.refuseKey p
  | _, _ => s.refuseKey p

/-- A record merges into a controller record: it leaves the stack, its talk lane closes with SLOT-FREE, its listen
lanes pass to the controller, and it is FREE with no cell (R82, R83). -/
def mergeRecord (p : Port) (from_ into : RecordId) (s : State) : State :=
  match s.call? from_ with
  | none => s
  | some k =>
    let s1 := s.modCallPort p fun c => { c with stack := c.stack.erase from_ }
    let s2 := match k.talkLane with
      | some l => s1.closeTalk l
      | none => s1
    (k.listenLanes.foldl (fun s l => s.passListen into l) s2).freeRecord from_

/-- The controller's lanes are set to the members and the conference is formed with a new nonce (R82, R83). -/
def formConference (e : ConfId) (r : RecordId) (s : State) : State :=
  match s.calls.confs.get e with
  | some c => ((s.setLanes r (c.members.map Member.place)).1).reform .congestion 4 e r
  | none => s

def freeConf (s : State) : Option ConfId := (List.finRange 6).find? fun e => (s.calls.confs.get e).isNone

/-- A conference is created (R82). -/
def createConference (p : Port) (e : ConfId) (f h : RecordId) (b c : Member) (s : State) : State :=
  let s1 := (s.setConf e (some { controller := f, members := [b, c] })).mergeRecord p h f
  let s2 := s1.modCall f fun k => { k with
    confRole := .controller, farStation := none, farTag := Tag.absent, farSlot := none, farNonce := none,
    farExt := none }
  s2.formConference e f

/-- A plain record's far end is added to the conference a port controls (R83). `top` says the controller record
stood on the stack. -/
def addMember (p : Port) (e : ConfId) (conf : Conf) (r q : RecordId) (d : Member) (top : Bool) (s : State) :
    State :=
  let s1 := (s.setConf e (some { conf with members := conf.members ++ [d] })).mergeRecord p q r
  let s2 := if top then s1.popTop p else s1
  s2.formConference e r

/-- CONFERENCE (R82, R83). -/
def keyConference (p : Port) (s : State) : State :=
  match s.frontCall p, s.topCall p with
  | some (f, kf), some (h, kh) =>
    if kf.state = .connected then
      match kf.confRole, kh.confRole with
      | .none, .none => match s.freeConf, s.farEnd f kf, s.farEnd h kh with
        | some e, some b, some c =>
          if Rights.mayConference (s.rightsAt p) then s.createConference p e f h b c else s.refuseKey p
        | _, _, _ => s.refuseKey p
      | .controller, .none => match s.confOf f, s.farEnd h kh with
        | some (e, conf), some d =>
          if conf.members.length = 2 then s.addMember p e conf f h d false else s.refuseKey p
        | _, _ => s.refuseKey p
      | .none, .controller => match s.confOf h, s.farEnd f kf with
        | some (e, conf), some d =>
          if conf.members.length = 2 then s.addMember p e conf h f d true else s.refuseKey p
        | _, _ => s.refuseKey p
      | .controller, .controller | .member, _ | _, .member => s.refuseKey p
    else s.refuseKey p
  | _, _ => s.refuseKey p

/-- A feature key at the Call Controller (R72). -/
def takeKey (p : Port) (key : FeatureKey) (s : State) : State :=
  s.whenOffHook p fun s => match key with
    | .holdKey => s.keyHold p
    | .returnKey => s.keyReturn p
    | .swapKey => s.keySwap p
    | .transferKey => s.keyTransfer p
    | .conferenceKey => s.keyConference p

/-! ### REFUSE for CALL cells (R65, R85) -/

/-- A refused CONF-SET: every member at the refusing station with the link tag is told CALL-CLEAR CONGESTION and
removed (R85). -/
def confSetRefused (source : Station) (tag : Tag) (s : State) : State :=
  (List.finRange 6).foldl (fun s e => match s.calls.confs.get e with
    | some c =>
      match c.members.filter fun m => decide (m.station = source ∧ m.link = tag) with
      | [] => s
      | gone =>
        (gone.foldl (fun s m => s.offerSkip (s.memberClear m .congestion) .plain) s).membersLeave .congestion e
          c.controller gone
    | none => s) s

/-- A REFUSE returned for a CALL cell (R65). -/
def callRefused (kind : Byte) (source : Station) (tag : Tag) (s : State) : State :=
  if kind = 0x25 then s.confSetRefused source tag
  else match s.recordOf tag with
    | none => s
    | some r => match s.call? r with
      | none => s
      | some k => match kind.toNat, k.state with
        | 0x20, .offering => s.clearNoCell r .congestion
        | 0x21, .alerting => s.clearRecord r .congestion
        | 0x22, .proving => s.clearRecord r .congestion
        | _, _ => s

end State

end Sys2Proof.Machine
end

