-- ==== Sys2Proof/Machine/Logins.lean ====
section
/-! DEFINITION. The login procedure, the home records and the admission cells (spec 01, R1 to R20), with the query
answers and the cache fills they bring (spec 02, R26 to R29). -/

namespace Sys2Proof.Machine

open Sys2Proof

/-- Why a login is dropped, as R3 tells the cases apart. -/
inductive DropReason where
  | plain | barring | homeLost
  deriving DecidableEq, Repr

/-- The cause for the port's calls: HOME-LOST where the rule names it, ADMISSION otherwise (R3). -/
def DropReason.cause : DropReason → Cause
  | .plain | .barring => .admission
  | .homeLost => .homeLost

/-- What the set receives when an ADMITTED login is dropped (R3). -/
def DropReason.result : DropReason → Option LoginResult
  | .plain => none
  | .barring => some .barred
  | .homeLost => some .noHome

/-- The first 64 bits of a mixer result (R9): the most significant (log 9). -/
def firstBits (k : Key) : Nonce := k.extractLsb' 64 64

/-- The claimed extension as a nonce input (R107). -/
def extNonce (e : Ext) : Nonce := BitVec.ofNat 64 e

namespace State

def setEntry (p : Port) (x : Option LoginEntry) (s : State) : State := s.modLogin p fun l => { l with entry := x }

/-- The entry's state, extension and rest for a port. -/
def loginBody (s : State) (p : Port) : Option LoginBody := (s.login p).entry.map (·.body)

/-- Removing a CONFIRMING entry: the tone is NONE and the result follows (R11, R154). -/
def leaveConfirming (p : Port) (x : LoginResult) (s : State) : State :=
  ((s.setEntry p none).setTone p .none).sendResult p x

/-- A login is dropped (R3): the entry is removed; an ADMITTED one's calls are cleared. -/
def dropLogin (p : Port) (why : DropReason) (s : State) : State :=
  match s.loginBody p with
  | some (.admitted _ _ _ _) =>
    let s1 := (s.setEntry p none).clearPort p why.cause
    match why.result with
    | some x => s1.sendResult p x
    | none => s1
  | some (.confirming _) => s.leaveConfirming p (why.result.getD .busy)
  | some (.challenging ..) | none => s

/-- A failed challenge: DENIED, or at 3 LOCKED and the lockout (R4). -/
def challengeFails (p : Port) (s : State) : State :=
  let n := min ((s.login p).failures + 1) 3
  let s1 := (s.setEntry p none).modLogin p fun l => { l with failures := n }
  if n < 3 then s1.sendResult p .denied
  else
    let time := match s.station.image with
      | some im => im.lockoutTime
      | none => 3750
    (s1.modLogin p fun l => { l with lockedOut := true, lockoutTimer := some time }).sendResult p .locked

/-! ### Home records (R5, R7, R12, R15, R18, R19) -/

/-- ADMIT-CHANGE to all; a refusal is skipped by the rules that use this (R16). -/
def changeCell (s : State) (e : Ext) (why : ChangeReason) (loc : Option (Station × Port)) (h : HomeRecord) : Cell :=
  s.cellToAll (.admitChange e why loc h.rights h.epoch)

/-- The location is cleared with the epoch incremented, and the change announced naming the cleared location. -/
def clearLocation (e : Ext) (why : ChangeReason) (s : State) : State :=
  match s.homeRecord e with
  | some h => match h.location with
    | some loc =>
      let h' := { h with location := none, epoch := h.epoch + 1 }
      let s1 := s.setHomeRecord e h'
      s1.offerSkip (s1.changeCell e why (some loc) h') .plain
    | none => s
  | none => s

/-- Port `p` has the ADMITTED login of `e`. -/
def hasLogin (s : State) (p : Port) (e : Ext) : Bool := (s.admitted p).map (·.1) == some e

/-- The location is cleared and announced, and a login at this station is dropped (R7, R18). A record that names a port
here whose login is of another extension, or not ADMITTED, which R5 rules out, drops nothing there: the model's choice
(log 67). -/
def evict (e : Ext) (why : ChangeReason) (drop : DropReason) (s : State) : State :=
  let s1 := s.clearLocation e why
  match (s.homeRecord e).bind (·.location) with
  | some (st, p) => if st = s.self ∧ s.hasLogin p e = true then s1.dropLogin p drop else s1
  | none => s1

/-- A home record moves to a station and port (R12 steps 3 and 4). A record located at another station is first
announced MOVED; when that is refused the second component is false and nothing is applied. -/
def moveHome (e : Ext) (h : HomeRecord) (m : Station) (q : Port) (s : State) : State × Bool :=
  let h' := { h with location := some (m, q), epoch := h.epoch + 1 }
  match h.location with
  | some (t, _) =>
    if t = m then (s.setHomeRecord e h', true)
    else
      let o := s.offer (s.changeCell e .moved (some (m, q)) h') .plain
      if o.2 then
        let s1 := if t = s.self then match o.1.admittedPort e with
          | some p => o.1.dropLogin p .plain
          | none => o.1
        else o.1
        (s1.setHomeRecord e h', true)
      else (o.1, false)
  | none => (s.setHomeRecord e h', true)

/-! ### The login procedure (R8 to R11) -/

/-- LOGIN-REQ at the Admission Unit (R8). -/
def takeLoginReq (p : Port) (e : Ext) (s : State) : State :=
  if (s.login p).entry.isSome then s.sendResult p .busy
  else if (s.homeOf e).isNone then s.sendResult p .noHome
  else
    let d := s.drawNonce
    (d.1.modLogin p fun l => { l with
      incarnation := l.incarnation + 1
      entry := some { body := .challenging e d.2 none .none, timer := some 250 } }).sendMessage p (.challenge d.2)

/-- A request of a login check; refused by the mixer, the entry is removed with BUSY (R9). -/
def askCheck (p : Port) (step : CheckStep) (e : Ext) (n v : Nonce) (timer : Option Nat) (key : Key) (a : Nonce)
    (s : State) : State :=
  let r := s.mixRequest (.login p (s.login p).incarnation step) key a 0 65535
  if r.2 then r.1.setEntry p (some { body := .challenging e n (some v) step, timer := timer })
  else (r.1.setEntry p none).sendResult p .busy

/-- RESPONSE at the Admission Unit (R9). -/
def takeResponse (p : Port) (v : Nonce) (s : State) : State :=
  match (s.login p).entry with
  | some { body := .challenging e n _ .none, timer } =>
    s.askCheck p .setKey e n v timer s.secret (extNonce e)
  | _ => s

/-- Confirmation at this station's own home record (R10). -/
def confirmHere (p : Port) (e : Ext) (s : State) : State :=
  match s.homeRecord e with
  | none => s.leaveConfirming p .noHome
  | some h =>
    if h.barred then s.leaveConfirming p .barred
    else
      let o := s.moveHome e h s.self p
      if o.2 then
        ((o.1.setEntry p (some { body := .admitted e h.rights (h.epoch + 1) .none, timer := none })).setTone p
          .none).sendResult p .ok
      else o.1.leaveConfirming p .busy

/-- The move of a login to its home. RENEW is set for a renewal (R10, R20). -/
def moveCell (s : State) (p : Port) (e : Ext) (home : Station) (renew : Bool) : Cell :=
  { s.cellTo home (s.loginTag p) Tag.absent (.admitMove e p) with renew := renew }

/-- Confirmation at a peer (R10, R154). -/
def confirmAt (p : Port) (e : Ext) (home : Station) (s : State) : State :=
  match s.calls.plan.get home with
  | .absent _ => s.leaveConfirming p .noHome
  | .present _ | .unknown =>
    let o := s.offer (s.moveCell p e home false) .plain
    if o.2 then (o.1.setEntry p (some { body := .confirming e, timer := some 16 })).setTone p .confirm
    else o.1.leaveConfirming p .busy

/-- The entry enters CONFIRMING: other entries of the extension are dropped, and it is confirmed at its home (R10).
A number that has lost its home meanwhile gives NO-HOME (log 10). -/
def confirm (p : Port) (e : Ext) (s : State) : State :=
  let s1 := s.setEntry p (some { body := .confirming e, timer := none })
  let others := (List.finRange 24).filter fun q =>
    decide (q ≠ p) && decide ((s1.loginBody q).bind LoginBody.ext = some e)
  let s2 := others.foldl (fun s q => s.dropLogin q .plain) s1
  match s2.homeOf e with
  | none => s2.leaveConfirming p .noHome
  | some h => if h = s2.self then s2.confirmHere p e else s2.confirmAt p e h

/-- A mixer result reaches a login place, which stands as the request names it (R9, R106). -/
def deliverCheck (p : Port) (incarnation : Byte) (step : CheckStep) (result : Key) (s : State) : State :=
  match (s.login p).entry with
  | some { body := .challenging e n (some v) step', timer } =>
    if (s.login p).incarnation = incarnation ∧ step' = step then match step with
      | .setKey => s.askCheck p .expected e n v timer result n
      | .expected =>
        if firstBits result = v then (s.modLogin p fun l => { l with failures := 0 }).confirm p e
        else s.challengeFails p
      | .none => s
    else s
  | _ => s

def challengingTimerExpiry (p : Port) (s : State) : State :=
  match (s.login p).entry with
  | some { body := .challenging .., timer := some 0 } => s.challengeFails p
  | _ => s

def confirmingTimerExpiry (p : Port) (s : State) : State :=
  match (s.login p).entry with
  | some { body := .confirming _, timer := some 0 } => s.leaveConfirming p .noHome
  | _ => s

def renewalTimerExpiry (p : Port) (s : State) : State :=
  match (s.login p).entry with
  | some { body := .admitted _ _ _ .sent, timer := some 0 } => s.dropLogin p .homeLost
  | _ => s

/-- LOCKOUT_TIMER_EXPIRY (R4, R152). -/
def lockoutTimerExpiry (p : Port) (s : State) : State :=
  if (s.login p).lockoutTimer = some 0 then
    s.modLogin p fun l => { l with lockedOut := false, lockoutTimer := none, failures := 0 }
  else s

/-! ### Logout (R14) -/

def logOut (p : Port) (s : State) : State :=
  match s.loginBody p with
  | none => s
  | some (.challenging ..) => s.setEntry p none
  | some (.confirming _) => (s.setEntry p none).setTone p .none
  | some (.admitted e _ x _) =>
    let s1 := (s.setEntry p none).clearPort p .admission
    match s1.homeOf e with
    | none => s1
    | some h =>
      if h = s1.self then s1.clearLocation e .left
      else s1.offerSkip (s1.cellTo h (s1.loginTag p) Tag.absent (.admitLeave e x)) .plain

/-! ### The admission cells (R12 to R16, R27) -/

/-- ADMIT-TELL to the source of a cell, under its sender tag (R12, R27). -/
def tellCell (s : State) (to_ : Cell) (move : Bool) (e : Ext) (st : TellStatus) (loc : Option (Station × Port))
    (r : Rights) (x : Epoch) : Cell :=
  { s.cellTo to_.source Tag.absent to_.sender (.admitTell e st loc r x) with
    move := move, renew := move && to_.renew }

def actAdmitAsk (x : Stored) (s : State) : State :=
  match x.cell.body with
  | .admitAsk e =>
    let answer := match s.homedHere e, s.homeRecord e with
      | true, some h =>
        if h.barred then s.tellCell x.cell false e .barred none h.rights h.epoch
        else match h.location with
          | some loc => s.tellCell x.cell false e .admitted (some loc) h.rights h.epoch
          | none => s.tellCell x.cell false e .notIn none h.rights h.epoch
      | _, _ => s.tellCell x.cell false e .notHome none 0 0
    s.offerSkip answer .plain
  | _ => s

/-- ADMIT-MOVE at the home (R12). An answer BARRED carries no location with the record's class and epoch, an answer
NOT-HOME zeros: the model's choice, for R12 names only the status (log 38). A move under this station's own number, which
only a station that shares the number sends, does not locate the record here, and is not answered: R5 has a login homed
here admitted by local handling rather than by cells (the model's choice, log 66). -/
def actAdmitMove (x : Stored) (s : State) : State :=
  match x.cell.body with
  | .admitMove e q => match s.homedHere e, s.homeRecord e with
    | true, some h =>
      if h.barred then s.offerSkip (s.tellCell x.cell true e .barred none h.rights h.epoch) .plain
      else if x.cell.source = s.self then s
      else
        let o := s.moveHome e h x.cell.source q
        if o.2 then
          o.1.offerSkip (o.1.tellCell x.cell true e .admitted (some (x.cell.source, q)) h.rights (h.epoch + 1))
            .plain
        else o.1
    | _, _ => s.offerSkip (s.tellCell x.cell true e .notHome none 0 0) .plain
  | _ => s

/-- The entry a move answer is for: named by the receiver tag, holding the extension, CONFIRMING or with renewal
SENT as the RENEW flag says (R2, R13). -/
def movedEntry (s : State) (t : Tag) (e : Ext) (renew : Bool) : Option Port :=
  match indexOf 24 t.index with
  | some p =>
    if (s.login p).incarnation = t.incarnation then match renew, s.loginBody p with
      | false, some (.confirming e') => if e' = e then some p else none
      | true, some (.admitted e' _ _ .sent) => if e' = e then some p else none
      | _, _ => none
    else none
  | none => none

/-- A location station that may be offered to: this station, or PRESENT in the presence table (R26, R29). -/
def reachable (s : State) (st : Station) : Bool :=
  decide (st = s.self) || decide ((s.highway.presence.get st).state = .present)

/-- The cache filled or an entry removed by an ADMIT-TELL from the extension's present home (R26). `fills` is the
last condition of a fill. -/
def cacheTell (source : Station) (e : Ext) (st : TellStatus) (loc : Option (Station × Port)) (x : Epoch)
    (fills : Bool) (s : State) : State :=
  if s.homeOf e = some source ∧ source ≠ s.self then match st, loc with
    | .admitted, some (l, _) =>
      if s.reachable l ∧ fills then
        s.setCache (cacheWith { ext := e, station := l, epoch := x } s.adm.cache)
      else s
    | .admitted, none => s
    | .notIn, _ | .barred, _ | .notHome, _ => s.cacheRemove e
  else s

/-- What a query answer gives the waiters (R29). An answer ADMITTED without a location station, which no row of R29
covers, gives UNREACHABLE (the model's choice, log 39). -/
def tellResult (s : State) (source : Station) (e : Ext) (st : TellStatus) (loc : Option (Station × Port))
    (x : Epoch) : LookupResult :=
  match st, loc with
  | .admitted, some (l, _) =>
    if s.homeOf e = some source ∧ s.reachable l then .located l x else .unreachable
  | _, _ => .unreachable

/-- A move answer at its entry, or an orphan (R13). An ADMITTED answer whose number has become homed here meanwhile admits
its CONFIRMING entry by the home's own handling (R10), with the class and new epoch of the record here, so that record and
login table agree (R5): the model's choice (log 54). -/
def moveAnswer (c : Cell) (e : Ext) (st : TellStatus) (r : Rights) (x : Epoch) (p : Option Port) (s : State) :
    State :=
  match p, c.renew, st with
  | _, _, .notIn => s
  | some p, false, .admitted =>
    if s.homedHere e then s.confirmHere p e
    else ((s.setEntry p (some { body := .admitted e r x .none, timer := none })).setTone p .none).sendResult p .ok
  | some p, false, .barred => s.leaveConfirming p .barred
  | some p, false, .notHome => s.leaveConfirming p .noHome
  | some p, true, .admitted => s.setEntry p (some { body := .admitted e r x .none, timer := none })
  | some p, true, .barred => s.dropLogin p .barring
  | some p, true, .notHome => s.dropLogin p .homeLost
  | none, _, .admitted =>
    s.offerSkip (s.cellTo c.source Tag.absent Tag.absent (.admitLeave e x)) .plain
  | none, _, .barred => s
  | none, _, .notHome => s

/-- ADMIT-TELL (R13, R26, R29). Taken while LISTENING it fills the cache or removes an entry at once: R162 is
followed where R34 speaks of ACTIVE (the model's choice, log 40). -/
def actAdmitTell (x : Stored) (s : State) : State :=
  match x.cell.body with
  | .admitTell e st loc r ep =>
    if x.cell.move then
      let p := s.movedEntry x.cell.receiver e x.cell.renew
      (s.cacheTell x.cell.source e st loc ep p.isSome).moveAnswer x.cell e st r ep p
    else
      let s1 := s.cacheTell x.cell.source e st loc ep true
      match s1.queryOf x.cell.receiver with
      | some (q, y) =>
        if y.ext = e then s1.settleQuery q (s1.tellResult x.cell.source e st loc ep) else s1
      | none => s1
  | _ => s

/-- R15: only for a number homed here, located at the sender, at the epoch carried. A leave under this station's own
number, which R15 says never arrives as a cell and only a station that shares the number sends, is discarded: the
model's choice (log 66). -/
def actAdmitLeave (x : Stored) (s : State) : State :=
  match x.cell.body with
  | .admitLeave e ep => match s.homedHere e, s.homeRecord e with
    | true, some h => match h.location with
      | some (st, _) => if st = x.cell.source ∧ st ≠ s.self ∧ h.epoch = ep then s.clearLocation e .left else s
      | none => s
    | _, _ => s
  | _ => s

/-- ADMIT-CHANGE at the login it concerns (R16, R31). A login homed here is left as it is: by R16's last paragraph the
home's own handling has dropped or updated it already, and by R5 it is left and moved by local handling rather than by
cells. So the home's own cell that comes back late touches no login admitted or changed since (the model's choice between
R16's table and its last paragraph, log 62). -/
def actAdmitChange (x : Stored) (s : State) : State :=
  match x.cell.body with
  | .admitChange e why loc r ep =>
    let s1 := s.cacheRemove e
    if s.homedHere e then s1
    else match s1.admittedPort e with
    | none => s1
    | some p =>
      let here := decide (loc = some (s1.self, p))
      match why with
      | .moved => if loc.map (·.1) = some s1.self then s1 else s1.dropLogin p .plain
      | .left | .forced | .lost => if here then s1.dropLogin p .plain else s1
      | .barred => if here then s1.dropLogin p .barring else s1
      | .rights =>
        if here then match (s1.login p).entry with
          | some { body := .admitted e' _ _ n, timer } =>
            s1.setEntry p (some { body := .admitted e' r ep n, timer := timer })
          | _ => s1
        else s1
  | _ => s

/-! ### Renewals (R20) -/

/-- A PENDING renewal is offered: accepted, it is SENT with its timer at 16 (R20). -/
def offerRenewal (p : Port) (s : State) : State :=
  match s.loginBody p with
  | some (.admitted e r x .pending) => match s.homeOf e with
    | some h =>
      let o := s.offer (s.moveCell p e h true) .plain
      if o.2 then o.1.setEntry p (some { body := .admitted e r x .sent, timer := some 16 }) else o.1
    | none => s
  | _ => s

/-- A renewal for each PENDING login, in ascending port order (R20). -/
def offerRenewals (s : State) : State := (List.finRange 24).foldl (fun s p => s.offerRenewal p) s

/-- Each ADMITTED login homed at a station takes a renewal state, its timer stopped (R19, R20). -/
def markRenewals (st : Station) (n : Renewal) (s : State) : State :=
  (List.finRange 24).foldl (fun s p => match s.loginBody p with
    | some (.admitted e r x _) =>
      if s.homeOf e = some st then s.setEntry p (some { body := .admitted e r x n, timer := none }) else s
    | _ => s) s

/-- RENEWAL_START: the home restart of a peer (R20, R32). -/
def homeRestart (st : Station) (s : State) : State :=
  let s1 := s.cacheFilter fun y => !decide (s.homeOf y.ext = some st)
  (s1.markRenewals st .pending).offerRenewals

/-! ### REFUSE for ADMIT cells (R11, R20, R29) -/

def admitRefused (kind : Byte) (tag : Tag) (s : State) : State :=
  if kind = 0x12 then match indexOf 24 tag.index with
    | some p =>
      if (s.login p).incarnation = tag.incarnation then match s.loginBody p with
        | some (.confirming _) => s.leaveConfirming p .busy
        | some (.admitted _ _ _ .sent) => s.dropLogin p .homeLost
        | _ => s
      else s
    | none => s
  else if kind = 0x10 then match s.queryOf tag with
    | some (q, _) => s.settleQuery q .congestion
    | none => s
  else s

/-! ### Station loss (R19, R32) -/

/-- The numbers of the own range, ascending. -/
def ownNumbers (s : State) : List Ext :=
  match s.station.image with
  | some im => (List.range im.range.length).map (im.range.low + ·)
  | none => []

/-- ADMISSION_STATION_LOSS (R19). -/
def admissionLoss (st : Station) (s : State) : State :=
  let located := s.ownNumbers.filter fun e =>
    decide ((((s.homeRecord e).bind (·.location)).map (·.1)) = some st)
  let s1 := located.foldl (fun s e => s.clearLocation e .lost) s
  let s2 := (List.finRange 24).foldl (fun s p => match s.loginBody p with
    | some (.confirming e) => if s.homeOf e = some st then s.leaveConfirming p .noHome else s
    | _ => s) s1
  s2.markRenewals st .none

/-- CACHE_STATION_LOSS (R32). -/
def cacheLoss (st : Station) (s : State) : State :=
  let s1 := s.cacheFilter fun y => !(decide (y.station = st) || decide (s.homeOf y.ext = some st))
  (List.finRange 4).foldl (fun s q => match (s.adm.queries.get q).query with
    | some y => if y.home = st then s.settleQuery q .homeAbsent else s
    | none => s) s1

end State

end Sys2Proof.Machine
end

