-- ==== Sys2Proof/Machine/Judgment.lean ====
section
/-! DEFINITION. The judgment of SLOT cells at the frame ends of frames 1 to 63, and the attempts after a failed one
(spec 06, R93, R94, R96, R100). -/

namespace Sys2Proof.Machine

open Sys2Proof

/-- The slot a SLOT cell claims: that of a SLOT-CLAIM, the new slot of a SLOT-MOVE (R93). -/
def SlotCell.claims : SlotCell → Option Slot
  | .claim x => some x
  | .move _ x => some x
  | .free _ => none

/-- The lowest-numbered claimant of a slot among the SLOT cells of a frame. -/
def lowestClaimant (cells : List (Station × SlotCell)) (x : Slot) : Option Station :=
  (List.finRange 16).find? fun st => cells.any fun c => c.1 == st && c.2.claims == some x

/-- Who wins a slot: nobody when it was not FREE as the frame began (R93). -/
def slotWinner (start : Vector (Option Station) 256) (cells : List (Station × SlotCell)) (x : Slot) :
    Option Station :=
  match start.get x with
  | some _ => none
  | none => lowestClaimant cells x

/-- A slot that its holder gives up in the frame, by SLOT-FREE or by a winning SLOT-MOVE (R93). -/
def givenUp (start : Vector (Option Station) 256) (cells : List (Station × SlotCell)) (x : Slot) : Bool :=
  cells.any fun c => start.get x == some c.1 && (match c.2 with
    | .free y => y == x
    | .move old new => old == x && slotWinner start cells new == some c.1
    | .claim _ => false)

/-- A slot of the map after a judgment (R93). -/
def judgedHolder (start now : Vector (Option Station) 256) (cells : List (Station × SlotCell)) (x : Slot) :
    Option Station :=
  match slotWinner start cells x with
  | some st => some st
  | none => if givenUp start cells x then none else now.get x

namespace State

/-- The station hears windows and keeps its tables: LISTENING, ACTIVE or ISOLATED (R102, R157). -/
def hearing (s : State) : Bool :=
  match s.station.state with
  | .listening | .active | .isolated => true
  | .loading | .halted => false

/-- The talk lane's owner record. -/
def talkOwner (s : State) (l : TalkId) : Option RecordId := (s.talk? l).map (·.owner)

/-- A talk lane reports NO-SLOT to its record (R94, R100). -/
def reportNoSlot (l : TalkId) (s : State) : State :=
  match s.talkOwner l with
  | some r => s.laneNoSlot r
  | none => s

/-- The next attempt for a lane, or NO-SLOT (R94). -/
def retryClaim (l : TalkId) (s : State) : State :=
  let o := s.nextAttempt l
  if o.2 then o.1 else o.1.reportNoSlot l

/-- A lane becomes ACTIVE on the slot it has won. The record is told that its lane holds its slot; of a won move
only a ROUTING record is told (R94, R100). -/
def laneWins (l : TalkId) (kind : ClaimKind) (x : Slot) (s : State) : State :=
  let s1 := (s.removeClaimOf l).modTalk l fun t => { t with state := .active, slot := some x }
  match s1.talkOwner l with
  | none => s1
  | some r => match kind with
    | .claim => s1.laneHolds r
    | .move => s1.issueOffer r
    | .release => s1

/-- ORPHAN_SLOT_RELEASE: a slot won for a closed lane is given up (R96). -/
def releaseOrphan (e : Claim) (s : State) : State :=
  ((s.setClaims (s.slots.claims.filter fun c => c != e)).setSlot e.slot none).addClaim
    { kind := .release, slot := e.slot }

/-- CLAIM_OUTCOME: one entry that was carried in the frame learns its outcome (R94). -/
def claimOutcome (e : Claim) (won : Bool) (s : State) : State :=
  match e.lane, won with
  | some l, true => s.laneWins l e.kind e.slot
  | some l, false => s.retryClaim l
  | none, true => s.releaseOrphan e
  | none, false => s.setClaims (s.slots.claims.filter fun c => c != e)

/-- SLOT_JUDGMENT (R93, R94). A slot that a claim under this station's number has won while no talk lane of this
station stands on it, as in LISTENING or ISOLATED, is FREE at the end: R89 is followed there, not R93 (the model's
choice, log 45). A claim of this station whose cell was carried in the frame but not heard good has not won, and counts
as lost (the model's choice, log 59). -/
def slotJudgment (s : State) : State :=
  if s.hearing ∧ s.clock.frame ≠ 0 ∧ s.highway.judged = false then
    let cells := s.highway.slotCells
    let start := s.slots.atFrameStart
    let s1 := { s with
      slots := { s.slots with map := Vector.ofFn fun x => judgedHolder start s.slots.map cells x }
      highway := { s.highway with slotCells := [], judged := true } }
    ((s.slots.claims.filter fun e => e.carried.isSome).foldl
      (fun s' e => s'.claimOutcome e (slotWinner start cells e.slot == some s.self)) s1).freeIdleSlots
  else s

/-- CLAIM_RETRY: the attempt after one whose cell the queue refused before this frame end (R92, R94). -/
def claimRetry (l : TalkId) (s : State) : State :=
  match s.claimOf l with
  | some e => if e.refused && !e.fresh then s.retryClaim l else s
  | none => s

end State

end Sys2Proof.Machine
end

