-- ==== Sys2Proof/Machine/Census.lean ====
section
/-! DEFINITION. The frame end of frame 0: presence, station loss, reconciliation, number plan, homeship and home
restarts (R7, R19, R32, R33, R36 to R38, R68, R87, R97 to R101, R141, R167, R168). -/

namespace Sys2Proof.Machine

open Sys2Proof

/-- What a frame 0 finds about a peer (R167). -/
structure PresenceFinding where
  entry : Presence
  lost : Bool := false
  restarted : Bool := false
  deriving DecidableEq, Repr

/-- The rows of R167, for a peer whose census was heard or not. -/
def presenceFinding (e : Presence) (heard : Option HeardCensus) : PresenceFinding :=
  match heard, e.state with
  | some c, .unknown => { entry := { state := .present, startTag := c.body.startTag, missed := 0 } }
  | some c, .absent =>
    { entry := { state := .present, startTag := c.body.startTag, missed := 0 }
      lost := decide (e.missed = 0) && decide (c.body.startTag ≠ e.startTag)
      restarted := c.cold }
  | some c, .present =>
    { entry := { state := .present, startTag := c.body.startTag, missed := 0 }
      lost := decide (c.body.startTag ≠ e.startTag)
      restarted := decide (c.body.startTag ≠ e.startTag) && c.cold }
  | none, .present =>
    if e.missed + 1 < 4 then { entry := { e with missed := e.missed + 1 } }
    else { entry := { e with state := .absent, missed := 4 }, lost := true }
  | none, .unknown | none, .absent => { entry := e }

/-- The stations whose census lists a slot (R98). -/
def listers (cs : List HeardCensus) (x : Slot) : List Station :=
  (List.finRange 16).filter fun st => cs.any fun c => c.station == st && c.body.held.contains x

/-- The stations that contend for a slot: its listers, and its holder when that is a silent station (R98). A lister under
this station's own number contends as any other, in LISTENING and ISOLATED too, where R102 says that this station never
does (the model's choice, log 60). -/
def contenders (cs : List HeardCensus) (h : Option Station) (x : Slot) : List Station :=
  (List.finRange 16).filter fun st =>
    (listers cs x).contains st ||
      (!(listers cs x).isEmpty && decide (h = some st) && !cs.any fun c => c.station == st)

/-- The holder of a slot after reconciliation (R98). -/
def reconciled (cs : List HeardCensus) (h : Option Station) (x : Slot) : Option Station :=
  match contenders cs h x with
  | st :: _ => some st
  | [] => match h with
    | some st => if (cs.any fun c => c.station == st) then none else some st
    | none => none

/-- A slot with two or more contenders is a slot conflict (R98). -/
def isConflict (cs : List HeardCensus) (h : Option Station) (x : Slot) : Bool :=
  decide (2 ≤ (contenders cs h x).length)

namespace State

/-! ### Station loss (R168 step 1) -/

/-- SLOTS_STATION_LOSS (R101). -/
def slotsLoss (st : Station) (s : State) : State :=
  { s with slots := { s.slots with map := s.slots.map.map fun h => if h = some st then none else h } }

/-- HOME_ENTRY_ABSENT (R37). -/
def planLoss (st : Station) (s : State) : State :=
  match s.calls.plan.get st with
  | .present r => { s with calls := { s.calls with plan := upd s.calls.plan st (.absent r) } }
  | .absent _ | .unknown => s

/-- CALLS_FAR_ABSENT (R68). -/
def callsLoss (st : Station) (s : State) : State :=
  (s.recordsWhere fun k => decide (k.farStation = some st)).foldl
    (fun s r => s.clearQuiet r .farAbsent Cause.farAbsent.tone) s

/-- CONFERENCE_STATION_LOSS (R87). -/
def conferencesLoss (st : Station) (s : State) : State :=
  (List.finRange 6).foldl (fun s e => match s.calls.confs.get e with
    | some c => match c.members.filter fun m => decide (m.station = st) with
      | [] => s
      | gone => s.membersLeave .farAbsent e c.controller gone
    | none => s) s

/-- LISTEN_LANES_STATION_LOSS (R141). -/
def listensLoss (st : Station) (s : State) : State :=
  (List.finRange 48).foldl (fun s l => match s.listen? l with
    | some t =>
      if t.talker = st then
        let s1 := s.closeListen l
        match s1.ownerOf t.owner t.ownerTag with
        | some (r, k) =>
          if k.confRole = .none ∧ !k.isClearing then s1.clearQuiet r .farAbsent Cause.farAbsent.tone else s1
        | none => s1
      else s
    | none => s) s

/-- STATION_LOSS of a peer. The home entry becomes ABSENT first, as the waiters of R32 step 3 read it. -/
def stationLoss (st : Station) (s : State) : State :=
  (((((((s.slotsLoss st).planLoss st).admissionLoss st).cacheLoss st).callsLoss st).conferencesLoss st)).listensLoss
    st

def setPresence (st : Station) (e : Presence) (s : State) : State :=
  s.setHighway { s.highway with presence := upd s.highway.presence st e }

/-! ### Reconciliation (R98, R99, R96) -/

/-- One slot conflict is counted, captured with the census of the highest-numbered lister (R98). -/
def conflictFault (x : Slot) (s : State) : State :=
  match (listers s.highway.censuses x).getLast? with
  | some st =>
    s.recordFault .slotConflict st ((s.highway.censuses.find? fun c => c.station == st).map (·.header))
  | none => s

/-- The lanes ACTIVE on slots that the map does not show held by this station, in ascending order of those slots. -/
def takenLanes (s : State) : List (TalkId × Slot) :=
  (List.finRange 256).flatMap fun x =>
    if s.holder x = some s.self then []
    else ((List.finRange 24).filter fun l => decide (s.activeSlot l = some x)).map fun l => (l, x)

/-- SLOT_TAKEN: a lane whose slot is taken stops writing and enters MOVING (R99 step 2). -/
def loseSlot (l : TalkId) (s : State) : State := s.modTalk l fun t => { t with state := .moving, slot := none }

/-- The first move attempt of a lane that has lost a slot (R99 step 3, R100). -/
def startMove (l : TalkId) (lost : Slot) (s : State) : State :=
  match s.talk? l with
  | some t =>
    if t.state = .moving then
      let o := s.firstMove l lost
      if o.2 then o.1 else o.1.reportNoSlot l
    else s
  | none => s

/-- CENSUS_RECONCILIATION (R97 to R99), and the end of RELEASE entries whose SLOT-FREE was refused before the census
that left their slots out (R96). Several lanes taken at once make their first move attempts in ascending order of the
slots they lost (the model's choice, log 44). The SLOT-CONFLICT faults come in ascending slot and before any QUEUE-FULL
of a refused SLOT-MOVE (the model's choice, log 52). The holder that R98 reads as the frame ended is the map's at the
reconciliation, after the lanes this station closed at the same frame end (the model's choice, log 33). -/
def reconcile (s : State) : State :=
  let cs := s.highway.censuses
  let before := s.slots.map
  let s1 := ((List.finRange 256).filter fun x => isConflict cs (before.get x) x).foldl
    (fun s x => s.conflictFault x) s
  let s2 : State :=
    { s1 with slots := { s1.slots with map := Vector.ofFn fun x => reconciled cs (before.get x) x } }
  let taken := s2.takenLanes
  let s3 := taken.foldl (fun s y => s.loseSlot y.1) s2
  let s4 := (taken.foldl (fun s y => s.startMove y.1 y.2) s3).freeIdleSlots
  s4.setClaims (s4.slots.claims.filter fun e =>
    !(decide (e.kind = .release) && e.refused && e.omitted))

/-! ### Number plan and homeship (R7, R33, R36, R38) -/

/-- HOMESHIP_PURGE (R33) for the numbers whose home differs. Several queries end in ascending place (the model's choice,
log 56). -/
def homeshipPurge (differs : Ext → Bool) (s : State) : State :=
  let s1 := s.cacheFilter fun y => !differs y.ext
  let s2 := (List.finRange 4).foldl (fun s q => match (s.adm.queries.get q).query with
    | some y => if differs y.ext then y.waiters.foldl (fun s r => s.relookup r) (s.endQuery q) else s
    | none => s) s1
  let ended := (List.finRange 4).any fun q => match (s1.adm.queries.get q).query with
    | some y => differs y.ext
    | none => false
  let s3 := if ended then s2.drain else s2
  (List.finRange 24).foldl (fun s p => match s.admitted p with
    | some (e, _, _) => if differs e then s.dropLogin p .homeLost else s
    | none => s) s3

/-- NUMBER_PLAN_UPDATE and HOMESHIP_CHANGE for one census (R36, R38, R7, R33). RANGE-OVERLAP is reported last, after
any QUEUE-FULL of the same handling (the model's choice, log 41). -/
def planCensus (c : HeardCensus) (s : State) : State :=
  let before := s.calls.plan
  let s1 : State := { s with calls := { s.calls with
    plan := upd before c.station (.present { low := c.body.low, length := c.body.length }) } }
  let after := s1.calls.plan
  let differs (n : Ext) : Bool := decide (homeIn before n ≠ homeIn after n)
  let lost := s1.ownNumbers.filter fun n => differs n && decide (homeIn before n = some s.self)
  let s2 := lost.foldl (fun s n => s.evict n .lost .plain) s1
  let s3 := s2.homeshipPurge differs
  if lost.isEmpty then s3 else s3.recordFault .rangeOverlap c.station (some c.header)

/-! ### The commands -/

/-- The peers, ascending. -/
def peers (s : State) : List Station := (List.finRange 16).filter fun st => st != s.self

/-- The census heard from a station in this frame. -/
def censusOf (s : State) (st : Station) : Option HeardCensus :=
  s.highway.censuses.find? fun c => c.station == st

/-- What this frame 0 finds about a peer (R167). -/
def finding (s : State) (st : Station) : PresenceFinding :=
  presenceFinding (s.highway.presence.get st) (s.censusOf st)

/-- The maintenance station of the image. -/
def maintenanceStation (s : State) : Option Station := s.station.image.bind (·.maintenance)

/-- The presence entry of the maintenance station is PRESENT (R171). -/
def maintenancePresent (s : State) : Bool :=
  match s.maintenanceStation with
  | some m => decide ((s.highway.presence.get m).state = .present)
  | none => false

/-- CENSUS: the frame end of frame 0 (R167, R168). An entry of the maintenance station that becomes PRESENT here has
its NOTICE offered at the next frame end (R171, log 49). -/
def takeCensus (s : State) : State :=
  if s.hearing ∧ s.clock.frame = 0 ∧ s.highway.judged = false then
    let found := s.peers.map fun st => (st, s.finding st)
    let s1 := found.foldl (fun s x => s.setPresence x.1 x.2.entry) s
    let s2 := (found.filter fun x => x.2.lost).foldl (fun s x => s.stationLoss x.1) s1
    let s3 := s2.reconcile
    let s4 := (s.peers.filterMap s.censusOf).foldl (fun s c => s.planCensus c) s3
    let s5 := (found.filter fun x => x.2.restarted).foldl (fun s x => s.homeRestart x.1) s4
    (s5.setHighway { s5.highway with censuses := [], judged := true }).setMaint
      { s5.maint with newlyPresent := !s.maintenancePresent && s5.maintenancePresent }
  else s

/-- MISSED_CENSUS_LIMIT: the fourth frame 0 without a census of a PRESENT peer (R167, R168). -/
def missedCensusLimit (st : Station) (s : State) : State :=
  let e := s.highway.presence.get st
  if s.hearing ∧ s.clock.frame = 0 ∧ s.highway.judged = false ∧ st ≠ s.self ∧ e.state = .present ∧
      s.censusOf st = none ∧ 3 ≤ e.missed then
    (s.setPresence st { e with state := .absent, missed := 4 }).stationLoss st
  else s

end State

end Sys2Proof.Machine
end

