-- ==== Sys2Proof/Machine/ListenBoundary.lean ====
section
/-! DEFINITION. The superframe boundary of a listen lane and the limits met there (spec 08, R126 to R138), the
completion of the key mixer (R106), and the KEY cells (R121, R130). -/

namespace Sys2Proof.Machine

open Sys2Proof

/-- What the judgment of a superframe tells outside the lane (R128, R136, R138). -/
inductive Verdict where
  | quiet | pass | fail | exhausted | syncLost
  deriving DecidableEq, Repr

/-- The last figure is set when a figure was judged (R126 step 1). -/
def ListenLane.noteFigure (t : ListenLane) : ListenLane :=
  match t.figure with
  | some f => { t with lastFigure := some f }
  | none => t

/-- A new superframe begins: nothing read yet; the proving clock goes on (R124, R126, R128). -/
def ListenLane.nextSuperframe (t : ListenLane) : ListenLane :=
  { t with framesRead := 0, marksAgreed := 0, provingErrors := 0, provingClock := t.provingClock.map (· - 1) }

/-- The acquisition superframe ends (R128). The count of agreeing marks is its figure, however many frames were
read. -/
def ListenLane.judgeAcquisition (lock : Nat) (t : ListenLane) : ListenLane × Verdict :=
  let t1 := { t with lastFigure := some t.marksAgreed }
  if t.state = .proving ∧ lock ≤ t.marksAgreed then (t1, .quiet) else ({ t1 with provingClock := none }, .fail)

/-- The count superframe ends (R128). -/
def ListenLane.judgeCount (limit : Nat) (t : ListenLane) : ListenLane × Verdict :=
  let t1 := { t.noteFigure with provingClock := none }
  if t.state = .proving ∧ t.provingErrors ≤ limit then (t1.enterLocked, .pass) else (t1, .fail)

/-- A figure in LOCKED (R134). -/
def ListenLane.judgeLocked (loss f : Nat) (t : ListenLane) : ListenLane :=
  if loss ≤ f then { t with lowCount := 0 }
  else if t.lowCount + 1 < 3 then { t with lowCount := t.lowCount + 1 }
  else { t with lowCount := 3 }.enterSearch

/-- The lane locks on its candidate; a previous key that was found changes place with the active one (R136). -/
def ListenLane.lockOn (c : Search) (t : ListenLane) : ListenLane :=
  let t1 : ListenLane := { t with
    slot := c.slot
    active := if c.previous then t.previous else t.active
    previous := if c.previous then t.active else t.previous }
  t1.enterLocked

/-- The first figure after a swap in LOST (R138). -/
def ListenLane.judgeRecovery (lock f : Nat) (t : ListenLane) : ListenLane × Verdict :=
  if lock ≤ f then (t.enterLocked, .quiet)
  else if t.recovery + 1 < 3 then ({ t with recovery := t.recovery + 1 }.enterSearch, .quiet)
  else ({ t with recovery := 3, awaiting := false, syncLost := true }, .syncLost)

/-- Step 2 of R126: the positions of both keys add 1. -/
def ListenLane.advance (t : ListenLane) : ListenLane :=
  { t with
    active := t.active.map fun k => { k with position := k.position + 1 }
    previous := t.previous.map fun k => { k with position := k.position + 1 } }

/-- Step 3 of R126: countdowns are lessened, and a key whose boundary has come is installed (R127, R131, R132). -/
def ListenLane.swap (t : ListenLane) : ListenLane :=
  let t1 : ListenLane := { t with
    staged := t.staged.map fun g => { g with countdown := g.countdown.map (· - 1) }
    request := t.request.map fun q => { q with countdown := q.countdown.map (· - 1) } }
  t1.installOverdue

namespace State

def lockThreshold (s : State) : Nat :=
  match s.station.image with
  | some im => im.lockThreshold
  | none => 60

def lossThreshold (s : State) : Nat :=
  match s.station.image with
  | some im => im.lossThreshold
  | none => 48

def provingLimit (s : State) : Nat :=
  match s.station.image with
  | some im => im.provingLimit
  | none => 8

/-- The candidate of a superframe is judged (R136). Without a figure the candidate stands, unless a KEY-NEXT has
reset the cursor. A candidate at the lock threshold is locked on even where a KEY-NEXT has reset the cursor since, and
the lane's slot is the candidate's again (the model's choice, log 47). -/
def judgeSearch (s : State) (c : Search) (t : ListenLane) : ListenLane × Verdict :=
  match t.figure with
  | some f =>
    if s.lockThreshold ≤ f then (t.lockOn c, .quiet)
    else match s.nextCandidate t c with
      | some c' => ({ t with search := some c' }, .quiet)
      | none => (t, .exhausted)
  | none => (if c.restart then { t with search := some t.phaseOne } else t, .quiet)

/-- The figure of a superframe is judged by the rule of the lane's state (R133, R134, R136, R138). -/
def judgeByState (s : State) (t : ListenLane) : ListenLane × Verdict :=
  let t1 := t.noteFigure
  match t.state, t.figure with
  | .search, _ => match t.search with
    | some c => s.judgeSearch c t1
    | none => (t1, .exhausted)
  | .waitkey, some f =>
    (if s.lockThreshold ≤ f then t1.enterLocked else t1.enterSearch, .quiet)
  | .locked, some f => (t1.judgeLocked s.lossThreshold f, .quiet)
  | .lost, some f => if t.awaiting && !t.syncLost then t1.judgeRecovery s.lockThreshold f else (t1, .quiet)
  | .proving, _ | .waitkey, none | .locked, none | .lost, none => (t1, .quiet)

/-- Step 1 of R126. The proving clock stands at 0 in the acquisition superframe and at −1 in the count
superframe. -/
def judgeLane (s : State) (t : ListenLane) : ListenLane × Verdict :=
  let r := match t.provingClock with
    | some c =>
      if c = 0 then t.judgeAcquisition s.lockThreshold
      else if c < 0 then t.judgeCount s.provingLimit
      else s.judgeByState t
    | none => s.judgeByState t
  (r.1.nextSuperframe, r.2)

/-- The lane as it stands before step 4 when nothing outside it intervenes. -/
def beforeTimer (s : State) (t : ListenLane) : ListenLane := (s.judgeLane t).1.advance.swap

/-- What a lane tells its record or its talker after step 1 (R60, R85, R137). -/
def reportVerdict (l : ListenId) (t : ListenLane) (v : Verdict) (s : State) : State :=
  match v with
  | .quiet => s
  | .exhausted => s.enterLost l
  | .pass => match s.ownerOf t.owner t.ownerTag with
    | some (r, _) => s.provingPass r
    | none => s
  | .fail => match s.ownerOf t.owner t.ownerTag with
    | some (r, _) => s.provingFail r
    | none => s
  | .syncLost => match s.ownerOf t.owner t.ownerTag with
    | some (r, _) => s.syncLost r t.talker t.talkerTag
    | none => s

/-- Step 4 of R126: a running timer is lessened, and an expiry acts by the state (R133, R137). -/
def laneTimer (l : ListenId) (s : State) : State :=
  match s.listen? l with
  | none => s
  | some t => match t.timer with
    | none => s
    | some n =>
      let s1 := s.modListen l fun t => { t with timer := if n ≤ 1 then none else some (n - 1) }
      if n ≤ 1 then match t.state with
        | .waitkey => s1.enterLost l
        | .lost => if t.syncLost then s1 else s1.offerSyncAsk l
        | .proving | .locked | .search => s1
      else s1

/-- The boundary of one lane (R126). A lane that its report has closed takes no further step. -/
def boundaryOf (l : ListenId) (t : ListenLane) (s : State) : State :=
  let r := s.judgeLane t
  let s1 := (s.setListen l r.1).reportVerdict l t r.2
  (s1.modListen l fun t => t.advance.swap).laneTimer l

/-- A lane's boundary when a condition holds at a superframe boundary. -/
def boundaryWhen (l : ListenId) (due : State → ListenLane → Bool) (s : State) : State :=
  match s.listen? l with
  | some t => if s.clock.frame = 63 ∧ due s t then s.boundaryOf l t else s
  | none => s

/-! ### The commands -/

/-- LISTEN_LANE_BOUNDARY (R126). -/
def listenLaneBoundary (l : ListenId) (s : State) : State := s.boundaryWhen l fun _ _ => true

/-- The low-figure count reaches 3 at this boundary (R134). -/
def lowFigureDue (s : State) (t : ListenLane) : Bool :=
  decide (t.state = .locked ∧ (s.judgeLane t).1.state = .search)

/-- The recovery count reaches 3 at this boundary (R138). -/
def recoveryDue (s : State) (t : ListenLane) : Bool := decide ((s.judgeLane t).2 = .syncLost)

/-- The WAITKEY timer runs out at this boundary (R133). -/
def waitkeyDue (s : State) (t : ListenLane) : Bool :=
  decide (t.state = .waitkey ∧ (s.judgeLane t).2 = .quiet ∧ (s.beforeTimer t).state = .waitkey ∧
    (s.beforeTimer t).timer = some 1)

/-- The SYNC-ASK timer runs out at this boundary (R137). -/
def syncAskDue (s : State) (t : ListenLane) : Bool :=
  decide (t.state = .lost ∧ t.syncLost = false ∧ (s.judgeLane t).2 = .quiet ∧
    (s.beforeTimer t).state = .lost ∧ (s.beforeTimer t).timer = some 1)

/-- A staged key's countdown reaches 0 at this boundary (R131). -/
def listenSwapDue (_ : State) (t : ListenLane) : Bool :=
  decide (t.staged.bind (·.countdown) = some 1)

/-- LOW_FIGURE_LIMIT (R134): the boundary of a lane whose third low figure this is. -/
def lowFigureLimit (l : ListenId) (s : State) : State := s.boundaryWhen l lowFigureDue

/-- RECOVERY_LIMIT (R138). -/
def recoveryLimit (l : ListenId) (s : State) : State := s.boundaryWhen l recoveryDue

/-- WAITKEY_TIMER_EXPIRY (R133). -/
def waitkeyTimerExpiry (l : ListenId) (s : State) : State := s.boundaryWhen l waitkeyDue

/-- SYNC_ASK_TIMER_EXPIRY (R137). -/
def syncAskTimerExpiry (l : ListenId) (s : State) : State := s.boundaryWhen l syncAskDue

/-- LISTEN_KEY_SWAP (R131). -/
def listenKeySwap (l : ListenId) (s : State) : State := s.boundaryWhen l listenSwapDue

/-! ### The key mixer's completion (R106) -/

/-- A result reaches its requester where it still stands as the request names it; otherwise it is discarded. -/
def deliverResult (q : MixRequest) (result : Key) (s : State) : State :=
  match q.requester with
  | .login p incarnation step => s.deliverCheck p incarnation step result
  | .talk l opening => if s.talkOpening l = opening then s.deliverTalkKey l result else s
  | .listen l opening =>
    if s.listenOpening l = opening then s.deliverListenKey l result q.nonceA q.nonceB q.count else s

/-- MIXER_COMPLETION: the oldest request that did not join at this frame end (R106). -/
def mixerCompletion (s : State) : State :=
  match s.scr.mixer with
  | [] => s
  | q :: rest =>
    if s.scr.mixerDone ∨ q.fresh then s
    else
      ({ s with scr := { s.scr with mixer := rest, mixerDone := true } }).deliverResult q
        (Config.mixer q.key q.nonceA q.nonceB (BitVec.ofNat 16 q.count))

/-! ### KEY cells (R121, R130) -/

def actKeyNext (x : Stored) (s : State) : State :=
  match x.cell.body with
  | .keyNext slot talker partner count lead =>
    s.keyNextAtLanes x.cell.source x.cell.sender slot talker partner count ((lead : Int) - (x.stamp : Int))
  | _ => s

/-- The answer GONE (R121): it changes no record. -/
def answerGone (c : Cell) (s : State) : State :=
  s.offerSkip (s.cellTo c.source c.receiver c.sender (.callClear .gone)) .plain

/-- SYNC-ASK at the talker (R121). -/
def actSyncAsk (x : Stored) (s : State) : State :=
  match x.cell.body with
  | .syncAsk slot =>
    if x.cell.receiver = Tag.absent then s
    else match (s.recordOf x.cell.receiver).bind s.call? with
      | none => s.answerGone x.cell
      | some k =>
        if k.isClearing then s
        else match k.talkLane with
          | none => s
          | some l => match s.talk? l with
            | none => s
            | some t =>
              if t.state = .claiming then s
              else (s.modTalk l fun t => { t with lastAsked := some slot }).rekeyTrigger l none
  | _ => s

end State

end Sys2Proof.Machine
end

