-- ==== Sys2Proof/Machine/Ports.lean ====
section
/-! DEFINITION. The line ports: set frames, training, latches, offers and the enable (spec 09, R143 to R155; R188).
What a taken event does stands with its taker. -/

namespace Sys2Proof.Machine

open Sys2Proof

/-- A latched event of a port (R150). -/
inductive PortEvent where
  | lineLoss
  | admission (m : AdmissionMessage)
  | hook (h : Hook)
  | key (k : FeatureKey)
  | digit (d : Digit)
  deriving DecidableEq, Repr

/-- Priorities of the events (R150). -/
def PortEvent.priority : PortEvent → Nat
  | .lineLoss => 7
  | .admission _ => 6
  | .hook .on => 5
  | .hook .off => 4
  | .key _ => 3
  | .digit _ => 2

/-- The latched events in the order of their priorities: each latch holds at most one that may be offered (R150). -/
def PortUnit.latched (u : PortUnit) : List PortEvent :=
  (if u.lineLoss then [.lineLoss] else []) ++ (u.admission.map PortEvent.admission).toList ++
    (u.hook.map PortEvent.hook).toList ++ (u.keys.head?.map PortEvent.key).toList ++
    (u.digits.head?.map PortEvent.digit).toList

/-- The hook latch after a hook message (R147). -/
def PortUnit.latchHook (u : PortUnit) (h : Hook) : PortUnit :=
  { u with hook := if u.reportedHook = h then none else some h }

/-- The admission latch is filled or replaced (R148). -/
def PortUnit.latchAdmission (u : PortUnit) (m : AdmissionMessage) : PortUnit :=
  { u with
    admission := some m
    replacedCount := if u.admission.isSome then saturate 255 u.replacedCount else u.replacedCount }

/-- A feature key joins the key latches unless it is latched (R148). -/
def PortUnit.latchKey (u : PortUnit) (k : FeatureKey) : PortUnit :=
  { u with keys := if u.keys.contains k then u.keys else u.keys ++ [k] }

/-- Latches, FIFO and outbound list are emptied, and an open message is discarded (R145, R188). -/
def PortUnit.emptied (u : PortUnit) : PortUnit :=
  { u with admission := none, hook := none, keys := [], digits := [], outbound := [], openMessage := none }

/-- The port enters UP (R144). -/
def PortUnit.enterUp (u : PortUnit) : PortUnit :=
  { u.emptied with
    state := .up, good := 4, bad := 0, reportedHook := .on, tone := .none, ring := false, lineLoss := false }

/-- An offered event leaves its latch; a hook event sets the reported hook, and ON-HOOK empties the FIFO (R149,
R150). -/
def PortUnit.release (u : PortUnit) (e : PortEvent) : PortUnit :=
  let u1 := { u with offered := true }
  match e with
  | .lineLoss => { u1 with lineLoss := false, lineLossCount := saturate 255 u.lineLossCount }
  | .admission _ => { u1 with admission := none }
  | .hook .on => { u1 with hook := none, reportedHook := .on, digits := [] }
  | .hook .off => { u1 with hook := none, reportedHook := .off }
  | .key _ => { u1 with keys := u.keys.drop 1 }
  | .digit _ => { u1 with digits := u.digits.drop 1 }

namespace State

/-! ### Line messages (R147 to R149) -/

/-- An action of a port in UP; a message at any other port is discarded. -/
def whenUp (p : Port) (f : State → State) (s : State) : State := if (s.port p).state = .up then f s else s

def hookMessage (p : Port) (h : Hook) (s : State) : State :=
  s.whenUp p fun s => s.modPort p fun u => u.latchHook h

/-- An admission message arrives: a LOGIN-REQ above 9999 is discarded (R188), and one at a locked-out port draws
LOGIN-RESULT LOCKED (R148). -/
def admissionMessage (p : Port) (m : AdmissionMessage) (s : State) : State :=
  s.whenUp p fun s => match m with
    | .loginReq e =>
      if 9999 < e then s
      else
        let s1 := s.modPort p fun u => u.latchAdmission m
        if (s.login p).lockedOut then s1.sendResult p .locked else s1
    | .response _ | .logout => s.modPort p fun u => u.latchAdmission m

def keyMessage (p : Port) (k : FeatureKey) (s : State) : State :=
  s.whenUp p fun s => s.modPort p fun u => u.latchKey k

/-- A digit joins the FIFO, or is discarded as DIGIT-OVERRUN (R149). -/
def digitMessage (p : Port) (d : Digit) (s : State) : State :=
  s.whenUp p fun s =>
    if (s.port p).digits.length < 16 then s.modPort p fun u => { u with digits := u.digits ++ [d] }
    else s.recordFault .digitOverrun s.self none

def lineMessage (p : Port) (m : LineMessage) (s : State) : State :=
  match m with
  | .digit d => s.digitMessage p d
  | .key k => s.keyMessage p k
  | .hook h => s.hookMessage p h
  | .admission m => s.admissionMessage p m

/-- MESSAGE_OCTET (R188): at a port in UP. -/
def messageOctet (p : Port) (octet : Byte) (s : State) : State :=
  match (s.port p).openMessage with
  | some m =>
    let octets := m.octets ++ [octet]
    if octets.length < payloadLength m.code then
      s.modPort p fun u => { u with openMessage := some { m with octets := octets } }
    else (s.modPort p fun u => { u with openMessage := none }).admissionMessage p (closeMessage m.code octets)
  | none => match decodeCodeOctet octet with
    | .message m => s.lineMessage p m
    | .opens => s.modPort p fun u => { u with openMessage := some { code := octet, octets := [] } }
    | .idle => s

/-! ### Set frames (R144, R153, R155, R188) -/

/-- The port hears set frames: not DISABLED, in a station state in which ports train (R143, R144). -/
def portHears (s : State) (p : Port) : Bool := s.hearing && decide ((s.port p).state ≠ .disabled)

/-- SET_FRAME_NOT_RECEIVED (R155, R188). -/
def setFrameMissed (p : Port) (s : State) : State :=
  s.modPort p fun u => { u with talkSample := 0, openMessage := none, heard := true }

/-- A set frame with a good check (R144, R155, R188). -/
def goodSetFrame (p : Port) (sample octet : Byte) (s : State) : State :=
  let s1 := s.modPort p fun u => { u with setFrames := u.setFrames + 1, heard := true }
  match (s.port p).state with
  | .up => (s1.modPort p fun u => { u with talkSample := sample }).messageOctet p octet
  | .down =>
    if (s.port p).lineLoss then s1 else s1.modPort p fun u => { u with state := .training, good := 0 }
  | .training | .disabled => s1

/-- SET_FRAME_RECEIVED: a frame with a bad check counts as not received (R155). Of two set frames heard in one shelf
frame the later gives the talk sample, a bad check's silence code too: the model's choice (log 69). -/
def setFrameReceived (p : Port) (sample octet check : Byte) (s : State) : State :=
  if s.portHears p then
    if check8 [sample, octet] = check then s.goodSetFrame p sample octet else s.setFrameMissed p
  else s

/-- The set frame a port sends (R153). -/
def PortUnit.outFrame (u : PortUnit) : Option (List Byte) :=
  match u.state with
  | .disabled => none
  | .down | .training => some (setFrameBytes 0 .none false none)
  | .up => some (setFrameBytes u.listenSample u.tone u.ring u.outbound.head?)

/-- SET_FRAME_SENT (R153): the oldest message leaves the outbound list. -/
def setFrameSent (p : Port) (s : State) : State :=
  s.modPort p fun u => { u with
    frameOut := PortUnit.outFrame u
    outbound := if u.state = .up then u.outbound.drop 1 else u.outbound }

/-! ### Leaving UP and the enable (R145, R146) -/

/-- The port leaves UP: latches emptied, hook, tone and ring at rest, the user logged out (R145). The state has
changed first, so the tones of the clearings are discarded. The bad count is kept (log 29). -/
def leaveUp (p : Port) (st : PortState) (loss : Bool) (s : State) : State :=
  let s1 := s.modPort p fun u => { u.emptied with
    state := st, good := if loss then 0 else u.good, lineLoss := loss, reportedHook := .on, tone := .none,
    ring := false, talkSample := 0 }
  (s1.logOut p).modCallPort p fun c => { c with hookView := .on }

/-- PORT-ENABLE (R146). The bad count is kept: the model's choice (log 29). -/
def enablePort (p : Port) (s : State) : State :=
  if (s.port p).state = .disabled then
    s.modPort p fun u => { u with enable := true, state := .down, good := 0, lineLoss := false }
  else s.modPort p fun u => { u with enable := true }

/-- PORT-DISABLE (R146). The good and bad counts are kept: the model's choice (log 29). -/
def disablePort (p : Port) (s : State) : State :=
  let s1 := s.modPort p fun u => { u with enable := false }
  match (s.port p).state with
  | .up => s1.leaveUp p .disabled false
  | .down | .training => s1.modPort p fun u => { u.emptied with state := .disabled, lineLoss := false }
  | .disabled => s1

/-! ### Training (R144) -/

/-- The judgment of a superframe, by the state of the port (R144). The good count that READ-PORT sends after TRAINING has
returned to DOWN is the one it had: the model's choice, as for every count that no rule changes (log 29). -/
def judgeTraining (p : Port) (s : State) : State :=
  let u := s.port p
  let good := goodSuperframe u.setFrames
  let s1 := s.modPort p fun u => { u with setFrames := 0 }
  match u.state with
  | .training =>
    if good then
      if u.good + 1 < 4 then s1.modPort p fun u => { u with good := u.good + 1 }
      else s1.modPort p PortUnit.enterUp
    else if u.setFrames = 0 then s1.modPort p fun u => { u with state := .down }
    else s1.modPort p fun u => { u with good := 0 }
  | .up =>
    if good then s1.modPort p fun u => { u with bad := 0 }
    else if u.bad + 1 < 8 then s1.modPort p fun u => { u with bad := u.bad + 1 }
    else (s1.modPort p fun u => { u with bad := 8 }).leaveUp p .down true
  | .down | .disabled => s1

/-- A judgment when a condition holds at a superframe boundary, in the station states in which ports train. A
DISABLED port has nothing to judge, but its count of set frames is of the present superframe too (R143). -/
def trainingWhen (p : Port) (due : PortUnit → Bool) (s : State) : State :=
  if s.clock.frame = 63 ∧ s.hearing ∧ due (s.port p) then s.judgeTraining p else s

/-- The good count reaches 4 at this boundary. -/
def goodLimitDue (u : PortUnit) : Bool := decide (u.state = .training ∧ 3 ≤ u.good) && goodSuperframe u.setFrames

/-- The bad count reaches 8 at this boundary. -/
def badLimitDue (u : PortUnit) : Bool := decide (u.state = .up ∧ 7 ≤ u.bad) && !goodSuperframe u.setFrames

/-- PORT_TRAINING_JUDGMENT. -/
def portTrainingJudgment (p : Port) (s : State) : State := s.trainingWhen p fun _ => true

/-- GOOD_COUNT_LIMIT: the judgment that takes a port to UP. -/
def goodCountLimit (p : Port) (s : State) : State := s.trainingWhen p goodLimitDue

/-- BAD_COUNT_LIMIT: the judgment that takes a port from UP (R145). -/
def badCountLimit (p : Port) (s : State) : State := s.trainingWhen p badLimitDue

/-! ### Offers (R150, R151) -/

/-- The front record holds back digits: in ROUTING or OFFERING, or in ALERTING while its talk lane claims (R151,
fourth row). -/
def frontHolds (s : State) (p : Port) : Bool :=
  match (s.front p).bind s.call? with
  | some k => k.holdsDigits || (decide (k.state = .alerting) &&
      ((k.talkLane.bind s.talk?).any fun t => decide (t.state = .claiming)))
  | none => false

/-- The acceptance level of a port (R151). -/
def level (s : State) (p : Port) : Nat :=
  if !s.active then 7
  else if (s.login p).lockedOut then 6
  else match s.loginBody p with
    | some (.challenging ..) | some (.confirming _) => 5
    | some (.admitted ..) | none => if s.frontHolds p then 2 else 1

/-- The event a port offers at this frame end; it offers one at most (R150). -/
def dueEvent (s : State) (p : Port) : Option PortEvent :=
  if (s.port p).offered then none else (s.port p).latched.find? fun e => decide (s.level p < e.priority)

/-- An offered event is taken: it leaves its latch, and its taker acts. An event of another kind stays latched
(log 2). -/
def takeOffer (p : Port) (taker : PortEvent → Option (State → State)) (s : State) : State :=
  match s.dueEvent p with
  | some e => match taker e with
    | some act => act (s.modPort p fun u => u.release e)
    | none => s
  | none => s

/-- LINE_LOSS taken: the burst timer stops (R150). -/
def takeLineLoss (p : Port) (s : State) : State :=
  s.takeOffer p fun e => match e with
    | .lineLoss => some fun s => s.modCallPort p fun c => { c with burst := none }
    | _ => none

def takeAdmission (p : Port) (act : AdmissionMessage → Option (State → State)) (s : State) : State :=
  s.takeOffer p fun e => match e with
    | .admission m => act m
    | _ => none

def takeHook (p : Port) (h : Hook) (act : State → State) (s : State) : State :=
  s.takeOffer p fun e => if e = .hook h then some act else none

def takeKeyEvent (p : Port) (k : FeatureKey) (s : State) : State :=
  s.takeOffer p fun e => if e = .key k then some fun s => s.takeKey p k else none

def takeDigitEvent (p : Port) (s : State) : State :=
  s.takeOffer p fun e => match e with
    | .digit d => some fun s => s.takeDigit p d
    | _ => none

end State

end Sys2Proof.Machine
end

