-- ==== Sys2Proof/Machine/Voice.lean ====
section
/-! DEFINITION. One frame of voice: the talk lanes write their slots, the listen lanes read theirs, the port mixers
sum (R114, R115, R126, R128, R139, R140). -/

namespace Sys2Proof.Machine

open Sys2Proof

/-- What is written into a slot in one frame: slot, sample, mark. -/
abbrev SlotWrite := Slot × Byte × Bool

/-- Bits that differ between two samples. -/
def bitErrors (a b : Byte) : Nat := (List.range 8).countP fun i => (a ^^^ b).getLsbD i

/-- A sum of samples clamped to what the sample coding carries (R139; spec 12, voice slot). -/
def clampSample (n : Int) : Byte := BitVec.ofInt 8 (max (-128) (min 127 n))

/-- A sample or mark under a key at a frame: keystream byte and sync bit (R114). -/
def keystreamAt (k : Key) (position : Word16) (f : Fin 64) : Byte := Config.keystream k position f

def syncBitAt (k : Key) (position : Word16) (f : Fin 64) : Bool := (Config.syncWord k position).getLsbD f.val

/-- What a talk lane writes, by its state, its key and its send mode (R115); `voice` is its port's talk sample. -/
def TalkLane.writes (t : TalkLane) (voice : Byte) (f : Fin 64) : Option SlotWrite :=
  match t.state, t.slot with
  | .active, some x => match t.activeKey with
    | none => some (x, 0, false)
    | some k =>
      let plain : Byte := match t.mode with
        | .voice => voice
        | .prove => Config.provingByte f
        | .silence => 0
      some (x, plain ^^^ keystreamAt k t.position f, syncBitAt k t.position f)
  | .active, none | .claiming, _ | .moving, _ => none

/-- The sample a lane recovers, with whether the mark agreed (R126). -/
def recovered (bus : List (Byte × Bool)) (f : Fin 64) (x : Slot) (k : ListenKey) : Byte × Bool :=
  let heard := bus.getD x.val (0, false)
  (heard.1 ^^^ keystreamAt k.key k.position f, heard.2 == syncBitAt k.key k.position f)

/-- Mark counting: LOCKED and PROVING lanes compare marks in their counters (R140). -/
def Counters.mark (c : Counters) (agreed : Bool) : Counters :=
  { c with
    frames := saturate 4294967295 c.frames
    markErrors := if agreed then c.markErrors else saturate 65535 c.markErrors }

/-- Proving bits compared, 8 per frame (R140). -/
def Counters.proving (c : Counters) (errors : Nat) : Counters :=
  { c with
    provingBits := min (c.provingBits + 8) 65535
    provingErrors := min (c.provingErrors + errors) 65535 }

/-- One frame read by a lane (R126, R128, R140). -/
def ListenLane.readFrame (t : ListenLane) (bus : List (Byte × Bool)) (f : Fin 64) : ListenLane :=
  match t.reads with
  | none => t
  | some (x, k) =>
    let r := recovered bus f x k
    let t1 := { t with
      framesRead := t.framesRead + 1
      marksAgreed := if r.2 then t.marksAgreed + 1 else t.marksAgreed }
    let errors := bitErrors r.1 (Config.provingByte f)
    match t.state with
    | .locked => if t.frozen then t1 else { t1 with counters := t.counters.mark r.2 }
    | .proving =>
      let t2 := { t1 with provingErrors := min (t.provingErrors + errors) 512 }
      if t.frozen then t2 else { t2 with counters := (t.counters.mark r.2).proving errors }
    | .waitkey | .search | .lost => t1

/-- What a lane passes to the port of a CONNECTED front record (R139). -/
def ListenLane.passes (t : ListenLane) (bus : List (Byte × Bool)) (f : Fin 64) : Option Byte :=
  if t.state = .locked then t.reads.map fun r => (recovered bus f r.1 r.2).1 else none

namespace State

/-- The talk sample of the port of a lane's owner record. -/
def ownerVoice (s : State) (t : TalkLane) : Byte :=
  match s.call? t.owner with
  | some k => (s.port k.port).talkSample
  | none => 0

/-- The slots written in this frame (R115). -/
def slotWrites (s : State) : List SlotWrite :=
  (List.finRange 24).filterMap fun l =>
    (s.talk? l).bind fun t => t.writes (s.ownerVoice t) s.clock.frame

/-- The sum of the samples that pass to a port, the silence code where none does (R139). -/
def portSample (s : State) (bus : List (Byte × Bool)) (p : Port) : Byte :=
  match s.front p with
  | none => 0
  | some r => match s.call? r with
    | none => 0
    | some k =>
      if k.state = .connected then
        clampSample ((k.listenLanes.filterMap fun l =>
          (s.listen? l).bind fun t => t.passes bus s.clock.frame).map fun b => b.toInt).sum
      else 0

/-- READING_THE_SLOT: one frame of voice. `bus` holds the 256 slots as the backplane carries them (log 13). -/
def readSlots (bus : List (Byte × Bool)) (s : State) : State :=
  let listen := s.scr.listen.map fun pl => { pl with lane := pl.lane.map fun t => t.readFrame bus s.clock.frame }
  { s with
    scr := { s.scr with slotsOut := s.slotWrites, listen := listen }
    ports := Vector.ofFn fun p => { s.port p with listenSample := s.portSample bus p } }

end State

end Sys2Proof.Machine
end

