-- ==== Sys2Proof/Machine/Resets.lean ====
section
/-! DEFINITION. Cold reset, loading, listening, warm reset and isolation (spec 11, R173 to R178, R186; spec 10, R166;
the reset tables of every chapter). -/

namespace Sys2Proof.Machine

open Sys2Proof

/-! ### Overlaps of divert entries (R39) -/

/-- Two enabled entries share a number. -/
def DivertEntry.overlaps (a b : DivertEntry) : Bool := a.enable && b.enable && decide (a.low ≤ b.high ∧ b.low ≤ a.high)

/-- The entries in ascending index, each disabled when it overlaps an enabled entry before it. -/
def resolveDiverts : List DivertEntry → List DivertEntry → List DivertEntry
  | done, [] => done
  | done, d :: rest =>
    resolveDiverts (done ++ [if done.any fun e => e.overlaps d then { d with enable := false } else d]) rest

/-- The divert table after the overlap step. -/
def resolvedTable (v : Vector DivertEntry 8) : Vector DivertEntry 8 :=
  Vector.ofFn fun i => (resolveDiverts [] v.toList).getD i.val {}

/-- How many entries the overlap step disables. -/
def disabledCount (v : Vector DivertEntry 8) : Nat :=
  (v.toList.filter (·.enable)).length - ((resolvedTable v).toList.filter (·.enable)).length

/-! ### Values after a reset -/

/-- The image's enable of a port (R146). -/
def Image.enables (im : Image) (p : Port) : Bool := im.mask.getLsbD p.val

/-- A port once the image stands: DOWN if enabled, DISABLED otherwise (R156). -/
def PortUnit.afterLoad (im : Image) (p : Port) : PortUnit :=
  { state := if im.enables p then .down else .disabled, enable := im.enables p }

/-- A port after a warm reset: its two counts are kept (R156). -/
def PortUnit.afterWarm (im : Image) (p : Port) (u : PortUnit) : PortUnit :=
  { PortUnit.afterLoad im p with lineLossCount := u.lineLossCount, replacedCount := u.replacedCount }

/-- A presence entry after a warm reset (R172). -/
def Presence.afterWarm (e : Presence) : Presence :=
  match e.state with
  | .unknown => e
  | .present | .absent => { e with state := .absent, missed := 0 }

/-- A home entry of a peer after a warm reset (R45). -/
def HomeEntry.afterWarm : HomeEntry → HomeEntry
  | .unknown => .unknown
  | .present r => .absent r
  | .absent r => .absent r

/-- A home record after a warm reset of its own station (R21). -/
def HomeRecord.afterWarm (self : Station) (h : HomeRecord) : HomeRecord :=
  if h.location.map (·.1) = some self then { h with location := none, epoch := h.epoch + 1 } else h

namespace State

/-! ### Cold reset and loading (R174 to R176) -/

/-- COLD_RESET: every piece of state takes its cold value; the nonce source takes a new starting state. The shelf's
clock and the queue of commands are not the station's to reset (log 5). -/
def coldReset (s : State) : State :=
  { State.reset with
    clock := s.clock
    pending := s.pending
    scr := { nonceSeed := s.scr.nonceSeed + 1 } }

/-- The station enters HALTED with its fault output lit (R173). -/
def halt (s : State) : State := { s with station := { s.station with state := .halted, faultOutput := true } }

/-- READ_FAILURE, in LOADING (R174). -/
def readFailure (s : State) : State := if s.station.state = .loading then s.halt else s

/-- RANGE-OVERLAP for each of `n` entries disabled, without a header (R39). -/
def overlapFaults : Nat → State → State
  | 0, s => s
  | n + 1, s => overlapFaults n (s.recordFault .rangeOverlap s.self none)

/-- IMAGE_DISTRIBUTION (R176). -/
def distribute (im : Image) (s : State) : State :=
  let s1 : State := { s with
    station := { s.station with image := some im, listeningCount := 0, sinceFrame0 := false, entered := true }
    calls := { s.calls with
      plan := upd s.calls.plan im.station (.present im.range)
      diverts := resolvedTable im.diverts }
    adm := { s.adm with
      homes := List.replicate im.range.length
        { location := none, rights := im.defaultRights, barred := false, epoch := 0 } }
    ports := Vector.ofFn fun p => PortUnit.afterLoad im p }
  let s2 := s1.overlapFaults (disabledCount im.diverts)
  let d := s2.drawNonce
  { d.1 with station := { d.1.station with
      state := .listening, faultOutput := false, startTag := d.2.setWidth 16 } }

/-- READ_COMPLETION, in LOADING: the image is checked, then distributed or the station halts (R175). -/
def readCompletion (image : List Byte) (s : State) : State :=
  if s.station.state = .loading then match decodeImage image with
    | some im => s.distribute im
    | none => s.halt
  else s

/-! ### Listening (R177) -/

/-- LISTENING_COUNT_LIMIT: the count stands at 2 at a superframe boundary. -/
def listeningCountLimit (s : State) : State :=
  if s.station.state = .listening ∧ s.clock.frame = 63 ∧ 2 ≤ s.station.listeningCount then
    { s with station := { s.station with state := .active, faultOutput := false } }
  else s

/-! ### Warm reset (R178) -/

/-- Every piece of state takes its warm value; the image is kept. -/
def warmValues (im : Image) (s : State) : State :=
  { s with
    station := { s.station with
      state := .listening, startTag := s.station.startTag + 1, listeningCount := 0, sinceFrame0 := false,
      entered := true, faultOutput := false }
    highway := { s.highway with
      queue := [], chosen := none, sent := none, windowOut := none, store := [], refusals := [],
      slotCells := [], censuses := [], refusesHeard := [],
      presence := s.highway.presence.map Presence.afterWarm }
    slots := {}
    ports := Vector.ofFn fun p => (s.port p).afterWarm im p
    adm := {
      logins := s.adm.logins.map fun l => { incarnation := l.incarnation }
      homes := s.adm.homes.map (HomeRecord.afterWarm im.station)
      queries := s.adm.queries.map fun q => { incarnation := q.incarnation } }
    calls := {
      plan := Vector.ofFn fun st =>
        if st = im.station then s.calls.plan.get st else (s.calls.plan.get st).afterWarm
      diverts := s.calls.diverts
      records := s.calls.records.map fun r => { incarnation := r.incarnation } }
    scr := { nonceSeed := s.scr.nonceSeed, noncesGiven := s.scr.noncesGiven, mixerDone := s.scr.mixerDone }
    maint := { pending := s.maint.pending } }

/-- WARM_RESET (R178). -/
def warmReset (s : State) : State :=
  match s.station.image with
  | some im => s.warmValues im
  | none => s

/-! ### Isolation (R166, R69, R86, R102, R141) -/

/-- Every record in use is freed with cause ISOLATED, in ascending number, and no cell is sent (R69). -/
def freeAllRecords (s : State) : State :=
  (s.recordsWhere fun _ => true).foldl (fun s r => s.clearQuiet r .isolated Cause.isolated.tone) s

/-- ENTER_ISOLATED (R166). The state changes first, so that what the clearings offer is refused without a count. -/
def enterIsolated (s : State) : State :=
  let s1 : State := { s with
    station := { s.station with state := .isolated, faultOutput := true }
    highway := { s.highway with
      queue := [], chosen := none, sent := none, windowOut := none, store := [], refusals := [] }
    maint := { s.maint with queued := false, restartDue := false } }
  let s2 := s1.freeAllRecords
  let map := s2.slots.map.map fun h => if h = some s.self then none else h
  { s2 with slots := { s2.slots with map := map, claims := [] } }

end State

end Sys2Proof.Machine
end

