-- ==== Sys2Proof/Machine/Highway.lean ====
section
/-! DEFINITION. The Highway Interface: the own window, the carried report, the choice, the windows heard, refusals
and the offer of a NOTICE (spec 10, R157 to R166, R171). -/

namespace Sys2Proof.Machine

open Sys2Proof

/-- A sender tag that is a call tag of this station: its index is below 64 (R160). -/
def isCallTag (t : Tag) : Bool := decide (t.index.toNat < 64)

/-- A CALL or KEY cell under a call tag (R160). -/
def Cell.ordered (c : Cell) : Bool :=
  (decide (c.body.cellClass = .call) || decide (c.body.cellClass = .key)) && isCallTag c.sender

/-- An older cell of the same record holds this one back (R160). -/
def heldBack (older : List Queued) (q : Queued) : Bool :=
  q.cell.ordered && older.any fun o => o.cell.ordered && decide (o.cell.sender = q.cell.sender)

/-- The eligible cells of the queue, oldest first; `older` are those in front of the rest (R160). -/
def eligible : List Queued → List Queued → List Queued
  | _, [] => []
  | older, q :: rest => if heldBack older q then eligible (older ++ [q]) rest else q :: eligible (older ++ [q]) rest

/-- The choice: the oldest eligible cell of the first class that holds one (R160). -/
def choose (queue : List Queued) : Option Queued :=
  CellClass.order.findSome? fun c => (eligible [] queue).find? fun q => decide (q.cell.body.cellClass = c)

/-- The REFUSE of a cell (R163). -/
def refuseOf (c : Cell) (self : Station) (cause : RefuseCause) : Cell :=
  { source := self, dest := .one c.source, receiver := c.sender, body := .refuse c.body.kind c.sender cause }

namespace State

/-! ### The own window (R157, R158) -/

/-- The census as frame 0 begins (R158). -/
def censusCell (s : State) : Cell :=
  let range : Range := match s.station.image with
    | some im => im.range
    | none => ⟨0, 1⟩
  { s.cellToAll (.census {
      low := range.low, length := range.length, startTag := s.station.startTag,
      held := (s.slotsOf s.self).take 24 }) with
    cold := decide (s.highway.censusCount < 4) }

/-- SEND_CENSUS (R158). RELEASE entries whose SLOT-FREE was refused stand on a slot that this census leaves out
(R96). -/
def sendCensus (s : State) : State :=
  let s1 := s.setHighway { s.highway with
    windowOut := some s.censusCell.encode, sent := none, censusCount := min (s.highway.censusCount + 1) 4 }
  s1.setClaims (s1.slots.claims.map fun e =>
    if e.kind = .release ∧ e.refused then { e with omitted := true } else e)

/-- The cell chosen for this frame is sent, or the window is left empty (R157). -/
def sendChosen (s : State) : State :=
  s.setHighway { s.highway with
    windowOut := s.highway.chosen.map fun q => q.cell.encode
    sent := s.highway.chosen
    chosen := none }

/-- SEND_WINDOW (R157). -/
def sendWindow (s : State) : State :=
  if s.active then (if s.clock.frame = 0 then s.sendCensus else s.sendChosen)
  else s.setHighway { s.highway with windowOut := none, sent := none }

/-! ### The carried report (R157) -/

/-- What a carried cell brings to the block that offered it. -/
def carriedReport (n : OfferName) (s : State) : State :=
  match n with
  | .plain => s
  | .slotCell c => s.slotCellCarried c
  | .keyNext l opening => s.keyNextCarried l opening
  | .callConnect r incarnation => s.callConnectCarried r incarnation
  | .clearing r incarnation => s.clearCarried r incarnation
  | .notice => s.setMaint { s.maint with queued := false }
  | .restartReply => if s.active ∧ s.maint.restartDue then s.warmReset else s

/-- CELL_CARRIED: the cell sent in this frame is reported once. -/
def cellCarried (s : State) : State :=
  match s.highway.sent with
  | some q => (s.setHighway { s.highway with sent := none }).carriedReport q.name
  | none => s

/-! ### The choice (R160) -/

/-- TRANSMIT_CHOICE, at the frame ends of frames 0 to 62. -/
def transmitChoice (s : State) : State :=
  if s.active ∧ s.clock.frame ≠ 63 ∧ s.highway.chosen = none then match choose s.highway.queue with
    | some q => s.setHighway { s.highway with queue := s.highway.queue.erase q, chosen := some q }
    | none => s
  else s

/-! ### Refusals (R161, R163, R164) -/

/-- A STORE-FULL refusal joins the refusal list while ACTIVE, or is dropped as REFUSE-LOST (R163). -/
def listRefusal (c : Cell) (header : List Byte) (s : State) : State :=
  if s.active then
    if s.highway.refusals.length < 4 then
      s.setHighway { s.highway with refusals := s.highway.refusals ++ [refuseOf c s.self .storeFull] }
    else s.recordFault .refuseLost c.source (some header)
  else s

/-- STORE_PLACEMENT (R161). -/
def placeCell (c : Cell) (cls : StoreClass) (header : List Byte) (s : State) : State :=
  if s.station.state = .isolated then s
  else if s.hasBuffer cls then s.storeCell c header
  else
    let s1 := s.recordFault .storeFull c.source (some header)
    if c.dest = .one s.self then s1.listRefusal c header else s1

/-- The cells of the refusal list are offered, oldest first, until one is refused; a refusal is not counted
(R163). -/
def offerRefusals : List Cell → State → State
  | [], s => s
  | c :: rest, s =>
    if s.accepts c.body then
      offerRefusals rest ((s.enqueue ⟨c, .plain⟩).setHighway
        { (s.enqueue ⟨c, .plain⟩).highway with refusals := rest })
    else s

/-- REFUSAL_LIST_OFFER (R163). -/
def refusalListOffer (s : State) : State := s.offerRefusals s.highway.refusals

/-- A REFUSE is handed to the block that owns the refused kind (R164). Kinds that no row names are discarded, and so
are those whose own rule changes nothing. -/
def handRefuse (c : Cell) (s : State) : State :=
  match c.body with
  | .refuse kind tag _ =>
    if kind = 0x10 ∨ kind = 0x12 then s.admitRefused kind tag
    else if kind = 0x20 ∨ kind = 0x21 ∨ kind = 0x22 ∨ kind = 0x25 then s.callRefused kind c.source tag
    else s
  | _ => s

/-- REFUSE: the oldest heard in this frame (R164). Several of one frame act in the order heard: the model's choice
(log 8). -/
def takeRefuse (s : State) : State :=
  match s.highway.refusesHeard with
  | [] => s
  | c :: rest => (s.setHighway { s.highway with refusesHeard := rest }).handRefuse c

/-! ### Windows heard (R165, R166) -/

/-- A cell arrival goes on by its class (R165 step 6). -/
def arrive (c : Cell) (header : List Byte) (s : State) : State :=
  match c.body with
  | .census b => s.setHighway { s.highway with
      censuses := s.highway.censuses ++ [{ station := c.source, cold := c.cold, header := header, body := b }] }
  | .slot x => s.setHighway { s.highway with slotCells := s.highway.slotCells ++ [(c.source, x)] }
  | .refuse .. => s.setHighway { s.highway with refusesHeard := s.highway.refusesHeard ++ [c] }
  | b => match b.cellClass.store with
    | some cls => s.placeCell c cls header
    | none => s

/-- The destination check: SLOT cells and censuses are taken whatever their destination (R165 step 6). -/
def isFor (s : State) (c : Cell) : Bool :=
  decide (c.body.cellClass = .slot) || decide (c.dest = .all) || decide (c.dest = .one s.self)

def checkDestination (c : Cell) (header : List Byte) (s : State) : State :=
  if s.isFor c then s.arrive c header else s

/-- The kind belongs to the frame: a census in frame 0, any other kind in frames 1 to 63 (R165 step 4). -/
def kindFits (s : State) (c : Cell) : Bool :=
  match c.body with
  | .census _ => decide (s.clock.frame = 0)
  | _ => decide (s.clock.frame ≠ 0)

/-- Steps 4 to 6 of R165. The source compared is that of the header. -/
def checkKind (w : Station) (bytes : List Byte) (s : State) : State :=
  let header := padTo 8 bytes
  match decodeCell w bytes with
  | some c =>
    if s.kindFits c then
      if byteAt bytes 1 = byteOf w.val then s.checkDestination c header
      else s.recordFault .wrongWindow w (some header)
    else s.recordFault .badKind w (some header)
  | none => s.recordFault .badKind w (some header)

/-- The read-back of the own window (R166): it passes on to step 6, or it is a clash. -/
def readBack (w : Station) (bytes : List Byte) (s : State) : State :=
  let header := padTo 8 bytes
  if s.highway.windowOut = some bytes then match decodeCell w bytes with
    | some c => s.checkDestination c header
    | none => s
  else (s.recordFault .windowClash w (some header)).enterIsolated

/-- WINDOW_HEARD: the checks of R165 in their order. A station that has entered LISTENING in this frame hears windows
from the next (R177). -/
def windowHeard (w : Station) (heard : List Byte) (s : State) : State :=
  let bytes := padTo 40 heard
  if s.hearing ∧ s.station.entered = false then
    if checkGood 38 bytes then
      if byteAt bytes 0 = 0 then s
      else if w = s.self ∧ s.active then s.readBack w bytes
      else s.checkKind w bytes
    else s.recordFault .badCheck w (some (padTo 8 bytes))
  else s

/-! ### NOTICE (R171) -/

/-- The station a NOTICE is due to, with the captured fault. One that waits when the entry becomes PRESENT is due at
the next frame end (R171). -/
def noticeDue (s : State) : Option (Station × Captured) :=
  match s.maintenanceStation, s.highway.fault.content with
  | some m, some c =>
    if s.maint.pending ∧ s.maint.queued = false ∧ s.maint.refused = false ∧ s.station.state ≠ .isolated ∧
        (s.highway.presence.get m).state = .present ∧ s.maint.newlyPresent = false then some (m, c) else none
  | _, _ => none

/-- NOTICE_OFFER (R171). -/
def noticeOffer (s : State) : State :=
  match s.noticeDue with
  | some (m, c) =>
    let o := s.offer (s.cellTo m Tag.absent Tag.absent (.notice c.kind c.severity s.highway.fault.multiple)) .notice
    if o.2 then o.1.setMaint { o.1.maint with pending := false, queued := true }
    else o.1.setMaint { o.1.maint with refused := true }
  | none => s

end State

end Sys2Proof.Machine
end

