-- ==== Sys2Proof/Machine/Maintenance.lean ====
section
/-! DEFINITION. The Maintenance Responder: requests, replies and reply data (spec 11, R179 to R185; spec 12, request
codes and reply data; R17, R18, R140, R146). Numbering of states and absent fields: log 14. -/

namespace Sys2Proof.Machine

open Sys2Proof

/-- The maintenance requests (spec 12, request codes). -/
inductive Request where
  | portEnable | portDisable | setRights | bar | unbar | forceLogout
  | freezeCounts | thawCounts | clearCounts | readFaultClear | restart
  | readPort | readLogin | readHome | readCall | readLane | readCounts | readFault | readPlan
  deriving DecidableEq, Repr

def Request.code : Request → Byte
  | .portEnable => 0x01 | .portDisable => 0x02 | .setRights => 0x03 | .bar => 0x04 | .unbar => 0x05
  | .forceLogout => 0x06 | .freezeCounts => 0x07 | .thawCounts => 0x08 | .clearCounts => 0x09
  | .readFaultClear => 0x0A | .restart => 0x0B
  | .readPort => 0x80 | .readLogin => 0x81 | .readHome => 0x82 | .readCall => 0x83 | .readLane => 0x84
  | .readCounts => 0x85 | .readFault => 0x86 | .readPlan => 0x87

def Request.all : List Request :=
  [.portEnable, .portDisable, .setRights, .bar, .unbar, .forceLogout, .freezeCounts, .thawCounts, .clearCounts,
    .readFaultClear, .restart, .readPort, .readLogin, .readHome, .readCall, .readLane, .readCounts, .readFault,
    .readPlan]

def Request.ofCode (b : Byte) : Option Request := Request.all.find? fun q => q.code == b

/-- Control requests have codes 0 to 63 (R179). -/
def Request.isControl (q : Request) : Bool := decide (q.code.toNat < 64)

/-- What an action answers: the state after it, the status and the data. -/
abbrev Answered := State × ReplyStatus × List Byte

/-! ### Reply data (spec 12, last section) -/

/-- An optional one-byte field, FFh when absent. -/
def optByte (x : Option Byte) : List Byte := [x.getD 0xFF]

/-- An optional two-byte field, FFFFh when absent. -/
def optField (x : Option Nat) : List Byte := fieldOf 2 (x.getD 65535)

def PortState.code : PortState → Byte
  | .disabled => 0 | .down => 1 | .training => 2 | .up => 3

def Hook.code : Hook → Byte
  | .on => 0 | .off => 1

/-- Ring state ON before OFF, the order R143 lists them in (log 14). -/
def ringCode (on : Bool) : Byte := if on then 0 else 1

def CheckStep.code : CheckStep → Byte
  | .none => 0 | .setKey => 1 | .expected => 2

def Renewal.code : Renewal → Byte
  | .none => 0 | .pending => 1 | .sent => 2

def CallState.code : CallState → Byte
  | .dialing => 0 | .routing => 1 | .offering => 2 | .ringback => 3 | .alerting => 4 | .proving => 5
  | .connected => 6 | .held => 7 | .clearing => 8

def Role.code : Role → Byte
  | .caller => 0 | .callee => 1

def ConfRole.code : ConfRole → Byte
  | .none => 0 | .controller => 1 | .member => 2

/-- FREE is 0 (R109). -/
def TalkState.code : TalkState → Byte
  | .claiming => 1 | .active => 2 | .moving => 3

def SendMode.code : SendMode → Byte
  | .prove => 0 | .voice => 1 | .silence => 2

/-- FREE is 0 (R124). -/
def ListenState.code : ListenState → Byte
  | .waitkey => 1 | .proving => 2 | .locked => 3 | .search => 4 | .lost => 5

def Purpose.code : Purpose → Byte
  | .setup => 0 | .join => 1

/-- The latches of READ-PORT, 16 bytes. -/
def latchBytes (u : PortUnit) : List Byte :=
  let admission : List Byte := match u.admission with
    | none => []
    | some (.loginReq e) => 0x40 :: fieldOf 2 e
    | some (.response v) => 0x41 :: nonceBytes v
    | some .logout => [0x42]
  let hook : Byte := match u.hook with
    | none => 0
    | some .off => 0x30
    | some .on => 0x31
  boolByte u.lineLoss :: padTo 9 admission ++ [hook] ++ padTo 5 (u.keys.map featureKeyCode)

def portData (u : PortUnit) (l : LoginPlace) : List Byte :=
  [u.state.code, boolByte u.enable, byteOf u.good, byteOf u.bad] ++ latchBytes u ++
    [byteOf u.digits.length, u.reportedHook.code, u.tone.code, ringCode u.ring, boolByte l.lockedOut,
      byteOf l.failures, byteOf u.lineLossCount, byteOf u.replacedCount]

def loginData (incarnation : Byte) (x : LoginEntry) : List Byte :=
  match x.body with
  | .challenging e _ _ step =>
    [0, incarnation] ++ fieldOf 2 e ++ [step.code] ++ optByte none ++ optField none ++ optByte none ++
      optField x.timer
  | .confirming e =>
    [1, incarnation] ++ fieldOf 2 e ++ optByte none ++ optByte none ++ optField none ++ optByte none ++
      optField x.timer
  | .admitted e r ep n =>
    [2, incarnation] ++ fieldOf 2 e ++ optByte none ++ [byteOf r.val] ++ fieldOf 2 ep.toNat ++ [n.code] ++
      optField x.timer

def homeData (h : HomeRecord) : List Byte :=
  optByte (h.location.map fun x => byteOf x.1.val) ++ optByte (h.location.map fun x => byteOf x.2.val) ++
    [byteOf h.rights.val, boolByte h.barred] ++ fieldOf 2 h.epoch.toNat

/-- Three places for the listen lanes (log 14). -/
def listenLaneBytes (ls : List ListenId) : List Byte :=
  (List.range 3).map fun i => (ls[i]?.map fun l => byteOf l.val).getD 0xFF

/-- READ-CALL. A CALLEE record sends divert flag, STALE-retried flag and count of onward digits as 00h (the model's choice,
log 14). -/
def callData (incarnation : Byte) (k : Call) : List Byte :=
  [k.state.code, incarnation, byteOf k.port.val] ++ fieldOf 2 k.ownExt ++ [k.role.code, k.confRole.code] ++
    optByte (k.farStation.map fun st => byteOf st.val) ++ optField k.farExt ++ tagBytes k.farTag ++
    optByte (k.talkLane.map fun l => byteOf l.val) ++ listenLaneBytes k.listenLanes ++ optField k.timer ++
    [k.cause.code, boolByte k.divert, boolByte k.staleRetried, byteOf k.onward.length]

/-- READ-LANE of a talk lane. The key age is sent in two bytes (the model's choice, log 14). -/
def talkData (t : TalkLane) : List Byte :=
  [t.state.code, byteOf t.owner.val] ++ tagBytes t.ownerTag ++ optByte (t.slot.map fun x => byteOf x.val) ++
    fieldOf 2 t.keyCount ++ fieldOf 2 t.age ++ fieldOf 2 t.position.toNat ++ [t.mode.code] ++
    [boolByte (decide (t.wanted ≠ .clear))] ++ optByte (t.lastAsked.map fun x => byteOf x.val)

def counterBytes (c : Counters) : List Byte :=
  fieldOf 4 c.frames ++ fieldOf 2 c.markErrors ++ fieldOf 2 c.provingBits ++ fieldOf 2 c.provingErrors

def laneCounts (t : ListenLane) : List Byte := counterBytes t.counters ++ [boolByte t.frozen]

/-- READ-LANE of a listen lane. Last figure, low-figure count and recovery count are sent in one byte each (the model's
choice, log 14). -/
def listenData (t : ListenLane) : List Byte :=
  [t.state.code, byteOf t.owner.val] ++ tagBytes t.ownerTag ++ [t.purpose.code, byteOf t.talker.val] ++
    tagBytes t.talkerTag ++ [byteOf t.slot.val] ++ optField (t.active.map (·.count)) ++
    optField (t.active.map fun k => k.position.toNat) ++ optByte (t.lastFigure.map byteOf) ++
    [byteOf t.lowCount, byteOf t.recovery, boolByte t.frozen] ++ counterBytes t.counters

def faultData (f : FaultRecord) : List Byte :=
  optByte (f.content.map fun c => c.kind.code) ++ optByte (f.content.map fun c => c.severity.code) ++
    optByte (f.content.map fun c => byteOf c.frame.val) ++ optByte (f.content.map fun c => byteOf c.window.val) ++
    ((f.content.bind (·.header)).map (padTo 8)).getD (List.replicate 8 0xFF) ++
    [boolByte f.content.isSome ||| boolByte f.multiple <<< 1 ||| boolByte f.majorSinceClear <<< 2]

/-- A home entry of READ-PLAN: its state, the range's low number, and the length itself in two bytes (the width and form
of the length are the model's choice, log 14). -/
def HomeEntry.data : HomeEntry → List Byte
  | .unknown => []
  | .present r => 1 :: fieldOf 2 r.low ++ fieldOf 2 r.length
  | .absent r => 2 :: fieldOf 2 r.low ++ fieldOf 2 r.length

def DivertEntry.data (d : DivertEntry) : List Byte :=
  fieldOf 2 d.low ++ fieldOf 2 d.high ++ [byteOf d.target.val, boolByte d.outside, boolByte d.enable]

namespace State

/-! ### Arguments (R179 step 3) -/

/-- A request that names an object below `n`; another argument is BAD-ARG. -/
def withIndex (n : Nat) (arg : List Byte) (act : Fin n → State → Answered) (s : State) : Answered :=
  match indexOf n (byteAt arg 0) with
  | some i => act i s
  | none => (s, .badArg, [])

/-- A request that names a home record: above 9999 BAD-ARG, not homed here ABSENT (R181). -/
def withHome (arg : List Byte) (act : Ext → HomeRecord → State → Answered) (s : State) : Answered :=
  let e := fieldAt arg 0 2
  if 9999 < e then (s, .badArg, [])
  else match s.homedHere e, s.homeRecord e with
    | true, some h => act e h s
    | _, _ => (s, .absent, [])

/-! ### Control requests -/

def portAnswer (p : Port) (s : State) : Answered :=
  (s, .ok, [(s.port p).state.code, boolByte (s.port p).enable])

def doPortEnable (arg : List Byte) (s : State) : Answered :=
  s.withIndex 24 arg fun p s => (s.enablePort p).portAnswer p

def doPortDisable (arg : List Byte) (s : State) : Answered :=
  s.withIndex 24 arg fun p s => (s.disablePort p).portAnswer p

/-- The record after a home action (R181). -/
def homeAnswerData (e : Ext) (s : State) : Answered :=
  (s, .ok, ((s.homeRecord e).map homeData).getD [])

/-- The login of an extension at this station takes a new class and epoch (R17). A login of another extension at the port
that the record names, which R5 rules out, keeps its own: the model's choice (log 67). -/
def refreshLogin (p : Port) (e : Ext) (r : Rights) (x : Epoch) (s : State) : State :=
  match (s.login p).entry with
  | some { body := .admitted e' _ _ n, timer } =>
    if e' = e then s.setEntry p (some { body := .admitted e r x n, timer := timer }) else s
  | _ => s

/-- SET-RIGHTS at the home (R17). -/
def setRightsOf (r : Rights) (e : Ext) (h : HomeRecord) (s : State) : State :=
  let h' := { h with rights := r, epoch := h.epoch + 1 }
  let s1 := s.setHomeRecord e h'
  let s2 := s1.offerSkip (s1.changeCell e .rights h.location h') .plain
  match h.location with
  | some (st, p) => if st = s.self then s2.refreshLogin p e r h'.epoch else s2
  | none => s2

def doSetRights (arg : List Byte) (s : State) : Answered :=
  match indexOf 4 (byteAt arg 2) with
  | none => (s, .badArg, [])
  | some r => s.withHome arg fun e h s => (s.setRightsOf r e h).homeAnswerData e

/-- BAR at the home (R18). -/
def barOf (e : Ext) (h : HomeRecord) (s : State) : State :=
  if h.barred then s
  else ((s.setHomeRecord e { h with barred := true }).evict e .barred .barring)

def doBar (arg : List Byte) (s : State) : Answered :=
  s.withHome arg fun e h s => (s.barOf e h).homeAnswerData e

/-- UNBAR at the home (R17): no broadcast. -/
def unbarOf (e : Ext) (h : HomeRecord) (s : State) : State :=
  if h.barred then s.setHomeRecord e { h with barred := false, epoch := h.epoch + 1 } else s

def doUnbar (arg : List Byte) (s : State) : Answered :=
  s.withHome arg fun e h s => (s.unbarOf e h).homeAnswerData e

def doForceLogout (arg : List Byte) (s : State) : Answered :=
  s.withHome arg fun e _ s => (s.evict e .forced .plain).homeAnswerData e

/-- The listen lanes in use. -/
def listensInUse (s : State) : List ListenId := (List.finRange 48).filter fun l => (s.listen? l).isSome

/-- A counter request on one lane or on all (R140, R182). The number of lanes acted on is sent in one byte (the model's
choice, log 14). -/
def doCounts (f : ListenLane → ListenLane) (arg : List Byte) (s : State) : Answered :=
  if byteAt arg 0 = 0xFF then
    (s.listensInUse.foldl (fun s l => s.modListen l f) s, .ok, [byteOf s.listensInUse.length])
  else s.withIndex 48 arg fun l s => match s.listen? l with
    | some t => (s.setListen l (f t), .ok, laneCounts (f t))
    | none => (s, .absent, [])

/-- READ-FAULT-CLEAR (R170, R183). -/
def doReadFaultClear (s : State) : Answered :=
  ({ s with
      highway := { s.highway with fault := {} }
      maint := { s.maint with pending := false } }, .ok, faultData s.highway.fault)

/-! ### Inquiries (R185) -/

def doReadPort (arg : List Byte) (s : State) : Answered :=
  s.withIndex 24 arg fun p s => (s, .ok, portData (s.port p) (s.login p))

def doReadLogin (arg : List Byte) (s : State) : Answered :=
  s.withIndex 24 arg fun p s => match (s.login p).entry with
    | some x => (s, .ok, loginData (s.login p).incarnation x)
    | none => (s, .absent, [(s.login p).incarnation])

def doReadHome (arg : List Byte) (s : State) : Answered := s.withHome arg fun _ h s => (s, .ok, homeData h)

def doReadCall (arg : List Byte) (s : State) : Answered :=
  s.withIndex 64 arg fun r s => match s.call? r with
    | some k => (s, .ok, callData (s.record r).incarnation k)
    | none => (s, .absent, [(s.record r).incarnation])

def doReadLane (arg : List Byte) (s : State) : Answered :=
  if byteAt arg 0 = 0 then s.withIndex 24 (arg.drop 1) fun l s => match s.talk? l with
    | some t => (s, .ok, talkData t)
    | none => (s, .absent, [])
  else if byteAt arg 0 = 1 then s.withIndex 48 (arg.drop 1) fun l s => match s.listen? l with
    | some t => (s, .ok, listenData t)
    | none => (s, .absent, [])
  else (s, .badArg, [])

def doReadCounts (arg : List Byte) (s : State) : Answered :=
  if byteAt arg 0 = 0xFF then (s, .ok, s.highway.counters.toList.flatMap fun n => fieldOf 2 n)
  else s.withIndex 48 arg fun l s => match s.listen? l with
    | some t => (s, .ok, laneCounts t)
    | none => (s, .absent, [])

def doReadPlan (arg : List Byte) (s : State) : Answered :=
  if byteAt arg 0 = 0 then s.withIndex 16 (arg.drop 1) fun st s => match s.calls.plan.get st with
    | .unknown => (s, .absent, [])
    | .present r => (s, .ok, (HomeEntry.present r).data)
    | .absent r => (s, .ok, (HomeEntry.absent r).data)
  else if byteAt arg 0 = 1 then s.withIndex 8 (arg.drop 1) fun d s => (s, .ok, (s.calls.diverts.get d).data)
  else (s, .badArg, [])

/-! ### Judging and answering a request (R179) -/

/-- Steps 3 and 4: argument and action. RESTART acts in its reply alone (R184). -/
def perform (q : Request) (arg : List Byte) (s : State) : Answered :=
  match q with
  | .portEnable => s.doPortEnable arg
  | .portDisable => s.doPortDisable arg
  | .setRights => s.doSetRights arg
  | .bar => s.doBar arg
  | .unbar => s.doUnbar arg
  | .forceLogout => s.doForceLogout arg
  | .freezeCounts => s.doCounts (fun t => { t with frozen := true }) arg
  | .thawCounts => s.doCounts (fun t => { t with frozen := false }) arg
  | .clearCounts => s.doCounts (fun t => { t with counters := {} }) arg
  | .readFaultClear => s.doReadFaultClear
  | .restart => (s, .ok, [])
  | .readPort => s.doReadPort arg
  | .readLogin => s.doReadLogin arg
  | .readHome => s.doReadHome arg
  | .readCall => s.doReadCall arg
  | .readLane => s.doReadLane arg
  | .readCounts => s.doReadCounts arg
  | .readFault => (s, .ok, faultData s.highway.fault)
  | .readPlan => s.doReadPlan arg

/-- The MAINT-REPLY to a request. -/
def replyCell (s : State) (c : Cell) (q : Request) (st : ReplyStatus) (data : List Byte) : Cell :=
  s.cellTo c.source Tag.absent c.sender (.maintReply q.code st (padTo 28 data))

/-- The answer of a request that passes code and privilege. A RESTART whose reply is accepted is marked due (R184). -/
def answerRequest (q : Request) (c : Cell) (arg : List Byte) (s : State) : State :=
  let a := s.perform q arg
  let cell := a.1.replyCell c q a.2.1 a.2.2
  if q = .restart then
    let o := a.1.offer cell .restartReply
    if o.2 then o.1.setMaint { o.1.maint with restartDue := true } else o.1
  else a.1.offerSkip cell .plain

/-- The judgment of a request: code, privilege, then argument and action (R179). -/
def judgeRequest (c : Cell) (code : Byte) (arg : List Byte) (s : State) : State :=
  match Request.ofCode code with
  | none => s.offerSkip (refuseOf c s.self .badCode) .plain
  | some q =>
    if q.isControl ∧ s.maintenanceStation ≠ some c.source then
      s.offerSkip (refuseOf c s.self .notAllowed) .plain
    else s.answerRequest q c arg

/-- A MAINT-REQ taken from the store: discarded when the station is not ACTIVE or the cell went to all (R179). -/
def actMaintReq (x : Stored) (s : State) : State :=
  match x.cell.body with
  | .maintReq code arg => if s.active ∧ x.cell.dest ≠ .all then s.judgeRequest x.cell code arg else s
  | _ => s

/-- The next MAINT cell is taken when it is a request of this code. -/
def takeRequest (q : Request) (s : State) : State :=
  s.consume .maintC (fun b => match b with
    | .maintReq code _ => code == q.code
    | _ => false) actMaintReq

end State

end Sys2Proof.Machine
end

