-- ==== Sys2Proof/Machine/Sequencer.lean ====
section
/-! DEFINITION. The frame sequencer: what the block does when no command waits (log 1). It goes through the stages of
a frame and puts the commands that each stage makes due into the queue (spec 00 "Time" and "Events"; log 8). -/

namespace Sys2Proof.Machine

open Sys2Proof

/-- How many indices a stage goes through: ports, lanes, store classes, or one. -/
def Stage.count : Stage → Nat
  | .sendSets | .missing | .claims | .talkBoundary | .training | .offers => 24
  | .listenBoundary => 48
  | .take => 4
  | .frameStart | .tick | .expiries | .carried | .mixer | .judge | .refuse | .renewals | .listening
  | .refusalList | .notice | .choice | .frameEnd => 1

/-- The order of the stages (log 8). A late first key that completes at the end of frame 63 is installed with age 0 at
the mixer stage, and the boundary of that frame end, a stage later, makes its age 1 (the model's choice, log 53). -/
def Stage.next : Stage → Stage
  | .frameStart => .sendSets | .sendSets => .missing | .missing => .tick | .tick => .expiries
  | .expiries => .carried | .carried => .mixer | .mixer => .talkBoundary | .talkBoundary => .listenBoundary
  | .listenBoundary => .judge | .judge => .claims | .claims => .refuse | .refuse => .training
  | .training => .renewals | .renewals => .listening | .listening => .take | .take => .offers
  | .offers => .refusalList | .refusalList => .notice | .notice => .choice | .choice => .frameEnd
  | .frameEnd => .frameStart

/-- The clock after one idle step. The frame number goes on at the frame end and wraps from 63 to 0 (spec 00). -/
def Clock.advance (c : Clock) : Clock :=
  if c.index + 1 < c.stage.count then { c with index := c.index + 1 }
  else { frame := if c.stage = .frameEnd then c.frame + 1 else c.frame, stage := c.stage.next, index := 0 }

/-- The clock's index as a port, lane or place. -/
def Clock.at? (c : Clock) (n : Nat) : Option (Fin n) := if h : c.index < n then some ⟨c.index, h⟩ else none

/-- A superframe boundary passes for a running timer (spec 00). -/
def lessTimer : Option Nat → Option Nat := fun t => t.map (· - 1)

/-- One command, when due. -/
def when_ (due : Bool) (i : Instr) : List Instr := if due then [i] else []

/-- The command that takes an offered event. -/
def PortEvent.command (p : Port) : PortEvent → Instr
  | .lineLoss => .lineLoss p
  | .admission (.loginReq _) => .loginReq p
  | .admission (.response _) => .response p
  | .admission .logout => .logout p
  | .hook .on => .onHook p
  | .hook .off => .offHook p
  | .key .holdKey => .hold p
  | .key .returnKey => .returnCall p
  | .key .swapKey => .swap p
  | .key .transferKey => .transfer p
  | .key .conferenceKey => .conference p
  | .digit _ => .digit p

/-- The command of a maintenance request. -/
def Request.command : Request → Instr
  | .portEnable => .portEnable | .portDisable => .portDisable | .setRights => .setRights | .bar => .bar
  | .unbar => .unbar | .forceLogout => .forceLogout | .freezeCounts => .freezeCounts | .thawCounts => .thawCounts
  | .clearCounts => .clearCounts | .readFaultClear => .readFaultClear | .restart => .restart
  | .readPort => .readPort | .readLogin => .readLogin | .readHome => .readHome | .readCall => .readCall
  | .readLane => .readLane | .readCounts => .readCounts | .readFault => .readFault | .readPlan => .readPlan

/-- The command that takes a stored cell. -/
def Body.command : Body → Option Instr
  | .admitAsk .. => some .admitAsk
  | .admitTell .. => some .admitTell
  | .admitMove .. => some .admitMove
  | .admitLeave .. => some .admitLeave
  | .admitChange .. => some .admitChange
  | .callOffer .. => some .callOffer
  | .callAnswer .. => some .callAnswer
  | .callConnect .. => some .callConnect
  | .callClear .. => some .callClear
  | .callRedirect .. => some .callRedirect
  | .confSet .. => some .confSet
  | .keyNext .. => some .keyNext
  | .syncAsk .. => some .syncAskAtTalker
  | .maintReq code _ => some (match Request.ofCode code with
    | some q => q.command
    | none => .maintReq)
  | .maintReply .. => some .maintReply
  | .notice .. => some .notice
  | .census _ | .slot _ | .refuse .. => none

namespace State

/-! ### What a stage does to the state -/

/-- A frame begins: the map is noted (R93), the marks of the last frame are cleared. -/
def beginFrame (s : State) : State :=
  { s with
    station := { s.station with
      sinceFrame0 := if s.clock.frame = 0 then decide (s.station.state = .listening) else s.station.sinceFrame0
      entered := false }
    highway := { s.highway with
      taken := [], slotCells := [], censuses := [], refusesHeard := [], judged := false }
    slots := { s.slots with
      atFrameStart := s.slots.map, claims := s.slots.claims.map fun e => { e with fresh := false } }
    maint := { s.maint with newlyPresent := false }
    ports := s.ports.map fun u => { u with heard := false, offered := false, talkSample := 0 }
    scr := { s.scr with
      mixer := s.scr.mixer.map fun q => { q with fresh := false }
      mixerDone := false
      slotsOut := []
      talk := s.scr.talk.map fun u => { u with
        lane := u.lane.map fun t => { t with staged := t.staged.map fun g => { g with fresh := false } } } } }

/-- A login place at a superframe boundary: its two timers are lessened (R4, R9, R11, R20). -/
def tickLogin (l : LoginPlace) : LoginPlace :=
  { l with
    entry := l.entry.map fun x => { x with timer := lessTimer x.timer }
    lockoutTimer := lessTimer l.lockoutTimer }

def tickQuery (q : QueryPlace) : QueryPlace :=
  { q with query := q.query.map fun x => { x with timer := lessTimer x.timer } }

def tickRecord (r : CallRecord) : CallRecord :=
  { r with call := r.call.map fun k => { k with timer := lessTimer k.timer } }

/-- A superframe boundary passes: timers are lessened (spec 00), stamps add 1 (R162), the refused mark of the NOTICE
clears (R171), the listening count adds 1 (R177). -/
def passBoundary (s : State) : State :=
  { s with
    station := { s.station with
      listeningCount :=
        if s.station.state = .listening ∧ s.station.sinceFrame0 then min (s.station.listeningCount + 1) 2
        else s.station.listeningCount }
    highway := { s.highway with
      store := s.highway.store.map fun x => { x with stamp := saturate 255 x.stamp } }
    adm := { s.adm with logins := s.adm.logins.map tickLogin, queries := s.adm.queries.map tickQuery }
    calls := { s.calls with
      records := s.calls.records.map tickRecord
      ports := s.calls.ports.map fun c => { c with burst := lessTimer c.burst } }
    maint := { s.maint with refused := false } }

/-- What the present stage does by itself. -/
def stageEffect (s : State) : State :=
  match s.clock.stage with
  | .frameStart => s.beginFrame
  | .tick => if s.clock.frame = 63 then s.passBoundary else s
  | .sendSets | .missing | .claims | .expiries | .carried | .mixer | .talkBoundary | .listenBoundary | .judge
  | .refuse | .training | .renewals | .listening | .take | .offers | .refusalList | .notice | .choice
  | .frameEnd => s

/-! ### What a stage makes due -/

/-- The expiry of a port's login timer. -/
def loginExpiry (s : State) (p : Port) : List Instr :=
  (match (s.login p).entry with
    | some { body := .challenging .., timer := some 0 } => [.challengingTimerExpiry p]
    | some { body := .confirming _, timer := some 0 } => [.confirmingTimerExpiry p]
    | some { body := .admitted _ _ _ .sent, timer := some 0 } => [.renewalTimerExpiry p]
    | _ => []) ++
  when_ ((s.login p).lockoutTimer == some 0) (.lockoutTimerExpiry p)

def queryExpiry (s : State) (q : QueryId) : List Instr :=
  match (s.adm.queries.get q).query with
  | some { timer := some 0, .. } => [.queryTimerExpiry q]
  | _ => []

/-- The expiry of a record's timer, by its state (R47). -/
def recordExpiry (s : State) (r : RecordId) : List Instr :=
  match s.call? r with
  | some k =>
    if k.timer = some 0 then match k.state with
      | .dialing => [if k.farExt.isSome then .onwardPauseExpiry r else .digitTimerExpiry r]
      | .offering => [.answerTimerExpiry r]
      | .ringback => [.ringingTimerExpiry r]
      | .alerting => [.alertingTimerExpiry r]
      | .held => [.recallTimerExpiry r]
      | .routing | .proving | .connected | .clearing => []
    else []
  | none => []

/-- The timers that have run out at a boundary. The several queries among them end in ascending place (the model's
choice, log 58). Login timers come first, by port, then queries, then the records in ascending number, then the burst
timers: the spec gives no order among them (the model's choice, log 63). -/
def expiries (s : State) : List Instr :=
  ((List.finRange 24).flatMap s.loginExpiry) ++ ((List.finRange 4).flatMap s.queryExpiry) ++
    ((List.finRange 64).flatMap s.recordExpiry) ++
    ((List.finRange 24).flatMap fun p => when_ ((s.callPort p).burst == some 0) (.burstTimerExpiry p))

/-- The commands of a talk lane at a boundary, judged by the lane as the boundary finds it (R112 to R120). Rekey-wanted
that is set when the first key is installed therefore starts its rekey at the next boundary (the model's choice,
log 46). -/
def talkCommands (s : State) (l : TalkId) : List Instr :=
  match s.talk? l with
  | none => []
  | some t =>
    let due (isFirst : Bool) : Bool := match t.staged with
      | some g => (g.isFirst == isFirst) && (match g.countdown with
        | some b => decide (b ≤ 1)
        | none => false)
      | none => false
    let wanted : Bool := decide (t.wanted ≠ .clear)
    let aged : Bool := match s.station.image with
      | some im => decide (im.keyAgeLimit ≤ saturate 65535 t.age)
      | none => false
    let unsent : Bool := match t.staged with
      | some g => !g.isFirst && !g.queued && !g.fresh
      | none => false
    [.talkLaneBoundary l] ++ when_ (due true) (.firstKeyInstall l) ++ when_ (due false) (.talkKeySwap l) ++
      when_ (t.mayRekey && wanted) (.rekeyWantedRetry l) ++ when_ (t.mayRekey && !wanted && aged) (.keyAgeLimit l) ++
      when_ (t.partner.isSome && t.noFirstKey) (.talkFirstKeyRetry l) ++
      when_ (unsent && decide (t.state = .active)) (.keyNextReoffer l)

/-- The boundary command of a listen lane: the limit it meets, or the plain boundary (R126 to R138). -/
def listenCommands (s : State) (l : ListenId) : List Instr :=
  match s.listen? l with
  | none => []
  | some t =>
    (if s.lowFigureDue t then [.lowFigureLimit l]
      else if s.recoveryDue t then [.recoveryLimit l]
      else if s.waitkeyDue t then [.waitkeyTimerExpiry l]
      else if s.syncAskDue t then [.syncAskTimerExpiry l]
      else if s.listenSwapDue t then [.listenKeySwap l]
      else [.listenLaneBoundary l]) ++ when_ t.awaitsFirstRequest (.listenFirstKeyRetry l)

/-- The training judgment of a port, as a limit where it meets one (R144, R145). -/
def trainingCommand (s : State) (p : Port) : List Instr :=
  let u := s.port p
  if s.hearing then
    [if goodLimitDue u then .goodCountLimit p else if badLimitDue u then .badCountLimit p
      else .portTrainingJudgment p]
  else []

/-- Peers whose fourth census is missed here, below the first peer lost by a changed start tag: the losses of a frame
0 are reported in ascending station number (R168). -/
def missedPeers (s : State) : List Station :=
  let changed := s.peers.filter fun st => (s.censusOf st).isSome && (s.finding st).lost
  s.peers.filter fun st =>
    (s.censusOf st).isNone && (s.finding st).lost && (match changed with
      | c :: _ => decide (st < c)
      | [] => true)

/-- The commands of the judgment stage (R93, R167). -/
def judgeCommands (s : State) : List Instr :=
  if s.hearing then
    if s.clock.frame = 0 then s.missedPeers.map .missedCensusLimit ++ [.census] else [.slotJudgment]
  else []

/-- A command for the port or lane at the clock's index. -/
def atIndex {n : Nat} (s : State) (f : Fin n → List Instr) : List Instr :=
  match s.clock.at? n with
  | some i => f i
  | none => []

/-- The command that takes a class's next cell (R162). The consumers take in the order ADMIT, CALL, KEY, MAINT: the model's
choice where they touch the same state, as an ADMIT-CHANGE that drops a login and a CALL-OFFER for it do (log 8). -/
def takeCommand (s : State) (i : Fin 4) : List Instr :=
  match StoreClass.all[i.val]? with
  | some c => match s.nextCell c with
    | some x => x.cell.body.command.toList
    | none => []
  | none => []

/-- The commands that the present stage makes due. Ports and lanes come in ascending number. For lanes that is the
model's choice: R94 gives no order to the retries of several refused claims (log 44), and R105 none to the mixer requests
that several talk and listen lanes make at one superframe boundary (first-key retries, key age, rekey-wanted), nor do
R119 and R137 to their KEY-NEXT and SYNC-ASK (log 68). The REFUSE cells of a frame act in the order heard (log 8). -/
def stageCommands (s : State) : List Instr :=
  let boundary : Bool := decide (s.clock.frame = 63)
  match s.clock.stage with
  | .frameStart => when_ s.active .sendWindow
  | .sendSets => s.atIndex fun p => when_ (decide ((s.port p).state ≠ .disabled)) (.setFrameSent p)
  | .missing => s.atIndex fun p =>
      when_ (decide ((s.port p).state = .up) && !(s.port p).heard) (.setFrameNotReceived p)
  | .expiries => if boundary then s.expiries else []
  | .carried => when_ s.highway.sent.isSome .cellCarried
  | .mixer => when_ (!s.scr.mixer.isEmpty) .mixerCompletion
  | .talkBoundary => if boundary then s.atIndex s.talkCommands else []
  | .listenBoundary => if boundary then s.atIndex s.listenCommands else []
  | .judge => s.judgeCommands
  | .claims => s.atIndex fun l => when_ ((s.claimOf l).any fun e => e.refused && !e.fresh) (.claimRetry l)
  | .refuse => s.highway.refusesHeard.map fun _ => .refuse
  | .training => if boundary then s.atIndex s.trainingCommand else []
  | .renewals => when_ (boundary && (List.finRange 24).any fun p => match s.loginBody p with
      | some (.admitted _ _ _ .pending) => true
      | _ => false) .renewalOffer
  | .listening => when_ (boundary && decide (s.station.state = .listening ∧ 2 ≤ s.station.listeningCount))
      .listeningCountLimit
  | .take => s.atIndex s.takeCommand
  | .offers => s.atIndex fun p => ((s.dueEvent p).map (PortEvent.command p)).toList
  | .refusalList => when_ (s.active && !s.highway.refusals.isEmpty) .refusalListOffer
  | .notice => when_ s.noticeDue.isSome .noticeOffer
  | .choice => when_ (s.active && !boundary) .transmitChoice
  | .tick | .frameEnd => []

/-- One idle step: the stage's own effect, the commands it makes due, and the clock's next place. -/
def idle (s : State) : State :=
  let s1 := s.stageEffect
  { s1 with pending := s1.stageCommands, clock := s1.clock.advance }

end State

end Sys2Proof.Machine
end

