-- ==== Sys2Proof/Machine/ResetMeanings.lean ====
section
/-! DEFINITION. Meanings of the commands of reset and loading (spec 11). -/

namespace Sys2Proof.Machine

open Sys2Proof

/-- COLD_RESET (R174). -/
def execColdReset (s : State) : Host.Outcome State Fault Refusal :=
  .next (s.coldReset)

/-- READ_COMPLETION (R175, R176). -/
def execReadCompletion (image : List Byte) (s : State) : Host.Outcome State Fault Refusal :=
  .next (s.readCompletion image)

/-- READ_FAILURE (R174). -/
def execReadFailure (s : State) : Host.Outcome State Fault Refusal :=
  .next (s.readFailure)

/-- LISTENING_COUNT_LIMIT (R177). -/
def execListeningCountLimit (s : State) : Host.Outcome State Fault Refusal :=
  .next (s.listeningCountLimit)

end Sys2Proof.Machine
end

