-- ==== Sys2Proof/Machine/HighwayMeanings.lean ====
section
/-! DEFINITION. Meanings of the commands of the highway, the presence table and the slot map (spec 06, 10). -/

namespace Sys2Proof.Machine

open Sys2Proof

/-- SEND_WINDOW (R157, R158). -/
def execSendWindow (s : State) : Host.Outcome State Fault Refusal :=
  .next (s.sendWindow)

/-- CELL_CARRIED (R157). -/
def execCellCarried (s : State) : Host.Outcome State Fault Refusal :=
  .next (s.cellCarried)

/-- TRANSMIT_CHOICE (R160). -/
def execTransmitChoice (s : State) : Host.Outcome State Fault Refusal :=
  .next (s.transmitChoice)

/-- WINDOW_HEARD (R165, R166). -/
def execWindowHeard (window : Station) (bytes : List Byte) (s : State) : Host.Outcome State Fault Refusal :=
  .next (s.windowHeard window bytes)

/-- REFUSAL_LIST_OFFER (R163). -/
def execRefusalListOffer (s : State) : Host.Outcome State Fault Refusal :=
  .next (s.refusalListOffer)

/-- NOTICE_OFFER (R171). -/
def execNoticeOffer (s : State) : Host.Outcome State Fault Refusal :=
  .next (s.noticeOffer)

/-- REFUSE (R164). -/
def execRefuse (s : State) : Host.Outcome State Fault Refusal :=
  .next (s.takeRefuse)

/-- CENSUS (R167, R168). -/
def execCensus (s : State) : Host.Outcome State Fault Refusal :=
  .next (s.takeCensus)

/-- MISSED_CENSUS_LIMIT (R167, R168). -/
def execMissedCensusLimit (peer : Station) (s : State) : Host.Outcome State Fault Refusal :=
  .next (s.missedCensusLimit peer)

/-- SLOT_JUDGMENT (R93, R94). -/
def execSlotJudgment (s : State) : Host.Outcome State Fault Refusal :=
  .next (s.slotJudgment)

/-- CLAIM_RETRY (R94). -/
def execClaimRetry (lane : TalkId) (s : State) : Host.Outcome State Fault Refusal :=
  .next (s.claimRetry lane)

end Sys2Proof.Machine
end

