-- ==== Sys2Proof/Machine/KeyMeanings.lean ====
section
/-! DEFINITION. Meanings of the commands of the key mixer, the lanes and the voice slots (spec 07, 08). -/

namespace Sys2Proof.Machine

open Sys2Proof

/-- MIXER_COMPLETION (R106). -/
def execMixerCompletion (s : State) : Host.Outcome State Fault Refusal :=
  .next (s.mixerCompletion)

/-- FIRST_KEY_INSTALL (R113). -/
def execFirstKeyInstall (lane : TalkId) (s : State) : Host.Outcome State Fault Refusal :=
  .next (s.firstKeyInstall lane)

/-- TALK_KEY_SWAP (R120). -/
def execTalkKeySwap (lane : TalkId) (s : State) : Host.Outcome State Fault Refusal :=
  .next (s.talkKeySwap lane)

/-- KEY_AGE_LIMIT (R118). -/
def execKeyAgeLimit (lane : TalkId) (s : State) : Host.Outcome State Fault Refusal :=
  .next (s.keyAgeLimit lane)

/-- REKEY_WANTED_RETRY (R118). -/
def execRekeyWantedRetry (lane : TalkId) (s : State) : Host.Outcome State Fault Refusal :=
  .next (s.rekeyWantedRetry lane)

/-- TALK_FIRST_KEY_RETRY (R112). -/
def execTalkFirstKeyRetry (lane : TalkId) (s : State) : Host.Outcome State Fault Refusal :=
  .next (s.talkFirstKeyRetry lane)

/-- KEY_NEXT_REOFFER (R119). -/
def execKeyNextReoffer (lane : TalkId) (s : State) : Host.Outcome State Fault Refusal :=
  .next (s.keyNextReoffer lane)

/-- TALK_LANE_BOUNDARY (R117). -/
def execTalkLaneBoundary (lane : TalkId) (s : State) : Host.Outcome State Fault Refusal :=
  .next (s.talkLaneBoundary lane)

/-- LISTEN_KEY_SWAP (R131). -/
def execListenKeySwap (lane : ListenId) (s : State) : Host.Outcome State Fault Refusal :=
  .next (s.listenKeySwap lane)

/-- LISTEN_FIRST_KEY_RETRY (R127). -/
def execListenFirstKeyRetry (lane : ListenId) (s : State) : Host.Outcome State Fault Refusal :=
  .next (s.listenFirstKeyRetry lane)

/-- LISTEN_LANE_BOUNDARY (R126). -/
def execListenLaneBoundary (lane : ListenId) (s : State) : Host.Outcome State Fault Refusal :=
  .next (s.listenLaneBoundary lane)

/-- LOW_FIGURE_LIMIT (R134). -/
def execLowFigureLimit (lane : ListenId) (s : State) : Host.Outcome State Fault Refusal :=
  .next (s.lowFigureLimit lane)

/-- RECOVERY_LIMIT (R138). -/
def execRecoveryLimit (lane : ListenId) (s : State) : Host.Outcome State Fault Refusal :=
  .next (s.recoveryLimit lane)

/-- WAITKEY_TIMER_EXPIRY (R133). -/
def execWaitkeyTimerExpiry (lane : ListenId) (s : State) : Host.Outcome State Fault Refusal :=
  .next (s.waitkeyTimerExpiry lane)

/-- SYNC_ASK_TIMER_EXPIRY (R137). -/
def execSyncAskTimerExpiry (lane : ListenId) (s : State) : Host.Outcome State Fault Refusal :=
  .next (s.syncAskTimerExpiry lane)

/-- KEY_NEXT (R130). -/
def execKeyNext (s : State) : Host.Outcome State Fault Refusal :=
  .next (s.consume .keyC (fun b => b.kind == 0x30) State.actKeyNext)

/-- SYNC_ASK_AT_TALKER (R121). -/
def execSyncAskAtTalker (s : State) : Host.Outcome State Fault Refusal :=
  .next (s.consume .keyC (fun b => b.kind == 0x31) State.actSyncAsk)

/-- READING_THE_SLOT (R115, R126, R139, R140). -/
def execReadingTheSlot (bus : List (Byte × Bool)) (s : State) : Host.Outcome State Fault Refusal :=
  .next (s.readSlots bus)

end Sys2Proof.Machine
end

