-- ==== Sys2Proof/Machine/PortMeanings.lean ====
section
/-! DEFINITION. Meanings of the commands of the line ports (spec 09). -/

namespace Sys2Proof.Machine

open Sys2Proof

/-- SET_FRAME_RECEIVED (R144, R155, R188). -/
def execSetFrameReceived (port : Port) (sample octet check : Byte) (s : State) : Host.Outcome State Fault Refusal :=
  .next (s.setFrameReceived port sample octet check)

/-- SET_FRAME_NOT_RECEIVED (R155, R188). -/
def execSetFrameNotReceived (port : Port) (s : State) : Host.Outcome State Fault Refusal :=
  .next (s.setFrameMissed port)

/-- SET_FRAME_SENT (R153). -/
def execSetFrameSent (port : Port) (s : State) : Host.Outcome State Fault Refusal :=
  .next (s.setFrameSent port)

/-- PORT_TRAINING_JUDGMENT (R144). -/
def execPortTrainingJudgment (port : Port) (s : State) : Host.Outcome State Fault Refusal :=
  .next (s.portTrainingJudgment port)

/-- GOOD_COUNT_LIMIT (R144). -/
def execGoodCountLimit (port : Port) (s : State) : Host.Outcome State Fault Refusal :=
  .next (s.goodCountLimit port)

/-- BAD_COUNT_LIMIT (R145). -/
def execBadCountLimit (port : Port) (s : State) : Host.Outcome State Fault Refusal :=
  .next (s.badCountLimit port)

/-- HOOK_MESSAGE_ARRIVAL (R147). -/
def execHookMessageArrival (port : Port) (offHook : Bool) (s : State) : Host.Outcome State Fault Refusal :=
  .next (s.hookMessage port (if offHook then .off else .on))

/-- ADMISSION_MESSAGE_ARRIVAL (R148). -/
def execAdmissionMessageArrival (port : Port) (message : AdmissionMessage) (s : State) : Host.Outcome State Fault Refusal :=
  .next (s.admissionMessage port message)

/-- FEATURE_KEY_ARRIVAL (R148). -/
def execFeatureKeyArrival (port : Port) (key : FeatureKey) (s : State) : Host.Outcome State Fault Refusal :=
  .next (s.keyMessage port key)

/-- DIGIT_ARRIVAL (R149). -/
def execDigitArrival (port : Port) (digit : Digit) (s : State) : Host.Outcome State Fault Refusal :=
  .next (s.digitMessage port digit)

/-- LINE_LOSS (R150). -/
def execLineLoss (port : Port) (s : State) : Host.Outcome State Fault Refusal :=
  .next (s.takeLineLoss port)

end Sys2Proof.Machine
end

