-- ==== Sys2Proof/Machine/LoginMeanings.lean ====
section
/-! DEFINITION. Meanings of the commands of logins, home records, queries and the cache (spec 01, 02). -/

namespace Sys2Proof.Machine

open Sys2Proof

/-- LOGIN_REQ (R8). -/
def execLoginReq (port : Port) (s : State) : Host.Outcome State Fault Refusal :=
  .next (s.takeAdmission port fun m => match m with
    | .loginReq e => some fun s => s.takeLoginReq port e
    | .response _ | .logout => none)

/-- RESPONSE (R9). -/
def execResponse (port : Port) (s : State) : Host.Outcome State Fault Refusal :=
  .next (s.takeAdmission port fun m => match m with
    | .response v => some fun s => s.takeResponse port v
    | .loginReq _ | .logout => none)

/-- LOGOUT (R14). -/
def execLogout (port : Port) (s : State) : Host.Outcome State Fault Refusal :=
  .next (s.takeAdmission port fun m => match m with
    | .logout => some fun s => s.logOut port
    | .loginReq _ | .response _ => none)

/-- RENEWAL_OFFER (R20), at a superframe boundary. -/
def execRenewalOffer (s : State) : Host.Outcome State Fault Refusal :=
  .next (if s.clock.frame = 63 then s.offerRenewals else s)

/-- ADMIT_ASK (R27). -/
def execAdmitAsk (s : State) : Host.Outcome State Fault Refusal :=
  .next (s.consume .admitC (fun b => b.kind == 0x10) State.actAdmitAsk)

/-- ADMIT_TELL (R13, R26, R29). -/
def execAdmitTell (s : State) : Host.Outcome State Fault Refusal :=
  .next (s.consume .admitC (fun b => b.kind == 0x11) State.actAdmitTell)

/-- ADMIT_MOVE (R12). -/
def execAdmitMove (s : State) : Host.Outcome State Fault Refusal :=
  .next (s.consume .admitC (fun b => b.kind == 0x12) State.actAdmitMove)

/-- ADMIT_LEAVE (R15). -/
def execAdmitLeave (s : State) : Host.Outcome State Fault Refusal :=
  .next (s.consume .admitC (fun b => b.kind == 0x13) State.actAdmitLeave)

/-- ADMIT_CHANGE (R16). -/
def execAdmitChange (s : State) : Host.Outcome State Fault Refusal :=
  .next (s.consume .admitC (fun b => b.kind == 0x14) State.actAdmitChange)

/-- CHALLENGING_TIMER_EXPIRY (R9). -/
def execChallengingTimerExpiry (port : Port) (s : State) : Host.Outcome State Fault Refusal :=
  .next (s.challengingTimerExpiry port)

/-- CONFIRMING_TIMER_EXPIRY (R11). -/
def execConfirmingTimerExpiry (port : Port) (s : State) : Host.Outcome State Fault Refusal :=
  .next (s.confirmingTimerExpiry port)

/-- RENEWAL_TIMER_EXPIRY (R20). -/
def execRenewalTimerExpiry (port : Port) (s : State) : Host.Outcome State Fault Refusal :=
  .next (s.renewalTimerExpiry port)

/-- LOCKOUT_TIMER_EXPIRY (R4). -/
def execLockoutTimerExpiry (port : Port) (s : State) : Host.Outcome State Fault Refusal :=
  .next (s.lockoutTimerExpiry port)

/-- QUERY_TIMER_EXPIRY (R29). -/
def execQueryTimerExpiry (place : QueryId) (s : State) : Host.Outcome State Fault Refusal :=
  .next (s.queryTimerExpiry place)

end Sys2Proof.Machine
end

