-- ==== Sys2Proof/Machine/CallMeanings.lean ====
section
/-! DEFINITION. Meanings of the commands of calls, held calls and conferences (spec 03, 04, 05). -/

namespace Sys2Proof.Machine

open Sys2Proof

/-- OFF_HOOK (R48). -/
def execOffHook (port : Port) (s : State) : Host.Outcome State Fault Refusal :=
  .next (s.takeHook port .off fun s => s.offHook port)

/-- ON_HOOK (R50, R76). -/
def execOnHook (port : Port) (s : State) : Host.Outcome State Fault Refusal :=
  .next (s.takeHook port .on fun s => s.onHook port)

/-- DIGIT (R41, R42, R49). -/
def execDigit (port : Port) (s : State) : Host.Outcome State Fault Refusal :=
  .next (s.takeDigitEvent port)

/-- HOLD (R73). -/
def execHold (port : Port) (s : State) : Host.Outcome State Fault Refusal :=
  .next (s.takeKeyEvent port .holdKey)

/-- RETURN (R74). -/
def execReturn (port : Port) (s : State) : Host.Outcome State Fault Refusal :=
  .next (s.takeKeyEvent port .returnKey)

/-- SWAP (R75). -/
def execSwap (port : Port) (s : State) : Host.Outcome State Fault Refusal :=
  .next (s.takeKeyEvent port .swapKey)

/-- TRANSFER (R78). -/
def execTransfer (port : Port) (s : State) : Host.Outcome State Fault Refusal :=
  .next (s.takeKeyEvent port .transferKey)

/-- CONFERENCE (R82, R83). -/
def execConference (port : Port) (s : State) : Host.Outcome State Fault Refusal :=
  .next (s.takeKeyEvent port .conferenceKey)

/-- BURST_TIMER_EXPIRY (R72). -/
def execBurstTimerExpiry (port : Port) (s : State) : Host.Outcome State Fault Refusal :=
  .next (s.burstTimerExpiry port)

/-- CALL_OFFER (R55, R56). -/
def execCallOffer (s : State) : Host.Outcome State Fault Refusal :=
  .next (s.consume .callC (fun b => b.kind == 0x20) (State.whileActive State.actCallOffer))

/-- CALL_ANSWER (R58). -/
def execCallAnswer (s : State) : Host.Outcome State Fault Refusal :=
  .next (s.consume .callC (fun b => b.kind == 0x21) (State.whileActive State.actCallCell))

/-- CALL_CONNECT (R59). -/
def execCallConnect (s : State) : Host.Outcome State Fault Refusal :=
  .next (s.consume .callC (fun b => b.kind == 0x22) (State.whileActive State.actCallCell))

/-- CALL_CLEAR (R63). -/
def execCallClear (s : State) : Host.Outcome State Fault Refusal :=
  .next (s.consume .callC (fun b => b.kind == 0x23) (State.whileActive State.actCallCell))

/-- CALL_REDIRECT (R79). -/
def execCallRedirect (s : State) : Host.Outcome State Fault Refusal :=
  .next (s.consume .callC (fun b => b.kind == 0x24) (State.whileActive State.actCallCell))

/-- CONF_SET (R84). -/
def execConfSet (s : State) : Host.Outcome State Fault Refusal :=
  .next (s.consume .callC (fun b => b.kind == 0x25) (State.whileActive State.actCallCell))

/-- DIGIT_TIMER_EXPIRY (R49, R61). -/
def execDigitTimerExpiry (record : RecordId) (s : State) : Host.Outcome State Fault Refusal :=
  .next (s.digitTimerExpiry record)

/-- ONWARD_PAUSE_EXPIRY (R42, R61). -/
def execOnwardPauseExpiry (record : RecordId) (s : State) : Host.Outcome State Fault Refusal :=
  .next (s.onwardPauseExpiry record)

/-- ANSWER_TIMER_EXPIRY (R61). -/
def execAnswerTimerExpiry (record : RecordId) (s : State) : Host.Outcome State Fault Refusal :=
  .next (s.answerTimerExpiry record)

/-- RINGING_TIMER_EXPIRY (R61). -/
def execRingingTimerExpiry (record : RecordId) (s : State) : Host.Outcome State Fault Refusal :=
  .next (s.ringingTimerExpiry record)

/-- ALERTING_TIMER_EXPIRY (R61). -/
def execAlertingTimerExpiry (record : RecordId) (s : State) : Host.Outcome State Fault Refusal :=
  .next (s.alertingTimerExpiry record)

/-- RECALL_TIMER_EXPIRY (R76). -/
def execRecallTimerExpiry (record : RecordId) (s : State) : Host.Outcome State Fault Refusal :=
  .next (s.recallTimerExpiry record)

end Sys2Proof.Machine
end

