-- ==== Sys2Proof/Machine/MaintenanceMeanings.lean ====
section
/-! DEFINITION. Meanings of the commands of the Maintenance Responder (spec 11). -/

namespace Sys2Proof.Machine

open Sys2Proof

/-- MAINT_REQ (R179): a request of any code. -/
def execMaintReq (s : State) : Host.Outcome State Fault Refusal :=
  .next (s.consume .maintC (fun b => b.kind == 0x40) State.actMaintReq)

/-- MAINT_REPLY (R179): discarded. -/
def execMaintReply (s : State) : Host.Outcome State Fault Refusal :=
  .next (s.consume .maintC (fun b => b.kind == 0x41) fun _ s => s)

/-- NOTICE (R179): discarded. -/
def execNotice (s : State) : Host.Outcome State Fault Refusal :=
  .next (s.consume .maintC (fun b => b.kind == 0x42) fun _ s => s)

/-- PORT_ENABLE (R180). -/
def execPortEnable (s : State) : Host.Outcome State Fault Refusal :=
  .next (s.takeRequest .portEnable)

/-- PORT_DISABLE (R180). -/
def execPortDisable (s : State) : Host.Outcome State Fault Refusal :=
  .next (s.takeRequest .portDisable)

/-- SET_RIGHTS (R17, R181). -/
def execSetRights (s : State) : Host.Outcome State Fault Refusal :=
  .next (s.takeRequest .setRights)

/-- BAR (R18, R181). -/
def execBar (s : State) : Host.Outcome State Fault Refusal :=
  .next (s.takeRequest .bar)

/-- UNBAR (R17, R181). -/
def execUnbar (s : State) : Host.Outcome State Fault Refusal :=
  .next (s.takeRequest .unbar)

/-- FORCE_LOGOUT (R18, R181). -/
def execForceLogout (s : State) : Host.Outcome State Fault Refusal :=
  .next (s.takeRequest .forceLogout)

/-- FREEZE_COUNTS (R140, R182). -/
def execFreezeCounts (s : State) : Host.Outcome State Fault Refusal :=
  .next (s.takeRequest .freezeCounts)

/-- THAW_COUNTS (R140, R182). -/
def execThawCounts (s : State) : Host.Outcome State Fault Refusal :=
  .next (s.takeRequest .thawCounts)

/-- CLEAR_COUNTS (R140, R182). -/
def execClearCounts (s : State) : Host.Outcome State Fault Refusal :=
  .next (s.takeRequest .clearCounts)

/-- READ_FAULT_CLEAR (R183). -/
def execReadFaultClear (s : State) : Host.Outcome State Fault Refusal :=
  .next (s.takeRequest .readFaultClear)

/-- RESTART (R184). -/
def execRestart (s : State) : Host.Outcome State Fault Refusal :=
  .next (s.takeRequest .restart)

/-- READ_PORT (R185). -/
def execReadPort (s : State) : Host.Outcome State Fault Refusal :=
  .next (s.takeRequest .readPort)

/-- READ_LOGIN (R185). -/
def execReadLogin (s : State) : Host.Outcome State Fault Refusal :=
  .next (s.takeRequest .readLogin)

/-- READ_HOME (R185). -/
def execReadHome (s : State) : Host.Outcome State Fault Refusal :=
  .next (s.takeRequest .readHome)

/-- READ_CALL (R185). -/
def execReadCall (s : State) : Host.Outcome State Fault Refusal :=
  .next (s.takeRequest .readCall)

/-- READ_LANE (R185). -/
def execReadLane (s : State) : Host.Outcome State Fault Refusal :=
  .next (s.takeRequest .readLane)

/-- READ_COUNTS (R185). -/
def execReadCounts (s : State) : Host.Outcome State Fault Refusal :=
  .next (s.takeRequest .readCounts)

/-- READ_FAULT (R185). -/
def execReadFault (s : State) : Host.Outcome State Fault Refusal :=
  .next (s.takeRequest .readFault)

/-- READ_PLAN (R185). -/
def execReadPlan (s : State) : Host.Outcome State Fault Refusal :=
  .next (s.takeRequest .readPlan)

end Sys2Proof.Machine
end

