-- ==== Sys2Proof/Machine/Dispatch.lean ====
section
/-! DEFINITION. The meaning of each command: one arm per constructor. -/

namespace Sys2Proof.Machine

open Sys2Proof

def exec (i : Instr) (s : State) : Host.Outcome State Fault Refusal :=
  match i with
  | .coldReset => Sys2Proof.Machine.execColdReset s
  | .readCompletion image => Sys2Proof.Machine.execReadCompletion image s
  | .readFailure => Sys2Proof.Machine.execReadFailure s
  | .listeningCountLimit => Sys2Proof.Machine.execListeningCountLimit s
  | .sendWindow => Sys2Proof.Machine.execSendWindow s
  | .cellCarried => Sys2Proof.Machine.execCellCarried s
  | .transmitChoice => Sys2Proof.Machine.execTransmitChoice s
  | .windowHeard window bytes => Sys2Proof.Machine.execWindowHeard window bytes s
  | .refusalListOffer => Sys2Proof.Machine.execRefusalListOffer s
  | .noticeOffer => Sys2Proof.Machine.execNoticeOffer s
  | .census => Sys2Proof.Machine.execCensus s
  | .missedCensusLimit peer => Sys2Proof.Machine.execMissedCensusLimit peer s
  | .renewalOffer => Sys2Proof.Machine.execRenewalOffer s
  | .slotJudgment => Sys2Proof.Machine.execSlotJudgment s
  | .claimRetry lane => Sys2Proof.Machine.execClaimRetry lane s
  | .mixerCompletion => Sys2Proof.Machine.execMixerCompletion s
  | .firstKeyInstall lane => Sys2Proof.Machine.execFirstKeyInstall lane s
  | .talkKeySwap lane => Sys2Proof.Machine.execTalkKeySwap lane s
  | .listenKeySwap lane => Sys2Proof.Machine.execListenKeySwap lane s
  | .keyAgeLimit lane => Sys2Proof.Machine.execKeyAgeLimit lane s
  | .rekeyWantedRetry lane => Sys2Proof.Machine.execRekeyWantedRetry lane s
  | .talkFirstKeyRetry lane => Sys2Proof.Machine.execTalkFirstKeyRetry lane s
  | .keyNextReoffer lane => Sys2Proof.Machine.execKeyNextReoffer lane s
  | .listenFirstKeyRetry lane => Sys2Proof.Machine.execListenFirstKeyRetry lane s
  | .talkLaneBoundary lane => Sys2Proof.Machine.execTalkLaneBoundary lane s
  | .listenLaneBoundary lane => Sys2Proof.Machine.execListenLaneBoundary lane s
  | .lowFigureLimit lane => Sys2Proof.Machine.execLowFigureLimit lane s
  | .recoveryLimit lane => Sys2Proof.Machine.execRecoveryLimit lane s
  | .waitkeyTimerExpiry lane => Sys2Proof.Machine.execWaitkeyTimerExpiry lane s
  | .syncAskTimerExpiry lane => Sys2Proof.Machine.execSyncAskTimerExpiry lane s
  | .setFrameReceived port sample octet check => Sys2Proof.Machine.execSetFrameReceived port sample octet check s
  | .portTrainingJudgment port => Sys2Proof.Machine.execPortTrainingJudgment port s
  | .goodCountLimit port => Sys2Proof.Machine.execGoodCountLimit port s
  | .badCountLimit port => Sys2Proof.Machine.execBadCountLimit port s
  | .hookMessageArrival port offHook => Sys2Proof.Machine.execHookMessageArrival port offHook s
  | .admissionMessageArrival port message => Sys2Proof.Machine.execAdmissionMessageArrival port message s
  | .featureKeyArrival port key => Sys2Proof.Machine.execFeatureKeyArrival port key s
  | .digitArrival port digit => Sys2Proof.Machine.execDigitArrival port digit s
  | .lineLoss port => Sys2Proof.Machine.execLineLoss port s
  | .loginReq port => Sys2Proof.Machine.execLoginReq port s
  | .response port => Sys2Proof.Machine.execResponse port s
  | .logout port => Sys2Proof.Machine.execLogout port s
  | .offHook port => Sys2Proof.Machine.execOffHook port s
  | .onHook port => Sys2Proof.Machine.execOnHook port s
  | .digit port => Sys2Proof.Machine.execDigit port s
  | .hold port => Sys2Proof.Machine.execHold port s
  | .returnCall port => Sys2Proof.Machine.execReturn port s
  | .swap port => Sys2Proof.Machine.execSwap port s
  | .transfer port => Sys2Proof.Machine.execTransfer port s
  | .conference port => Sys2Proof.Machine.execConference port s
  | .burstTimerExpiry port => Sys2Proof.Machine.execBurstTimerExpiry port s
  | .admitAsk => Sys2Proof.Machine.execAdmitAsk s
  | .admitTell => Sys2Proof.Machine.execAdmitTell s
  | .admitMove => Sys2Proof.Machine.execAdmitMove s
  | .admitLeave => Sys2Proof.Machine.execAdmitLeave s
  | .admitChange => Sys2Proof.Machine.execAdmitChange s
  | .challengingTimerExpiry port => Sys2Proof.Machine.execChallengingTimerExpiry port s
  | .confirmingTimerExpiry port => Sys2Proof.Machine.execConfirmingTimerExpiry port s
  | .renewalTimerExpiry port => Sys2Proof.Machine.execRenewalTimerExpiry port s
  | .lockoutTimerExpiry port => Sys2Proof.Machine.execLockoutTimerExpiry port s
  | .queryTimerExpiry place => Sys2Proof.Machine.execQueryTimerExpiry place s
  | .callOffer => Sys2Proof.Machine.execCallOffer s
  | .callAnswer => Sys2Proof.Machine.execCallAnswer s
  | .callConnect => Sys2Proof.Machine.execCallConnect s
  | .callClear => Sys2Proof.Machine.execCallClear s
  | .callRedirect => Sys2Proof.Machine.execCallRedirect s
  | .confSet => Sys2Proof.Machine.execConfSet s
  | .keyNext => Sys2Proof.Machine.execKeyNext s
  | .syncAskAtTalker => Sys2Proof.Machine.execSyncAskAtTalker s
  | .refuse => Sys2Proof.Machine.execRefuse s
  | .maintReq => Sys2Proof.Machine.execMaintReq s
  | .maintReply => Sys2Proof.Machine.execMaintReply s
  | .notice => Sys2Proof.Machine.execNotice s
  | .digitTimerExpiry record => Sys2Proof.Machine.execDigitTimerExpiry record s
  | .onwardPauseExpiry record => Sys2Proof.Machine.execOnwardPauseExpiry record s
  | .answerTimerExpiry record => Sys2Proof.Machine.execAnswerTimerExpiry record s
  | .ringingTimerExpiry record => Sys2Proof.Machine.execRingingTimerExpiry record s
  | .alertingTimerExpiry record => Sys2Proof.Machine.execAlertingTimerExpiry record s
  | .recallTimerExpiry record => Sys2Proof.Machine.execRecallTimerExpiry record s
  | .portEnable => Sys2Proof.Machine.execPortEnable s
  | .portDisable => Sys2Proof.Machine.execPortDisable s
  | .setRights => Sys2Proof.Machine.execSetRights s
  | .bar => Sys2Proof.Machine.execBar s
  | .unbar => Sys2Proof.Machine.execUnbar s
  | .forceLogout => Sys2Proof.Machine.execForceLogout s
  | .freezeCounts => Sys2Proof.Machine.execFreezeCounts s
  | .thawCounts => Sys2Proof.Machine.execThawCounts s
  | .clearCounts => Sys2Proof.Machine.execClearCounts s
  | .readFaultClear => Sys2Proof.Machine.execReadFaultClear s
  | .restart => Sys2Proof.Machine.execRestart s
  | .readPort => Sys2Proof.Machine.execReadPort s
  | .readLogin => Sys2Proof.Machine.execReadLogin s
  | .readHome => Sys2Proof.Machine.execReadHome s
  | .readCall => Sys2Proof.Machine.execReadCall s
  | .readLane => Sys2Proof.Machine.execReadLane s
  | .readCounts => Sys2Proof.Machine.execReadCounts s
  | .readFault => Sys2Proof.Machine.execReadFault s
  | .readPlan => Sys2Proof.Machine.execReadPlan s
  | .readingTheSlot bus => Sys2Proof.Machine.execReadingTheSlot bus s
  | .setFrameSent port => Sys2Proof.Machine.execSetFrameSent port s
  | .setFrameNotReceived port => Sys2Proof.Machine.execSetFrameNotReceived port s

end Sys2Proof.Machine
end

