-- ==== Sys2Proof/Safety.lean ====
section
/-! DEFINITION. What the statements speak of: a command that completes, events and cells that wait to be taken,
and the capacities of the station as predicates of a state (spec 00 "Capacities"). -/

namespace Sys2Proof.Machine

open Sys2Proof

/-- A command answers a next state, and that state is as the predicate says. -/
def Completes (c : Instr) (s : State) (after : State → Prop) : Prop := ∃ t, exec c s = .next t ∧ after t

/-- The station stands at the frame end of frame 63, a superframe boundary (spec 00). -/
def AtBoundary (s : State) : Prop := s.clock.frame = 63

/-- The transmit queue holds so few cells that it accepts `n` more of any kind (R159). -/
def QueueRoom (n : Nat) (s : State) : Prop := s.station.state = .active ∧ s.highway.queue.length + n ≤ 20

/-- A cell joins the end of the transmit queue, and nothing else of the queue changes (R159). -/
def Queues (s t : State) (cells : List Cell) : Prop :=
  t.highway.queue.map (·.cell) = s.highway.queue.map (·.cell) ++ cells

/-- The set of a port that is UP is sent one more message, the newest of its outbound list (R153). -/
def Tells (t : State) (p : Port) (m : SetMessage) : Prop := (t.port p).outbound.getLast? = some m

/-! ### Cells as the statements write them -/

/-- A cell of this station to one station, under a sender tag and a receiver tag, without flags. -/
def cellFrom (s : State) (to_ : Station) (sender receiver : Tag) (b : Body) : Cell :=
  { source := s.self, dest := .one to_, sender := sender, receiver := receiver, body := b }

/-- A cell of this station to all stations. -/
def broadcast (s : State) (b : Body) : Cell := { source := s.self, dest := .all, body := b }

/-- The answer to a taken cell: to its source, its sender tag as receiver tag (R12, R27, R179). -/
def answerTo (s : State) (x : Stored) (b : Body) : Cell :=
  { source := s.self, dest := .one x.cell.source, receiver := x.cell.sender, body := b }

/-- The MAINT-REPLY to a taken request (R179, spec 12). -/
def replyTo (s : State) (x : Stored) (q : Request) (st : ReplyStatus) (data : List Byte) : Cell :=
  answerTo s x (.maintReply q.code st (padTo 28 data))

/-- The state with a stored cell taken by its consumer (R162). -/
def taken (s : State) (cls : StoreClass) (x : Stored) : State :=
  { s with highway := { s.highway with
    store := s.highway.store.erase x, taken := s.highway.taken ++ [cls] } }

/-- The state with one more cell at the end of the transmit queue (R159). -/
def queued (s : State) (c : Cell) : State :=
  { s with highway := { s.highway with queue := s.highway.queue ++ [{ cell := c, name := .plain }] } }

/-! ### Calls as the statements write them -/

/-- A port's front record with its call (R47). -/
def FrontIs (s : State) (p : Port) (r : RecordId) (k : Call) : Prop := s.front p = some r ∧ s.call? r = some k

/-- The lowest-numbered FREE record, the one an allocation takes (R46). -/
def LowestFreeRecord (s : State) (a : RecordId) : Prop := s.call? a = none ∧ ∀ b, b < a → s.call? b ≠ none

/-- The lowest-numbered FREE talk lane, the one an opening takes (R110). -/
def LowestFreeTalk (s : State) (l : TalkId) : Prop := s.talk? l = none ∧ ∀ m, m < l → s.talk? m ≠ none

/-- The lowest-numbered FREE listen lane, the one an opening takes (R125). -/
def LowestFreeListen (s : State) (l : ListenId) : Prop := s.listen? l = none ∧ ∀ m, m < l → s.listen? m ≠ none

/-- The divert entry of a number: the first that covers it (R39, R40). -/
def DivertOf (s : State) (n : Ext) (i : Fin 8) : Prop :=
  (s.calls.diverts.get i).covers n = true ∧ ∀ j, j < i → (s.calls.diverts.get j).covers n = false

/-- The target of a divert entry takes calls: it is this station, or its home entry is PRESENT (R43). -/
def TargetPresent (s : State) (i : Fin 8) : Prop :=
  (s.calls.diverts.get i).target = s.self ∨ ∃ r, s.calls.plan.get (s.calls.diverts.get i).target = .present r

/-- A slot that an attempt may name: FREE in the map, and named by no entry of the own claims list (R91). -/
def Claimable (s : State) (x : Slot) : Prop :=
  s.slots.map.get x = none ∧ ∀ e ∈ s.slots.claims, e.slot ≠ x ∧ e.oldSlot ≠ some x

/-- The record waits in CLEARING with a cause, and its CALL-CLEAR of that cause to a far station under a far tag is
the last cell of the queue (R62). -/
def ClearsTo (s t : State) (r : RecordId) (c : Cause) (far : Station) (farTag : Tag) : Prop :=
  (∃ k, t.call? r = some k ∧ k.state = .clearing ∧ k.cause = c ∧ k.clears = 1 ∧ k.talkLane = none ∧
    k.listenLanes = []) ∧
  t.highway.queue.getLast?.map (·.cell) = some (cellFrom s far (s.callTag r) farTag (.callClear c))

/-- The records in use on a port but those in CLEARING, each listed once (R67). -/
def StandOn (s : State) (p : Port) (rs : List RecordId) : Prop :=
  rs.Nodup ∧ ∀ r, r ∈ rs ↔ ∃ k, s.call? r = some k ∧ k.port = p ∧ k.state ≠ .clearing

/-- The transmit queue has room for every cell that the clearing of a port's records brings, at most one SLOT-FREE and
three CALL-CLEARs for each, and for one cell more (R67, R81, R96). -/
def RoomToClear (s : State) (p : Port) : Prop :=
  (∃ rs, StandOn s p rs ∧ QueueRoom (4 * rs.length + 1) s) ∧
  ∀ e cf, s.calls.confs.get e = some cf → cf.members.length ≤ 3

/-- A cell is the newest of the transmit queue (R159). -/
def LastQueued (t : State) (c : Cell) : Prop := t.highway.queue.getLast?.map (·.cell) = some c

/-- The carried report of a cell names the record that waits in CLEARING for it (R62). -/
def clearingCell (s : State) (r : RecordId) (c : Cell) : Queued :=
  { cell := c, name := .clearing r (s.record r).incarnation }

/-- What the drop or the logout of a port's login leaves of its calls, with the cause that the Admission Unit names
(R3, R67). -/
structure PortCleared (s t : State) (p : Port) (c : Cause) : Prop where
  /-- Each record in use on the port, HELD ones included, is FREE, or in CLEARING with the cause and without lanes. -/
  ended : ∀ r k, s.call? r = some k → k.port = p → k.state ≠ .clearing → t.call? r = none ∨
    ∃ k', t.call? r = some k' ∧ k'.state = .clearing ∧ k'.cause = c ∧ k'.talkLane = none ∧ k'.listenLanes = []
  /-- In DIALING and ROUTING it is FREE at once. -/
  quiet : ∀ r k, s.call? r = some k → k.port = p → k.confRole ≠ .controller → k.state = .dialing ∨ k.state = .routing →
    t.call? r = none
  /-- With room in the queue every other plain record waits for its CALL-CLEAR of the cause to its far end, and a
  CONTROLLER record for a CALL-CLEAR CONF-ENDED to each member of its conference, whose entry is FREE (R62, R86). -/
  told : RoomToClear s p → ∀ r k, s.call? r = some k → k.port = p → k.state ≠ .clearing →
      (∀ far, k.confRole ≠ .controller → k.state ≠ .dialing → k.state ≠ .routing → k.farStation = some far →
        (∃ k', t.call? r = some k' ∧ k'.state = .clearing ∧ k'.clears = 1) ∧
        clearingCell s r (cellFrom s far (s.callTag r) k.farTag (.callClear c)) ∈ t.highway.queue) ∧
      (∀ e cf, k.confRole = .controller → s.calls.confs.get e = some cf → cf.controller = r → cf.members ≠ [] →
        (∀ e' cf', s.calls.confs.get e' = some cf' → cf'.controller = r → e' = e) →
        t.calls.confs.get e = none ∧
        (∃ k', t.call? r = some k' ∧ k'.state = .clearing ∧ k'.confRole = .none ∧ k'.clears = cf.members.length) ∧
        ∀ m ∈ cf.members,
          clearingCell s r (cellFrom s m.station m.link m.tag (.callClear .confEnded)) ∈ t.highway.queue)
  /-- A record in CLEARING is left to finish, one of another port goes on, and a FREE one stays FREE: their timers and
  lists of lanes apart, which change only where a hold stack or a lane is not its record's own, they are as they were. -/
  others : ∀ r, (∀ k, s.call? r = some k → k.port ≠ p ∨ k.state = .clearing) →
    (t.call? r).map (fun k => { k with timer := none, listenLanes := [] }) =
      (s.call? r).map fun k => { k with timer := none, listenLanes := [] }
  /-- Each record that was HELD has left the port's stack (R71, R77). -/
  stack : ∀ r k, s.call? r = some k → k.port = p → k.state = .held → (s.callPort p).stack.Nodup →
    r ∉ (t.callPort p).stack

/-- The set of an UP port whose front record is cleared while its hook view is OFF hears TONE REORDER, the tone of
ADMISSION and of HOME-LOST (R66). -/
def FrontHearsReorder (s t : State) (p : Port) : Prop :=
  (s.port p).state = .up → (s.callPort p).hookView = .off → ∀ r k, FrontIs s p r k → (t.port p).tone = .reorder

/-- A CALL cell that names a plain record: its receiver tag is the record's, and it comes from the record's far
station under the record's far call tag (R64). -/
def NamesRecord (s : State) (x : Stored) (r : RecordId) (k : Call) : Prop :=
  s.call? r = some k ∧ x.cell.receiver = s.callTag r ∧ k.confRole ≠ .controller ∧
  k.farStation = some x.cell.source ∧ x.cell.sender = k.farTag

/-! ### The frame as the statements write it (log 1, log 8) -/

/-- A frame begins: its map is noted (R93), and the marks of the last frame are cleared (log 2). -/
structure FrameBegins (s t : State) : Prop where
  station : t.station = { s.station with
    sinceFrame0 := if s.clock.frame = 0 then decide (s.station.state = .listening) else s.station.sinceFrame0
    entered := false }
  highway : t.highway = { s.highway with
    taken := [], slotCells := [], censuses := [], refusesHeard := [], judged := false }
  slots : t.slots = { s.slots with
    atFrameStart := s.slots.map, claims := s.slots.claims.map fun e => { e with fresh := false } }
  ports : ∀ p, t.port p = { s.port p with heard := false, offered := false, talkSample := 0 }
  talk : ∀ l, t.talk? l = (s.talk? l).map fun u => { u with
    staged := u.staged.map fun g => { g with fresh := false } }
  talkOpenings : ∀ l, t.talkOpening l = s.talkOpening l
  scr : t.scr = { s.scr with
    mixer := s.scr.mixer.map fun q => { q with fresh := false }
    mixerDone := false
    slotsOut := []
    talk := t.scr.talk }
  rest : t = { s with
    station := t.station, highway := t.highway, slots := t.slots, ports := t.ports, scr := t.scr
    maint := { s.maint with newlyPresent := false }, clock := t.clock, pending := t.pending }

/-- A superframe boundary passes: every running timer of a login, lockout, query, call record or burst is less by 1
(spec 00; R4, R9, R11, R20, R29, R47, R72), a stored cell's stamp is more by 1 up to 255 (R162), a refused NOTICE may be
offered again (R171), and a superframe LISTENING from its start is counted up to 2 (R177). -/
structure BoundaryPasses (s t : State) : Prop where
  logins : ∀ p, t.login p = { s.login p with
    entry := (s.login p).entry.map fun x => { x with timer := x.timer.map (· - 1) }
    lockoutTimer := (s.login p).lockoutTimer.map (· - 1) }
  queries : ∀ i, t.adm.queries.get i = { s.adm.queries.get i with
    query := (s.adm.queries.get i).query.map fun y => { y with timer := y.timer.map (· - 1) } }
  records : ∀ r, t.record r = { s.record r with
    call := (s.record r).call.map fun k => { k with timer := k.timer.map (· - 1) } }
  bursts : ∀ p, t.callPort p = { s.callPort p with burst := (s.callPort p).burst.map (· - 1) }
  stamps : t.highway = { s.highway with
    store := s.highway.store.map fun x => { x with stamp := min (x.stamp + 1) 255 } }
  notice : t.maint = { s.maint with refused := false }
  listening : t.station = { s.station with
    listeningCount := if s.station.state = .listening ∧ s.station.sinceFrame0 = true
      then min (s.station.listeningCount + 1) 2 else s.station.listeningCount }
  rest : t = { s with
    station := t.station, highway := t.highway, maint := t.maint, clock := t.clock, pending := t.pending
    adm := { s.adm with logins := t.adm.logins, queries := t.adm.queries }
    calls := { s.calls with records := t.calls.records, ports := t.calls.ports } }

/-- The command is the expiry of a timer that stands at 0 (R4, R9, R11, R20; R29; R42, R47, R76; R72). -/
def TimerRunOut (s : State) (c : Instr) : Prop :=
  (∃ p x, (s.login p).entry = some x ∧ x.timer = some 0 ∧
    ((∃ e n v k, x.body = .challenging e n v k ∧ c = .challengingTimerExpiry p) ∨
      (∃ e, x.body = .confirming e ∧ c = .confirmingTimerExpiry p) ∨
      (∃ e r ep, x.body = .admitted e r ep .sent ∧ c = .renewalTimerExpiry p))) ∨
  (∃ p, (s.login p).lockoutTimer = some 0 ∧ c = .lockoutTimerExpiry p) ∨
  (∃ i y, (s.adm.queries.get i).query = some y ∧ y.timer = some 0 ∧ c = .queryTimerExpiry i) ∨
  (∃ r k, s.call? r = some k ∧ k.timer = some 0 ∧
    ((k.state = .dialing ∧ k.farExt = none ∧ c = .digitTimerExpiry r) ∨
      (k.state = .dialing ∧ k.farExt ≠ none ∧ c = .onwardPauseExpiry r) ∨
      (k.state = .offering ∧ c = .answerTimerExpiry r) ∨ (k.state = .ringback ∧ c = .ringingTimerExpiry r) ∨
      (k.state = .alerting ∧ c = .alertingTimerExpiry r) ∨ (k.state = .held ∧ c = .recallTimerExpiry r))) ∨
  (∃ p, (s.callPort p).burst = some 0 ∧ c = .burstTimerExpiry p)

/-- What a superframe boundary makes due at a talk lane beside the boundary itself (R112 to R120). -/
def TalkLaneDue (s : State) (l : TalkId) (t : TalkLane) (c : Instr) : Prop :=
  (∃ g b, t.staged = some g ∧ g.countdown = some b ∧ b ≤ 1 ∧
    ((g.isFirst = true ∧ c = .firstKeyInstall l) ∨ (g.isFirst = false ∧ c = .talkKeySwap l))) ∨
  (t.mayRekey = true ∧ t.wanted ≠ .clear ∧ c = .rekeyWantedRetry l) ∨
  (t.mayRekey = true ∧ t.wanted = .clear ∧ c = .keyAgeLimit l ∧
    ∃ im, s.station.image = some im ∧ im.keyAgeLimit ≤ min (t.age + 1) 65535) ∨
  (t.partner ≠ none ∧ t.noFirstKey = true ∧ c = .talkFirstKeyRetry l) ∨
  (t.state = .active ∧ c = .keyNextReoffer l ∧
    ∃ g, t.staged = some g ∧ g.isFirst = false ∧ g.queued = false ∧ g.fresh = false)

/-- What a place of the frame makes due, in a state whose clock stands there: one field for each stage, in the order of
log 8. A port, a lane or a store class has the place of its own number. -/
structure PlaceBrings (s : State) (cmds : List Instr) : Prop where
  /-- R157: the own window. -/
  frameStart : s.clock.stage = .frameStart → cmds = if s.station.state = .active then [.sendWindow] else []
  /-- R153: the set frame of every port but a DISABLED one. -/
  sendSets : s.clock.stage = .sendSets → ∀ p : Port, s.clock.index = p.val →
    cmds = if (s.port p).state = .disabled then [] else [.setFrameSent p]
  /-- R155: a port in UP from which no set frame came. -/
  missing : s.clock.stage = .missing → ∀ p : Port, s.clock.index = p.val →
    cmds = if (s.port p).state = .up ∧ (s.port p).heard = false then [.setFrameNotReceived p] else []
  tick : s.clock.stage = .tick → cmds = []
  /-- Every timer that has run out at a boundary, once; the others not (spec 00). -/
  expiries : s.clock.stage = .expiries →
    (s.clock.frame = 63 → cmds.Nodup ∧ ∀ c, c ∈ cmds ↔ TimerRunOut s c) ∧ (s.clock.frame ≠ 63 → cmds = [])
  /-- R157, R62: the report of the cell that the own window carried. -/
  carried : s.clock.stage = .carried → cmds = if s.highway.sent = none then [] else [.cellCarried]
  /-- R106. -/
  mixer : s.clock.stage = .mixer → cmds = if s.scr.mixer = [] then [] else [.mixerCompletion]
  /-- R112 to R120: the boundary of each talk lane in use, and what it makes due there. -/
  talkBoundary : s.clock.stage = .talkBoundary → ∀ l : TalkId, s.clock.index = l.val →
    (s.clock.frame ≠ 63 ∨ s.talk? l = none → cmds = []) ∧
    (∀ t, s.clock.frame = 63 → s.talk? l = some t → ∃ due, cmds = .talkLaneBoundary l :: due ∧
      ∀ c, c ∈ due ↔ TalkLaneDue s l t c)
  /-- R126 to R138: the boundary of each listen lane in use, named by the limit it meets, and R127's request. -/
  listenBoundary : s.clock.stage = .listenBoundary → ∀ l : ListenId, s.clock.index = l.val →
    (s.clock.frame ≠ 63 ∨ s.listen? l = none → cmds = []) ∧
    (∀ t, s.clock.frame = 63 → s.listen? l = some t →
      ∃ c ∈ [Instr.lowFigureLimit l, .recoveryLimit l, .waitkeyTimerExpiry l, .syncAskTimerExpiry l, .listenKeySwap l,
          .listenLaneBoundary l],
        cmds = c :: (if t.awaitsFirstRequest = true then [.listenFirstKeyRetry l] else []) ∧
        (c = .lowFigureLimit l → s.lowFigureDue t = true) ∧ (c = .recoveryLimit l → s.recoveryDue t = true) ∧
        (c = .waitkeyTimerExpiry l → s.waitkeyDue t = true) ∧ (c = .syncAskTimerExpiry l → s.syncAskDue t = true) ∧
        (c = .listenKeySwap l → s.listenSwapDue t = true) ∧
        (c = .listenLaneBoundary l → s.lowFigureDue t = false ∧ s.recoveryDue t = false ∧ s.waitkeyDue t = false ∧
          s.syncAskDue t = false ∧ s.listenSwapDue t = false))
  /-- R93, R167, R168: the judgment of the frame; in frame 0 the censuses, with the peers whose fourth census is missing
  before them, as far as they are below every peer lost by its census. -/
  judge : s.clock.stage = .judge →
    (s.hearing = false → cmds = []) ∧
    (s.hearing = true → s.clock.frame ≠ 0 → cmds = [.slotJudgment]) ∧
    (s.hearing = true → s.clock.frame = 0 → ∃ missed : List Station,
      cmds = missed.map .missedCensusLimit ++ [.census] ∧ missed.Pairwise (· < ·) ∧
      ∀ st, st ∈ missed ↔ st ≠ s.self ∧ s.censusOf st = none ∧ (s.highway.presence.get st).state = .present ∧
        3 ≤ (s.highway.presence.get st).missed ∧
        ∀ st', st' ≠ s.self → s.censusOf st' ≠ none → (s.finding st').lost = true → st < st')
  /-- R92, R94: the attempt after one whose cell the queue refused, at the next frame end. -/
  claims : s.clock.stage = .claims → ∀ l : TalkId, s.clock.index = l.val →
    ((∃ e, s.claimOf l = some e ∧ e.refused = true ∧ e.fresh = false) → cmds = [.claimRetry l]) ∧
    ((∀ e, s.claimOf l = some e → e.refused = false ∨ e.fresh = true) → cmds = [])
  /-- R164: one for each REFUSE heard in the frame. -/
  refuse : s.clock.stage = .refuse → cmds = List.replicate s.highway.refusesHeard.length .refuse
  /-- R144, R145: the judgment of each port at a boundary, named by the limit it meets. -/
  training : s.clock.stage = .training → ∀ p : Port, s.clock.index = p.val →
    let good : Prop := 63 ≤ (s.port p).setFrames ∧ (s.port p).setFrames ≤ 65
    let rises : Prop := (s.port p).state = .training ∧ 3 ≤ (s.port p).good ∧ good
    let falls : Prop := (s.port p).state = .up ∧ 7 ≤ (s.port p).bad ∧ ¬ good
    let judged : Prop := s.clock.frame = 63 ∧ s.hearing = true
    (¬ judged → cmds = []) ∧ (judged → rises → cmds = [.goodCountLimit p]) ∧
    (judged → falls → cmds = [.badCountLimit p]) ∧ (judged → ¬ rises → ¬ falls → cmds = [.portTrainingJudgment p])
  /-- R20: the PENDING renewals, at each boundary. -/
  renewals : s.clock.stage = .renewals →
    let pending : Prop := ∃ p e r x, s.loginBody p = some (.admitted e r x .pending)
    (s.clock.frame = 63 → pending → cmds = [.renewalOffer]) ∧ (s.clock.frame ≠ 63 ∨ ¬ pending → cmds = [])
  /-- R177. -/
  listening : s.clock.stage = .listening → cmds =
    if s.clock.frame = 63 ∧ s.station.state = .listening ∧ 2 ≤ s.station.listeningCount
      then [.listeningCountLimit] else []
  /-- R162: the oldest cell of each class, in the order of log 8. -/
  take : s.clock.stage = .take → ∀ cls, [StoreClass.admitC, .callC, .keyC, .maintC][s.clock.index]? = some cls →
    (s.nextCell cls = none → cmds = []) ∧
    (∀ x, s.nextCell cls = some x → cmds = x.cell.body.command.toList)
  /-- R150: the event that each port offers. -/
  offers : s.clock.stage = .offers → ∀ p : Port, s.clock.index = p.val →
    (s.dueEvent p = none → cmds = []) ∧ (∀ e, s.dueEvent p = some e → cmds = [e.command p])
  /-- R163. -/
  refusalList : s.clock.stage = .refusalList →
    cmds = if s.station.state = .active ∧ s.highway.refusals ≠ [] then [.refusalListOffer] else []
  /-- R171. -/
  notice : s.clock.stage = .notice → cmds = if s.noticeDue = none then [] else [.noticeOffer]
  /-- R160: at the end of every frame but 63, whose choice is the census of frame 0. -/
  choice : s.clock.stage = .choice →
    cmds = if s.station.state = .active ∧ s.clock.frame ≠ 63 then [.transmitChoice] else []
  frameEnd : s.clock.stage = .frameEnd → cmds = []

/-! ### Cells of the form that spec 12 gives -/

/-- Values of a body that its fields carry: extensions to 9999, a census range of 1 to 256 numbers and at most 24
slots, at most 12 onward digits, 2 to 4 members, key counts to 65534 with lead 2, carried causes, and the fixed
lengths of the maintenance cells (R187, spec 12). -/
def Body.Fits : Body → Prop
  | .census b => b.low < 65536 ∧ 1 ≤ b.length ∧ b.length ≤ 256 ∧ b.held.length ≤ 24
  | .slot _ | .refuse .. | .callAnswer _ | .callConnect .. | .callRedirect .. | .syncAsk _ | .notice .. => True
  | .admitAsk e | .admitTell e .. | .admitMove e _ | .admitLeave e _ | .admitChange e .. => e ≤ 9999
  | .callOffer caller called _ _ _ onward => caller ≤ 9999 ∧ called ≤ 9999 ∧ onward.length ≤ 12
  | .callClear c => c ∈ Cause.carried
  | .confSet _ members => 2 ≤ members.length ∧ members.length ≤ 4
  | .keyNext _ _ _ count lead => count < 65535 ∧ lead = 2
  | .maintReq _ argument => argument.length = 8
  | .maintReply _ _ data => data.length = 28

/-- A cell whose body fits and whose flags stand only where they belong to the kind (R187). -/
def Cell.Fits (c : Cell) : Prop :=
  c.body.Fits ∧
  (c.cold = true → c.body.kind = 0x01) ∧
  (c.renew = true → c.body.kind = 0x11 ∨ c.body.kind = 0x12) ∧
  (c.move = true → c.body.kind = 0x11) ∧
  (c.divert = true → c.body.kind = 0x20)

/-! ### Capacities -/

/-- Bounds of the Highway Interface (R159, R163, R158, R169, R167). -/
structure HighwayBounds (s : State) : Prop where
  queue : s.highway.queue.length ≤ 24
  refusals : s.highway.refusals.length ≤ 4
  censuses : s.highway.censusCount ≤ 4
  counters : ∀ k : Fin 12, s.highway.counters.get k ≤ 65535
  missed : ∀ st : Station, (s.highway.presence.get st).missed ≤ 4

/-- Bounds of a port (R143, R144, R149, R153): digit FIFO, key latches, outbound list, counts. -/
structure PortBounds (u : PortUnit) : Prop where
  digits : u.digits.length ≤ 16
  keys : u.keys.Nodup
  outbound : u.outbound.length ≤ 4
  good : u.good ≤ 4
  bad : u.bad ≤ 8
  lineLosses : u.lineLossCount ≤ 255
  replaced : u.replacedCount ≤ 255

/-- Bounds of the Admission Unit (R4, R22): failure counts, and the cache with one entry for an extension. -/
structure AdmissionBounds (s : State) : Prop where
  failures : ∀ p : Port, (s.login p).failures ≤ 3
  cache : s.adm.cache.length ≤ 32
  cacheOnce : (s.adm.cache.map (·.ext)).Nodup

/-- The key mixer's queue holds 16 requests at most (R105), and the nonce source has given no value twice since the
last cold reset, as long as it has given no more values than there are (R108). -/
structure MixerAndNonceBounds (s : State) : Prop where
  mixer : s.scr.mixer.length ≤ 16
  nonces : s.scr.noncesGiven.length ≤ 2 ^ 64 → s.scr.noncesGiven.Nodup

/-- The receive store (R161): 32 buffers, each class in its own reserved buffers and in the pool. A stored CONF-SET
lists at most 4 members (spec 12), and nothing is stored before an image stands. -/
structure StoreBounds (s : State) : Prop where
  cells : s.highway.store.length ≤ 32
  classes : ∀ x ∈ s.highway.store, ∃ c, x.inClass c = true
  reserved : ∀ im, s.station.image = some im → ∀ c, 1 ≤ im.reserved c ∧ im.reserved c ≤ 8
  each : ∀ im, s.station.image = some im → ∀ c, s.stored c ≤ im.reserved c + im.pool
  pool : ∀ im, s.station.image = some im → s.poolUsed im ≤ im.pool
  lists : ∀ x ∈ s.highway.store, ∀ n ms, x.cell.body = .confSet n ms → ms.length ≤ 4
  unloaded : s.station.image = none → s.highway.store = []

/-- Hold stacks (R71): at most 3 records, and a record is HELD exactly when it stands on its own port's stack. -/
structure HoldStacks (s : State) : Prop where
  depth : ∀ p : Port, (s.callPort p).stack.length ≤ 3
  once : ∀ p : Port, (s.callPort p).stack.Nodup
  held : ∀ (p : Port) (r : RecordId),
    r ∈ (s.callPort p).stack ↔ ∃ k, s.call? r = some k ∧ k.state = .held ∧ k.port = p

/-- The conference table (R81): an entry in use holds 2 or 3 remote members, its controller record is of role
CONTROLLER, and no record controls two entries. -/
structure Conferences (s : State) : Prop where
  members : ∀ e c, s.calls.confs.get e = some c → 2 ≤ c.members.length ∧ c.members.length ≤ 3
  controlled : ∀ e c, s.calls.confs.get e = some c → ∃ k, s.call? c.controller = some k ∧ k.confRole = .controller
  once : ∀ e e' c c', s.calls.confs.get e = some c → s.calls.confs.get e' = some c' →
    c.controller = c'.controller → e = e'

/-- The talkers a record's listen lanes listen to, by station and call tag. -/
def heardBy (s : State) (k : Call) : List (Station × Tag) :=
  k.listenLanes.filterMap fun l => (s.listen? l).map fun t => (t.talker, t.talkerTag)

/-- A record in use: at most 3 listen lanes, its own, opened in PROVING, CONNECTED or HELD; they listen to the far
end of a plain record, to different members at a MEMBER record, and to the remote members of the conference at a
CONTROLLER record, which has one (R57, R59, R81, R83, R84). At most 3 digits dialled and 12 onward, 11 while more may
come (R42, R46). -/
structure RecordBounds (s : State) (r : RecordId) (k : Call) : Prop where
  lanes : k.listenLanes.length ≤ 3
  once : k.listenLanes.Nodup
  owned : ∀ l ∈ k.listenLanes, ∃ t, s.listen? l = some t ∧ t.owner = r
  open_ : k.listenLanes ≠ [] → k.state = .proving ∨ k.state = .connected ∨ k.state = .held
  plain : k.confRole = .none → (heardBy s k).Subperm (k.farStation.toList.map fun st => (st, k.farTag))
  member : k.confRole = .member → (heardBy s k).Nodup
  controller : k.confRole = .controller → ∃ e c, s.calls.confs.get e = some c ∧ c.controller = r ∧
    (heardBy s k).Subperm (c.members.map fun m => (m.station, m.tag))
  dialled : k.state = .dialing → k.dialled.length ≤ 3
  onward : k.onward.length ≤ 12
  more : k.state = .dialing → k.farExt.isSome → k.onward.length ≤ 11

/-- A slot that the map shows held by this station is that of an ACTIVE talk lane (R89), and before an image stands
every slot is FREE (R102, R104). -/
structure OwnSlots (s : State) : Prop where
  active : ∀ x, s.slots.map.get x = some s.self → ∃ l, s.activeSlot l = some x
  unloaded : s.station.image = none → ∀ x, s.slots.map.get x = none

/-- The capacities of the whole station. An image stands exactly in LISTENING, ACTIVE and ISOLATED (R173). -/
structure Capacities (s : State) : Prop where
  highway : HighwayBounds s
  store : StoreBounds s
  ports : ∀ p : Port, PortBounds (s.port p)
  admission : AdmissionBounds s
  scrambler : MixerAndNonceBounds s
  held : HoldStacks s
  conferences : Conferences s
  records : ∀ r k, s.call? r = some k → RecordBounds s r k
  slots : OwnSlots s
  loaded : s.station.image = none ↔ s.station.state = .loading ∨ s.station.state = .halted

/-- The moves between station states that R173's table gives. -/
inductive StationMove : StationState → StationState → Prop where
  | stays (x : StationState) : StationMove x x
  | coldReset (x : StationState) : StationMove x .loading
  | imageGood : StationMove .loading .listening
  | imageBad : StationMove .loading .halted
  | listened : StationMove .listening .active
  | warmReset : StationMove .active .listening
  | clash : StationMove .active .isolated

end Sys2Proof.Machine
end

