-- ==== Sys2Proof/Certificates/Slice0/Obligations.lean ====
section
/-! DEFINITION. Statements for the provers. Each docstring names the rules of spec/ it comes from. `Completes c s P`
says that the command answers a next state of which P holds. -/

open Sys2Proof Sys2Proof.Machine

/-! ### The queue and the clock (the model's own, log 1) -/

/-- The command at the front of the queue runs on the state with the queue's rest (the block's interface, log 1). -/
def Obligations.StepRunsFrontCommand : Prop :=
  ∀ (s : State) (c : Instr) (rest : List Instr),
    s.pending = c :: rest → step s = exec c { s with pending := rest }

/-- The model's choice of log 1: with nothing waiting, a step is one place of the frame sequencer; the frame number
goes on at the last place of a frame, 63 being followed by 0 (spec 00, Time). A frame begins with its map noted (R93) and
the marks of the last one cleared (log 2). At the tick of frame 63 a superframe boundary passes (`BoundaryPasses`): each
running timer of a login, lockout, query, call record or burst is less by 1 (spec 00, R4, R29, R47, R72), the stamp of a
stored cell is more by 1, up to 255 (R162), and a refused NOTICE may be offered again (R171). At every other place, the
tick of another frame among them, nothing changes but clock and queue. The queue holds what the place makes due
(`PlaceBrings`): of the timers exactly the expiries of those that stand at 0 at a boundary, the boundaries of the lanes in
use, the judgment of the frame, the cells and events that wait. The order of the places is that of log 8, and of lanes
among themselves that of logs 44 and 68. A boundary is named by the limit it meets, and KEY_AGE_LIMIT comes only where
rekey-wanted is clear (log 31); a talk lane is judged as the boundary finds it (log 46). -/
def Obligations.IdleStepGoesThroughTheFrame : Prop :=
  ∀ s : State, s.pending = [] → ∃ t, step s = .next t ∧ t.clock = s.clock.advance ∧
    (s.clock.stage = .frameEnd → t.clock.stage = .frameStart ∧ t.clock.index = 0 ∧
      t.clock.frame.val = (s.clock.frame.val + 1) % 64) ∧
    (s.clock.stage ≠ .frameEnd → t.clock.frame = s.clock.frame) ∧
    (s.clock.stage = .frameStart → FrameBegins s t) ∧
    (s.clock.stage = .tick → s.clock.frame = 63 → BoundaryPasses s t) ∧
    (s.clock.stage ≠ .frameStart → s.clock.stage ≠ .tick ∨ s.clock.frame ≠ 63 →
      t = { s with clock := t.clock, pending := t.pending }) ∧
    PlaceBrings s t.pending

/-! ### Reset values -/

/-- R104: the slot map and the own claims list after COLD_RESET, and after the warm reset that CELL_CARRIED brings with
a RESTART reply; no SLOT-FREE waits in the queue after it. -/
def Obligations.SlotMapResetValues : Prop :=
  ∀ (s : State) (q : Queued) (im : Image),
    (Completes .coldReset s fun t => (∀ x, t.slots.map.get x = none) ∧ t.slots.claims = []) ∧
    (s.highway.sent = some q → q.name = .restartReply → s.station.state = .active → s.maint.restartDue = true →
      s.station.image = some im →
      Completes .cellCarried s fun t =>
        (∀ x, t.slots.map.get x = none) ∧ t.slots.claims = [] ∧ t.highway.queue = [])

/-- R21 and R34: logins, failures, home records, cache, queries and the query wait list after COLD_RESET, after the
distribution of an image, and after a warm reset. -/
def Obligations.AdmissionResetValues : Prop :=
  ∀ (s : State) (q : Queued) (im : Image) (bytes : List Byte),
    (Completes .coldReset s fun t =>
      (∀ p, t.login p = {}) ∧ t.adm.homes = [] ∧ t.adm.cache = [] ∧ (∀ i, t.adm.queries.get i = {}) ∧
      t.calls.waitList = []) ∧
    (s.station.state = .loading → decodeImage bytes = some im →
      Completes (.readCompletion bytes) s fun t =>
        t.adm.homes.length = im.range.length ∧
        ∀ h ∈ t.adm.homes, h.location = none ∧ h.rights = im.defaultRights ∧ h.barred = false ∧ h.epoch = 0) ∧
    (s.highway.sent = some q → q.name = .restartReply → s.station.state = .active → s.maint.restartDue = true →
      s.station.image = some im →
      Completes .cellCarried s fun t =>
        (∀ p, t.login p = { incarnation := (s.login p).incarnation }) ∧
        t.adm.homes.length = s.adm.homes.length ∧
        (∀ (i : Nat) (h : HomeRecord), s.adm.homes[i]? = some h →
          t.adm.homes[i]? = some (if h.location.map (·.1) = some im.station
            then { h with location := none, epoch := h.epoch + 1 } else h)) ∧
        t.adm.cache = [] ∧
        (∀ i, t.adm.queries.get i = { incarnation := (s.adm.queries.get i).incarnation }) ∧
        t.calls.waitList = [] ∧ t.highway.queue = [])

/-- R172 and R186: the highway's and the station's own state after COLD_RESET and after a warm reset. R45, R70, R88,
R123, R142, R156: number plan, divert table, calls, conferences, mixer, lanes and ports after COLD_RESET and after a warm
reset. R45, R156, R39: what the load after a cold reset gives the own entry, the divert table and the ports, with
RANGE-OVERLAP counted for each entry disabled. That COLD_RESET counts the nonce source's starting states and empties the
values given is the model's choice of log 4; that the divert table is clear and the own entry UNKNOWN until the load is that of log 5. -/
def Obligations.StationWideResetValues : Prop :=
  (∀ (s : State) (q : Queued) (im : Image),
    (Completes .coldReset s fun t =>
      t.station.state = .loading ∧ t.station.image = none ∧ t.station.listeningCount = 0 ∧
      t.station.faultOutput = false ∧ t.highway.queue = [] ∧ t.highway.store = [] ∧ t.highway.refusals = [] ∧
      t.highway.censusCount = 0 ∧ (∀ st, (t.highway.presence.get st).state = .unknown) ∧
      t.highway.fault = {} ∧ (∀ k, t.highway.counters.get k = 0) ∧ t.maint = {}) ∧
    (s.highway.sent = some q → q.name = .restartReply → s.station.state = .active → s.maint.restartDue = true →
      s.station.image = some im →
      Completes .cellCarried s fun t =>
        t.station.state = .listening ∧ t.station.image = some im ∧ t.station.listeningCount = 0 ∧
        t.station.startTag = s.station.startTag + 1 ∧ t.station.faultOutput = false ∧
        t.highway.queue = [] ∧ t.highway.store = [] ∧ t.highway.refusals = [] ∧
        t.highway.censusCount = s.highway.censusCount ∧
        (∀ st, t.highway.presence.get st = match (s.highway.presence.get st).state with
          | .unknown => s.highway.presence.get st
          | .present | .absent => { s.highway.presence.get st with state := .absent, missed := 0 }) ∧
        t.highway.fault = s.highway.fault ∧ t.highway.counters = s.highway.counters ∧
        t.maint = { pending := s.maint.pending })) ∧
  (∀ (s : State) (q : Queued) (im : Image),
    let untrained (u : PortUnit) : Prop := u.good = 0 ∧ u.bad = 0 ∧ u.setFrames = 0 ∧
      u.lineLoss = false ∧ u.admission = none ∧ u.hook = none ∧ u.keys = [] ∧ u.digits = [] ∧ u.outbound = [] ∧
      u.reportedHook = .on ∧ u.tone = .none ∧ u.ring = false
    let disabled (im : Image) (t : State) : List (Fin 8) :=
      (List.finRange 8).filter fun i => (im.diverts.get i).enable && !(t.calls.diverts.get i).enable
    (Completes .coldReset s fun t =>
      (∀ st, t.calls.plan.get st = .unknown) ∧ (∀ r, t.record r = {}) ∧ (∀ p, t.callPort p = {}) ∧
      (∀ e, t.calls.confs.get e = none) ∧ (∀ i, t.calls.diverts.get i = {}) ∧ t.scr.mixer = [] ∧
      t.scr.nonceSeed = s.scr.nonceSeed + 1 ∧ t.scr.noncesGiven = [] ∧
      (∀ l, t.talkPlace l = {}) ∧ (∀ l, t.listenPlace l = {}) ∧
      (∀ p, (t.port p).state = .down ∧ untrained (t.port p) ∧ (t.port p).lineLossCount = 0 ∧
        (t.port p).replacedCount = 0)) ∧
    (∀ bytes, s.station.state = .loading → decodeImage bytes = some im →
      s.highway.counters.get FaultKind.rangeOverlap.index ≤ 65535 →
      Completes (.readCompletion bytes) s fun t =>
        t.calls.plan.get im.station = .present im.range ∧
        (∀ i, t.calls.diverts.get i = { im.diverts.get i with enable := (t.calls.diverts.get i).enable }) ∧
        t.highway.counters.get FaultKind.rangeOverlap.index =
          min (s.highway.counters.get FaultKind.rangeOverlap.index + (disabled im t).length) 65535 ∧
        (∀ p, (t.port p).state = (if im.mask.getLsbD p.val then .down else .disabled) ∧
          (t.port p).enable = im.mask.getLsbD p.val ∧ untrained (t.port p))) ∧
    (s.highway.sent = some q → q.name = .restartReply → s.station.state = .active → s.maint.restartDue = true →
      s.station.image = some im →
      Completes .cellCarried s fun t =>
        t.calls.plan.get im.station = s.calls.plan.get im.station ∧
        (∀ st, st ≠ im.station → t.calls.plan.get st = match s.calls.plan.get st with
          | .unknown => .unknown
          | .present r | .absent r => .absent r) ∧
        t.calls.diverts = s.calls.diverts ∧
        (∀ r, t.record r = { incarnation := (s.record r).incarnation }) ∧ (∀ p, t.callPort p = {}) ∧
        (∀ e, t.calls.confs.get e = none) ∧ t.scr.mixer = [] ∧ t.scr.noncesGiven = s.scr.noncesGiven ∧
        t.scr.nonceSeed = s.scr.nonceSeed ∧ (∀ l, t.talkPlace l = {}) ∧ (∀ l, t.listenPlace l = {}) ∧
        (∀ p, (t.port p).state = (if im.mask.getLsbD p.val then .down else .disabled) ∧
          (t.port p).enable = im.mask.getLsbD p.val ∧ untrained (t.port p) ∧
          (t.port p).lineLossCount = (s.port p).lineLossCount ∧
          (t.port p).replacedCount = (s.port p).replacedCount)))

/-! ### Loading and listening -/

/-- R174, R175: in LOADING, a read failure, and a completed read that leaves `decodeImage` without an image, take the
station to HALTED with its fault output lit, and no block is given anything. A bad check, a wrong format code and any
field out of its range (the table of R175, at the offsets of spec 12) leave none. R176: a good image is distributed, and the station is LISTENING; its start tag comes from a draw of the
nonce source. R39: after a good image is distributed, no two enabled divert entries share a number, and an entry is
disabled only when it shares a number with an enabled entry of lower index. -/
def Obligations.ReadingTheImage : Prop :=
  (∀ (s : State) (bytes : List Byte), s.station.state = .loading →
    (Completes .readFailure s fun t =>
      t = { s with station := { s.station with state := .halted, faultOutput := true } }) ∧
    (decodeImage bytes = none → Completes (.readCompletion bytes) s fun t =>
      t = { s with station := { s.station with state := .halted, faultOutput := true } }) ∧
    let byte (i : Nat) : Nat := (byteAt bytes i).toNat
    let pair (i : Nat) : Nat := fieldAt bytes i 2
    let defaulted (v d : Nat) : Nat := if v = 0 then d else v
    ((checkGood 87 bytes = false ∨ byte 0 ≠ 0x31 ∨ 15 < byte 1 ∨ 9999 < pair 2 ∨ pair 4 = 0 ∨ 256 < pair 4 ∨
        9999 < pair 2 + pair 4 - 1 ∨ 3 < byte 6 ∨ (∃ i, 0x0A ≤ i ∧ i ≤ 0x0D ∧ (byte i = 0 ∨ 8 < byte i)) ∨
        byte 0x0E = byte 1 ∨ (0x10 ≤ byte 0x0E ∧ byte 0x0E ≤ 0xFE) ∨ 64 < byte 0x0F ∨ 64 < byte 0x10 ∨
        defaulted (byte 0x0F) 60 < defaulted (byte 0x10) 48 ∨ (1 ≤ pair 0x13 ∧ pair 0x13 ≤ 1023) ∨ 511 < pair 0x15 ∨
        (∃ i, i < 8 ∧ (pair (0x29 + 6 * i) < pair (0x27 + 6 * i) ∨ 9999 < pair (0x29 + 6 * i) ∨
          15 < byte (0x2B + 6 * i)))) →
      Completes (.readCompletion bytes) s fun t =>
        t = { s with station := { s.station with state := .halted, faultOutput := true } })) ∧
  (∀ (s : State) (bytes : List Byte) (im : Image), s.station.state = .loading → decodeImage bytes = some im →
    Completes (.readCompletion bytes) s fun t =>
      t.station.state = .listening ∧ t.station.image = some im ∧ t.station.listeningCount = 0 ∧
      t.station.faultOutput = false ∧
      t.calls.plan.get im.station = .present im.range ∧
      (∀ st, st ≠ im.station → t.calls.plan.get st = s.calls.plan.get st) ∧
      (∀ p, (t.port p).enable = im.mask.getLsbD p.val ∧
        (t.port p).state = if im.mask.getLsbD p.val then .down else .disabled) ∧
      (∃ n, t.scr.noncesGiven = n :: s.scr.noncesGiven ∧ t.station.startTag = n.setWidth 16) ∧
      (∀ i : Fin 8, (t.calls.diverts.get i).low = (im.diverts.get i).low ∧
        ((t.calls.diverts.get i).enable = true → (im.diverts.get i).enable = true)) ∧
      t.highway.queue = s.highway.queue ∧ t.slots = s.slots) ∧
  (∀ (s : State) (bytes : List Byte) (im : Image), s.station.state = .loading → decodeImage bytes = some im →
    Completes (.readCompletion bytes) s fun t =>
      (∀ (i j : Fin 8) (n : Nat), (t.calls.diverts.get i).covers n = true → (t.calls.diverts.get j).covers n = true →
        i = j) ∧
      (∀ j : Fin 8, (im.diverts.get j).enable = true → (t.calls.diverts.get j).enable = false →
        ∃ (i : Fin 8) (n : Nat), i < j ∧ (t.calls.diverts.get i).covers n = true ∧
          (im.diverts.get j).covers n = true))

/-- R177: a station that enters LISTENING does so with its listening count at 0 and hears no window in that frame. Frame 0
notes that the superframe is LISTENING from its start; the boundary that ends such a superframe adds 1 to the count, up
to 2, and a boundary of any other superframe leaves it. At the boundary at which the count stands at 2 the station
becomes ACTIVE, and nothing else changes. The model's choice of log 2: with a count below 2 the command changes
nothing. -/
def Obligations.SecondFullSuperframeMakesActive : Prop :=
  (∀ s : State, s.station.state = .listening → AtBoundary s →
    (s.station.listeningCount = 2 → Completes .listeningCountLimit s fun t =>
      t = { s with station := { s.station with state := .active, faultOutput := false } }) ∧
    (s.station.listeningCount < 2 → Completes .listeningCountLimit s fun t => t = s)) ∧
  (∀ (s : State) (bytes : List Byte) (im : Image), s.station.state = .loading → decodeImage bytes = some im →
    Completes (.readCompletion bytes) s fun t =>
      t.station.listeningCount = 0 ∧ t.station.sinceFrame0 = false ∧ t.station.entered = true) ∧
  (∀ s : State, s.pending = [] → s.station.state = .listening →
    (s.clock.stage = .frameStart → ∃ t, step s = .next t ∧ t.station.entered = false ∧
      t.station.sinceFrame0 = (if s.clock.frame = 0 then true else s.station.sinceFrame0) ∧
      t.station.listeningCount = s.station.listeningCount) ∧
    (s.clock.stage = .tick → ∃ t, step s = .next t ∧ t.station.sinceFrame0 = s.station.sinceFrame0 ∧
      t.station.listeningCount =
        (if s.clock.frame = 63 ∧ s.station.sinceFrame0 = true then min (s.station.listeningCount + 1) 2
          else s.station.listeningCount)))

/-! ### The highway -/

/-- R157, R158: in frame 0 an ACTIVE station sends its census, with COLD while fewer than four have been sent, and the
slots its map shows as its own, ascending; in the other frames it sends the chosen cell or nothing; a station that is
not ACTIVE sends nothing. R157, R62, R90, R96, R112, R120, R127, R171: what the report of a carried cell does, once. That of a
NOTICE clears the queued mark; that of a SLOT-FREE removes its RELEASE entry; that of a SLOT-CLAIM gives its entry the
frame that carried it, and that of a SLOT-MOVE the MOVE entry of its new and old slot; that of a KEY-NEXT starts the countdown of the staged key at 2; that of a CALL-CLEAR frees its
CLEARING record with the last cell it waits for, and does nothing under another incarnation; that of a CALL-CONNECT gives
the first keys of the callee's talk lane and of its SETUP listen lane the boundary that ends this superframe. A cell
whose offer named nothing changes nothing else. -/
def Obligations.OwnWindowIsSentAndReported : Prop :=
  (∀ (s : State) (im : Image), s.station.image = some im →
    (s.station.state = .active → s.clock.frame = 0 → Completes .sendWindow s fun t =>
      (∃ c : Cell, t.highway.windowOut = some c.encode ∧ c.source = im.station ∧ c.dest = .all ∧
        c.sender = Tag.absent ∧ c.receiver = Tag.absent ∧
        (c.cold = true ↔ s.highway.censusCount < 4) ∧
        c.body = .census {
          low := im.range.low
          length := im.range.length
          startTag := s.station.startTag
          held := ((List.finRange 256).filter fun x => decide (s.slots.map.get x = some im.station)).take 24 }) ∧
      t.highway.sent = none ∧ t.highway.censusCount = min (s.highway.censusCount + 1) 4 ∧
      t.highway.queue = s.highway.queue ∧ t.highway.chosen = s.highway.chosen) ∧
    (s.station.state = .active → s.clock.frame ≠ 0 → Completes .sendWindow s fun t =>
      t = { s with highway := { s.highway with
        windowOut := s.highway.chosen.map fun q => q.cell.encode, sent := s.highway.chosen, chosen := none } }) ∧
    (s.station.state ≠ .active → Completes .sendWindow s fun t =>
      t = { s with highway := { s.highway with windowOut := none, sent := none } })) ∧
  (∀ (s : State) (q : Queued), s.highway.sent = some q →
    (q.name = .plain → Completes .cellCarried s fun t => t = { s with highway := { s.highway with sent := none } }) ∧
    (q.name = .notice → Completes .cellCarried s fun t =>
      t = { s with
        highway := { s.highway with sent := none }
        maint := { s.maint with queued := false } }) ∧
    (∀ x : Slot, q.name = .slotCell (.free x) → Completes .cellCarried s fun t =>
      (∀ e ∈ t.slots.claims, e ∈ s.slots.claims) ∧
      (∀ e ∈ s.slots.claims, e ∈ t.slots.claims ↔ ¬ (e.kind = .release ∧ e.slot = x ∧ e.refused = false)) ∧
      t.slots.map = s.slots.map ∧ t.highway = { s.highway with sent := none }) ∧
    (∀ (l : TalkId) (t0 : TalkLane) (g : TalkStaged), q.name = .keyNext l (s.talkOpening l) → s.talk? l = some t0 →
      t0.staged = some g → g.queued = true → Completes .cellCarried s fun t =>
        t.talk? l = some { t0 with staged := some { g with countdown := some 2 } } ∧
        t.highway = { s.highway with sent := none }) ∧
    (∀ (r : RecordId) (i : Byte) (k : Call), q.name = .clearing r i → s.call? r = some k → k.state = .clearing →
      ((s.record r).incarnation = i → k.clears ≤ 1 → Completes .cellCarried s fun t =>
        t.record r = { incarnation := i } ∧ ∀ j, j ≠ r → t.record j = s.record j) ∧
      ((s.record r).incarnation = i → 2 ≤ k.clears → Completes .cellCarried s fun t =>
        t.call? r = some { k with clears := k.clears - 1 }) ∧
      ((s.record r).incarnation ≠ i → Completes .cellCarried s fun t =>
        t = { s with highway := { s.highway with sent := none } })) ∧
    (∀ x : Slot, q.name = .slotCell (.claim x) → Completes .cellCarried s fun t =>
      t.slots.claims = s.slots.claims.map (fun e =>
        if e.kind = .claim ∧ e.slot = x ∧ e.refused = false then { e with carried := some s.clock.frame } else e) ∧
      t.slots.map = s.slots.map ∧ t.highway = { s.highway with sent := none }) ∧
    (∀ old x : Slot, q.name = .slotCell (.move old x) → Completes .cellCarried s fun t =>
      t.slots.claims = s.slots.claims.map (fun e =>
        if e.kind = .move ∧ e.slot = x ∧ e.oldSlot.getD x = old ∧ e.refused = false
          then { e with carried := some s.clock.frame } else e) ∧
      t.slots.map = s.slots.map ∧ t.highway = { s.highway with sent := none }) ∧
    (∀ (r : RecordId) (i : Byte) (k : Call), q.name = .callConnect r i → s.call? r = some k →
      ((s.record r).incarnation ≠ i → Completes .cellCarried s fun t =>
        t = { s with highway := { s.highway with sent := none } }) ∧
      (∀ (l : TalkId) (t0 : TalkLane) (m : ListenId) (l0 : ListenLane), (s.record r).incarnation = i →
        k.talkLane = some l → k.listenLanes = [m] → s.talk? l = some t0 → s.listen? m = some l0 →
        l0.purpose = .setup → l0.provingClock = none → l0.state = .waitkey → l0.staged = none →
        Completes .cellCarried s fun t =>
          t.talk? l = some { t0 with
            firstBoundary := some 1
            staged := t0.staged.map fun g => if g.isFirst then { g with countdown := some 1 } else g } ∧
          t.listen? m = some { l0 with
            provingClock := some 1
            timer := none
            request := l0.request.map fun a => if a.isFirst then { a with countdown := some 1 } else a } ∧
          t.calls = s.calls)))

/-- R160: the choice for the next frame. An ACTIVE station with no cell chosen takes, at the end of any frame but 63, a
cell of its queue such that no older cell of CALL or KEY class has its sender tag where it is itself one under a call
tag, and no other cell free in this way is of an earlier class, or of its class and older. With nothing to choose,
and at the end of frame 63, nothing changes. -/
def Obligations.ChoiceTakesOldestOfFirstClass : Prop :=
  ∀ s : State,
    let free (older : List Queued) (q : Queued) : Prop :=
      q.cell.ordered = true → ∀ o ∈ older, o.cell.ordered = true → o.cell.sender ≠ q.cell.sender
    let rank (q : Queued) : Nat := CellClass.order.idxOf q.cell.body.cellClass
    (s.station.state = .active → s.clock.frame ≠ 63 → s.highway.chosen = none → s.highway.queue ≠ [] →
      Completes .transmitChoice s fun t => ∃ (older younger : List Queued) (q : Queued),
        s.highway.queue = older ++ q :: younger ∧ free older q ∧
        (∀ (a b : List Queued) (o : Queued), s.highway.queue = a ++ o :: b → free a o →
          rank q < rank o ∨ (rank q = rank o ∧ older.length ≤ a.length)) ∧
        t = { s with highway := { s.highway with queue := older ++ younger, chosen := some q } }) ∧
    (s.highway.queue = [] ∨ s.clock.frame = 63 → Completes .transmitChoice s fun t => t = s)

/-- R165: a hearing station discards a window with a bad check (BAD-CHECK), one of an unassigned kind, of a census
outside frame 0 or of another kind in frame 0 (BAD-KIND), and one whose source is not its window (WRONG-WINDOW). Each
is counted and reaches the record with the header as heard. An empty window is no cell. LOADING and HALTED hear
nothing, and a station that has entered LISTENING in this frame hears windows from the next (R177). R187 and the
model's choice of log 7: a body that does not decode is BAD-KIND, whatever its source and destination. -/
def Obligations.BadWindowsAreDiscardedAndCounted : Prop :=
  ∀ (s : State) (w : Station) (bytes : List Byte), bytes.length = 40 →
    (s.station.state = .loading ∨ s.station.state = .halted ∨ s.station.entered = true →
      Completes (.windowHeard w bytes) s fun t => t = s) ∧
    (s.station.state = .listening ∨ s.station.state = .isolated ∨ (s.station.state = .active ∧ w ≠ s.self) →
      s.station.entered = false →
      (checkGood 38 bytes = false → Completes (.windowHeard w bytes) s fun t =>
        t = s.recordFault .badCheck w (some (bytes.take 8))) ∧
      (checkGood 38 bytes = true → byteAt bytes 0 = 0 → Completes (.windowHeard w bytes) s fun t => t = s) ∧
      (checkGood 38 bytes = true → byteAt bytes 0 ≠ 0 → decodeCell w bytes = none →
        Completes (.windowHeard w bytes) s fun t => t = s.recordFault .badKind w (some (bytes.take 8))) ∧
      (checkGood 38 bytes = true → byteAt bytes 0 ≠ 0 → (byteAt bytes 0 = 1 ↔ s.clock.frame ≠ 0) →
        Completes (.windowHeard w bytes) s fun t => t = s.recordFault .badKind w (some (bytes.take 8))) ∧
      (∀ c, checkGood 38 bytes = true → decodeCell w bytes = some c → (byteAt bytes 0 = 1 ↔ s.clock.frame = 0) →
        byteAt bytes 1 ≠ byteOf w.val →
        Completes (.windowHeard w bytes) s fun t => t = s.recordFault .wrongWindow w (some (bytes.take 8))))

/-- R161, R163, R165, R166: a cell that has passed the checks of its window. That of a peer is of a kind that belongs to the
frame and names its window as its source; the own window is checked in the same way while LISTENING or ISOLATED, and while
ACTIVE it reads back as what was sent. A good ADMIT, CALL, KEY or MAINT cell for this station or for all is stored last with stamp
0 when its class has a reserved or a pool buffer. Otherwise it is discarded as STORE-FULL, and when it was addressed to this
station alone a REFUSE STORE-FULL joins the refusal list, or is dropped as REFUSE-LOST when that holds four; a LISTENING
station lists no refusal. ISOLATED discards such a cell without a fault. A SLOT cell is kept for the judgment and a census
for the reconciliation, whatever the destination; a REFUSE for this station or for all is kept for its owner. A cell of the
other classes for another station is passed over. An own window heard with a bad check while ACTIVE is BAD-CHECK, and
nothing else changes, so the cell sent still counts as carried; heard empty it changes nothing (the model's choice,
log 7). -/
def Obligations.CellIsStoredOrRefused : Prop :=
  (∀ (s : State) (w : Station) (bytes : List Byte) (c : Cell),
    let own : Prop := s.station.state = .active ∧ w = s.self
    let forUs : Prop := c.dest = .all ∨ c.dest = .one s.self
    let header := bytes.take 8
    s.station.state = .listening ∨ s.station.state = .active ∨ s.station.state = .isolated →
    s.station.entered = false → bytes.length = 40 → checkGood 38 bytes = true → decodeCell w bytes = some c →
    (own → s.highway.windowOut = some bytes) →
    (¬ own → byteAt bytes 1 = byteOf w.val ∧ (byteAt bytes 0 = 1 ↔ s.clock.frame = 0)) →
    (∀ cls : StoreClass, c.body.cellClass.store = some cls →
      (s.station.state = .isolated → Completes (.windowHeard w bytes) s fun t => t = s) ∧
      (s.station.state ≠ .isolated → s.hasBuffer cls = true → forUs → Completes (.windowHeard w bytes) s fun t =>
        t = { s with highway := { s.highway with
          store := s.highway.store ++ [{ cell := c, header := header, stamp := 0 }] } }) ∧
      (s.station.state ≠ .isolated → s.hasBuffer cls = false → c.dest = .all →
        Completes (.windowHeard w bytes) s fun t => t = s.recordFault .storeFull w (some header)) ∧
      (s.station.state = .active → s.hasBuffer cls = false → c.dest = .one s.self → s.highway.refusals.length < 4 →
        Completes (.windowHeard w bytes) s fun t =>
          t.highway.refusals = s.highway.refusals ++ [{
            source := s.self
            dest := .one w
            receiver := c.sender
            body := .refuse c.body.kind c.sender .storeFull }] ∧
          t.highway.store = s.highway.store ∧
          t.highway.counters = (s.recordFault .storeFull w (some header)).highway.counters) ∧
      (s.station.state = .active → s.hasBuffer cls = false → c.dest = .one s.self → s.highway.refusals.length = 4 →
        Completes (.windowHeard w bytes) s fun t =>
          t = (s.recordFault .storeFull w (some header)).recordFault .refuseLost w (some header)) ∧
      (s.station.state = .listening → s.hasBuffer cls = false → c.dest = .one s.self →
        Completes (.windowHeard w bytes) s fun t => t = s.recordFault .storeFull w (some header)) ∧
      (¬ forUs → Completes (.windowHeard w bytes) s fun t => t = s)) ∧
    (∀ y : SlotCell, c.body = .slot y → Completes (.windowHeard w bytes) s fun t =>
      t = { s with highway := { s.highway with slotCells := s.highway.slotCells ++ [(w, y)] } }) ∧
    (∀ b : CensusBody, c.body = .census b → Completes (.windowHeard w bytes) s fun t =>
      t = { s with highway := { s.highway with
        censuses := s.highway.censuses ++ [{ station := w, cold := c.cold, header := header, body := b }] } }) ∧
    (∀ kind tag cause, c.body = .refuse kind tag cause →
      (forUs → Completes (.windowHeard w bytes) s fun t =>
        t = { s with highway := { s.highway with refusesHeard := s.highway.refusesHeard ++ [c] } }) ∧
      (¬ forUs → Completes (.windowHeard w bytes) s fun t => t = s))) ∧
  (∀ (s : State) (bytes : List Byte), s.station.state = .active → s.station.entered = false → bytes.length = 40 →
    (checkGood 38 bytes = false → Completes (.windowHeard s.self bytes) s fun t =>
      t = s.recordFault .badCheck s.self (some (bytes.take 8))) ∧
    (checkGood 38 bytes = true → byteAt bytes 0 = 0 → Completes (.windowHeard s.self bytes) s fun t => t = s))

/-- R166, R173, R102: an own window heard with a good check that differs from what was sent is a WINDOW-CLASH. The
station is ISOLATED with its fault output lit; its queue, refusal list and store are empty; every record is
FREE; no slot is held by it; WINDOW-CLASH is counted. -/
def Obligations.ClashIsolatesTheStation : Prop :=
  ∀ (s : State) (bytes : List Byte), s.station.state = .active → s.station.entered = false → bytes.length = 40 →
    checkGood 38 bytes = true → byteAt bytes 0 ≠ 0 → s.highway.windowOut ≠ some bytes →
    Completes (.windowHeard s.self bytes) s fun t =>
      t.station.state = .isolated ∧ t.station.faultOutput = true ∧ t.highway.queue = [] ∧ t.highway.refusals = [] ∧
      t.highway.store = [] ∧ (∀ r, t.call? r = none) ∧ (∀ x, t.slots.map.get x ≠ some s.self) ∧ t.slots.claims = [] ∧
      t.highway.counters = (s.recordFault .windowClash s.self (some (bytes.take 8))).highway.counters

/-- R163: the cells of the refusal list are offered oldest first. With room for all of them they all join the queue in
order; with a full queue they stay, and nothing is counted. R171: NOTICE is offered to a PRESENT maintenance station
while pending is set and queued and refused are clear; one that waits as the entry becomes PRESENT is offered at the next
frame end. An accepted one carries the captured kind and severity and MULTIPLE; a refused one sets refused and is
counted. -/
def Obligations.RefusalsAndNoticesAreOffered : Prop :=
  (∀ s : State, s.station.state = .active → (∀ c ∈ s.highway.refusals, c.body.cellClass = .refuse) →
    (s.highway.queue.length + s.highway.refusals.length ≤ 24 → Completes .refusalListOffer s fun t =>
      t = { s with highway := { s.highway with
        queue := s.highway.queue ++ s.highway.refusals.map fun c => { cell := c, name := .plain },
        refusals := [] } }) ∧
    (24 ≤ s.highway.queue.length → Completes .refusalListOffer s fun t => t = s)) ∧
  (∀ (s : State) (im : Image) (m : Station) (c : Captured),
    s.station.state = .active → s.station.image = some im → im.maintenance = some m →
    s.highway.fault.content = some c → s.maint.pending = true → s.maint.queued = false → s.maint.refused = false →
    (s.maint.newlyPresent = true → Completes .noticeOffer s fun t => t = s) ∧
    (s.maint.newlyPresent = false →
    ((s.highway.presence.get m).state = .present → s.highway.queue.length < 20 → Completes .noticeOffer s fun t =>
      t.highway.queue = s.highway.queue ++ [{
        cell := { source := im.station, dest := .one m,
                  body := .notice c.kind c.severity s.highway.fault.multiple }, name := .notice }] ∧
      t.maint = { s.maint with pending := false, queued := true }) ∧
    ((s.highway.presence.get m).state = .present → 20 ≤ s.highway.queue.length → Completes .noticeOffer s fun t =>
      t.highway.queue = s.highway.queue ∧ t.maint.queued = false ∧ t.maint.pending = true ∧ t.maint.refused = true ∧
      t.highway.counters.get FaultKind.queueFull.index =
        min (s.highway.counters.get FaultKind.queueFull.index + 1) 65535) ∧
    ((s.highway.presence.get m).state ≠ .present → Completes .noticeOffer s fun t => t = s)))

/-- R169, R170: a fault is counted under its kind alone; it is captured by a record that holds nothing and replaces a
captured fault of strictly lower severity; MULTIPLE is set when something was captured, MAJOR-SINCE-CLEAR by a MAJOR
fault; a capture or replacement marks a NOTICE pending. Nothing else changes. The twelve kinds stand in the order of R169's
table with its severities, NOTE below MINOR below MAJOR, and spec 12 numbers them from 01h in that order. -/
def Obligations.FaultIsCountedAndCaptured : Prop :=
  ∀ (s : State) (k : FaultKind) (w : Station) (h : Option (List Byte)),
    let t := s.recordFault k w h
    let new : Captured := { kind := k, severity := k.severity, frame := s.clock.frame, window := w, header := h }
    t.highway.counters.get k.index = min (s.highway.counters.get k.index + 1) 65535 ∧
    (∀ j : Fin 12, j ≠ k.index → t.highway.counters.get j = s.highway.counters.get j) ∧
    (s.highway.fault.content = none → t.highway.fault.content = some new ∧ t.maint.pending = true ∧
      t.highway.fault.multiple = s.highway.fault.multiple) ∧
    (∀ old, s.highway.fault.content = some old →
      t.highway.fault.multiple = true ∧
      (old.severity.rank < k.severity.rank → t.highway.fault.content = some new ∧ t.maint.pending = true) ∧
      (k.severity.rank ≤ old.severity.rank → t.highway.fault.content = some old ∧
        t.maint.pending = s.maint.pending)) ∧
    t.highway.fault.majorSinceClear = (s.highway.fault.majorSinceClear || decide (k.severity = .major)) ∧
    t = { s with
      highway := { s.highway with counters := t.highway.counters, fault := t.highway.fault }
      maint := { s.maint with pending := t.maint.pending } } ∧
    (k.index, k.severity) = (match k with
      | .badCheck => (0, .minor) | .badKind => (1, .minor) | .wrongWindow => (2, .major)
      | .windowClash => (3, .major) | .storeFull => (4, .minor) | .queueFull => (5, .minor)
      | .refuseLost => (6, .note) | .strayCell => (7, .note) | .slotConflict => (8, .minor)
      | .rangeOverlap => (9, .minor) | .mixerFull => (10, .minor) | .digitOverrun => (11, .note)) ∧
    k.code.toNat = k.index.val + 1 ∧
    Severity.note.rank < Severity.minor.rank ∧ Severity.minor.rank < Severity.major.rank

/-- R164: the oldest REFUSE heard in the frame is handed to the owner of its kind, and is gone. R11, R20: of kind
ADMIT-MOVE, under the login tag of a CONFIRMING entry, it removes the entry with BUSY; of an ADMITTED one whose renewal is
SENT it drops the login with NO-HOME and clears the port's calls with HOME-LOST (R3, R67); under an older incarnation it changes nothing. R29: of kind ADMIT-ASK it ends the
query it names, its place empty and each ROUTING waiter cleared with CONGESTION (the query wait list is empty here). R65:
of kind CALL-OFFER it frees the OFFERING record it names with no CALL-CLEAR; of kinds CALL-ANSWER and CALL-CONNECT it
clears the ALERTING or PROVING one with CONGESTION and a CALL-CLEAR; at a record in another state it is discarded. R85: of
kind CONF-SET it takes the one member with that station and link tag from a conference of four, which is told CALL-CLEAR
CONGESTION, and the two that stay are sent CONF-SET of count 3 with a new nonce. Every other kind changes nothing: kinds
whose owners discard a REFUSE, and kinds and codes that no row of R164 names. -/
def Obligations.RefuseReachesTheOwnerOfItsKind : Prop :=
  (∀ (s : State) (c : Cell) (rest : List Cell) (kind : Byte) (tag : Tag) (cause : RefuseCause) (p : Port) (e : Ext),
    s.highway.refusesHeard = c :: rest → c.body = .refuse kind tag cause → tag.index = byteOf p.val →
    (kind = 0x12 → tag.incarnation = (s.login p).incarnation → s.loginBody p = some (.confirming e) →
      (s.port p).state = .up → Completes .refuse s fun t =>
        (t.login p).entry = none ∧ Tells t p (.loginResult .busy) ∧ (t.login p).failures = (s.login p).failures ∧
        t.highway.refusesHeard = rest ∧ ∀ q, q ≠ p → t.login q = s.login q) ∧
    (∀ (r : Rights) (x : Epoch), kind = 0x12 → tag.incarnation = (s.login p).incarnation →
      s.loginBody p = some (.admitted e r x .sent) → (s.port p).state = .up → Completes .refuse s fun t =>
        (t.login p).entry = none ∧ Tells t p (.loginResult .noHome) ∧ t.highway.refusesHeard = rest ∧
        PortCleared s t p .homeLost ∧ FrontHearsReorder s t p ∧ ∀ q, q ≠ p → t.login q = s.login q) ∧
    (kind = 0x12 → tag.incarnation ≠ (s.login p).incarnation → Completes .refuse s fun t =>
      t = { s with highway := { s.highway with refusesHeard := rest } })) ∧
  (∀ (s : State) (c : Cell) (rest : List Cell) (kind : Byte) (tag : Tag) (cause : RefuseCause),
    s.highway.refusesHeard = c :: rest → c.body = .refuse kind tag cause →
    (∀ (i : QueryId) (y : Query), kind = 0x10 → tag = s.queryTag i → (s.adm.queries.get i).query = some y →
      s.calls.waitList = [] → Completes .refuse s fun t =>
        t.adm.queries.get i = { incarnation := (s.adm.queries.get i).incarnation } ∧ t.highway.refusesHeard = rest ∧
        (∀ (r : RecordId) (k : Call), r ∈ y.waiters → s.call? r = some k → k.state = .routing →
          k.confRole ≠ .controller → t.call? r = none)) ∧
    (∀ (r : RecordId) (k : Call), tag = s.callTag r → s.call? r = some k → k.confRole ≠ .controller →
      (∀ (l : TalkId) (t0 : TalkLane) (x : Slot), kind = 0x20 → k.state = .offering → k.talkLane = some l →
        s.talk? l = some t0 → t0.state = .active → t0.slot = some x → QueueRoom 1 s → Completes .refuse s fun t =>
          t.call? r = none ∧ t.talk? l = none ∧ t.highway.refusesHeard = rest ∧
          Queues s t [broadcast s (.slot (.free x))]) ∧
      (∀ far, kind = 0x21 → k.state = .alerting → k.farStation = some far → QueueRoom 2 s →
        Completes .refuse s fun t => ClearsTo s t r .congestion far k.farTag ∧ t.highway.refusesHeard = rest) ∧
      (∀ far, kind = 0x22 → k.state = .proving → k.farStation = some far → QueueRoom 2 s →
        Completes .refuse s fun t => ClearsTo s t r .congestion far k.farTag ∧ t.highway.refusesHeard = rest) ∧
      ((kind = 0x20 ∧ k.state ≠ .offering) ∨ (kind = 0x21 ∧ k.state ≠ .alerting) ∨ (kind = 0x22 ∧ k.state ≠ .proving) →
        Completes .refuse s fun t => t = { s with highway := { s.highway with refusesHeard := rest } })) ∧
    (∀ (e : ConfId) (cf : Conf) (k : Call) (gone a b : Member),
      let named (m : Member) : Bool := decide (m.station = c.source ∧ m.link = tag)
      kind = 0x25 → s.calls.confs.get e = some cf → s.call? cf.controller = some k → cf.members.filter named = [gone] →
      cf.members.filter (fun m => !named m) = [a, b] →
      (∀ e' cf', e' ≠ e → s.calls.confs.get e' = some cf' → cf'.members.filter named = []) → QueueRoom 3 s →
      Completes .refuse s fun t =>
        t.calls.confs.get e = some { cf with members := [a, b] } ∧ t.highway.refusesHeard = rest ∧
        ∃ n : Nonce, t.scr.noncesGiven = n :: s.scr.noncesGiven ∧
          let places : List MemberPlace := [
            { station := s.self, tag := s.callTag cf.controller, slot := s.controllerSlot cf.controller },
            a.place, b.place]
          Queues s t [cellFrom s gone.station gone.link gone.tag (.callClear .congestion),
            cellFrom s a.station a.link a.tag (.confSet n places),
            cellFrom s b.station b.link b.tag (.confSet n places)]) ∧
    (kind ∉ ([0x10, 0x12, 0x20, 0x21, 0x22, 0x25] : List Byte) → Completes .refuse s fun t =>
      t = { s with highway := { s.highway with refusesHeard := rest } }))

/-! ### Presence and the slot map -/

/-- R167: at the frame end of frame 0 each peer's presence entry takes the row of the table that its census, or the
lack of one, gives. R167, R101, R37, R68: the fourth census missed in a row makes a PRESENT peer ABSENT, its tag kept;
no slot is held by it; its home entry keeps its range and is ABSENT; no record in use has it as its far station. R19: each
home record located at it loses its location with a new epoch, ADMIT-CHANGE LOST going out for each in ascending number
where the queue has room; a CONFIRMING login homed there is gone with NO-HOME, an ADMITTED one stays with renewal NONE,
and no other login changes. R87, R141: the members of a conference at it leave together, told nothing: two that are left
stay in the entry, each sent CONF-SET of count 3 with one new nonce; one alone is the far end of the record, plain again,
and is sent CONF-SET of count 2; with none, entry and record are FREE and no CALL cell is sent. No lane listens to it,
and a MEMBER record with another far station stands. R36: a peer's home entry becomes PRESENT with the range of its
census. R7, R33, R38: a number whose home another station's census takes over loses its location with a new epoch, and
RANGE-OVERLAP is counted; no login of a number whose home has changed is ADMITTED, and no cache entry of one is left.
R98: without a station loss, each slot goes to the lowest-numbered of its contenders, one without a lister that a heard
station held is FREE, and each slot with two contenders counts one SLOT-CONFLICT; its holder is the map's (log 33), and a
census under the own number contends (log 60: the model's choices). R99, R100: the one lane whose slot is taken is MOVING
without a slot, its record not told, and SLOT-MOVE is offered for the first FREE slot of the reconciled map but the old
one. R20, R32: the cold census of an ABSENT home makes the renewal of the one login homed there SENT with its timer at 16,
and empties the cache of its numbers. -/
def Obligations.CensusesSetThePresenceTable : Prop :=
  (∀ (s : State), s.station.state = .listening ∨ s.station.state = .active ∨ s.station.state = .isolated →
    s.clock.frame = 0 → s.highway.judged = false →
    Completes .census s fun t => (∀ st : Station, st ≠ s.self →
      let old := s.highway.presence.get st
      let new := t.highway.presence.get st
      (∀ c, s.censusOf st = some c → new = { state := .present, startTag := c.body.startTag, missed := 0 } ∧
        t.calls.plan.get st = .present { low := c.body.low, length := c.body.length }) ∧
      (s.censusOf st = none → old.state = .present → old.missed < 3 → new = { old with missed := old.missed + 1 }) ∧
      (s.censusOf st = none → old.state = .present → 3 ≤ old.missed →
        new = { old with state := .absent, missed := 4 }) ∧
      (s.censusOf st = none → old.state ≠ .present → new = old)) ∧
      (∀ (n : Ext) (h : HomeRecord) (loc : Station × Port), s.homeOf n = some s.self → t.homeOf n ≠ some s.self →
        s.homeRecord n = some h → h.location = some loc →
        t.homeRecord n = some { h with location := none, epoch := h.epoch + 1 } ∧
        (s.highway.counters.get FaultKind.rangeOverlap.index < 65535 →
          s.highway.counters.get FaultKind.rangeOverlap.index < t.highway.counters.get FaultKind.rangeOverlap.index)) ∧
      (∀ (p : Port) (e : Ext) (r : Rights) (x : Epoch) (n : Renewal), s.loginBody p = some (.admitted e r x n) →
        s.homeOf e ≠ t.homeOf e → t.loginBody p = none) ∧
      (∀ y ∈ t.adm.cache, s.homeOf y.ext = t.homeOf y.ext)) ∧
  (∀ (s : State) (st : Station) (r : Range),
    s.station.state = .listening ∨ s.station.state = .active ∨ s.station.state = .isolated →
    s.clock.frame = 0 → s.highway.judged = false → st ≠ s.self →
    (s.highway.presence.get st).state = .present → (s.highway.presence.get st).missed = 3 → s.censusOf st = none →
    s.calls.plan.get st = .present r →
    Completes (.missedCensusLimit st) s fun t =>
      (t.highway.presence.get st).state = .absent ∧
      (t.highway.presence.get st).startTag = (s.highway.presence.get st).startTag ∧
      (∀ x, t.slots.map.get x ≠ some st) ∧ t.calls.plan.get st = .absent r ∧
      (∀ (q : RecordId) (k : Call), t.call? q = some k → k.farStation ≠ some st) ∧
      (∀ st', st' ≠ st → t.calls.plan.get st' = s.calls.plan.get st') ∧
      (∀ (n : Ext) (h : HomeRecord), s.homeRecord n = some h →
        t.homeRecord n = some (if h.location.map (·.1) = some st
          then { h with location := none, epoch := h.epoch + 1 } else h)) ∧
      (∀ ns : List (Ext × HomeRecord), (ns.map (·.1)).Pairwise (· < ·) →
        (∀ n h, (n, h) ∈ ns ↔ s.homeRecord n = some h ∧ h.location.map (·.1) = some st) → QueueRoom ns.length s →
        ∃ rest, Queues s t (ns.map (fun x =>
          broadcast s (.admitChange x.1 .lost x.2.location x.2.rights (x.2.epoch + 1))) ++ rest)) ∧
      (∀ (p : Port) (e : Ext), s.loginBody p = some (.confirming e) → s.homeOf e = some st →
        t.login p = { s.login p with entry := none } ∧
        ((s.port p).state = .up → Tells t p (.loginResult .noHome))) ∧
      (∀ (p : Port) (e : Ext) (x : Rights) (y : Epoch) (n : Renewal), s.loginBody p = some (.admitted e x y n) →
        s.homeOf e = some st →
        t.login p = { s.login p with entry := some { body := .admitted e x y .none, timer := none } }) ∧
      (∀ p : Port, (∀ e, (s.loginBody p).bind LoginBody.ext = some e → s.homeOf e ≠ some st) →
        t.login p = s.login p) ∧
      (∀ (j : ListenId) (t1 : ListenLane), s.listen? j = some t1 → t1.talker = st → t.listen? j = none) ∧
      (∀ (q : RecordId) (k : Call), s.call? q = some k → k.confRole = .member → k.state ≠ .routing →
        k.farStation ≠ some st → (∀ e cf, s.calls.confs.get e = some cf → cf.controller ≠ q) →
        ∃ k', t.call? q = some k' ∧ k'.confRole = .member ∧ k'.state = k.state)) ∧
  (∀ (s : State) (st : Station) (rg : Range) (e : ConfId) (r : RecordId) (ms : List Member) (k : Call) (l : TalkId)
    (t0 : TalkLane) (y : Slot), s.station.state = .active →
    s.clock.frame = 0 → s.highway.judged = false → st ≠ s.self →
    (s.highway.presence.get st).state = .present → (s.highway.presence.get st).missed = 3 → s.censusOf st = none →
    s.calls.plan.get st = .present rg →
    s.calls.confs.get e = some { controller := r, members := ms } → (∀ e', e' ≠ e → s.calls.confs.get e' = none) →
    s.call? r = some k → k.confRole = .controller → k.talkLane = some l → s.talk? l = some t0 → t0.state = .active →
    t0.slot = some y → (∀ n h, s.homeRecord n = some h → h.location.map (·.1) ≠ some st) →
    (∀ i z, (s.adm.queries.get i).query = some z → z.home ≠ st) →
    (∀ q k', s.call? q = some k' → k'.farStation ≠ some st) →
    (∀ j t1, s.listen? j = some t1 → t1.talker = st →
      j ∈ k.listenLanes ∧ ∃ m ∈ ms, m.station = st ∧ m.tag = t1.talkerTag) →
    (∃ m ∈ ms, m.station = st) → QueueRoom 2 s →
    let left := ms.filter fun m => decide (m.station ≠ st)
    Completes (.missedCensusLimit st) s fun t =>
      (left = [] → t.calls.confs.get e = none ∧ t.call? r = none ∧ t.talk? l = none ∧
        Queues s t [broadcast s (.slot (.free y))]) ∧
      (∀ a, left = [a] → t.calls.confs.get e = none ∧
        (∃ k', t.call? r = some k' ∧ k'.confRole = .none ∧ k'.state = k.state ∧ k'.farStation = some a.station ∧
          k'.farTag = a.tag ∧ k'.farSlot = some a.slot ∧ k'.farNonce = none ∧ k'.farExt = none) ∧
        ∃ n : Nonce, t.scr.noncesGiven = n :: s.scr.noncesGiven ∧
          Queues s t [cellFrom s a.station a.link a.tag (.confSet n [
            { station := s.self, tag := s.callTag r, slot := y }, a.place])]) ∧
      (∀ a b, left = [a, b] → t.calls.confs.get e = some { controller := r, members := [a, b] } ∧
        (∃ k', t.call? r = some k' ∧ k'.confRole = .controller ∧ k'.state = k.state) ∧
        ∃ n : Nonce, t.scr.noncesGiven = n :: s.scr.noncesGiven ∧
          let places : List MemberPlace := [{ station := s.self, tag := s.callTag r, slot := y }, a.place, b.place]
          Queues s t [cellFrom s a.station a.link a.tag (.confSet n places),
            cellFrom s b.station b.link b.tag (.confSet n places)])) ∧
  (∀ (s : State), s.station.state = .listening ∨ s.station.state = .active ∨ s.station.state = .isolated →
    s.clock.frame = 0 → s.highway.judged = false → (∀ st, st ≠ s.self → (s.finding st).lost = false) →
    let heard (st : Station) : Prop := ∃ c ∈ s.highway.censuses, c.station = st
    let lists (st : Station) (x : Slot) : Prop := ∃ c ∈ s.highway.censuses, c.station = st ∧ x ∈ c.body.held
    let contends (st : Station) (x : Slot) : Prop :=
      lists st x ∨ ((∃ st', lists st' x) ∧ s.slots.map.get x = some st ∧ ¬ heard st)
    let wins (st : Station) (x : Slot) : Prop := contends st x ∧ ∀ st', contends st' x → st ≤ st'
    (Completes .census s fun t => ∀ x : Slot,
      (∀ st, st ≠ s.self → wins st x → t.slots.map.get x = some st) ∧
      ((∀ st, ¬ lists st x) → (s.slots.map.get x = none ∨ ∃ st, s.slots.map.get x = some st ∧ heard st) →
        t.slots.map.get x = none) ∧
      (∀ st, st ≠ s.self → (∀ st', ¬ lists st' x) → s.slots.map.get x = some st → ¬ heard st →
        t.slots.map.get x = some st)) ∧
    (∀ xs : List Slot, xs.Nodup → (∀ x, x ∈ xs ↔ ∃ a b, a ≠ b ∧ contends a x ∧ contends b x) →
      s.highway.counters.get FaultKind.slotConflict.index ≤ 65535 →
      Completes .census s fun t => t.highway.counters.get FaultKind.slotConflict.index =
        min (s.highway.counters.get FaultKind.slotConflict.index + xs.length) 65535) ∧
    (let ours (x : Slot) : Prop := ∃ l t0, s.talk? l = some t0 ∧ t0.state = .active ∧ t0.slot = some x
      ∀ (l : TalkId) (t0 : TalkLane) (x : Slot) (st : Station), s.talk? l = some t0 → t0.state = .active →
      t0.slot = some x → wins st x → st ≠ s.self →
      (∀ j t1 y, j ≠ l → s.talk? j = some t1 → t1.state = .active → t1.slot = some y →
        y ≠ x ∧ (wins s.self y ∨ ((∀ st', ¬ lists st' y) ∧ s.slots.map.get y = some s.self ∧ ¬ heard s.self))) →
      (∀ y, s.slots.map.get y = some s.self ∨ lists s.self y → ours y) →
      s.slots.claims = [] → QueueRoom 1 s → (∀ st', (s.finding st').restarted = false) →
      (∀ c ∈ s.highway.censuses, s.calls.plan.get c.station = .present { low := c.body.low, length := c.body.length }) →
      Completes .census s fun t =>
        let candidate (i : Nat) : Slot := Fin.ofNat 256 (16 * s.self.val + i)
        ∀ i : Nat, i < 256 → t.slots.map.get (candidate i) = none → candidate i ≠ x →
          (∀ j, j < i → t.slots.map.get (candidate j) ≠ none ∨ candidate j = x) →
          t.talk? l = some { t0 with state := .moving, slot := none } ∧ t.calls.records = s.calls.records ∧
          t.slots.claims = [{ kind := .move, slot := candidate i, oldSlot := some x, lane := some l }] ∧
          Queues s t [broadcast s (.slot (.move x (candidate i)))])) ∧
  (∀ (s : State) (c : HeardCensus) (p : Port) (e : Ext) (r : Rights) (x : Epoch) (n : Renewal),
    s.clock.frame = 0 → s.highway.judged = false → s.highway.censuses = [c] → c.station ≠ s.self → c.cold = true →
    c.body.held = [] → (s.highway.presence.get c.station).state = .absent →
    (s.highway.presence.get c.station).missed ≠ 0 →
    (∀ st, st ≠ c.station → (s.highway.presence.get st).state ≠ .present) →
    s.calls.plan.get c.station = .absent { low := c.body.low, length := c.body.length } →
    s.loginBody p = some (.admitted e r x n) → s.homeOf e = some c.station →
    (∀ q e' r' x' n', q ≠ p → s.loginBody q = some (.admitted e' r' x' n') →
      s.homeOf e' ≠ some c.station ∧ n' ≠ .pending) →
    (∀ l t0 y, s.talk? l = some t0 → t0.state = .active → t0.slot = some y → s.slots.map.get y = some s.self) →
    QueueRoom 1 s → Completes .census s fun t =>
      (t.login p).entry = some { body := .admitted e r x .sent, timer := some 16 } ∧
      (∀ y ∈ t.adm.cache, s.homeOf y.ext ≠ some c.station) ∧
      Queues s t [{ cellFrom s c.station (s.loginTag p) Tag.absent (.admitMove e p) with renew := true }])

/-- R93: the judgment of a frame 1 to 63, where none of this station's own claims was carried in it. A slot FREE as the
frame began goes to the lowest-numbered station that claimed it, by SLOT-CLAIM or as the new slot of a SLOT-MOVE. A
slot that was held becomes FREE when its holder sent SLOT-FREE for it or won a SLOT-MOVE away from it. Every other
slot is left as it is: the model's choice of log 33 reads that from the map as it stands at the judgment. R89 and the
model's choice of log 45: no slot is shown held by this station unless a talk lane is ACTIVE on it, whoever has
claimed it under this station's number. -/
def Obligations.JudgmentGivesSlotsToLowestClaimants : Prop :=
  ∀ s : State, s.station.state = .listening ∨ s.station.state = .active ∨ s.station.state = .isolated →
    s.clock.frame ≠ 0 → s.highway.judged = false → (∀ e ∈ s.slots.claims, e.carried = none) →
    let start := s.slots.atFrameStart
    let claimed (st : Station) (x : Slot) : Prop :=
      (st, SlotCell.claim x) ∈ s.highway.slotCells ∨ ∃ o, (st, SlotCell.move o x) ∈ s.highway.slotCells
    let wins (st : Station) (x : Slot) : Prop :=
      start.get x = none ∧ claimed st x ∧ ∀ st', claimed st' x → st ≤ st'
    let given (x : Slot) : Prop := ∃ st, start.get x = some st ∧
      ((st, SlotCell.free x) ∈ s.highway.slotCells ∨ ∃ y, (st, SlotCell.move x y) ∈ s.highway.slotCells ∧ wins st y)
    let ours (x : Slot) : Prop := ∃ l t0, s.talk? l = some t0 ∧ t0.state = .active ∧ t0.slot = some x
    Completes .slotJudgment s fun t => ∀ x : Slot,
      (∀ st, wins st x → st ≠ s.self ∨ ours x → t.slots.map.get x = some st) ∧
      (given x → t.slots.map.get x = none) ∧
      ((∀ st, ¬ wins st x) → ¬ given x → s.slots.map.get x ≠ some s.self ∨ ours x →
        t.slots.map.get x = s.slots.map.get x) ∧
      (¬ ours x → (wins s.self x ∨ s.slots.map.get x = some s.self) → (∀ st, wins st x → st = s.self) →
        t.slots.map.get x = none)

/-- R91, R92, R94, R52, R53: an attempt whose cell the queue refused before this frame end is followed by the next: of the
slots from 16 times this station's number upward, wrapping, the first that is FREE and named by no entry (the failed
entry's own slot is passed over with the rest: the model's choice of log 16); refused in its turn, it waits for the next
frame end. After the third attempt, or with no slot, the entry is gone, the lane is closed and its ROUTING record is
FREE. A claim that the judgment gives this station makes the lane ACTIVE on the slot, and its ROUTING record sends
CALL-OFFER with that slot and is OFFERING. R57: an ALERTING record's listen lane opens on the far slot, CALL-CONNECT with
the won slot joins the queue and the record is PROVING; without a FREE listen lane it clears with CONGESTION. R100: a
lane in MOVING that wins its SLOT-MOVE is ACTIVE on the new slot, and its record is not told. R94, R93: the one own claim
carried in a frame is lost or void where this station does not win its slot. After attempt 1 or 2 the next attempt is made
at once on the map as judged: the first slot from 16 times this station's number that is FREE there and that the entry
does not name, with the next attempt number and the cell of the entry's kind; refused by the queue, it waits for the next
frame end. After attempt 3, or with no such slot, the entry is gone, the lane is closed, and its record, of role NONE
or MEMBER, clears with NO-SLOT, a ROUTING one being FREE at once. R96: a claim whose lane has closed is given up when won, its entry a RELEASE one
with SLOT-FREE in the queue, and is gone when lost. That a claim not heard good counts as lost is the model's choice of log
59, and that a slot no cell of the frame names is read from the map as it stands is that of log 33. -/
def Obligations.ClaimsAreRetriedAndWon : Prop :=
  (∀ (s : State) (l : TalkId) (t0 : TalkLane) (e : Claim) (r : RecordId) (k : Call), s.talk? l = some t0 →
    t0.owner = r → s.call? r = some k → k.state = .routing → k.confRole = .none → k.talkLane = some l →
    e.lane = some l →
    (s.claimOf l = some e → e.refused = true → e.fresh = false →
      let candidate (i : Nat) : Slot := Fin.ofNat 256 (16 * s.self.val + i)
      (∀ i : Nat, i < 256 → Claimable s (candidate i) → (∀ j, j < i → ¬ Claimable s (candidate j)) → e.attempt < 3 →
        e.kind = .claim → s.station.state = .active →
        let next (refused : Bool) : Claim := { e with
          slot := candidate i, attempt := e.attempt + 1, carried := none, refused := refused, fresh := refused }
        (s.highway.queue.length < 24 → Completes (.claimRetry l) s fun t =>
          t.slots.claims = s.slots.claims.map (fun c => if c.lane = some l then next false else c) ∧
          t.slots.map = s.slots.map ∧ t.calls = s.calls ∧
          t.highway.queue = s.highway.queue ++ [{
            cell := broadcast s (.slot (.claim (candidate i))), name := .slotCell (.claim (candidate i)) }]) ∧
        (s.highway.queue.length = 24 → Completes (.claimRetry l) s fun t =>
          t.slots.claims = s.slots.claims.map (fun c => if c.lane = some l then next true else c) ∧
          t.highway.queue = s.highway.queue ∧ t.calls = s.calls)) ∧
      (3 ≤ e.attempt ∨ (∀ x, ¬ Claimable s x) → Completes (.claimRetry l) s fun t =>
        (∀ c ∈ t.slots.claims, c.lane ≠ some l) ∧ t.call? r = none ∧ t.talk? l = none)) ∧
    (s.claimOf l = some e → e.refused = true → e.fresh = true → Completes (.claimRetry l) s fun t => t = s) ∧
    (∀ (f : Fin 64) (far : Station), s.hearing = true → s.clock.frame ≠ 0 → s.highway.judged = false →
      s.slots.claims = [e] → e.kind = .claim → e.carried = some f → s.slots.atFrameStart.get e.slot = none →
      (s.self, .claim e.slot) ∈ s.highway.slotCells →
      (∀ st c, (st, c) ∈ s.highway.slotCells → c = .claim e.slot ∨ (∃ o, c = .move o e.slot) → s.self ≤ st) →
      k.farStation = some far → QueueRoom 1 s → Completes .slotJudgment s fun t =>
        t.slots.map.get e.slot = some s.self ∧ t.slots.claims = [] ∧
        (∃ t1, t.talk? l = some t1 ∧ t1.state = .active ∧ t1.slot = some e.slot) ∧
        t.call? r = some { k with state := .offering, timer := some 250 } ∧
        Queues s t [{ cellFrom s far (s.callTag r) Tag.absent
            (.callOffer k.ownExt (k.farExt.getD 0) (if k.divert then 0 else k.calledEpoch.getD 0) e.slot t0.ownNonce
              k.onward) with divert := k.divert }])) ∧
  (∀ (s : State) (l : TalkId) (t0 : TalkLane) (e : Claim) (r : RecordId) (k : Call) (f : Fin 64), s.hearing = true →
    s.clock.frame ≠ 0 → s.highway.judged = false → s.slots.claims = [e] → e.lane = some l → e.carried = some f →
    s.slots.atFrameStart.get e.slot = none → (s.self, e.cell) ∈ s.highway.slotCells →
    (∀ st c, (st, c) ∈ s.highway.slotCells → c = .claim e.slot ∨ (∃ o, c = .move o e.slot) → s.self ≤ st) →
    s.talk? l = some t0 → t0.owner = r → s.call? r = some k → k.talkLane = some l →
    (∀ (far : Station) (fx : Slot) (fn : Nonce), e.kind = .claim → k.state = .alerting → k.confRole = .none →
      k.farStation = some far → k.farSlot = some fx → k.farNonce = some fn → k.listenLanes = [] →
      (∀ m, LowestFreeListen s m → s.scr.mixer.length < 16 → QueueRoom 1 s → Completes .slotJudgment s fun t =>
        t.slots.map.get e.slot = some s.self ∧ t.slots.claims = [] ∧
        t.talk? l = some { t0 with state := .active, slot := some e.slot, mode := .prove } ∧
        t.call? r = some { k with state := .proving, listenLanes := [m] } ∧
        t.highway.queue = s.highway.queue ++ [{
          cell := cellFrom s far (s.callTag r) k.farTag (.callConnect e.slot t0.ownNonce)
          name := .callConnect r (s.record r).incarnation }] ∧
        (∃ t1, t.listen? m = some t1 ∧ t1.state = .waitkey ∧ t1.purpose = .setup ∧ t1.owner = r ∧ t1.talker = far ∧
          t1.talkerTag = k.farTag ∧ t1.slot = fx ∧ t1.talkerNonce = some fn ∧ t1.partnerNonce = some t0.ownNonce ∧
          t1.timer = some 8) ∧
        t.scr.mixer = s.scr.mixer ++ [{
          requester := .listen m ((s.listenPlace m).opening + 1)
          key := s.secret
          nonceA := fn
          nonceB := t0.ownNonce
          count := 0 }]) ∧
      ((∀ m, s.listen? m ≠ none) → QueueRoom 2 s → Completes .slotJudgment s fun t =>
        ClearsTo s t r .congestion far k.farTag ∧ t.slots.map.get e.slot = none)) ∧
    (∀ old, e.kind = .move → e.oldSlot = some old → t0.state = .moving → k.state ≠ .routing →
      Completes .slotJudgment s fun t =>
        t.slots.map.get e.slot = some s.self ∧ t.slots.claims = [] ∧
        t.talk? l = some { t0 with state := .active, slot := some e.slot } ∧
        t.calls = s.calls ∧ t.highway.queue = s.highway.queue)) ∧
  (∀ (s : State) (e : Claim) (f : Fin 64), s.hearing = true → s.clock.frame ≠ 0 → s.highway.judged = false →
    s.slots.claims = [e] → e.carried = some f → e.kind ≠ .release →
    let start := s.slots.atFrameStart
    let claimed (st : Station) (x : Slot) : Prop :=
      (st, SlotCell.claim x) ∈ s.highway.slotCells ∨ ∃ o, (st, SlotCell.move o x) ∈ s.highway.slotCells
    let wins (st : Station) (x : Slot) : Prop :=
      start.get x = none ∧ claimed st x ∧ ∀ st', claimed st' x → st ≤ st'
    let given (x : Slot) : Prop := ∃ st, start.get x = some st ∧
      ((st, SlotCell.free x) ∈ s.highway.slotCells ∨ ∃ y, (st, SlotCell.move x y) ∈ s.highway.slotCells ∧ wins st y)
    let judged (t : State) : Prop := ∀ x : Slot,
      (∀ st, wins st x → st ≠ s.self → t.slots.map.get x = some st) ∧
      (given x → t.slots.map.get x = none) ∧
      ((∀ st, ¬ wins st x) → ¬ given x → s.slots.map.get x ≠ some s.self → t.slots.map.get x = s.slots.map.get x)
    (∀ (l : TalkId) (t0 : TalkLane) (r : RecordId) (k : Call), e.lane = some l → s.talk? l = some t0 →
      t0.state ≠ .active → t0.owner = r → s.call? r = some k → k.talkLane = some l → k.confRole ≠ .controller →
      ¬ wins s.self e.slot →
      let candidate (i : Nat) : Slot := Fin.ofNat 256 (16 * s.self.val + i)
      let fits (i : Nat) : Prop := (∀ st, ¬ wins st (candidate i)) ∧
        (given (candidate i) ∨ s.slots.map.get (candidate i) = none) ∧ e.slot ≠ candidate i ∧
        e.oldSlot ≠ some (candidate i)
      (∀ i : Nat, i < 256 → fits i → (∀ j, j < i → ¬ fits j) → e.attempt < 3 →
        let next (refused : Bool) : Claim := { e with
          slot := candidate i, attempt := e.attempt + 1, carried := none, refused := refused, fresh := refused }
        (s.station.state = .active → s.highway.queue.length < 24 → Completes .slotJudgment s fun t =>
          t.slots.claims = [next false] ∧ t.talk? l = some t0 ∧ t.calls = s.calls ∧ judged t ∧
          t.highway.queue = s.highway.queue ++ [{
            cell := broadcast s (.slot (next false).cell), name := .slotCell (next false).cell }]) ∧
        (s.station.state ≠ .active ∨ 24 ≤ s.highway.queue.length → Completes .slotJudgment s fun t =>
          t.slots.claims = [next true] ∧ t.talk? l = some t0 ∧ t.calls = s.calls ∧ judged t ∧
          t.highway.queue = s.highway.queue)) ∧
      (3 ≤ e.attempt ∨ (∀ i, i < 256 → ¬ fits i) →
        (k.state = .routing → Completes .slotJudgment s fun t => t.slots.claims = [] ∧ t.call? r = none ∧
          t.talk? l = none ∧ judged t ∧ t.highway.queue = s.highway.queue) ∧
        (∀ far, k.state ≠ .dialing → k.state ≠ .routing → k.state ≠ .clearing → k.farStation = some far →
          QueueRoom 1 s → Completes .slotJudgment s fun t => t.slots.claims = [] ∧
            ClearsTo s t r .noSlot far k.farTag ∧ t.talk? l = none ∧ judged t))) ∧
    (e.lane = none →
      (wins s.self e.slot → s.station.state = .active → s.highway.queue.length < 24 → Completes .slotJudgment s fun t =>
        t.slots.map.get e.slot = none ∧ t.slots.claims = [{ kind := .release, slot := e.slot }] ∧ t.calls = s.calls ∧
        t.highway.queue = s.highway.queue ++ [{
          cell := broadcast s (.slot (.free e.slot)), name := .slotCell (.free e.slot) }]) ∧
      (¬ wins s.self e.slot → Completes .slotJudgment s fun t => t.slots.claims = [] ∧ t.calls = s.calls ∧ judged t ∧
        t.highway.queue = s.highway.queue)))

/-! ### Logins and home records -/

/-- R8: LOGIN-REQ at the Admission Unit. A port with an entry gets BUSY, a number without a home NO-HOME; otherwise
the port's incarnation goes up and the entry is CHALLENGING under a nonce not given before, with its timer at 250, and
the set receives CHALLENGE. The latch is empty, and no other port's login changes. R9: RESPONSE at an entry in
CHALLENGING with check step NONE asks the key mixer for the set key; a full mixer removes the entry with BUSY and
leaves the failure count; at any other port it is discarded. -/
def Obligations.LoginReqAndResponseOpenAChallenge : Prop :=
  (∀ (s : State) (p : Port) (e : Ext), s.dueEvent p = some (.admission (.loginReq e)) → (s.port p).state = .up →
    ((s.login p).entry ≠ none → Completes (.loginReq p) s fun t =>
      t.adm = s.adm ∧ Tells t p (.loginResult .busy) ∧ (t.port p).admission = none) ∧
    ((s.login p).entry = none → s.homeOf e = none → Completes (.loginReq p) s fun t =>
      t.adm = s.adm ∧ Tells t p (.loginResult .noHome) ∧ (t.port p).admission = none) ∧
    ((s.login p).entry = none → s.homeOf e ≠ none → Completes (.loginReq p) s fun t => ∃ n : Nonce,
      t.scr.noncesGiven = n :: s.scr.noncesGiven ∧
      (s.scr.noncesGiven.length < 2 ^ 64 → n ∉ s.scr.noncesGiven) ∧
      t.login p = { s.login p with
        incarnation := (s.login p).incarnation + 1
        entry := some { body := .challenging e n none .none, timer := some 250 } } ∧
      (∀ q, q ≠ p → t.login q = s.login q) ∧ Tells t p (.challenge n) ∧ (t.port p).admission = none ∧
      t.calls = s.calls ∧ t.highway = s.highway ∧ t.slots = s.slots)) ∧
  (∀ (s : State) (p : Port) (v : Nonce), s.dueEvent p = some (.admission (.response v)) → (s.port p).state = .up →
    (∀ (e : Ext) (n : Nonce) (r : Option Nonce) (tm : Option Nat),
      (s.login p).entry = some { body := .challenging e n r .none, timer := tm } →
      (s.scr.mixer.length < 16 → Completes (.response p) s fun t =>
        t.scr.mixer = s.scr.mixer ++ [{
          requester := .login p (s.login p).incarnation .setKey
          key := s.secret
          nonceA := BitVec.ofNat 64 e
          nonceB := 0
          count := 65535 }] ∧
        t.login p = { s.login p with
          entry := some { body := .challenging e n (some v) .setKey, timer := tm } }) ∧
      (s.scr.mixer.length = 16 → Completes (.response p) s fun t =>
        t.scr.mixer = s.scr.mixer ∧ t.login p = { s.login p with entry := none } ∧
        Tells t p (.loginResult .busy) ∧
        t.highway.counters = (s.recordFault .mixerFull s.self none).highway.counters)) ∧
    ((∀ (e : Ext) (n : Nonce) (r : Option Nonce) (tm : Option Nat),
      (s.login p).entry ≠ some { body := .challenging e n r .none, timer := tm }) →
      Completes (.response p) s fun t => t.adm = s.adm ∧ t.scr = s.scr ∧ t.calls = s.calls))

/-- R14: LOGOUT. The entry is gone, the failure count and the lockout stand, no other port's login changes. R3, R67: of an
ADMITTED login every call record of the port, HELD ones included, is cleared with ADMISSION, and the set of a front record
hears TONE REORDER; then, with room for all of it in the queue, the newest cell is ADMIT-LEAVE with the entry's epoch
under its login tag where the number is homed at a peer, and ADMIT-CHANGE LEFT naming the cleared location where it is
homed here. One homed here clears its record's location with a new epoch, room or not. -/
def Obligations.LogoutEndsTheLogin : Prop :=
  ∀ (s : State) (p : Port), s.dueEvent p = some (.admission .logout) →
    (Completes (.logout p) s fun t =>
      (t.login p) = { s.login p with entry := none } ∧ ∀ q, q ≠ p → t.login q = s.login q) ∧
    (∀ (e : Ext) (r : Rights) (x : Epoch) (n : Renewal), s.loginBody p = some (.admitted e r x n) →
      (Completes (.logout p) s fun t => PortCleared s t p .admission ∧ FrontHearsReorder s t p) ∧
      (∀ (h : HomeRecord) (loc : Station × Port), s.homeOf e = some s.self → s.homeRecord e = some h →
        h.location = some loc → Completes (.logout p) s fun t =>
          t.homeRecord e = some { h with location := none, epoch := h.epoch + 1 } ∧
          (RoomToClear s p → LastQueued t (broadcast s (.admitChange e .left (some loc) h.rights (h.epoch + 1))))) ∧
      (∀ home : Station, s.homeOf e = some home → home ≠ s.self →
        let leave : Cell := cellFrom s home (s.loginTag p) Tag.absent (.admitLeave e x)
        (RoomToClear s p → Completes (.logout p) s fun t => LastQueued t leave) ∧
        ((∀ (q : RecordId) (k : Call), s.call? q = some k → k.port ≠ p) → QueueRoom 1 s →
          Completes (.logout p) s fun t => Queues s t [leave])))

/-- R4, R9, R11, R20: the timers of a port's login. CHALLENGING: the entry goes and the failure count goes up, with
DENIED at 1 and 2; at 3 LOCKED, the lockout flag and the lockout time of the image. CONFIRMING: the entry goes with
NO-HOME. A renewal: the login is dropped with NO-HOME, and its calls are cleared with HOME-LOST (R3, R67). Lockout: the flag clears and the count is 0. R29: a query whose
timer is out ends: its place is empty with its incarnation kept, and each waiter that is ROUTING is cleared with
CONGESTION, which frees it, since no far record exists, where the query wait list is empty. R24, R25, R28: a record that
waits for a place then takes the emptied one with a new incarnation: it is the waiter of a query for its number at the
number's home, which is sent ADMIT-ASK under the new query tag, with the timer at 8. -/
def Obligations.AdmissionTimersExpire : Prop :=
  (∀ (s : State) (p : Port) (im : Image), (s.port p).state = .up → s.station.image = some im →
    (∀ (e : Ext) (n : Nonce) (r : Option Nonce) (c : CheckStep),
      (s.login p).entry = some { body := .challenging e n r c, timer := some 0 } →
      ((s.login p).failures < 2 → Completes (.challengingTimerExpiry p) s fun t =>
        t.login p = { s.login p with entry := none, failures := (s.login p).failures + 1 } ∧
        Tells t p (.loginResult .denied)) ∧
      ((s.login p).failures = 2 → Completes (.challengingTimerExpiry p) s fun t =>
        t.login p = { s.login p with
          entry := none, failures := 3, lockedOut := true, lockoutTimer := some im.lockoutTime } ∧
        Tells t p (.loginResult .locked))) ∧
    (∀ e : Ext, (s.login p).entry = some { body := .confirming e, timer := some 0 } →
      Completes (.confirmingTimerExpiry p) s fun t =>
        t.login p = { s.login p with entry := none } ∧ Tells t p (.loginResult .noHome)) ∧
    (∀ (e : Ext) (r : Rights) (x : Epoch),
      (s.login p).entry = some { body := .admitted e r x .sent, timer := some 0 } →
      Completes (.renewalTimerExpiry p) s fun t =>
        t.login p = { s.login p with entry := none } ∧ Tells t p (.loginResult .noHome) ∧
        PortCleared s t p .homeLost ∧ FrontHearsReorder s t p) ∧
    ((s.login p).lockoutTimer = some 0 → Completes (.lockoutTimerExpiry p) s fun t =>
      t.login p = { s.login p with lockedOut := false, lockoutTimer := none, failures := 0 } ∧
      ∀ q, q ≠ p → t.login q = s.login q)) ∧
  (∀ (s : State) (i : QueryId) (y : Query), (s.adm.queries.get i).query = some y → y.timer = some 0 →
    s.calls.waitList = [] → Completes (.queryTimerExpiry i) s fun t =>
      t.adm.queries.get i = { incarnation := (s.adm.queries.get i).incarnation } ∧
      (∀ (r : RecordId) (k : Call), r ∈ y.waiters → s.call? r = some k → k.state = .routing →
        k.confRole ≠ .controller → t.call? r = none) ∧
      (∀ j, j ≠ i → ((t.adm.queries.get j).query.map (·.ext)) = (s.adm.queries.get j).query.map (·.ext))) ∧
  (∀ (s : State) (i : QueryId) (y : Query) (r : RecordId) (k : Call) (e : Ext) (home : Station) (rg : Range),
    (s.adm.queries.get i).query = some y → y.timer = some 0 → y.waiters = [] → s.calls.waitList = [r] →
    s.call? r = some k → k.farExt = some e → s.homeOf e = some home → home ≠ s.self →
    s.calls.plan.get home = .present rg → s.cacheEntry e = none →
    (∀ j, j ≠ i → ∃ z, (s.adm.queries.get j).query = some z ∧ z.ext ≠ e) → QueueRoom 1 s →
    Completes (.queryTimerExpiry i) s fun t =>
      t.calls.waitList = [] ∧
      t.adm.queries.get i = {
        incarnation := (s.adm.queries.get i).incarnation + 1
        query := some { ext := e, home := home, timer := some 8, waiters := [r] } } ∧
      (∀ j, j ≠ i → t.adm.queries.get j = s.adm.queries.get j) ∧ t.calls.records = s.calls.records ∧
      Queues s t [cellFrom s home ⟨byteOf i.val, (s.adm.queries.get i).incarnation + 1⟩ Tag.absent (.admitAsk e)])

/-- R27: the home's answer to ADMIT-ASK, with room in the queue. The status depends on the record; no home record
changes. R12: the home's handling of ADMIT-MOVE. A number not homed here draws NOT-HOME, a barred one BARRED, and
neither record changes. A record that is unlocated or located at the mover moves with one new epoch and draws
ADMITTED. A record located at a third station is announced MOVED first, and if that is refused nothing is applied or
answered; where the third is this station, its login is dropped, with its calls cleared (R3, R67). R12 names only the status of a NOT-HOME and of a BARRED answer: that the one carries class and epoch zero and the
other the record's own is the model's choice of log 38. A move of an unbarred number homed here, and a leave, that come
under this station's own number are discarded: the model's choice of log 66. -/
def Obligations.HomeAnswersAsksAndMoves : Prop :=
  (∀ (s : State) (x : Stored) (e : Ext), s.nextCell .admitC = some x → x.cell.body = .admitAsk e → QueueRoom 1 s →
    let answer (st : TellStatus) (loc : Option (Station × Port)) (r : Rights) (ep : Epoch) : Cell :=
      answerTo s x (.admitTell e st loc r ep)
    (s.homedHere e = false → Completes .admitAsk s fun t => Queues s t [answer .notHome none 0 0] ∧ t.adm = s.adm) ∧
    (∀ h, s.homedHere e = true → s.homeRecord e = some h → Completes .admitAsk s fun t => t.adm = s.adm ∧
      (h.barred = true → Queues s t [answer .barred none h.rights h.epoch]) ∧
      (h.barred = false → h.location = none → Queues s t [answer .notIn none h.rights h.epoch]) ∧
      (∀ loc, h.barred = false → h.location = some loc →
        Queues s t [answer .admitted (some loc) h.rights h.epoch]))) ∧
  (∀ (s : State) (x : Stored) (e : Ext) (q : Port), s.nextCell .admitC = some x → x.cell.body = .admitMove e q →
    let m := x.cell.source
    let answer (st : TellStatus) (loc : Option (Station × Port)) (r : Rights) (ep : Epoch) : Cell :=
      { answerTo s x (.admitTell e st loc r ep) with move := true, renew := x.cell.renew }
    (s.homedHere e = false → QueueRoom 1 s → Completes .admitMove s fun t =>
      Queues s t [answer .notHome none 0 0] ∧ t.adm = s.adm) ∧
    (∀ h, s.homedHere e = true → s.homeRecord e = some h →
      (h.barred = true → QueueRoom 1 s → Completes .admitMove s fun t =>
        Queues s t [answer .barred none h.rights h.epoch] ∧ t.adm = s.adm) ∧
      (h.barred = false → m = s.self → Completes .admitMove s fun t => t = taken s .admitC x) ∧
      (h.barred = false → m ≠ s.self → (h.location = none ∨ ∃ p, h.location = some (m, p)) → QueueRoom 1 s →
        Completes .admitMove s fun t =>
          t.homeRecord e = some { h with location := some (m, q), epoch := h.epoch + 1 } ∧
          Queues s t [answer .admitted (some (m, q)) h.rights (h.epoch + 1)] ∧ t.adm.logins = s.adm.logins) ∧
      (∀ (o : Station) (p : Port), h.barred = false → m ≠ s.self → h.location = some (o, p) → o ≠ m → o ≠ s.self →
        QueueRoom 2 s → Completes .admitMove s fun t =>
          t.homeRecord e = some { h with location := some (m, q), epoch := h.epoch + 1 } ∧
          Queues s t [broadcast s (.admitChange e .moved (some (m, q)) h.rights (h.epoch + 1)),
            answer .admitted (some (m, q)) h.rights (h.epoch + 1)]) ∧
      (∀ p p' : Port, h.barred = false → h.location = some (s.self, p) → s.self ≠ m → s.admittedPort e = some p' →
        QueueRoom 1 s → Completes .admitMove s fun t =>
          t.homeRecord e = some { h with location := some (m, q), epoch := h.epoch + 1 } ∧
          (t.login p').entry = none ∧ PortCleared s t p' .admission ∧ FrontHearsReorder s t p') ∧
      (∀ (o : Station) (p : Port), h.barred = false → h.location = some (o, p) → o ≠ m →
        20 ≤ s.highway.queue.length → Completes .admitMove s fun t =>
          t.adm = s.adm ∧ t.highway.queue = s.highway.queue))) ∧
  (∀ (s : State) (x : Stored) (e : Ext) (ep : Epoch), s.nextCell .admitC = some x → x.cell.body = .admitLeave e ep →
    x.cell.source = s.self → Completes .admitLeave s fun t => t = taken s .admitC x)

/-- R13, R26, R29: ADMIT-TELL. A move answer settles the CONFIRMING entry that its receiver tag names. An ADMITTED one
whose number has become homed here meanwhile confirms the entry at the record here, by the steps of R10: the model's
choice of log 54. One with RENEW
settles the renewal that is SENT: ADMITTED gives the entry the cell's class and epoch and sends the set nothing; BARRED
and NOT-HOME drop the login, and clear every call of its port, with ADMISSION and with HOME-LOST (R3, R67). An answer is an
orphan where no entry of its extension that is CONFIRMING (RENEW clear) or whose renewal is SENT (RENEW set) has the
receiver tag as its login tag: of an empty place, of an older incarnation, of another extension or state. An orphan
ADMITTED draws ADMIT-LEAVE with the cell's epoch; any other orphan changes no login, call or queued cell. A query
answer that names a query ends it. ADMITTED from the number's home with a reachable location fills the cache at its first
place, and the one ROUTING waiter has its far station and epoch and a talk lane that claims a slot; any other answer
removes the number's cache entry where its status says so, and frees the ROUTING waiters with UNREACHABLE. -/
def Obligations.AdmitTellSettlesMovesAndQueries : Prop :=
  ∀ (s : State) (x : Stored) (e : Ext) (st : TellStatus) (loc : Option (Station × Port)) (r : Rights) (ep : Epoch),
    s.nextCell .admitC = some x → x.cell.body = .admitTell e st loc r ep →
    (∀ p : Port, x.cell.move = true → x.cell.renew = false → x.cell.receiver = s.loginTag p →
      s.loginBody p = some (.confirming e) → (s.port p).state = .up →
      (st = .admitted → s.homedHere e = false → Completes .admitTell s fun t =>
        (t.login p).entry = some { body := .admitted e r ep .none, timer := none } ∧ Tells t p (.loginResult .ok)) ∧
      (∀ h : HomeRecord, st = .admitted → s.homedHere e = true → s.homeRecord e = some h →
        let located (t : State) : Prop :=
          (t.login p).entry = some { body := .admitted e h.rights (h.epoch + 1) .none, timer := none } ∧
          Tells t p (.loginResult .ok) ∧
          t.homeRecord e = some { h with location := some (s.self, p), epoch := h.epoch + 1 }
        (h.barred = true → Completes .admitTell s fun t => (t.login p).entry = none ∧
          Tells t p (.loginResult .barred) ∧ t.adm.homes = s.adm.homes) ∧
        (h.barred = false → (h.location = none ∨ ∃ q, h.location = some (s.self, q)) →
          Completes .admitTell s fun t => located t ∧ t.highway.queue = s.highway.queue) ∧
        (∀ (o : Station) (q : Port), h.barred = false → h.location = some (o, q) → o ≠ s.self →
          (QueueRoom 1 s → Completes .admitTell s fun t => located t ∧
            Queues s t [broadcast s (.admitChange e .moved (some (s.self, p)) h.rights (h.epoch + 1))]) ∧
          (20 ≤ s.highway.queue.length → Completes .admitTell s fun t => (t.login p).entry = none ∧
            Tells t p (.loginResult .busy) ∧ t.adm.homes = s.adm.homes ∧ t.highway.queue = s.highway.queue))) ∧
      (st = .barred → Completes .admitTell s fun t =>
        (t.login p).entry = none ∧ Tells t p (.loginResult .barred)) ∧
      (st = .notHome → Completes .admitTell s fun t =>
        (t.login p).entry = none ∧ Tells t p (.loginResult .noHome)) ∧
      (st = .notIn → Completes .admitTell s fun t => t.adm.logins = s.adm.logins)) ∧
    (∀ (p : Port) (r' : Rights) (x' : Epoch), x.cell.move = true → x.cell.renew = true →
      x.cell.receiver = s.loginTag p → s.loginBody p = some (.admitted e r' x' .sent) → (s.port p).state = .up →
      (st = .admitted → Completes .admitTell s fun t =>
        (t.login p).entry = some { body := .admitted e r ep .none, timer := none } ∧ t.port p = s.port p ∧
        t.calls = s.calls) ∧
      (st = .barred → Completes .admitTell s fun t =>
        (t.login p).entry = none ∧ Tells t p (.loginResult .barred) ∧ PortCleared s t p .admission ∧
        FrontHearsReorder s t p) ∧
      (st = .notHome → Completes .admitTell s fun t =>
        (t.login p).entry = none ∧ Tells t p (.loginResult .noHome) ∧ PortCleared s t p .homeLost ∧
        FrontHearsReorder s t p) ∧
      (st = .notIn → Completes .admitTell s fun t => t.adm.logins = s.adm.logins)) ∧
    (x.cell.move = true →
      (∀ p : Port, x.cell.receiver = s.loginTag p →
        (x.cell.renew = false → s.loginBody p ≠ some (.confirming e)) ∧
        (x.cell.renew = true → ∀ r' x', s.loginBody p ≠ some (.admitted e r' x' .sent))) →
      (st = .admitted → QueueRoom 1 s → Completes .admitTell s fun t =>
        t.adm.logins = s.adm.logins ∧ t.calls = s.calls ∧
        Queues s t [cellFrom s x.cell.source Tag.absent Tag.absent (.admitLeave e ep)]) ∧
      (st ≠ .admitted → Completes .admitTell s fun t =>
        t.adm.logins = s.adm.logins ∧ t.calls = s.calls ∧ t.highway.queue = s.highway.queue)) ∧
    (∀ (i : QueryId) (y : Query), x.cell.move = false → x.cell.receiver = s.queryTag i →
      (s.adm.queries.get i).query = some y → y.ext = e → s.calls.waitList = [] →
      Completes .admitTell s (fun t =>
        t.adm.queries.get i = { incarnation := (s.adm.queries.get i).incarnation } ∧ t.adm.logins = s.adm.logins) ∧
      (∀ (far : Station) (q : Port) (w : RecordId) (k : Call) (l : TalkId), st = .admitted → loc = some (far, q) →
        s.homeOf e = some x.cell.source → x.cell.source ≠ s.self →
        (far = s.self ∨ (s.highway.presence.get far).state = .present) → y.waiters = [w] → s.call? w = some k →
        k.state = .routing → k.talkLane = none → LowestFreeTalk s l → (∃ z, Claimable s z) → QueueRoom 1 s →
        Completes .admitTell s fun t =>
          t.adm.cache.head? = some { ext := e, station := far, epoch := ep } ∧
          t.call? w = some { k with
            farStation := some far, calledEpoch := some ep, farTag := Tag.absent, talkLane := some l } ∧
          ∃ z, Claimable s z ∧ Queues s t [broadcast s (.slot (.claim z))]) ∧
      (st ≠ .admitted ∨ s.homeOf e ≠ some x.cell.source ∨
          (∃ far q, loc = some (far, q) ∧ far ≠ s.self ∧ (s.highway.presence.get far).state ≠ .present) →
        Completes .admitTell s fun t =>
          (∀ (w : RecordId) (k : Call), w ∈ y.waiters → s.call? w = some k → k.state = .routing →
            k.confRole ≠ .controller → t.call? w = none) ∧
          (st ≠ .admitted → s.homeOf e = some x.cell.source → x.cell.source ≠ s.self →
            ∀ z ∈ t.adm.cache, z.ext ≠ e)))

/-- R15: ADMIT-LEAVE acts only where the number is homed here, located at the sender, and at the epoch carried; then the
location is cleared with a new epoch and ADMIT-CHANGE LEFT names it, skipped if refused. Otherwise it is discarded. A
leave for a record located at this station never arrives as a cell: where it acts, the sender is another station. -/
def Obligations.AdmitLeaveClearsMatchingLocation : Prop :=
  ∀ (s : State) (x : Stored) (e : Ext) (ep : Epoch),
    s.nextCell .admitC = some x → x.cell.body = .admitLeave e ep →
    (∀ (h : HomeRecord) (p : Port), s.homedHere e = true → s.homeRecord e = some h → x.cell.source ≠ s.self →
      h.location = some (x.cell.source, p) → h.epoch = ep → Completes .admitLeave s fun t =>
        t.homeRecord e = some { h with location := none, epoch := h.epoch + 1 } ∧
        (QueueRoom 1 s → Queues s t
          [broadcast s (.admitChange e .left (some (x.cell.source, p)) h.rights (h.epoch + 1))]) ∧
        (s.station.state ≠ .active ∨ 20 ≤ s.highway.queue.length → t.highway.queue = s.highway.queue)) ∧
    ((s.homedHere e = false ∨ ∀ h, s.homeRecord e = some h → h.epoch ≠ ep ∨ h.location.map (·.1) ≠ some x.cell.source) →
      Completes .admitLeave s fun t =>
        t = taken s .admitC x)

/-- R16, R31: ADMIT-CHANGE. Any cache entry of the extension is gone. An ADMITTED login of it is dropped by MOVED unless the
carried station is this one, which leaves it as it is, and by LEFT, FORCED, LOST and BARRED when the carried location is
its own; RIGHTS at its own location gives it the carried class and epoch. R3, R67: with the login every call record of its
port, HELD ones included, is cleared with ADMISSION, and the set of a front record hears TONE REORDER; BARRED also tells
the set LOGIN-RESULT BARRED, and the others tell it nothing. Entries that are not ADMITTED are left as they are. No cell
touches a login homed here, nor a home record: that R16's last paragraph and R5 stand before the table, for cells that
come late, is the model's choice of log 62. -/
def Obligations.AdmitChangeReachesTheLogin : Prop :=
  ∀ (s : State) (x : Stored) (e : Ext) (why : ChangeReason) (loc : Option (Station × Port)) (r : Rights) (ep : Epoch),
    s.nextCell .admitC = some x → x.cell.body = .admitChange e why loc r ep →
    (Completes .admitChange s fun t => ∀ y ∈ t.adm.cache, y.ext ≠ e ∧ y ∈ s.adm.cache) ∧
    (∀ (p : Port) (r' : Rights) (x' : Epoch) (n : Renewal) (tm : Option Nat),
      (s.login p).entry = some { body := .admitted e r' x' n, timer := tm } → s.admittedPort e = some p →
      s.homedHere e = false →
      let drops : Prop := Completes .admitChange s fun t => (t.login p).entry = none ∧
        (∀ q, q ≠ p → t.login q = s.login q) ∧ PortCleared s t p .admission ∧ FrontHearsReorder s t p ∧
        (why = .barred → (s.port p).state = .up → Tells t p (.loginResult .barred)) ∧
        (why ≠ .barred → (t.port p).outbound = (s.port p).outbound)
      let leaves : Prop := Completes .admitChange s fun t => t.adm.logins = s.adm.logins ∧ t.calls = s.calls ∧
        t.ports = s.ports ∧ t.highway.queue = s.highway.queue
      (why = .moved → loc.map (·.1) ≠ some s.self → drops) ∧
      (why = .moved → loc.map (·.1) = some s.self → leaves) ∧
      (why = .left ∨ why = .forced ∨ why = .lost ∨ why = .barred → loc = some (s.self, p) → drops) ∧
      (why = .rights → loc = some (s.self, p) → Completes .admitChange s fun t =>
        (t.login p).entry = some { body := .admitted e r ep n, timer := tm } ∧ t.calls = s.calls) ∧
      (why ≠ .moved → loc ≠ some (s.self, p) → leaves)) ∧
    (s.homedHere e = true → Completes .admitChange s fun t => t.adm.logins = s.adm.logins ∧
      t.adm.homes = s.adm.homes ∧ t.calls = s.calls ∧ t.ports = s.ports ∧ t.highway.queue = s.highway.queue) ∧
    (s.admittedPort e = none → Completes .admitChange s fun t => t.adm.logins = s.adm.logins)

/-- R20: RENEWAL_OFFER at a superframe boundary, with room in the queue. Each PENDING login, in ascending port order, is
offered to its home as ADMIT-MOVE with RENEW under its login tag, and is SENT with its timer at 16; no other login
changes. -/
def Obligations.PendingRenewalsAreOffered : Prop :=
  ∀ s : State, AtBoundary s →
    let pending (p : Port) : Prop := ∃ e r x, s.loginBody p = some (.admitted e r x .pending)
    (∀ p e r x, s.loginBody p = some (.admitted e r x .pending) → s.homeOf e ≠ none) →
    ∀ ps : List Port, ps.Pairwise (· < ·) → (∀ p, p ∈ ps ↔ pending p) → QueueRoom ps.length s →
    Completes .renewalOffer s fun t => ∃ cells : List Cell, Queues s t cells ∧
      cells.map (·.sender) = ps.map s.loginTag ∧
      (∀ c ∈ cells, c.renew = true ∧ ∃ p ∈ ps, ∃ e r x, s.loginBody p = some (.admitted e r x .pending) ∧
        c.body = .admitMove e p ∧ ∃ home, s.homeOf e = some home ∧ c.dest = .one home) ∧
      (∀ p e r x, s.loginBody p = some (.admitted e r x .pending) →
        (t.login p).entry = some { body := .admitted e r x .sent, timer := some 16 }) ∧
      (∀ p, p ∉ ps → t.login p = s.login p)

/-! ### Calls: dialling, answering, clearing -/

/-- R46, R48, R49, R50, R57, R76: hook events of a port in UP. OFF-HOOK sets the hook view OFF; without a login it gives
TONE REORDER; with neither front record nor stack it allocates the lowest FREE record in DIALING, or gives TONE
REORDER when none is FREE; a ringing callee's set stops ringing and a talk lane opens with the far nonce; a waiting
stack is popped; any other front record stays as it is. ON-HOOK sets the hook view ON and gives TONE NONE, clears the
front record with NORMAL, of conference role NONE or MEMBER with one CALL-CLEAR to its far end, and recalls a stack. R86: a
CONTROLLER record that is cleared ends its conference: each member in list order is offered CALL-CLEAR CONF-ENDED under its
link tag, the entry is FREE, and the record is CLEARING, of role NONE, for as many cells as the queue took (each carried
report counts one off, O8), or FREE where it took none. -/
def Obligations.HookEventsStartAndEndCalls : Prop :=
  ∀ (s : State) (p : Port), (s.port p).state = .up →
    (s.dueEvent p = some (.hook .off) →
      (Completes (.offHook p) s fun t => (t.callPort p).hookView = .off ∧ (t.port p).reportedHook = .off ∧
        (t.port p).hook = none) ∧
      (s.admitted p = none → Completes (.offHook p) s fun t =>
        (t.port p).tone = .reorder ∧ t.calls.records = s.calls.records) ∧
      (∀ (e : Ext) (x : Rights) (y : Epoch), s.admitted p = some (e, x, y) → s.front p = none →
        (s.callPort p).stack = [] →
        (∀ a, LowestFreeRecord s a → Completes (.offHook p) s fun t => (t.port p).tone = .dial ∧
          t.record a = {
            incarnation := (s.record a).incarnation + 1
            call := some { state := .dialing, port := p, ownExt := e, role := .caller, timer := some 1250 } } ∧
          (∀ b, b ≠ a → t.record b = s.record b) ∧ t.highway = s.highway ∧ t.slots = s.slots ∧ t.scr = s.scr) ∧
        ((∀ a, s.call? a ≠ none) → Completes (.offHook p) s fun t =>
          (t.port p).tone = .reorder ∧ t.calls.records = s.calls.records)) ∧
      (∀ (r : RecordId) (k : Call), s.admitted p ≠ none → FrontIs s p r k →
        (k.state ≠ .alerting → Completes (.offHook p) s fun t => t.calls.records = s.calls.records ∧
          t.highway = s.highway ∧ t.scr = s.scr) ∧
        (k.state = .alerting → k.talkLane = none → ∀ l, LowestFreeTalk s l → (∃ x, Claimable s x) →
          Completes (.offHook p) s fun t => (t.port p).ring = false ∧
            t.call? r = some { k with timer := none, talkLane := some l } ∧
            ∃ t0, t.talk? l = some t0 ∧ t0.state = .claiming ∧ t0.owner = r ∧ t0.partner = k.farNonce) ∧
        (∀ far, k.state = .alerting → k.talkLane = none → (∀ l, s.talk? l ≠ none) → k.confRole = .none →
          k.farStation = some far → QueueRoom 1 s → Completes (.offHook p) s fun t =>
            (t.port p).ring = false ∧ (t.port p).tone = .reorder ∧ ClearsTo s t r .noSlot far k.farTag)) ∧
      (∀ (top : RecordId) (rest : List RecordId) (k : Call), s.admitted p ≠ none → s.front p = none →
        (s.callPort p).stack = top :: rest → s.call? top = some k → Completes (.offHook p) s fun t =>
          t.callPort p = { s.callPort p with hookView := .off, stack := rest, recalled := false, burst := none } ∧
          t.call? top = some { k with state := .connected, timer := none } ∧ (t.port p).tone = .none ∧
          (t.port p).ring = (if (s.callPort p).recalled then false else (s.port p).ring))) ∧
    (s.dueEvent p = some (.hook .on) →
      (Completes (.onHook p) s fun t => (t.callPort p).hookView = .on ∧ (t.port p).reportedHook = .on ∧
        (t.port p).tone = .none ∧ (t.port p).digits = []) ∧
      (s.front p = none → (s.callPort p).stack = [] → Completes (.onHook p) s fun t =>
        t.calls.records = s.calls.records ∧ t.highway = s.highway ∧ t.scr = s.scr) ∧
      (∀ (r : RecordId) (k : Call), FrontIs s p r k → k.confRole ≠ .controller →
        (k.state = .dialing ∨ k.state = .routing → Completes (.onHook p) s fun t => t.call? r = none) ∧
        (∀ far, k.state ≠ .dialing → k.state ≠ .routing → k.farStation = some far → QueueRoom 2 s →
          (s.callPort p).stack = [] → Completes (.onHook p) s fun t => ClearsTo s t r .normal far k.farTag)) ∧
      (∀ (r : RecordId) (k : Call) (e : ConfId) (cf : Conf) (l : TalkId) (t0 : TalkLane) (y : Slot), FrontIs s p r k →
        k.confRole = .controller → s.calls.confs.get e = some cf → cf.controller = r →
        (∀ e' cf', s.calls.confs.get e' = some cf' → cf'.controller = r → e' = e) → (s.callPort p).stack = [] →
        k.talkLane = some l → s.talk? l = some t0 → t0.state = .active → t0.slot = some y → s.station.state = .active →
        let free : Queued := { cell := broadcast s (.slot (.free y)), name := .slotCell (.free y) }
        let ends : List Queued := cf.members.map fun m =>
          clearingCell s r (cellFrom s m.station m.link m.tag (.callClear .confEnded))
        let room := 24 - s.highway.queue.length
        let told := min cf.members.length (room - 1)
        Completes (.onHook p) s fun t => t.calls.confs.get e = none ∧ t.talk? l = none ∧
          t.highway.queue = s.highway.queue ++ (free :: ends).take room ∧
          (told = 0 → t.call? r = none) ∧
          (told ≠ 0 → ∃ k', t.call? r = some k' ∧ k'.state = .clearing ∧ k'.cause = .normal ∧ k'.confRole = .none ∧
            k'.clears = told ∧ k'.talkLane = none ∧ k'.listenLanes = [])) ∧
      (∀ (top : RecordId) (rest : List RecordId) (k : Call), s.front p = none → (s.callPort p).stack = top :: rest →
        s.call? top = some k → Completes (.onHook p) s fun t =>
          (t.callPort p).recalled = true ∧ (t.port p).ring = true ∧ (t.callPort p).stack = top :: rest ∧
          t.call? top = some { k with timer := some 3875 }))

/-- R40, R41, R42, R49, R51, R52: a digit at a front record in DIALING. The first ends dial tone, the first three are kept
with the timer at 1,250, and the fourth completes the number. A number of no home and no divert, a class without the
right, and an extension of this station's range that is not logged in free the record with TONE REORDER; one located
somewhere is ROUTING there with a talk lane claiming; one of an OUTSIDE divert goes on collecting, and one of another
divert is complete. R43: a complete number of a divert is ROUTING to the divert's target, where that is this station or its
home entry is PRESENT, with a talk lane claiming; else the record is free with TONE REORDER. R23, R24, R25, R26: a
number homed at a PRESENT peer is looked up: a cache entry, which moves to the first place, locates it; the query for it
takes one more waiter; without either, the lowest empty place starts a query, with ADMIT-ASK sent to the home and the
timer at 8; with four queries for other numbers the record joins the wait list; at an ABSENT peer the record is free
again. Onward digits are kept with the pause at 500; the twelfth stops the pause and completes the number. At any other
record, and with none, a digit does nothing to a call. -/
def Obligations.DigitsMakeANumber : Prop :=
  ∀ (s : State) (p : Port) (d : Digit), (s.port p).state = .up → s.dueEvent p = some (.digit d) →
    ((s.front p = none ∨ ∃ r k, FrontIs s p r k ∧ k.state ≠ .dialing) → Completes (.digit p) s fun t =>
      t.port p = { s.port p with digits := (s.port p).digits.drop 1, offered := true } ∧ t.calls = s.calls) ∧
    (∀ (r : RecordId) (k : Call), FrontIs s p r k → k.state = .dialing →
      let fails : Prop := Completes (.digit p) s fun t => t.call? r = none ∧ (t.port p).tone = .reorder ∧
        (∀ q, q ≠ r → t.call? q = s.call? q)
      (k.farExt = none → k.dialled.length < 3 → Completes (.digit p) s fun t =>
        t.call? r = some { k with dialled := k.dialled ++ [d], timer := some 1250 } ∧
        (t.port p).tone = (if k.dialled = [] then .none else (s.port p).tone) ∧
        (∀ q, q ≠ r → t.record q = s.record q) ∧ t.highway = s.highway) ∧
      (∀ n, k.farExt = some n → k.onward.length < 11 → Completes (.digit p) s fun t =>
        t.call? r = some { k with onward := k.onward ++ [d], timer := some 500 } ∧
        (t.port p).tone = (s.port p).tone) ∧
      (∀ (n : Ext) (i : Fin 8), k.farExt = some n → 11 ≤ k.onward.length → DivertOf s n i → k.talkLane = none →
        (∀ l, TargetPresent s i → LowestFreeTalk s l → (∃ x, Claimable s x) → Completes (.digit p) s fun t =>
          t.call? r = some { k with
            onward := k.onward ++ [d], state := .routing, timer := none
            farStation := some (s.calls.diverts.get i).target, calledEpoch := none, farTag := Tag.absent
            talkLane := some l } ∧
          (t.port p).tone = (s.port p).tone) ∧
        (¬ TargetPresent s i → k.confRole = .none → (s.callPort p).hookView = .off → k.listenLanes = [] → fails)) ∧
      (∀ a b c : Digit, k.farExt = none → k.dialled = [a, b, c] → k.confRole = .none → (s.callPort p).hookView = .off →
        let n := a.val * 1000 + b.val * 100 + c.val * 10 + d.val
        ((∀ i : Fin 8, (s.calls.diverts.get i).covers n = false) →
          (s.homeOf n = none → k.talkLane = none → k.listenLanes = [] → fails) ∧
          (s.homeOf n ≠ none → s.rightsAt p = 0 → k.talkLane = none → k.listenLanes = [] → fails) ∧
          (∀ (rg : Range) (h : HomeRecord), s.homeOf n = some s.self → s.calls.plan.get s.self = .present rg →
            s.homeRecord n = some h → s.rightsAt p ≠ 0 → k.talkLane = none →
            (h.location = none → k.listenLanes = [] → fails) ∧
            (∀ (st : Station) (q : Port) (l : TalkId), h.location = some (st, q) → LowestFreeTalk s l →
              (∃ x, Claimable s x) → Completes (.digit p) s fun t =>
                t.call? r = some { k with
                  state := .routing, farExt := some n, dialled := [], timer := none, farStation := some st
                  calledEpoch := some h.epoch, farTag := Tag.absent, talkLane := some l })) ∧
          (∀ home : Station, s.homeOf n = some home → home ≠ s.self → s.rightsAt p ≠ 0 → k.talkLane = none →
            let routed (t : State) : Prop :=
              t.call? r = some { k with state := .routing, farExt := some n, dialled := [], timer := none }
            (∀ rg, s.calls.plan.get home = .absent rg → k.listenLanes = [] → fails) ∧
            (∀ rg, s.calls.plan.get home = .present rg →
              (∀ (y : CacheEntry) (l : TalkId), s.cacheEntry n = some y → LowestFreeTalk s l → (∃ x, Claimable s x) →
                Completes (.digit p) s fun t => t.adm.cache.head? = some y ∧ t.adm.queries = s.adm.queries ∧
                  t.call? r = some { k with
                    state := .routing, farExt := some n, dialled := [], timer := none, farStation := some y.station
                    calledEpoch := some y.epoch, farTag := Tag.absent, talkLane := some l }) ∧
              (∀ (i : QueryId) (y : Query), s.cacheEntry n = none → (s.adm.queries.get i).query = some y → y.ext = n →
                (∀ j z, j < i → (s.adm.queries.get j).query = some z → z.ext ≠ n) → Completes (.digit p) s fun t =>
                  routed t ∧ t.highway.queue = s.highway.queue ∧
                  t.adm.queries.get i = { s.adm.queries.get i with
                    query := some { y with waiters := y.waiters ++ [r] } }) ∧
              ((∀ i z, (s.adm.queries.get i).query = some z → z.ext ≠ n) → s.cacheEntry n = none →
                (∀ i : QueryId, (s.adm.queries.get i).query = none →
                  (∀ j, j < i → (s.adm.queries.get j).query ≠ none) → QueueRoom 1 s → Completes (.digit p) s fun t =>
                    routed t ∧
                    t.adm.queries.get i = {
                      incarnation := (s.adm.queries.get i).incarnation + 1
                      query := some { ext := n, home := home, timer := some 8, waiters := [r] } } ∧
                    Queues s t [cellFrom s home ⟨byteOf i.val, (s.adm.queries.get i).incarnation + 1⟩ Tag.absent
                      (.admitAsk n)]) ∧
                ((∀ i, (s.adm.queries.get i).query ≠ none) → Completes (.digit p) s fun t =>
                  routed t ∧ t.calls.waitList = s.calls.waitList ++ [r] ∧ t.adm = s.adm ∧
                  t.highway = s.highway))))) ∧
        (∀ i : Fin 8, DivertOf s n i → (s.calls.diverts.get i).outside = true →
          (s.rightsAt p = 3 → Completes (.digit p) s fun t =>
            t.call? r = some { k with
              farExt := some n, dialled := [], divert := true, onward := [], timer := some 500 }) ∧
          (s.rightsAt p ≠ 3 → k.talkLane = none → k.listenLanes = [] → fails)) ∧
        (∀ i : Fin 8, DivertOf s n i → (s.calls.diverts.get i).outside = false → k.talkLane = none →
          (∀ l, s.rightsAt p ≠ 0 → TargetPresent s i → LowestFreeTalk s l → (∃ x, Claimable s x) →
            Completes (.digit p) s fun t => t.call? r = some { k with
              farExt := some n, dialled := [], divert := true, state := .routing, timer := none
              farStation := some (s.calls.diverts.get i).target, calledEpoch := none, farTag := Tag.absent
              talkLane := some l }) ∧
          (s.rightsAt p = 0 ∨ ¬ TargetPresent s i → k.listenLanes = [] → fails))))

/-- R54, R55, R56: CALL-OFFER at the called station. LISTENING discards it. For an extension without an ADMITTED login at
the offered epoch the answer is STALE, at a port with a front record, a hook view OFF or a stack BUSY, without a FREE
record CONGESTION; otherwise the lowest FREE record is ALERTING with the offer's values and its timer at 3,875, the
set rings, and the answer is RINGING under the new call tag. A full queue then frees the record again. An offer with
DIVERT rings the called extension's port, else the lowest that is ADMITTED and not busy, whatever its epoch. -/
def Obligations.OffersAreAnswered : Prop :=
  ∀ (s : State) (x : Stored) (caller called : Ext) (ep : Epoch) (slot : Slot) (n : Nonce) (onward : List Digit),
    s.nextCell .callC = some x → x.cell.body = .callOffer caller called ep slot n onward →
    let busy (p : Port) : Prop := s.front p ≠ none ∨ (s.callPort p).hookView = .off ∨ (s.callPort p).stack ≠ []
    let answer (o : AnswerOutcome) : Cell := cellFrom s x.cell.source Tag.absent x.cell.sender (.callAnswer o)
    let rings (p : Port) (own : Ext) (a : RecordId) : Prop := Completes .callOffer s fun t =>
      t.record a = {
        incarnation := (s.record a).incarnation + 1
        call := some { state := .alerting, port := p, ownExt := own, role := .callee, farExt := some caller,
                       farStation := some x.cell.source, farTag := x.cell.sender, farSlot := some slot,
                       farNonce := some n, timer := some 3875 } } ∧
      (∀ b, b ≠ a → t.record b = s.record b) ∧ (t.port p).ring = true ∧ t.adm = s.adm ∧
      Queues s t [cellFrom s x.cell.source ⟨byteOf a.val, (s.record a).incarnation + 1⟩ x.cell.sender
        (.callAnswer .ringing)]
    (s.station.state ≠ .active → Completes .callOffer s fun t => t = taken s .callC x) ∧
    (x.cell.divert = false →
      (s.admittedPort called = none → QueueRoom 1 s → Completes .callOffer s fun t =>
        t = queued (taken s .callC x) (answer .stale)) ∧
      (∀ (p : Port) (r : Rights) (e : Epoch), s.admittedPort called = some p → s.admitted p = some (called, r, e) →
        (e ≠ ep → QueueRoom 1 s → Completes .callOffer s fun t =>
          t = queued (taken s .callC x) (answer .stale)) ∧
        (e = ep → busy p → QueueRoom 1 s → Completes .callOffer s fun t =>
          t = queued (taken s .callC x) (answer .busy)) ∧
        (e = ep → ¬ busy p → (∀ a, s.call? a ≠ none) → QueueRoom 1 s → Completes .callOffer s fun t =>
          t = queued (taken s .callC x) (answer .congestion)) ∧
        (∀ a, e = ep → ¬ busy p → (s.port p).state = .up → LowestFreeRecord s a → QueueRoom 1 s → rings p called a) ∧
        (∀ a, e = ep → ¬ busy p → (s.port p).state = .up → LowestFreeRecord s a → s.station.state = .active →
          20 ≤ s.highway.queue.length → Completes .callOffer s fun t =>
            t.call? a = none ∧ (t.port p).ring = false ∧ t.highway.queue = s.highway.queue))) ∧
    (x.cell.divert = true →
      (∀ p, s.admittedPort called = some p → busy p → QueueRoom 1 s → Completes .callOffer s fun t =>
        t = queued (taken s .callC x) (answer .busy)) ∧
      (s.admittedPort called = none → (∀ p, s.admitted p ≠ none → busy p) → QueueRoom 1 s →
        Completes .callOffer s fun t => t = queued (taken s .callC x) (answer .busy)) ∧
      (∀ (p : Port) (own : Ext) (r : Rights) (e : Epoch) (a : RecordId),
        s.admittedPort called = some p ∨
          (s.admittedPort called = none ∧ ∀ q, q < p → s.admitted q = none ∨ busy q) →
        s.admitted p = some (own, r, e) → ¬ busy p → (s.port p).state = .up → LowestFreeRecord s a → QueueRoom 1 s →
        rings p own a))

/-- R58, R59, R64: CALL-ANSWER and CALL-CONNECT at a caller's record, which the receiver tag names, from its far station.
The sender tag must be the far call tag, but for BUSY, STALE and CONGESTION, and for RINGING and CALL-CONNECT at an
OFFERING record without a far call tag, which adopts it. RINGING takes the record to RINGBACK, with the timer at 3,750 and
TONE RINGBACK; BUSY, CONGESTION and a STALE that is not retried free it with no CALL-CLEAR; the first STALE of a number
homed and located here sends a new offer under the location's epoch. CALL-CONNECT at RINGBACK or OFFERING gives the record
the far slot and nonce, the talk lane its partner nonce, and a listen lane in WAITKEY on that slot, and the record is
PROVING; with no FREE listen lane it clears with CONGESTION. In any other state neither does anything. -/
def Obligations.AnswersAndConnectsReachTheCaller : Prop :=
  ∀ (s : State) (x : Stored) (r : RecordId) (k : Call), s.nextCell .callC = some x → s.station.state = .active →
    s.call? r = some k → x.cell.receiver = s.callTag r → k.confRole ≠ .controller →
    k.farStation = some x.cell.source →
    let known : Prop := x.cell.sender = k.farTag
    let adopts : Prop := k.state = .offering ∧ k.farTag = Tag.absent
    let noClear (t : State) : Prop := ∀ q ∈ t.highway.queue, (∃ c, q.cell.body = .callClear c) → q ∈ s.highway.queue
    (∀ o, x.cell.body = .callAnswer o →
      (known → k.state ≠ .offering → Completes .callAnswer s fun t => t = taken s .callC x) ∧
      (k.state = .offering → o = .ringing → known ∨ adopts → Completes .callAnswer s fun t =>
        t.call? r = some { k with farTag := x.cell.sender, timer := some 3750, state := .ringback } ∧
        ((s.port k.port).state = .up → (t.port k.port).tone = .ringback) ∧ t.highway.queue = s.highway.queue) ∧
      (k.state = .offering → o = .busy ∨ o = .congestion ∨ (o = .stale ∧ (k.staleRetried = true ∨ k.divert = true)) →
        Completes .callAnswer s fun t => t.call? r = none ∧ noClear t ∧
          ((s.port k.port).state = .up → (s.callPort k.port).hookView = .off →
            (t.port k.port).tone = if o = .busy then .busy else .reorder)) ∧
      (∀ (e : Ext) (rg : Range) (h : HomeRecord) (st : Station) (q : Port) (l : TalkId) (t0 : TalkLane) (y : Slot),
        k.state = .offering → o = .stale → k.staleRetried = false → k.divert = false → k.farExt = some e →
        s.homeOf e = some s.self → s.calls.plan.get s.self = .present rg → s.homeRecord e = some h →
        h.location = some (st, q) → k.talkLane = some l → s.talk? l = some t0 → t0.state = .active →
        t0.slot = some y → QueueRoom 1 s → Completes .callAnswer s fun t =>
          t.call? r = some { k with
            state := .offering, staleRetried := true, cause := .stale, timer := some 250
            farStation := some st, calledEpoch := some h.epoch, farTag := Tag.absent } ∧
          Queues s t [cellFrom s st (s.callTag r) Tag.absent
            (.callOffer k.ownExt e h.epoch y t0.ownNonce k.onward)])) ∧
    (∀ (slot : Slot) (n : Nonce), x.cell.body = .callConnect slot n →
      let takes : Prop := k.role = .caller ∧ ((known ∧ k.state = .ringback) ∨ (k.state = .offering ∧ (known ∨ adopts)))
      (known → k.role ≠ .caller ∨ (k.state ≠ .ringback ∧ k.state ≠ .offering) → Completes .callConnect s fun t =>
        t = taken s .callC x) ∧
      (∀ (l : TalkId) (t0 : TalkLane) (m : ListenId), takes → k.talkLane = some l → s.talk? l = some t0 →
        t0.request = .none → t0.staged = none → t0.activeKey = none → LowestFreeListen s m →
        Completes .callConnect s fun t =>
          t.call? r = some { k with
            state := .proving, timer := none, farTag := x.cell.sender, farSlot := some slot, farNonce := some n
            listenLanes := k.listenLanes ++ [m] } ∧
          ((s.port k.port).state = .up → (t.port k.port).tone = .none) ∧
          (∃ t1, t.talk? l = some t1 ∧ t1.partner = some n ∧ t1.mode = .prove ∧
            t1.firstBoundary = some (1 - (x.stamp : Int))) ∧
          (∃ t1, t.listen? m = some t1 ∧ t1.state = .waitkey ∧ t1.purpose = .setup ∧ t1.owner = r ∧
            t1.talker = x.cell.source ∧ t1.talkerTag = x.cell.sender ∧ t1.slot = slot ∧ t1.talkerNonce = some n ∧
            t1.partnerNonce = some t0.ownNonce ∧ t1.provingClock = some (1 - (x.stamp : Int)))) ∧
      (∀ (l : TalkId) (t0 : TalkLane), takes → k.confRole = .none → k.talkLane = some l → s.talk? l = some t0 →
        k.listenLanes = [] → (∀ m, s.listen? m ≠ none) → QueueRoom 2 s →
        Completes .callConnect s fun t => ClearsTo s t r .congestion x.cell.source x.cell.sender))

/-- R54, R63, R64, R66: CALL-CLEAR frees the record it names at once, with no CALL-CLEAR of its own and with TONE BUSY
for a front record whose hook view is OFF; with receiver tag FFFFh it names the record by its far station and far call
tag. A cell other than CALL-OFFER that names nothing is a stray cell, recorded with its header. LISTENING discards
CALL cells. R86: a CALL-CLEAR GONE about the controller's listed tag, from the far station, frees a MEMBER record in the
same way, whatever its link tag; one about a fellow member's tag is a stray cell (R85, R121; the model's reading of log 64).
R81, R85: a CALL-CLEAR from a member of a conference of three, under the member's own tag and its link
tag, ends the conference: the entry is FREE, the controller record is plain with the other member as its far end, and
that member is sent CONF-SET of count 2 with a new nonce. The record keeps its state. -/
def Obligations.CallClearsFreeAndStrayCellsAreRecorded : Prop :=
  (∀ (s : State) (x : Stored), s.nextCell .callC = some x →
    let noClear (t : State) : Prop := ∀ q ∈ t.highway.queue, (∃ c, q.cell.body = .callClear c) → q ∈ s.highway.queue
    (∀ (r : RecordId) (k : Call) (c : Cause), s.station.state = .active → NamesRecord s x r k →
      x.cell.body = .callClear c → Completes .callClear s fun t => t.call? r = none ∧ noClear t ∧
        (k.isFront = true → (s.port k.port).state = .up → (s.callPort k.port).hookView = .off →
          (t.port k.port).tone = .busy) ∧
        (k.state = .alerting → k.talkLane = none → (s.port k.port).state = .up → (t.port k.port).ring = false)) ∧
    (∀ (r : RecordId) (k : Call) (c : Cause), s.station.state = .active → (∀ e, s.calls.confs.get e = none) →
      x.cell.body = .callClear c → x.cell.receiver = Tag.absent → s.call? r = some k →
      k.farStation = some x.cell.source → k.farTag = x.cell.sender →
      (∀ q k', q < r → s.call? q = some k' → k'.farStation ≠ some x.cell.source ∨ k'.farTag ≠ x.cell.sender) →
      Completes .callClear s fun t => t.call? r = none ∧ noClear t) ∧
    (∀ (r : RecordId) (k : Call), s.station.state = .active → x.cell.body = .callClear .gone → s.call? r = some k →
      k.confRole = .member → x.cell.receiver = s.callTag r → k.farStation = some x.cell.source →
      (x.cell.sender = k.controllerTag → Completes .callClear s fun t => t.call? r = none ∧ noClear t ∧
        (k.isFront = true → (s.port k.port).state = .up → (s.callPort k.port).hookView = .off →
          (t.port k.port).tone = .busy)) ∧
      (x.cell.sender ≠ k.controllerTag → x.cell.sender ≠ k.farTag → x.cell.receiver ≠ Tag.absent →
        (∀ e, s.calls.confs.get e = none) → Completes .callClear s fun t =>
          t = (taken s .callC x).recordFault .strayCell x.cell.source (some x.header))) ∧
    (∀ cmd, x.cell.body.command = some cmd → x.cell.body.cellClass = .call →
      (s.station.state ≠ .active → Completes cmd s fun t => t = taken s .callC x) ∧
      (s.station.state = .active → x.cell.body.kind ≠ 0x20 → x.cell.receiver ≠ Tag.absent →
        s.recordOf x.cell.receiver = none → (∀ e, s.calls.confs.get e = none) → Completes cmd s fun t =>
          t = (taken s .callC x).recordFault .strayCell x.cell.source (some x.header)))) ∧
  (∀ (s : State) (x : Stored) (cause : Cause) (e : ConfId) (r : RecordId) (k : Call) (gone left : Member) (l : TalkId)
    (t0 : TalkLane) (y : Slot),
    s.nextCell .callC = some x → s.station.state = .active → x.cell.body = .callClear cause →
    s.calls.confs.get e = some { controller := r, members := [gone, left] } →
    (∀ e', e' ≠ e → s.calls.confs.get e' = none) → gone ≠ left → s.call? r = some k → k.confRole = .controller →
    gone.station = x.cell.source → gone.tag = x.cell.sender → x.cell.receiver = gone.link →
    (s.recordOf gone.link = none ∨ gone.link = s.callTag r) → k.talkLane = some l → s.talk? l = some t0 →
    t0.slot = some y → QueueRoom 1 s → Completes .callClear s fun t =>
      t.calls.confs.get e = none ∧
      (∃ k', t.call? r = some k' ∧ k'.confRole = .none ∧ k'.state = k.state ∧ k'.farStation = some left.station ∧
        k'.farTag = left.tag ∧ k'.farSlot = some left.slot ∧ k'.farNonce = none ∧ k'.farExt = none) ∧
      ∃ n : Nonce, t.scr.noncesGiven = n :: s.scr.noncesGiven ∧
        Queues s t [cellFrom s left.station left.link left.tag (.confSet n [
          { station := s.self, tag := s.callTag r, slot := y },
          { station := left.station, tag := left.tag, slot := left.slot }])])

/-- R42, R47, R61, R76: the timers of a record. The digit timer, and the onward pause with no digit, free the record with
TONE REORDER at a set that is off-hook; the pause with digits completes the number: to its divert's target where that
takes calls, and else the record is free, with TONE REORDER at a set that is off-hook (R43); the answer timer
clears with CONGESTION and the ringing, alerting and recall timers with NO-ANSWER, each with its CALL-CLEAR last in
the queue; a ringing set stops, and a held record leaves the stack. The model's choice of log 2: the command of a timer
that still runs changes nothing. -/
def Obligations.CallTimersExpire : Prop :=
  ∀ (s : State) (r : RecordId) (k : Call), s.call? r = some k → k.confRole = .none →
    (k.timer ≠ some 0 → ∀ c, c = .digitTimerExpiry r ∨ c = .onwardPauseExpiry r ∨ c = .answerTimerExpiry r ∨
      c = .ringingTimerExpiry r ∨ c = .alertingTimerExpiry r ∨ c = .recallTimerExpiry r →
      Completes c s fun t => t = s) ∧
    (k.timer = some 0 → k.state = .dialing →
      (∀ c, (c = .digitTimerExpiry r ∧ k.farExt = none) ∨ (c = .onwardPauseExpiry r ∧ k.farExt ≠ none ∧ k.onward = []) →
        Completes c s fun t => t.call? r = none ∧
          ((s.port k.port).state = .up → (s.callPort k.port).hookView = .off → (t.port k.port).tone = .reorder)) ∧
      (∀ (n : Ext) (i : Fin 8), k.farExt = some n → k.onward ≠ [] → k.talkLane = none → DivertOf s n i →
        (∀ l, TargetPresent s i → LowestFreeTalk s l → (∃ x, Claimable s x) →
          Completes (.onwardPauseExpiry r) s fun t => t.call? r = some { k with
            state := .routing, timer := none, farStation := some (s.calls.diverts.get i).target
            calledEpoch := none, farTag := Tag.absent, talkLane := some l }) ∧
        (¬ TargetPresent s i → Completes (.onwardPauseExpiry r) s fun t => t.call? r = none ∧
          ((s.port k.port).state = .up → (s.callPort k.port).hookView = .off →
            (t.port k.port).tone = .reorder)))) ∧
    (∀ far, k.timer = some 0 → k.farStation = some far → QueueRoom 2 s →
      (k.state = .offering → Completes (.answerTimerExpiry r) s fun t => ClearsTo s t r .congestion far k.farTag) ∧
      (k.state = .ringback → Completes (.ringingTimerExpiry r) s fun t => ClearsTo s t r .noAnswer far k.farTag) ∧
      (k.state = .alerting → k.talkLane = none → Completes (.alertingTimerExpiry r) s fun t =>
        ClearsTo s t r .noAnswer far k.farTag ∧
        ((s.port k.port).state = .up → (t.port k.port).ring = false)) ∧
      (k.state = .held → Completes (.recallTimerExpiry r) s fun t => ClearsTo s t r .noAnswer far k.farTag ∧
        (t.callPort k.port).stack = (s.callPort k.port).stack.erase r ∧
        ∀ p, (t.port p).tone = (s.port p).tone))

/-! ### Held calls, transfer and conference -/

/-- R71, R73, R74, R75: HOLD pushes the CONNECTED front record and starts a new DIALING one, or gives TONE REORDER where
none is FREE; RETURN gives up a DIALING front record and takes back the top; SWAP changes places between the two. The
far ends are not told: nothing is queued, and no slot changes. -/
def Obligations.HeldCallsChangePlaces : Prop :=
  ∀ (s : State) (p : Port), (s.port p).state = .up → (s.callPort p).hookView = .off →
    (∀ (f : RecordId) (k : Call), s.dueEvent p = some (.key .holdKey) → FrontIs s p f k → k.state = .connected →
      (s.callPort p).stack.length < 3 →
      (∀ a, LowestFreeRecord s a → Completes (.hold p) s fun t =>
        (t.callPort p).stack = f :: (s.callPort p).stack ∧ t.call? f = some { k with state := .held } ∧
        t.record a = {
          incarnation := (s.record a).incarnation + 1
          call := some { state := .dialing, port := p, ownExt := k.ownExt, role := .caller, timer := some 1250 } } ∧
        (t.port p).tone = .dial ∧ t.highway = s.highway ∧ t.slots = s.slots ∧
        ∀ l t0, k.talkLane = some l → s.talk? l = some t0 → t.talk? l = some { t0 with mode := .silence }) ∧
      ((∀ a, s.call? a ≠ none) → Completes (.hold p) s fun t =>
        (t.callPort p).stack = f :: (s.callPort p).stack ∧ t.call? f = some { k with state := .held } ∧
        (t.port p).tone = .reorder ∧ t.highway = s.highway ∧ t.slots = s.slots)) ∧
    (∀ (top : RecordId) (rest : List RecordId) (k : Call), (s.callPort p).stack = top :: rest → s.call? top = some k →
      k.state = .held →
      (s.dueEvent p = some (.key .returnKey) →
        (s.front p = none → Completes (.returnCall p) s fun t =>
          (t.callPort p).stack = rest ∧ t.call? top = some { k with state := .connected, timer := none } ∧
          (t.port p).tone = .none ∧ t.highway = s.highway ∧
          ∀ l t0, k.talkLane = some l → s.talk? l = some t0 → t.talk? l = some { t0 with mode := .voice }) ∧
        (∀ (f : RecordId) (kf : Call), FrontIs s p f kf → kf.state = .dialing → kf.confRole = .none →
          kf.talkLane = none → kf.listenLanes = [] → Completes (.returnCall p) s fun t =>
            (t.callPort p).stack = rest ∧ t.call? f = none ∧
            t.call? top = some { k with state := .connected, timer := none } ∧ (t.port p).tone = .none)) ∧
      (∀ (f : RecordId) (kf : Call), s.dueEvent p = some (.key .swapKey) → FrontIs s p f kf → kf.state = .connected →
        Completes (.swap p) s fun t =>
          (t.callPort p).stack = f :: rest ∧ t.call? f = some { kf with state := .held } ∧
          t.call? top = some { k with state := .connected, timer := none } ∧ t.highway = s.highway ∧
          t.slots = s.slots ∧
          ∀ l m t0 t1, kf.talkLane = some l → k.talkLane = some m → l ≠ m → s.talk? l = some t0 →
            s.talk? m = some t1 → t.talk? l = some { t0 with mode := .silence } ∧
              t.talk? m = some { t1 with mode := .voice }))

/-- R72, R76: a feature key whose needs are not met changes no record, stack or conference. R73, R74, R75, R78, R82, R83:
the needs are a CONNECTED front record for every key but RETURN, a stack that is not empty for every key but HOLD and one
of fewer than 3 for HOLD; for TRANSFER the right, and role NONE at the front and at the top; for CONFERENCE no MEMBER at
the front or the top, the right and a FREE entry where neither is a CONTROLLER, an entry of 2 members where one is, and,
the model's choice of log 34, not both a CONTROLLER. With the hook view OFF the set
receives TONE REORDER and the burst timer starts at 25. With it ON the key only leaves its latch: that the key is
discarded whole is the model's choice of log 34. The burst timer's expiry gives TONE NONE; while it runs the command does
nothing, the model's choice of log 2. -/
def Obligations.RefusedKeysGiveABurst : Prop :=
  ∀ (s : State) (p : Port) (key : FeatureKey), (s.port p).state = .up →
    let front (holds : Call → Prop) : Prop := ∃ r k, FrontIs s p r k ∧ holds k
    let top (holds : Call → Prop) : Prop :=
      ∃ r rest k, (s.callPort p).stack = r :: rest ∧ s.call? r = some k ∧ holds k
    let shut (r : RecordId) (k : Call) : Prop := k.confRole = .controller ∧ ∃ e cf, s.calls.confs.get e = some cf ∧
      cf.controller = r ∧ cf.members.length ≠ 2 ∧
      ∀ e' cf', s.calls.confs.get e' = some cf' → cf'.controller = r → e' = e
    let plain : Prop := (front fun k => k.confRole = .none) ∧ top fun k => k.confRole = .none
    let unmet : Prop :=
      (key ≠ .returnKey ∧ ¬ front fun k => k.state = .connected) ∨
      (key ≠ .holdKey ∧ (s.callPort p).stack = []) ∨
      (key = .holdKey ∧ 3 ≤ (s.callPort p).stack.length) ∨
      (key = .transferKey ∧ (s.rightsAt p).val < 2) ∨
      (key = .transferKey ∧ ((front fun k => k.confRole ≠ .none) ∨ top fun k => k.confRole ≠ .none)) ∨
      (key = .conferenceKey ∧ ((front fun k => k.confRole = .member) ∨ top fun k => k.confRole = .member)) ∨
      (key = .conferenceKey ∧ plain ∧ ((s.rightsAt p).val < 2 ∨ ∀ e, s.calls.confs.get e ≠ none)) ∨
      (key = .conferenceKey ∧ ((∃ r k, FrontIs s p r k ∧ shut r k) ∨
        ∃ r rest k, (s.callPort p).stack = r :: rest ∧ s.call? r = some k ∧ shut r k)) ∨
      (key = .conferenceKey ∧ (front fun k => k.confRole = .controller) ∧ top fun k => k.confRole = .controller)
    (s.dueEvent p = some (.key key) → (s.callPort p).hookView = .off → unmet →
      Completes ((PortEvent.key key).command p) s fun t =>
        (t.port p).tone = .reorder ∧ t.callPort p = { s.callPort p with burst := some 25 } ∧
        t.calls.records = s.calls.records ∧ t.calls.confs = s.calls.confs ∧ t.highway = s.highway ∧ t.scr = s.scr ∧
        ∀ q, q ≠ p → t.port q = s.port q ∧ t.callPort q = s.callPort q) ∧
    (s.dueEvent p = some (.key key) → (s.callPort p).hookView = .on →
      Completes ((PortEvent.key key).command p) s fun t =>
        t.port p = { s.port p with keys := (s.port p).keys.drop 1, offered := true } ∧ t.calls = s.calls ∧
        t.highway = s.highway ∧ t.scr = s.scr) ∧
    ((s.callPort p).burst = some 0 → Completes (.burstTimerExpiry p) s fun t =>
      t.port p = { s.port p with tone := .none } ∧ t.callPort p = { s.callPort p with burst := none } ∧
      t.calls.records = s.calls.records) ∧
    ((s.callPort p).burst ≠ some 0 → Completes (.burstTimerExpiry p) s fun t => t = s)

/-- R78: TRANSFER of a CONNECTED front record and the top of the stack, both of role NONE, by a class with the right. With
room in the queue each far end is sent CALL-REDIRECT with the other's station, tag and present slot and one new
nonce, in the order front, top; each local record waits in CLEARING with cause TRANSFERRED for its cell; the lanes
are gone, the slots are given up, the top has left the stack, and the set hears TONE BUSY. When the queue takes the first
cell and not the second, the front record is cleared in the same way, and the top with CONGESTION: it leaves the stack, its
lanes and slot are gone too, and its CALL-CLEAR goes to its far end; one QUEUE-FULL is counted. When the queue refuses the
first cell the key is refused and no record changes. -/
def Obligations.TransferRedirectsBothFarEnds : Prop :=
  ∀ (s : State) (p : Port) (f h : RecordId) (rest : List RecordId) (kf kh : Call) (b c : Station)
    (lf lh : ListenId) (tf th : ListenLane) (ta tb : TalkId) (xa xb : Slot) (A B : TalkLane),
    (s.port p).state = .up → (s.callPort p).hookView = .off → (s.callPort p).recalled = false →
    s.dueEvent p = some (.key .transferKey) → FrontIs s p f kf → (s.callPort p).stack = h :: rest →
    s.call? h = some kh → kh.port = p → kf.state = .connected → kh.state = .held → kf.confRole = .none →
    kh.confRole = .none → 2 ≤ (s.rightsAt p).val → kf.farStation = some b → kh.farStation = some c →
    kf.listenLanes = [lf] → kh.listenLanes = [lh] → s.listen? lf = some tf → s.listen? lh = some th → lf ≠ lh →
    tf.owner = f → th.owner = h → kf.talkLane = some ta → kh.talkLane = some tb → ta ≠ tb → s.talk? ta = some A →
    s.talk? tb = some B → A.state = .active → B.state = .active → A.slot = some xa → B.slot = some xb →
    let waits (t : State) (r : RecordId) (cause : Cause) : Prop :=
      ∃ k, t.call? r = some k ∧ k.state = .clearing ∧ k.cause = cause ∧ k.clears = 1
    let ended (t : State) : Prop :=
      t.talk? ta = none ∧ t.talk? tb = none ∧ t.listen? lf = none ∧ t.listen? lh = none ∧
      t.slots.map.get xa = none ∧ t.slots.map.get xb = none ∧ (t.callPort p).stack = rest ∧
      (t.port p).tone = .busy
    (QueueRoom 4 s → Completes (.transfer p) s fun t =>
      (∃ n : Nonce, t.scr.noncesGiven = n :: s.scr.noncesGiven ∧
        Queues s t [
          cellFrom s b (s.callTag f) kf.farTag (.callRedirect c kh.farTag th.slot n),
          cellFrom s c (s.callTag h) kh.farTag (.callRedirect b kf.farTag tf.slot n),
          broadcast s (.slot (.free xa)), broadcast s (.slot (.free xb))]) ∧
      waits t f .transferred ∧ waits t h .transferred ∧ ended t) ∧
    (s.station.state = .active → s.highway.queue.length = 19 → Completes (.transfer p) s fun t =>
      (∃ n : Nonce, t.scr.noncesGiven = n :: s.scr.noncesGiven ∧
        Queues s t [
          cellFrom s b (s.callTag f) kf.farTag (.callRedirect c kh.farTag th.slot n),
          broadcast s (.slot (.free xa)), broadcast s (.slot (.free xb)),
          cellFrom s c (s.callTag h) kh.farTag (.callClear .congestion)]) ∧
      waits t f .transferred ∧ waits t h .congestion ∧ ended t ∧
      t.highway.counters.get FaultKind.queueFull.index =
        min (s.highway.counters.get FaultKind.queueFull.index + 1) 65535) ∧
    (s.station.state = .active → 20 ≤ s.highway.queue.length → Completes (.transfer p) s fun t =>
      t.calls.records = s.calls.records ∧ (t.callPort p).stack = h :: rest ∧ (t.callPort p).burst = some 25 ∧
      (t.port p).tone = .reorder ∧ t.highway.queue = s.highway.queue)

/-- R82: CONFERENCE of a CONNECTED front record and the top of the stack, both of role NONE, by a class with the right.
The lowest FREE entry takes the front record as controller and the two far ends as members in that order; the top's
slot is given up, its listen lane passes to the controller, and it is FREE with no cell; each member is sent
CONF-SET with one new nonce and the three places, the controller's first; the controller's talk lane asks for its next
key with that nonce. With 20 cells queued both CONF-SETs are refused: the members are told CALL-CLEAR CONGESTION, the
entry is FREE and so is the record. Without a FREE entry the key is refused. R83: with a CONTROLLER of two members at the
front or on top, the far end of the other record is its third member: the other record is FREE, its slot given up, its
lane the controller's, and each of the three is sent CONF-SET with one new nonce and the four places; a controller that
was the top is then the CONNECTED front record. With three members the key is refused. R85 reforms a conference only
while two or more members remain: that two refused members are removed as one batch, and that the controller's record is
then FREE, is the model's choice of log 11. -/
def Obligations.ConferenceJoinsFrontAndTop : Prop :=
  (∀ (s : State) (p : Port) (f h : RecordId) (rest : List RecordId) (kf kh : Call) (b c : Station)
    (lf lh : ListenId) (tf th : ListenLane) (ta tb : TalkId) (xa xb : Slot) (A B : TalkLane),
    (s.port p).state = .up → (s.callPort p).hookView = .off → s.dueEvent p = some (.key .conferenceKey) →
    FrontIs s p f kf → (s.callPort p).stack = h :: rest → s.call? h = some kh → kf.state = .connected →
    kh.state = .held → kf.confRole = .none → kh.confRole = .none → 2 ≤ (s.rightsAt p).val →
    kf.farStation = some b → kh.farStation = some c → kf.listenLanes = [lf] → kh.listenLanes = [lh] →
    s.listen? lf = some tf → s.listen? lh = some th → lf ≠ lh → tf.owner = f → th.owner = h → tf.talker = b →
    tf.talkerTag = kf.farTag → th.talker = c → th.talkerTag = kh.farTag → kf.talkLane = some ta →
    kh.talkLane = some tb → ta ≠ tb → s.talk? ta = some A → s.talk? tb = some B → A.state = .active →
    B.state = .active → A.slot = some xa → B.slot = some xb →
    (∀ e : ConfId, s.calls.confs.get e = none → (∀ e', e' < e → s.calls.confs.get e' ≠ none) → QueueRoom 3 s →
      let members : List Member := [
        { station := b, tag := kf.farTag, slot := tf.slot, link := s.callTag f },
        { station := c, tag := kh.farTag, slot := th.slot, link := s.callTag h }]
      let places : List MemberPlace := [
        { station := s.self, tag := s.callTag f, slot := xa },
        { station := b, tag := kf.farTag, slot := tf.slot },
        { station := c, tag := kh.farTag, slot := th.slot }]
      Completes (.conference p) s fun t =>
        t.calls.confs.get e = some { controller := f, members := members } ∧
        (∃ n : Nonce, t.scr.noncesGiven = n :: s.scr.noncesGiven ∧
          Queues s t [
            broadcast s (.slot (.free xb)),
            cellFrom s b (s.callTag f) kf.farTag (.confSet n places),
            cellFrom s c (s.callTag h) kh.farTag (.confSet n places)] ∧
          (A.mayRekey = true → s.scr.mixer.length < 16 → t.talk? ta = some { A with
            request := .next (nextKeyCount A.keyCount) n, wanted := .clear })) ∧
        t.call? h = none ∧ t.talk? tb = none ∧ t.slots.map.get xb = none ∧ (t.callPort p).stack = rest ∧
        t.call? f = some { kf with
          confRole := .controller, farStation := none, farTag := Tag.absent, farSlot := none, farNonce := none
          farExt := none, listenLanes := [lf, lh] } ∧
        (∃ t1, t.listen? lh = some t1 ∧ t1.owner = f ∧ t1.ownerTag = s.callTag f)) ∧
    (∀ e : ConfId, s.calls.confs.get e = none → (∀ e', e' < e → s.calls.confs.get e' ≠ none) →
      s.station.state = .active → s.highway.queue.length = 20 → Completes (.conference p) s fun t =>
        t.calls.confs.get e = none ∧ t.call? f = none ∧ t.call? h = none ∧
        Queues s t [
          broadcast s (.slot (.free xb)),
          cellFrom s b (s.callTag f) kf.farTag (.callClear .congestion),
          cellFrom s c (s.callTag h) kh.farTag (.callClear .congestion),
          broadcast s (.slot (.free xa))]) ∧
    ((∀ e, s.calls.confs.get e ≠ none) → Completes (.conference p) s fun t =>
      t.calls.records = s.calls.records ∧ t.calls.confs = s.calls.confs ∧ (t.callPort p).burst = some 25)) ∧
  (∀ (s : State) (p : Port) (f h r q : RecordId) (rest : List RecordId) (kr kq : Call) (e : ConfId) (m1 m2 : Member)
    (d : Station) (lq : ListenId) (tq : ListenLane) (ta tb : TalkId) (xa xb : Slot) (A B : TalkLane),
    (s.port p).state = .up → (s.callPort p).hookView = .off → s.dueEvent p = some (.key .conferenceKey) →
    (s.callPort p).stack = h :: rest → f ∉ rest → s.front p = some f → (f = r ∧ h = q) ∨ (f = q ∧ h = r) → r ≠ q →
    s.call? r = some kr → s.call? q = some kq → kr.confRole = .controller → kq.confRole = .none →
    (∀ k, s.call? f = some k → k.state = .connected) → (∀ k, s.call? h = some k → k.state = .held ∧ k.port = p) →
    (∀ e' c', s.calls.confs.get e' = some c' → c'.controller = r → e' = e) → kq.farStation = some d →
    kq.listenLanes = [lq] → s.listen? lq = some tq → tq.owner = q → tq.talker = d → tq.talkerTag = kq.farTag →
    (∀ l ∈ kr.listenLanes, ∃ t0, s.listen? l = some t0 ∧ t0.owner = r ∧
      ((t0.talker = m1.station ∧ t0.talkerTag = m1.tag) ∨ (t0.talker = m2.station ∧ t0.talkerTag = m2.tag))) →
    (∀ m, m = m1 ∨ m = m2 → ∃ l ∈ kr.listenLanes, ∃ t0, s.listen? l = some t0 ∧ t0.talker = m.station ∧
      t0.talkerTag = m.tag) →
    kr.talkLane = some ta → kq.talkLane = some tb → ta ≠ tb → s.talk? ta = some A → s.talk? tb = some B →
    A.state = .active → B.state = .active → A.slot = some xa → B.slot = some xb →
    (s.calls.confs.get e = some { controller := r, members := [m1, m2] } → QueueRoom 4 s →
      let new : Member := { station := d, tag := kq.farTag, slot := tq.slot, link := s.callTag q }
      let places : List MemberPlace :=
        [{ station := s.self, tag := s.callTag r, slot := xa }, m1.place, m2.place, new.place]
      Completes (.conference p) s fun t =>
        t.calls.confs.get e = some { controller := r, members := [m1, m2, new] } ∧
        (∃ n : Nonce, t.scr.noncesGiven = n :: s.scr.noncesGiven ∧
          Queues s t (broadcast s (.slot (.free xb)) ::
            [m1, m2, new].map fun m => cellFrom s m.station m.link m.tag (.confSet n places)) ∧
          (A.mayRekey = true → s.scr.mixer.length < 16 → t.talk? ta = some { A with
            request := .next (nextKeyCount A.keyCount) n
            wanted := .clear
            mode := if h = r then .voice else A.mode })) ∧
        t.call? q = none ∧ t.talk? tb = none ∧ t.slots.map.get xb = none ∧ (t.callPort p).stack = rest ∧
        t.call? r = some { kr with
          state := .connected
          timer := if h = r then none else kr.timer
          listenLanes := kr.listenLanes ++ [lq] } ∧
        (∃ t1, t.listen? lq = some t1 ∧ t1.owner = r ∧ t1.ownerTag = s.callTag r)) ∧
    (∀ m3, s.calls.confs.get e = some { controller := r, members := [m1, m2, m3] } →
      Completes (.conference p) s fun t =>
        t.calls.records = s.calls.records ∧ t.calls.confs = s.calls.confs ∧ (t.callPort p).burst = some 25))

/-- R79, R83, R84: CALL-REDIRECT and CONF-SET at a plain record in CONNECTED or HELD, which keeps its state. A redirected
record has the new far end, and in place of its lane the lowest FREE one, JOIN, in WAITKEY; its talk lane asks for its
next key with the cell's nonce. A CONF-SET of count 3 or 4 that lists the record makes it a MEMBER whose lanes hear the
others and nobody else; one of count 2 makes it plain again with the controller's tag and slot, and its lanes hear the
controller alone; its talk lane asks for its next key with the conference nonce. With too few FREE listen lanes, those that
close counted as FREE, either clears the record with CONGESTION, a HELD one leaving the stack: a CALL-REDIRECT with the
CALL-CLEAR to the new far end, a CONF-SET to the controller, under the far call tag, which a count of 2 has made the
controller's listed tag. In PROVING either clears the record with CONGESTION; in other states neither does anything. A CONF-SET that does not list the record does nothing, in
PROVING too (the model's choice of log 42); a record listed twice counts once, and the one place that is left of a count
of 2 is at the far station (the model's choice of log 48). -/
def Obligations.RedirectsAndConfSetsChangeTheFarEnd : Prop :=
  ∀ (s : State) (x : Stored) (r : RecordId) (k : Call) (n : Nonce), s.nextCell .callC = some x →
    s.station.state = .active → NamesRecord s x r k →
    let talks : Prop := k.state = .connected ∨ k.state = .held
    let cleared (far : Station) (farTag : Tag) (t : State) : Prop := ClearsTo s t r .congestion far farTag ∧
      (k.state = .held → (t.callPort k.port).stack = (s.callPort k.port).stack.erase r)
    (∀ (st : Station) (tag : Tag) (slot : Slot), x.cell.body = .callRedirect st tag slot n →
      (k.confRole ≠ .none ∨ (¬ talks ∧ k.state ≠ .proving) → Completes .callRedirect s fun t =>
        t = taken s .callC x) ∧
      (k.confRole = .none → k.state = .proving → QueueRoom 2 s → Completes .callRedirect s fun t =>
        ClearsTo s t r .congestion x.cell.source k.farTag) ∧
      (∀ (l0 : ListenId) (t0 : ListenLane), k.confRole = .none → talks → k.listenLanes = [l0] →
        s.listen? l0 = some t0 → t0.owner = r → Completes .callRedirect s fun t => ∃ m t1,
          (m = l0 ∨ s.listen? m = none) ∧ (∀ j, s.listen? j = none ∨ j = l0 → m ≤ j) ∧ t.listen? m = some t1 ∧
          t1.state = .waitkey ∧ t1.purpose = .join ∧ t1.owner = r ∧ t1.talker = st ∧ t1.talkerTag = tag ∧
          t1.slot = slot ∧ t1.talkerNonce = none ∧ t1.partnerNonce = none ∧ t1.timer = some 8 ∧
          t.call? r = some { k with
            farStation := some st, farTag := tag, farSlot := some slot, farNonce := none, farExt := none
            listenLanes := [m] } ∧
          t.highway.queue = s.highway.queue ∧
          ∀ l t2, k.talkLane = some l → s.talk? l = some t2 → t2.mayRekey = true → s.scr.mixer.length < 16 →
            t.talk? l = some { t2 with request := .next (nextKeyCount t2.keyCount) n, wanted := .clear }) ∧
      (k.confRole = .none → talks → (∀ m, s.listen? m ≠ none ∧ m ∉ k.listenLanes) → QueueRoom 2 s →
        Completes .callRedirect s (cleared st tag))) ∧
    (∀ (head : MemberPlace) (others : List MemberPlace), x.cell.body = .confSet n (head :: others) →
      let own (m : MemberPlace) : Prop := m.station = s.self ∧ m.tag = s.callTag r
      ((∀ m ∈ head :: others, ¬ own m) ∨ (¬ talks ∧ k.state ≠ .proving) → Completes .confSet s fun t =>
        t = taken s .callC x) ∧
      (∀ m ∈ head :: others, own m → k.state = .proving → QueueRoom 2 s →
        Completes .confSet s fun t => ClearsTo s t r .congestion x.cell.source k.farTag) ∧
      let rekeyed (t : State) : Prop := ∀ l t2, k.talkLane = some l → s.talk? l = some t2 → t2.mayRekey = true →
        s.scr.mixer.length < 16 →
        t.talk? l = some { t2 with request := .next (nextKeyCount t2.keyCount) n, wanted := .clear }
      (∀ m ∈ head :: others, own m → talks → others.length = 2 ∨ others.length = 3 → k.listenLanes.Nodup →
        (∀ l ∈ k.listenLanes, ∃ t0, s.listen? l = some t0 ∧ t0.owner = r) →
        (∃ free : List ListenId, free.Nodup ∧ free.length = others.length ∧ ∀ i ∈ free, s.listen? i = none) →
        Completes .confSet s fun t => rekeyed t ∧ ∃ k',
          t.call? r = some k' ∧
          k' = { k with
            confRole := .member, farSlot := some head.slot, farNonce := none, farExt := none
            controllerTag := head.tag, listenLanes := k'.listenLanes } ∧
          (∀ y ∈ head :: others, ¬ own y → ∃ l ∈ k'.listenLanes, ∃ t1, t.listen? l = some t1 ∧
            t1.talker = y.station ∧ t1.talkerTag = y.tag) ∧
          (∀ l ∈ k'.listenLanes, ∃ t1, t.listen? l = some t1 ∧ ∃ y ∈ head :: others, ¬ own y ∧
            t1.talker = y.station ∧ t1.talkerTag = y.tag) ∧
          t.highway.queue = s.highway.queue) ∧
      (∀ m, own m → others = [m] → talks → ¬ own head → (∃ i, s.listen? i = none) → Completes .confSet s fun t =>
        rekeyed t ∧ ∃ k',
        t.call? r = some k' ∧ k'.confRole = .none ∧ k'.farTag = head.tag ∧ k'.farSlot = some head.slot ∧
        k'.controllerTag = Tag.absent ∧ k'.state = k.state ∧ t.highway.queue = s.highway.queue ∧
        (k.listenLanes.Nodup → (∀ l ∈ k.listenLanes, ∃ t0, s.listen? l = some t0 ∧ t0.owner = r) →
          k'.listenLanes ≠ [] ∧ ∀ l ∈ k'.listenLanes, ∃ t1, t.listen? l = some t1 ∧ t1.talker = x.cell.source ∧
            t1.talkerTag = head.tag ∧ t1.slot = head.slot)) ∧
      let hears (l : ListenId) (y : MemberPlace) : Prop := ∃ t0, s.listen? l = some t0 ∧ t0.talker = y.station ∧
        t0.talkerTag = y.tag
      let tooFew (listed : MemberPlace → Prop) : Prop := ∃ (free closing : List ListenId) (missing : List MemberPlace),
        (∀ l, s.listen? l = none → l ∈ free) ∧
        (∀ l ∈ k.listenLanes, (∀ y, listed y → ¬ hears l y) → l ∈ closing) ∧
        (missing.map fun y => (y.station, y.tag)).Nodup ∧
        (∀ y ∈ missing, listed y ∧ ∀ l ∈ k.listenLanes, ¬ hears l y) ∧
        free.length + closing.length < missing.length
      (∀ m ∈ head :: others, own m → talks → k.listenLanes.Nodup → QueueRoom 2 s →
        (others.length = 2 ∨ others.length = 3 → tooFew (fun y => y ∈ head :: others ∧ ¬ own y) →
          Completes .confSet s (cleared x.cell.source k.farTag)) ∧
        (others.length = 1 → tooFew (fun y => y = { head with station := x.cell.source }) →
          Completes .confSet s (cleared x.cell.source head.tag))))

/-! ### Maintenance requests -/

/-- R179: a MAINT-REQ of a code that names no request draws REFUSE BAD-CODE, a control request from another station than
the maintenance station REFUSE NOT-ALLOWED; a request to all stations, or at a station that is not ACTIVE, and every
MAINT-REPLY and NOTICE, is discarded. A REFUSE goes to the source with the request's sender tag. A MAINT-REQ of any code that names a request, at
an ACTIVE station, to it alone, and from the maintenance station where the request is a control request, is handled: the
command that takes a request of any code does what that request's own command does. -/
def Obligations.RequestsAreJudgedByCodeAndPrivilege : Prop :=
  ∀ (s : State) (x : Stored), s.nextCell .maintC = some x →
    let refusal (code : RefuseCause) : Cell := answerTo s x (.refuse x.cell.body.kind x.cell.sender code)
    (∀ code arg, x.cell.body = .maintReq code arg →
      (s.station.state ≠ .active ∨ x.cell.dest = .all → Completes .maintReq s fun t => t = taken s .maintC x) ∧
      (x.cell.dest ≠ .all → QueueRoom 1 s → Request.ofCode code = none → Completes .maintReq s fun t =>
        t = queued (taken s .maintC x) (refusal .badCode)) ∧
      (x.cell.dest ≠ .all → QueueRoom 1 s → (Request.ofCode code).isSome = true → code.toNat < 64 →
        s.station.image.bind (·.maintenance) ≠ some x.cell.source → Completes .maintReq s fun t =>
          t = queued (taken s .maintC x) (refusal .notAllowed)) ∧
      (∀ q, s.station.state = .active → x.cell.dest ≠ .all → Request.ofCode code = some q →
        (64 ≤ code.toNat ∨ s.station.image.bind (·.maintenance) = some x.cell.source) →
        Completes .maintReq s fun t => exec q.command s = .next t)) ∧
    (∀ code st data, x.cell.body = .maintReply code st data → Completes .maintReply s fun t => t = taken s .maintC x) ∧
    (∀ k v m, x.cell.body = .notice k v m → Completes .notice s fun t => t = taken s .maintC x)

/-- R185, R179: an inquiry of any station changes nothing but the store and the queue, which takes one MAINT-REPLY. An
argument out of range gives BAD-ARG with no data, an object that is FREE, empty or not homed here ABSENT, and else OK
with the object's data; READ-LOGIN and READ-CALL give the incarnation byte with ABSENT; READ-COUNTS of 255 the twelve
fault counters, and of a lane its counters; READ-FAULT the fault record; READ-PLAN a home entry or a divert entry. The
layouts of the data are those of log 14. -/
def Obligations.InquiriesAnswerAndChangeNothing : Prop :=
  ∀ (s : State) (x : Stored) (q : Request) (arg : List Byte), s.nextCell .maintC = some x → q.isControl = false →
    x.cell.body = .maintReq q.code arg → x.cell.dest ≠ .all → QueueRoom 1 s →
    ∃ (st : ReplyStatus) (data : List Byte),
      (Completes q.command s fun t => t = queued (taken s .maintC x) (replyTo s x q st data)) ∧
      let a := (byteAt arg 0).toNat
      let b := (byteAt arg 1).toNat
      let bad : Prop := st = .badArg ∧ data = []
      (q = .readPort → if h : a < 24 then st = .ok ∧ data = portData (s.port ⟨a, h⟩) (s.login ⟨a, h⟩) else bad) ∧
      (q = .readLogin → if h : a < 24 then
        ((s.login ⟨a, h⟩).entry = none → st = .absent ∧ data = [(s.login ⟨a, h⟩).incarnation]) ∧
        (∀ y, (s.login ⟨a, h⟩).entry = some y → st = .ok ∧ data = loginData (s.login ⟨a, h⟩).incarnation y)
        else bad) ∧
      (q = .readHome → if 9999 < fieldAt arg 0 2 then bad
        else if s.homedHere (fieldAt arg 0 2) then match s.homeRecord (fieldAt arg 0 2) with
          | some h => st = .ok ∧ data = homeData h
          | none => st = .absent ∧ data = []
        else st = .absent ∧ data = []) ∧
      (q = .readCall → if h : a < 64 then
        (s.call? ⟨a, h⟩ = none → st = .absent ∧ data = [(s.record ⟨a, h⟩).incarnation]) ∧
        (∀ k, s.call? ⟨a, h⟩ = some k → st = .ok ∧ data = callData (s.record ⟨a, h⟩).incarnation k) else bad) ∧
      (q = .readLane → a = 0 → if h : b < 24 then
        (s.talk? ⟨b, h⟩ = none → st = .absent ∧ data = []) ∧
        (∀ t0, s.talk? ⟨b, h⟩ = some t0 → st = .ok ∧ data = talkData t0) else bad) ∧
      (q = .readLane → a = 1 → if h : b < 48 then
        (s.listen? ⟨b, h⟩ = none → st = .absent ∧ data = []) ∧
        (∀ t0, s.listen? ⟨b, h⟩ = some t0 → st = .ok ∧ data = listenData t0) else bad) ∧
      (q = .readLane → 2 ≤ a → bad) ∧
      (q = .readCounts → a = 255 → st = .ok ∧ data = s.highway.counters.toList.flatMap fun n => fieldOf 2 n) ∧
      (q = .readCounts → a ≠ 255 → if h : a < 48 then
        (s.listen? ⟨a, h⟩ = none → st = .absent ∧ data = []) ∧
        (∀ t0, s.listen? ⟨a, h⟩ = some t0 → st = .ok ∧ data = counterBytes t0.counters ++ [boolByte t0.frozen])
        else bad) ∧
      (q = .readFault → st = .ok ∧ data = faultData s.highway.fault) ∧
      (q = .readPlan → a = 0 → if h : b < 16 then
        (s.calls.plan.get ⟨b, h⟩ = .unknown → st = .absent ∧ data = []) ∧
        (∀ r, s.calls.plan.get ⟨b, h⟩ = .present r → st = .ok ∧ data = 1 :: fieldOf 2 r.low ++ fieldOf 2 r.length) ∧
        (∀ r, s.calls.plan.get ⟨b, h⟩ = .absent r → st = .ok ∧ data = 2 :: fieldOf 2 r.low ++ fieldOf 2 r.length)
        else bad) ∧
      (q = .readPlan → a = 1 → if h : b < 8 then
        let d := s.calls.diverts.get ⟨b, h⟩
        st = .ok ∧ data = fieldOf 2 d.low ++ fieldOf 2 d.high ++
          [byteOf d.target.val, boolByte d.outside, boolByte d.enable] else bad) ∧
      (q = .readPlan → 2 ≤ a → bad)

/-- R182, R140: the counter requests. 48 to 254 draws BAD-ARG, a FREE lane ABSENT. For one lane FREEZE-COUNTS and
THAW-COUNTS set and clear its frozen flag, CLEAR-COUNTS zeroes its four counters, and the reply is its counters and
flag after it, laid out as log 14 says; for 255 every lane in use is acted on, and the reply is how many, in one byte (log
14). No fault counter changes. -/
def Obligations.CounterRequestsActOnListenLanes : Prop :=
  ∀ (s : State) (im : Image) (x : Stored) (q : Request) (arg : List Byte) (f : ListenLane → ListenLane),
    (q = .freezeCounts ∧ f = fun t => { t with frozen := true }) ∨
      (q = .thawCounts ∧ f = fun t => { t with frozen := false }) ∨
      (q = .clearCounts ∧ f = fun t => { t with counters := {} }) →
    s.nextCell .maintC = some x → x.cell.body = .maintReq q.code arg → x.cell.dest ≠ .all → QueueRoom 1 s →
    s.station.image = some im → im.maintenance = some x.cell.source →
    let reply (st : ReplyStatus) (data : List Byte) : Cell := replyTo s x q st data
    let a := (byteAt arg 0).toNat
    (48 ≤ a → a ≤ 254 → Completes q.command s fun t => Queues s t [reply .badArg []] ∧ t.scr = s.scr) ∧
    (∀ l : ListenId, a = l.val → s.listen? l = none → Completes q.command s fun t =>
      Queues s t [reply .absent []] ∧ t.scr = s.scr) ∧
    (∀ (l : ListenId) (t0 : ListenLane), a = l.val → s.listen? l = some t0 → Completes q.command s fun t =>
      Queues s t [reply .ok (counterBytes (f t0).counters ++ [boolByte (f t0).frozen])] ∧
      t.listen? l = some (f t0) ∧ (∀ j, j ≠ l → t.listen? j = s.listen? j) ∧
      t.highway.counters = s.highway.counters) ∧
    (a = 255 → Completes q.command s fun t =>
      (∀ j, t.listen? j = (s.listen? j).map f) ∧ t.highway.counters = s.highway.counters ∧
      Queues s t [reply .ok [byteOf ((List.finRange 48).filter fun l => (s.listen? l).isSome).length]])

/-- R180, R146: the port requests. A port above 23 draws BAD-ARG. PORT-ENABLE takes a DISABLED port to DOWN with good
count 0; PORT-DISABLE takes any port to DISABLED, and of one not DISABLED yet
empties the latches, the LINE-LOSS latch among them, the FIFO and the outbound list. An UP port goes back to hook ON, tone
NONE and ring OFF and its user is logged out, which clears every call record of the port with ADMISSION (R3, R67). A port
enabled or disabled already is left as it is. The reply is OK with the port's state and enable after the change, as log 14
numbers them, stated but for PORT-DISABLE of an UP port. That PORT-ENABLE keeps the bad count is the model's
choice of log 29. -/
def Obligations.PortRequestsEnableAndDisable : Prop :=
  ∀ (s : State) (im : Image) (x : Stored) (q : Request) (arg : List Byte),
    s.nextCell .maintC = some x → x.cell.body = .maintReq q.code arg → x.cell.dest ≠ .all → QueueRoom 1 s →
    s.station.image = some im → im.maintenance = some x.cell.source →
    let reply (st : ReplyStatus) (data : List Byte) : Cell := replyTo s x q st data
    let a := (byteAt arg 0).toNat
    (q = .portEnable ∨ q = .portDisable → 24 ≤ a → Completes q.command s fun t =>
      Queues s t [reply .badArg []] ∧ t.ports = s.ports) ∧
    (∀ p : Port, a = p.val → q = .portEnable → (s.port p).state = .disabled → Completes q.command s fun t =>
      t.port p = { s.port p with enable := true, state := .down, good := 0, lineLoss := false } ∧
      Queues s t [reply .ok [1, 1]] ∧ ∀ p', p' ≠ p → t.port p' = s.port p') ∧
    (∀ p : Port, a = p.val → q = .portEnable → (s.port p).state ≠ .disabled → Completes q.command s fun t =>
      t.port p = { s.port p with enable := true } ∧
      Queues s t [reply .ok [match (s.port p).state with
        | .disabled => 0
        | .down => 1
        | .training => 2
        | .up => 3, 1]] ∧
      ∀ p', p' ≠ p → t.port p' = s.port p') ∧
    (∀ p : Port, a = p.val → q = .portDisable → Completes q.command s fun t =>
      (t.port p).state = .disabled ∧ (t.port p).enable = false ∧
      ((s.port p).state ≠ .disabled → (t.port p).lineLoss = false ∧ (t.port p).admission = none ∧
        (t.port p).hook = none ∧ (t.port p).keys = [] ∧ (t.port p).digits = [] ∧ (t.port p).outbound = []) ∧
      ((s.port p).state = .up → (t.login p).entry = none ∧ (t.port p).reportedHook = .on ∧ (t.port p).tone = .none ∧
        (t.port p).ring = false ∧ (t.callPort p).hookView = .on ∧
        ∀ e r x n, s.loginBody p = some (.admitted e r x n) → PortCleared s t p .admission) ∧
      ((s.port p).state = .disabled → t.port p = { s.port p with enable := false }) ∧
      ((s.port p).state ≠ .up → Queues s t [reply .ok [0, 0]] ∧ t.adm = s.adm ∧ t.calls = s.calls ∧
        ∀ p', p' ≠ p → t.port p' = s.port p'))

/-- R181, R17, R18: the home requests on a number homed here. SET-RIGHTS sets the class with a new epoch, and an
ADMITTED login of the number here takes class and epoch. BAR of a located record sets the flag and clears the location
with a new epoch; of an unlocated one it sets the flag alone. UNBAR clears the flag with a new epoch; FORCE-LOGOUT clears
a location with a new epoch. With room in the queue SET-RIGHTS, BAR of a located record and FORCE-LOGOUT first offer
ADMIT-CHANGE RIGHTS, BARRED or FORCED, with the location (the one cleared), class and new epoch; where no login here is
dropped, the reply, OK with the record, is the next cell and the last. UNBAR and BAR of an unlocated record send the reply
alone. BAR and FORCE-LOGOUT of a record located at an ADMITTED login here drop that login and clear the calls of its port
with ADMISSION (R3, R67). BAR of a barred, UNBAR of an unbarred and FORCE-LOGOUT of an unlocated record change nothing. A
number above 9999 and a class above 3 draw BAD-ARG, a number not homed here ABSENT. -/
def Obligations.HomeRequestsChangeTheRecord : Prop :=
  ∀ (s : State) (im : Image) (x : Stored) (q : Request) (arg : List Byte),
    s.nextCell .maintC = some x → x.cell.body = .maintReq q.code arg → x.cell.dest ≠ .all →
    s.station.state = .active → s.station.image = some im → im.maintenance = some x.cell.source →
    q = .setRights ∨ q = .bar ∨ q = .unbar ∨ q = .forceLogout →
    let e := fieldAt arg 0 2
    let inRange : Prop := q = .setRights → (byteAt arg 2).toNat < 4
    let announces (t : State) (why : ChangeReason) (loc : Option (Station × Port)) (h' : HomeRecord) : Prop :=
      let change : Cell := broadcast s (.admitChange e why loc h'.rights h'.epoch)
      s.highway.queue ++ [{ cell := change, name := .plain }] <+: t.highway.queue ∧
      ((∀ p r x n, s.loginBody p ≠ some (.admitted e r x n)) → Queues s t [change, replyTo s x q .ok (homeData h')])
    let reply (st : ReplyStatus) (data : List Byte) : Cell := replyTo s x q st data
    (9999 < e ∨ ¬ inRange → QueueRoom 1 s → Completes q.command s fun t => Queues s t [reply .badArg []] ∧
      t.adm = s.adm) ∧
    (e ≤ 9999 → inRange → s.homedHere e = false → QueueRoom 1 s → Completes q.command s fun t =>
      Queues s t [reply .absent []] ∧ t.adm = s.adm) ∧
    (∀ h, e ≤ 9999 → s.homedHere e = true → s.homeRecord e = some h →
      (∀ c : Rights, q = .setRights → (byteAt arg 2).toNat = c.val →
        let h' : HomeRecord := { h with rights := c, epoch := h.epoch + 1 }
        (Completes q.command s fun t => t.homeRecord e = some h' ∧ t.calls = s.calls) ∧
        (QueueRoom 2 s → Completes q.command s fun t =>
          Queues s t [broadcast s (.admitChange e .rights h.location c h'.epoch), reply .ok (homeData h')]) ∧
        (∀ (p : Port) (r : Rights) (y : Epoch) (n : Renewal) (tm : Option Nat), h.location = some (s.self, p) →
          (s.login p).entry = some { body := .admitted e r y n, timer := tm } → Completes q.command s fun t =>
            (t.login p).entry = some { body := .admitted e c h'.epoch n, timer := tm } ∧
            ∀ p', p' ≠ p → t.login p' = s.login p') ∧
        ((∀ p, h.location ≠ some (s.self, p)) → Completes q.command s fun t => t.adm.logins = s.adm.logins)) ∧
      (∀ loc, q = .bar → h.barred = false → h.location = some loc →
        let h' : HomeRecord := { h with barred := true, location := none, epoch := h.epoch + 1 }
        (Completes q.command s fun t => t.homeRecord e = some h') ∧
        (QueueRoom 2 s → Completes q.command s fun t => announces t .barred (some loc) h')) ∧
      (q = .bar → h.barred = false → h.location = none →
        let h' : HomeRecord := { h with barred := true }
        (Completes q.command s fun t => t.homeRecord e = some h' ∧ t.adm.logins = s.adm.logins) ∧
        (QueueRoom 1 s → Completes q.command s fun t => Queues s t [reply .ok (homeData h')])) ∧
      (q = .bar → h.barred = true → Completes q.command s fun t => t.adm = s.adm) ∧
      (q = .unbar → h.barred = true → QueueRoom 1 s → Completes q.command s fun t =>
        t.homeRecord e = some { h with barred := false, epoch := h.epoch + 1 } ∧
        Queues s t [reply .ok (homeData { h with barred := false, epoch := h.epoch + 1 })]) ∧
      (q = .unbar → h.barred = false → Completes q.command s fun t => t.adm = s.adm) ∧
      (∀ loc, q = .forceLogout → h.location = some loc →
        let h' : HomeRecord := { h with location := none, epoch := h.epoch + 1 }
        (Completes q.command s fun t => t.homeRecord e = some h') ∧
        (QueueRoom 2 s → Completes q.command s fun t => announces t .forced (some loc) h')) ∧
      (∀ (p : Port) (r : Rights) (ep : Epoch) (n : Renewal), (q = .bar ∧ h.barred = false) ∨ q = .forceLogout →
        h.location = some (s.self, p) → s.loginBody p = some (.admitted e r ep n) → Completes q.command s fun t =>
          (t.login p).entry = none ∧ PortCleared s t p .admission ∧ FrontHearsReorder s t p ∧
          (q = .bar → (s.port p).state = .up → Tells t p (.loginResult .barred))) ∧
      (q = .forceLogout → h.location = none → Completes q.command s fun t => t.adm = s.adm))

/-- R183, R184: READ-FAULT-CLEAR answers with the record as it stood and clears it and the pending mark, the counters
standing. RESTART answers OK and, only when the reply is accepted, marks a restart due. -/
def Obligations.FaultClearAndRestart : Prop :=
  ∀ (s : State) (im : Image) (x : Stored) (arg : List Byte), s.nextCell .maintC = some x → x.cell.dest ≠ .all →
    s.station.state = .active → s.station.image = some im → im.maintenance = some x.cell.source →
    (x.cell.body = .maintReq 0x0A arg → s.highway.queue.length < 20 → Completes .readFaultClear s fun t =>
      t.highway.fault = {} ∧ t.maint = { s.maint with pending := false } ∧
      t.highway.counters = s.highway.counters ∧
      Queues s t [replyTo s x .readFaultClear .ok (faultData s.highway.fault)]) ∧
    (x.cell.body = .maintReq 0x0A arg → 20 ≤ s.highway.queue.length → Completes .readFaultClear s fun t =>
      t.highway.queue = s.highway.queue ∧ (t.highway.fault.content.map (·.kind)) = some .queueFull) ∧
    (x.cell.body = .maintReq 0x0B arg → s.highway.queue.length < 20 → Completes .restart s fun t =>
      t.maint = { s.maint with restartDue := true } ∧ t.station = s.station ∧
      Queues s t [replyTo s x .restart .ok []]) ∧
    (x.cell.body = .maintReq 0x0B arg → 20 ≤ s.highway.queue.length → Completes .restart s fun t =>
      t.maint.restartDue = s.maint.restartDue ∧ t.station = s.station ∧ t.highway.queue = s.highway.queue)

/-! ### Line ports -/

/-- R147, R148: messages of a set at a port in UP. A hook message that states the reported hook empties the hook
latch, and one that differs from it fills the latch. An admission message fills its latch or replaces what it holds,
which is counted; a LOGIN-REQ above 9999 is discarded where it arrives (R188, log 12: the model's choice of place), and one
at a locked-out port also draws LOGIN-RESULT LOCKED. A feature key joins the key latches unless it is there. At a port that is not UP every message is discarded,
a digit too. R149: a digit joins a FIFO of fewer than 16; a full FIFO discards it, and DIGIT-OVERRUN is recorded with no header and this
station's own window. -/
def Obligations.SetMessagesAndDigitsAreLatched : Prop :=
  (∀ (s : State) (p : Port) (off : Bool) (m : AdmissionMessage) (k : FeatureKey),
    let u := s.port p
    let h : Hook := if off then .off else .on
    (u.state ≠ .up →
      Completes (.hookMessageArrival p off) s (fun t => t = s) ∧
      Completes (.admissionMessageArrival p m) s (fun t => t = s) ∧
      Completes (.featureKeyArrival p k) s (fun t => t = s)) ∧
    (u.state = .up →
      Completes (.hookMessageArrival p off) s (fun t =>
        (u.reportedHook = h → t.port p = { u with hook := none }) ∧
        (u.reportedHook ≠ h → t.port p = { u with hook := some h }) ∧
        ∀ q, q ≠ p → t.port q = s.port q) ∧
      Completes (.admissionMessageArrival p m) s (fun t =>
        let discarded : Prop := ∃ e, m = .loginReq e ∧ 9999 < e
        (discarded → t = s) ∧
        (¬ discarded → (t.port p).admission = some m ∧
          (t.port p).replacedCount =
            (if u.admission.isSome then min (u.replacedCount + 1) 255 else u.replacedCount) ∧
          (((s.login p).lockedOut = false ∨ ¬ ∃ e, m = .loginReq e) → (t.port p).outbound = u.outbound) ∧
          ((s.login p).lockedOut = true → (∃ e, m = .loginReq e) → Tells t p (.loginResult .locked)))) ∧
      Completes (.featureKeyArrival p k) s (fun t =>
        (k ∈ u.keys → t.port p = u) ∧ (k ∉ u.keys → t.port p = { u with keys := u.keys ++ [k] }) ∧
        ∀ q, q ≠ p → t.port q = s.port q))) ∧
  (∀ (s : State) (p : Port) (d : Digit), (s.port p).state ≠ .up → Completes (.digitArrival p d) s fun t => t = s) ∧
  (∀ (s : State) (p : Port) (d : Digit), (s.port p).state = .up →
    ((s.port p).digits.length < 16 → Completes (.digitArrival p d) s fun t =>
      t.port p = { s.port p with digits := (s.port p).digits ++ [d] } ∧ (∀ q, q ≠ p → t.port q = s.port q) ∧
      t.highway = s.highway) ∧
    ((s.port p).digits.length = 16 → Completes (.digitArrival p d) s fun t =>
      t = s.recordFault .digitOverrun s.self none))

/-- R144, R155: set frames at a port, with the station LISTENING, ACTIVE or ISOLATED. A good frame counts, which is
all it does in TRAINING; at UP it gives the talk sample; at DOWN with the LINE-LOSS latch clear it starts TRAINING with good count 0, with the latch set
it does not. A bad check, and a frame not received, give the silence code, count nothing and end an open message.
That the later of two frames of one shelf frame stands is the model's choice of log 69. A DISABLED port hears nothing. R188, with the codes of spec 12: octets at a port in UP. 40h opens a LOGIN-REQ; its
second payload octet closes it, and the message arrives, most significant octet first, or is discarded above 9999; 31h
with no message open is ON-HOOK; a payload octet is read whatever its value. -/
def Obligations.SetFramesAreHeardAndRead : Prop :=
  (∀ (s : State) (p : Port) (sample octet check : Byte), s.hearing = true →
    let u := s.port p
    (u.state = .disabled → Completes (.setFrameReceived p sample octet check) s fun t => t = s) ∧
    (u.state ≠ .disabled → check8 [sample, octet] ≠ check → Completes (.setFrameReceived p sample octet check) s fun t =>
      t.port p = { u with talkSample := 0, openMessage := none, heard := true }) ∧
    (Completes (.setFrameNotReceived p) s fun t =>
      t.port p = { u with talkSample := 0, openMessage := none, heard := true }) ∧
    (check8 [sample, octet] = check →
      (u.state = .down → u.lineLoss = false → Completes (.setFrameReceived p sample octet check) s fun t =>
        t.port p = { u with state := .training, good := 0, setFrames := u.setFrames + 1, heard := true }) ∧
      (u.state = .down → u.lineLoss = true → Completes (.setFrameReceived p sample octet check) s fun t =>
        t.port p = { u with setFrames := u.setFrames + 1, heard := true }) ∧
      (u.state = .training → Completes (.setFrameReceived p sample octet check) s fun t =>
        t.port p = { u with setFrames := u.setFrames + 1, heard := true } ∧ (∀ q, q ≠ p → t.port q = s.port q) ∧
        t = { s with ports := t.ports }) ∧
      (u.state = .up → Completes (.setFrameReceived p sample octet check) s fun t =>
        (t.port p).talkSample = sample ∧ (t.port p).setFrames = u.setFrames + 1 ∧ (t.port p).state = .up ∧
        ∀ q, q ≠ p → t.port q = s.port q))) ∧
  (∀ (s : State) (p : Port) (sample hi lo : Byte), s.hearing = true → (s.port p).state = .up →
    let u := s.port p
    (u.openMessage = none → Completes (.setFrameReceived p sample 0x40 (check8 [sample, 0x40])) s fun t =>
      (t.port p).openMessage = some { code := 0x40, octets := [] } ∧ (t.port p).admission = u.admission) ∧
    (u.openMessage = some { code := 0x40, octets := [] } →
      Completes (.setFrameReceived p sample hi (check8 [sample, hi])) s fun t =>
        (t.port p).openMessage = some { code := 0x40, octets := [hi] } ∧ (t.port p).admission = u.admission) ∧
    (u.openMessage = some { code := 0x40, octets := [hi] } →
      Completes (.setFrameReceived p sample lo (check8 [sample, lo])) s fun t =>
        (t.port p).openMessage = none ∧
        (t.port p).admission = (if hi.toNat * 256 + lo.toNat ≤ 9999
          then some (.loginReq (hi.toNat * 256 + lo.toNat)) else u.admission)) ∧
    (u.openMessage = none → u.reportedHook = .off →
      Completes (.setFrameReceived p sample 0x31 (check8 [sample, 0x31])) s fun t =>
        (t.port p).hook = some .on ∧ (t.port p).digits = u.digits))

/-- R153, spec 12: the set frame a port sends. In UP it carries the listen sample, tone and ring, and the oldest message of
the outbound list, which leaves the list; in DOWN and TRAINING silence, tone NONE, ring OFF and no message; in
DISABLED nothing is sent. It is 13 bytes closed by their check. -/
def Obligations.SetFrameIsSent : Prop :=
  ∀ (s : State) (p : Port),
    let u := s.port p
    (u.state = .up → Completes (.setFrameSent p) s fun t => ∃ bytes, t.port p = { u with
        frameOut := some bytes, outbound := u.outbound.drop 1 } ∧
      bytes.length = 13 ∧ checkGood 11 bytes = true ∧ byteAt bytes 0 = u.listenSample ∧
      (byteAt bytes 1).toNat = u.tone.code.toNat + (if u.ring then 8 else 0) ∧
      (u.outbound = [] → ∀ i, 2 ≤ i → i < 11 → byteAt bytes i = 0) ∧
      (∀ n rest, u.outbound = .challenge n :: rest → byteAt bytes 2 = 0x50 ∧ nonceAt bytes 3 = n) ∧
      (∀ r rest, u.outbound = .loginResult r :: rest → byteAt bytes 2 = 0x51 ∧ byteAt bytes 3 = r.code)) ∧
    (u.state = .down ∨ u.state = .training → Completes (.setFrameSent p) s fun t =>
      t.port p = { u with frameOut := some (withCheck (List.replicate 11 0)) }) ∧
    (u.state = .disabled → Completes (.setFrameSent p) s fun t => t.port p = { u with frameOut := none })

/-- R144, R145: a superframe boundary at a port. 63 to 65 set frames make a good superframe. In TRAINING the good count
goes up, and the fourth takes the port to UP with everything empty; a bad superframe with a frame takes it to 0, one
without to DOWN. In UP a bad superframe goes up the bad count, and the eighth takes the port to DOWN: LINE-LOSS is
latched, latches and FIFO are empty, the user is logged out, which clears every call record of the port with
ADMISSION (R3, R67), and the hook view is ON. That a return from TRAINING to DOWN keeps the good count is the model's
choice of log 29. -/
def Obligations.TrainingIsJudgedAtTheBoundary : Prop :=
  ∀ (s : State) (p : Port), AtBoundary s → s.hearing = true →
    let u := s.port p
    let good : Prop := 63 ≤ u.setFrames ∧ u.setFrames ≤ 65
    (u.state = .training → good → u.good < 3 → Completes (.portTrainingJudgment p) s fun t =>
      t.port p = { u with setFrames := 0, good := u.good + 1 }) ∧
    (u.state = .training → ¬ good → 0 < u.setFrames → Completes (.portTrainingJudgment p) s fun t =>
      t.port p = { u with setFrames := 0, good := 0 }) ∧
    (u.state = .training → u.setFrames = 0 → Completes (.portTrainingJudgment p) s fun t =>
      t.port p = { u with state := .down }) ∧
    (u.state = .up → good → Completes (.portTrainingJudgment p) s fun t =>
      t.port p = { u with setFrames := 0, bad := 0 }) ∧
    (u.state = .up → ¬ good → u.bad < 7 → Completes (.portTrainingJudgment p) s fun t =>
      t.port p = { u with setFrames := 0, bad := u.bad + 1 }) ∧
    (u.state = .training → good → u.good = 3 → Completes (.goodCountLimit p) s fun t =>
      (t.port p).state = .up ∧ (t.port p).bad = 0 ∧ (t.port p).reportedHook = .on ∧ (t.port p).tone = .none ∧
      (t.port p).ring = false ∧ (t.port p).latched = [] ∧ (t.port p).outbound = [] ∧ (t.port p).setFrames = 0) ∧
    (u.state = .up → ¬ good → u.bad = 7 → Completes (.badCountLimit p) s fun t =>
      (t.port p).state = .down ∧ (t.port p).latched = [.lineLoss] ∧ (t.port p).good = 0 ∧
      (t.port p).outbound = [] ∧ (t.port p).reportedHook = .on ∧ (t.port p).tone = .none ∧
      (t.port p).ring = false ∧ t.login p = { s.login p with entry := none } ∧ (t.callPort p).hookView = .on ∧
      ∀ e r x n, s.loginBody p = some (.admitted e r x n) → PortCleared s t p .admission)

/-- R150, R151: a port offers, once in a frame end, the first of its latched events, in order of priority, whose priority
exceeds its acceptance level; a LINE-LOSS taken is counted, clears its latch and stops the burst timer. The level is
7 while the station is not ACTIVE, 6 at a locked-out port, 5 during a login, 2 with a front record in ROUTING or OFFERING, or in ALERTING while its talk
lane claims, and 1 in every other situation. -/
def Obligations.PortOffersHighestEventAboveItsLevel : Prop :=
  ∀ (s : State) (p : Port),
    (∀ e, s.dueEvent p = some e → e ∈ (s.port p).latched ∧ s.level p < e.priority ∧ (s.port p).offered = false ∧
      ∀ e' ∈ (s.port p).latched, e'.priority ≤ e.priority ∨ s.level p ≥ e'.priority) ∧
    (s.dueEvent p = none → (s.port p).offered = true ∨ ∀ e ∈ (s.port p).latched, e.priority ≤ s.level p) ∧
    (s.station.state ≠ .active → s.level p = 7) ∧
    (s.station.state = .active → (s.login p).lockedOut = true → s.level p = 6) ∧
    (s.station.state = .active → (s.login p).lockedOut = false → (∃ b, s.loginBody p = some b ∧ b.isAdmitted = false) →
      s.level p = 5) ∧
    (s.station.state = .active → (s.login p).lockedOut = false → (∀ b, s.loginBody p = some b → b.isAdmitted = true) →
      let holds : Prop := ∃ r k, FrontIs s p r k ∧ (k.state = .routing ∨ k.state = .offering ∨
        (k.state = .alerting ∧ ∃ l t0, k.talkLane = some l ∧ s.talk? l = some t0 ∧ t0.state = .claiming))
      (holds → s.level p = 2) ∧ (¬ holds → s.level p = 1)) ∧
    (s.dueEvent p = some .lineLoss → Completes (.lineLoss p) s fun t =>
      t.port p = { s.port p with
        lineLoss := false, lineLossCount := min ((s.port p).lineLossCount + 1) 255, offered := true } ∧
      (t.callPort p).burst = none ∧ t.adm = s.adm)

/-! ### Talk lanes and the key mixer -/

/-- R117: a superframe boundary at an ACTIVE or MOVING talk lane with an active key. The position adds 1 and wraps
from 65535 to 0; the key age adds 1 and stays at 65535. A lane in CLAIMING or without an active key counts neither.
R120, R113: the swap of a staged key whose countdown has reached 0, and the install of a first key whose boundary has
come `b` boundaries ago. The staged key becomes the active key with its count and partner nonce; position and age are
0, for a late first key the position is `b`. With rekey-wanted set at the swap and room at the mixer a fresh rekey is
asked for under the count after it, with the wanted nonce or, without one, the partner nonce of the key just installed.
The model's choice of log 2: without a countdown, the swap and install commands change nothing. -/
def Obligations.TalkLanesPassTheBoundary : Prop :=
  (∀ (s : State) (l : TalkId) (t0 : TalkLane), AtBoundary s → s.talk? l = some t0 →
    Completes (.talkLaneBoundary l) s fun t => ∃ t1, t.talk? l = some t1 ∧
      (t0.state ≠ .claiming → t0.activeKey ≠ none →
        t1.position.toNat = (if t0.position.toNat = 65535 then 0 else t0.position.toNat + 1) ∧
        t1.age = (if t0.age < 65535 then t0.age + 1 else 65535)) ∧
      (t0.state = .claiming ∨ t0.activeKey = none → t1.position = t0.position ∧ t1.age = t0.age) ∧
      t1.activeKey = t0.activeKey ∧ t1.keyCount = t0.keyCount ∧ t1.slot = t0.slot ∧
      (∀ j, j ≠ l → t.talk? j = s.talk? j) ∧ t.highway = s.highway ∧ t.calls = s.calls) ∧
  (∀ (s : State) (l : TalkId) (t0 : TalkLane) (g : TalkStaged), s.talk? l = some t0 → t0.staged = some g →
    (AtBoundary s → g.isFirst = false → g.countdown = some 0 → t0.wanted = .clear →
      Completes (.talkKeySwap l) s fun t => t.talk? l = some { t0 with
        activeKey := some g.key, keyCount := g.count, partner := some g.partner, staged := none
        position := 0, age := 0 } ∧ t.scr.mixer = s.scr.mixer) ∧
    (∀ n, AtBoundary s → g.isFirst = false → g.countdown = some 0 → t0.wanted = .set (some n) → g.count < 65534 →
      s.scr.mixer.length < 16 → Completes (.talkKeySwap l) s fun t => t.talk? l = some { t0 with
        activeKey := some g.key, keyCount := g.count, partner := some g.partner, staged := none
        position := 0, age := 0, request := .next (g.count + 1) n, wanted := .clear } ∧
      t.scr.mixer = s.scr.mixer ++ [{ requester := .talk l (s.talkOpening l), key := s.secret, nonceA := t0.ownNonce,
                                      nonceB := n, count := g.count + 1 }]) ∧
    (AtBoundary s → g.isFirst = false → g.countdown = some 0 → t0.wanted = .set none → g.count < 65534 →
      s.scr.mixer.length < 16 → Completes (.talkKeySwap l) s fun t => t.talk? l = some { t0 with
        activeKey := some g.key, keyCount := g.count, partner := some g.partner, staged := none
        position := 0, age := 0, request := .next (g.count + 1) g.partner, wanted := .clear } ∧
      t.scr.mixer = s.scr.mixer ++ [{ requester := .talk l (s.talkOpening l), key := s.secret, nonceA := t0.ownNonce,
                                      nonceB := g.partner, count := g.count + 1 }]) ∧
    (∀ b : Nat, b < 65536 → g.isFirst = true → g.countdown = some (-(b : Int)) →
      Completes (.firstKeyInstall l) s fun t => t.talk? l = some { t0 with
        activeKey := some g.key, keyCount := g.count, partner := some g.partner, staged := none
        position := BitVec.ofNat 16 b, age := 0 }) ∧
    (g.countdown = none → Completes (.talkKeySwap l) s (fun t => t = s) ∧
      Completes (.firstKeyInstall l) s (fun t => t = s)))

/-- R112, R118: requests of a talk lane at a superframe boundary. At or above the key age limit an ACTIVE or MOVING
lane with an active key and no rekey in progress asks for the key of the next count with its own and its present
partner nonce; with rekey-wanted set, with the wanted nonce or, without one, the present partner nonce; a lane with a
partner nonce and no key asks for its first key, count 0. A refusal by a full mixer leaves the request NONE and is counted,
and for a rekey sets rekey-wanted: a retry keeps what was wanted; that the age trigger then wants no nonce, whatever was
wanted before, is the model's choice of log 46. R127: at a
superframe boundary a SETUP lane that has never had its first request accepted asks the mixer again for the key of its
two nonces and count 0; a full mixer leaves it as it was. R119: at a superframe boundary an ACTIVE lane offers the
KEY-NEXT of a staged key that no accepted KEY-NEXT announces, to all stations under its owner's call tag, with slot,
nonces, count and lead 2; refused by the queue, it is kept. A lane in MOVING offers nothing. A KEY-NEXT refused at its key's completion is not offered
at a boundary of the same frame end: the mark of log 2 that says so, the model's choice, is cleared as a frame begins. -/
def Obligations.LanesAskForKeysAndAnnounceThem : Prop :=
  (∀ (s : State) (l : TalkId) (t0 : TalkLane) (p : Nonce), AtBoundary s → s.talk? l = some t0 → t0.partner = some p →
    let asks (a b : Nonce) (n : Nat) : MixRequest :=
      { requester := .talk l (s.talkOpening l), key := s.secret, nonceA := a, nonceB := b, count := n }
    let next : Nat := if t0.keyCount = 65534 then 0 else t0.keyCount + 1
    (t0.state ≠ .claiming → t0.activeKey ≠ none → t0.request = .none → t0.staged = none → t0.keyCount ≤ 65534 →
      (∀ im, s.station.image = some im → im.keyAgeLimit ≤ t0.age →
        (s.scr.mixer.length < 16 → Completes (.keyAgeLimit l) s fun t =>
          t.scr.mixer = s.scr.mixer ++ [asks t0.ownNonce p next] ∧
          t.talk? l = some { t0 with request := .next next p, wanted := .clear }) ∧
        (s.scr.mixer.length = 16 → Completes (.keyAgeLimit l) s fun t =>
          t.scr.mixer = s.scr.mixer ∧ t.talk? l = some { t0 with wanted := .set none } ∧
          t.highway.counters = (s.recordFault .mixerFull s.self none).highway.counters)) ∧
      (∀ n, t0.wanted = .set (some n) → s.scr.mixer.length < 16 → Completes (.rekeyWantedRetry l) s fun t =>
        t.scr.mixer = s.scr.mixer ++ [asks t0.ownNonce n next] ∧
        t.talk? l = some { t0 with request := .next next n, wanted := .clear }) ∧
      (t0.wanted = .set none → s.scr.mixer.length < 16 → Completes (.rekeyWantedRetry l) s fun t =>
        t.scr.mixer = s.scr.mixer ++ [asks t0.ownNonce p next] ∧
        t.talk? l = some { t0 with request := .next next p, wanted := .clear }) ∧
      (∀ w, t0.wanted = .set w → s.scr.mixer.length = 16 → Completes (.rekeyWantedRetry l) s fun t =>
        t.scr.mixer = s.scr.mixer ∧ t.talk? l = some t0 ∧
        t.highway.counters = (s.recordFault .mixerFull s.self none).highway.counters)) ∧
    (t0.request = .none → t0.staged = none → t0.activeKey = none →
      (s.scr.mixer.length < 16 → Completes (.talkFirstKeyRetry l) s fun t =>
        t.scr.mixer = s.scr.mixer ++ [asks t0.ownNonce p 0] ∧ t.talk? l = some { t0 with request := .first }) ∧
      (s.scr.mixer.length = 16 → Completes (.talkFirstKeyRetry l) s fun t =>
        t.scr.mixer = s.scr.mixer ∧ t.talk? l = some t0))) ∧
  (∀ (s : State) (l : ListenId) (t0 : ListenLane) (a b : Nonce), AtBoundary s → s.listen? l = some t0 →
    t0.purpose = .setup → t0.firstAsked = false → t0.request = none → t0.staged = none → t0.active = none →
    t0.talkerNonce = some a → t0.partnerNonce = some b →
    (s.scr.mixer.length < 16 → Completes (.listenFirstKeyRetry l) s fun t =>
      t.scr.mixer = s.scr.mixer ++ [{ requester := .listen l (s.listenOpening l), key := s.secret, nonceA := a,
                                      nonceB := b, count := 0 }] ∧
      t.listen? l = some { t0 with
        request := some { isFirst := true, talker := a, partner := b, count := 0, countdown := t0.provingClock }
        firstAsked := true }) ∧
    (s.scr.mixer.length = 16 → Completes (.listenFirstKeyRetry l) s fun t =>
      t.scr.mixer = s.scr.mixer ∧ t.listen? l = some t0)) ∧
  (∀ (s : State) (l : TalkId) (t0 : TalkLane) (g : TalkStaged) (x : Slot), AtBoundary s → s.talk? l = some t0 →
    t0.staged = some g → g.isFirst = false → g.queued = false →
    (g.fresh = false → t0.state = .active → t0.slot = some x → s.station.state = .active →
      s.highway.queue.length < 24 → Completes (.keyNextReoffer l) s fun t =>
        t.highway.queue = s.highway.queue ++ [{
          cell := { broadcast s (.keyNext x t0.ownNonce g.partner g.count 2) with sender := t0.ownerTag }
          name := .keyNext l (s.talkOpening l) }] ∧
        t.talk? l = some { t0 with staged := some { g with queued := true } }) ∧
    (t0.state = .active → t0.slot = some x → s.station.state = .active → s.highway.queue.length = 24 →
      Completes (.keyNextReoffer l) s fun t => t.highway.queue = s.highway.queue ∧ t.talk? l = some t0) ∧
    (t0.state = .moving → Completes (.keyNextReoffer l) s fun t => t = s) ∧
    (g.fresh = true → Completes (.keyNextReoffer l) s fun t => t = s)) ∧
  (∀ (s : State) (l : TalkId) (t0 : TalkLane) (g : TalkStaged), s.pending = [] → s.clock.stage = .frameStart →
    s.talk? l = some t0 → t0.staged = some g →
    ∃ t, step s = .next t ∧ t.talk? l = some { t0 with staged := some { g with fresh := false } })

/-- R106, R107, R9, R10, R112, R113, R119, R127, R131, R132: the mixer completes its oldest request that did not join at this frame end, once in a frame
end; that a second completion in a frame end, or one of a fresh request, changes nothing, rests on the marks of log 2, the
model's choice. A result for a lane that is closed or was opened again is discarded, and so is one whose inputs a listen lane has
not asked for. A FIRST result of a talk lane is its staged key, with the first key's boundary where that is known, and is
the active key at once, at the position counted from a boundary that has come. A NEXT result is staged with its count and
partner nonce; an ACTIVE lane offers its KEY-NEXT, and a full queue leaves the key staged. A listen lane stages the key it
has asked for, with the boundary kept with the request, or takes it at once at the position of its overdue count: the old
active key is the previous one, a SETUP lane goes from WAITKEY to PROVING (whichever key it is: the model's choice, log 19),
a search starts again, a lane in LOST awaits a figure. The set key of a login brings the second request. An expected value
whose first 64 bits (the most significant: log 9) differ from the response fails the challenge, the third time with the
lockout. One that is the response confirms the entry, drops the other entries of its number, and asks a PRESENT home at a
peer or moves the record here; with no other entry to drop no call changes, and the tone that the set receives stops the
port's burst timer (R72; the tone NONE at a home here is that of log 22). -/
def Obligations.MixerCompletesItsOldestRequest : Prop :=
  ∀ (s : State) (q : MixRequest) (rest : List MixRequest), s.scr.mixer = q :: rest →
    let result := Config.mixer q.key q.nonceA q.nonceB (BitVec.ofNat 16 q.count)
    (s.scr.mixerDone = true ∨ q.fresh = true → Completes .mixerCompletion s fun t => t = s) ∧
    (s.scr.mixerDone = false → q.fresh = false →
      (∀ (l : TalkId) (o : Byte), q.requester = .talk l o → s.talkOpening l ≠ o ∨ s.talk? l = none →
        Completes .mixerCompletion s fun t => t = { s with scr := { s.scr with mixer := rest, mixerDone := true } }) ∧
      (∀ (l : ListenId) (o : Byte), q.requester = .listen l o → s.listenOpening l ≠ o ∨ s.listen? l = none →
        Completes .mixerCompletion s fun t => t = { s with scr := { s.scr with mixer := rest, mixerDone := true } }) ∧
      (∀ (l : TalkId) (t0 : TalkLane) (c : Nat) (p : Nonce), q.requester = .talk l (s.talkOpening l) →
        s.talk? l = some t0 → t0.state = .moving → t0.request = .next c p → Completes .mixerCompletion s fun t =>
          t.scr.mixer = rest ∧ t.highway = s.highway ∧
          t.talk? l = some { t0 with
            request := .none
            staged := some { key := result, count := c, partner := p, isFirst := false } }) ∧
      (∀ (l : TalkId) (t0 : TalkLane) (c : Nat) (p : Nonce) (y : Slot), q.requester = .talk l (s.talkOpening l) →
        s.talk? l = some t0 → t0.state = .active → t0.slot = some y → t0.request = .next c p →
        s.station.state = .active →
        (s.highway.queue.length < 24 → Completes .mixerCompletion s fun t => t.scr.mixer = rest ∧
          t.highway.queue = s.highway.queue ++ [{
            cell := { broadcast s (.keyNext y t0.ownNonce p c 2) with sender := t0.ownerTag }
            name := .keyNext l (s.talkOpening l) }] ∧
          t.talk? l = some { t0 with
            request := .none
            staged := some { key := result, count := c, partner := p, isFirst := false, queued := true } }) ∧
        (s.highway.queue.length = 24 → Completes .mixerCompletion s fun t => t.scr.mixer = rest ∧
          t.highway.queue = s.highway.queue ∧
          t.talk? l = some { t0 with
            request := .none
            staged := some { key := result, count := c, partner := p, isFirst := false, fresh := true } })) ∧
      (∀ (l : TalkId) (t0 : TalkLane) (p : Nonce), q.requester = .talk l (s.talkOpening l) → s.talk? l = some t0 →
        t0.request = .first → t0.partner = some p →
        ((∀ b, t0.firstBoundary = some b → 0 < b) → Completes .mixerCompletion s fun t =>
          t.scr.mixer = rest ∧ t.highway = s.highway ∧ t.talk? l = some { t0 with
            request := .none
            staged := some { key := result, count := 0, partner := p, isFirst := true,
                             countdown := t0.firstBoundary } }) ∧
        (∀ b : Nat, t0.firstBoundary = some (-(b : Int)) → Completes .mixerCompletion s fun t =>
          t.scr.mixer = rest ∧ t.highway = s.highway ∧ t.talk? l = some { t0 with
            request := .none, staged := none, activeKey := some result, keyCount := 0, partner := some p
            position := BitVec.ofNat 16 b, age := 0 })) ∧
      (∀ (l : ListenId) (t0 : ListenLane), q.requester = .listen l (s.listenOpening l) → s.listen? l = some t0 →
        ((∀ a, t0.request = some a → ¬ (a.talker = q.nonceA ∧ a.partner = q.nonceB ∧ a.count = q.count)) →
          Completes .mixerCompletion s fun t => t = { s with scr := { s.scr with mixer := rest, mixerDone := true } }) ∧
        (∀ a, t0.request = some a → a.talker = q.nonceA → a.partner = q.nonceB → a.count = q.count →
          ((∀ b, a.countdown = some b → 0 < b) → Completes .mixerCompletion s fun t => t.scr.mixer = rest ∧
            t.listen? l = some { t0 with
              request := none
              talkerNonce := some (t0.talkerNonce.getD a.talker)
              partnerNonce := some (t0.partnerNonce.getD a.partner)
              staged := some { key := result, talker := a.talker, partner := a.partner, count := a.count,
                               countdown := a.countdown } }) ∧
          (∀ b : Nat, a.countdown = some (-(b : Int)) → Completes .mixerCompletion s fun t => t.scr.mixer = rest ∧
            ∃ t1, t.listen? l = some t1 ∧ t1.request = none ∧ t1.staged = none ∧ t1.slot = t0.slot ∧
              t1.active = some { key := result, talker := a.talker, partner := a.partner, count := a.count,
                                 position := BitVec.ofNat 16 b } ∧
              t1.previous = (if t0.active = none then t0.previous else t0.active) ∧
              t1.talkerNonce = some a.talker ∧ t1.partnerNonce = some a.partner ∧ t1.framesRead = 0 ∧
              (t0.state = .waitkey → t0.purpose = .setup → t1.state = .proving ∧ t1.timer = none) ∧
              (t0.state = .waitkey → t0.purpose = .join → t1.state = .waitkey ∧ t1.timer = t0.timer) ∧
              (t0.state = .search → t1.state = .search ∧
                t1.search = some { phase := 1, slot := t0.slot, previous := false, cursor := none }) ∧
              (t0.state = .lost → t1.state = .lost ∧ (t0.syncLost = false → t0.purpose = .join ∨ t0.active ≠ none →
                t1.awaiting = true ∧ t1.timer = none)) ∧
              (t0.state = .locked → t1.state = .locked ∧ t1.lowCount = t0.lowCount) ∧
              (t0.state = .proving → t1.state = .proving)))) ∧
      (∀ (p : Port) (e : Ext) (n v : Nonce) (tm : Option Nat),
        q.requester = .login p (s.login p).incarnation .setKey →
        (s.login p).entry = some { body := .challenging e n (some v) .setKey, timer := tm } → rest.length < 16 →
        Completes .mixerCompletion s fun t =>
          t.scr.mixer = rest ++ [{
            requester := .login p (s.login p).incarnation .expected
            key := result
            nonceA := n
            nonceB := 0
            count := 65535 }] ∧
          (t.login p).entry = some { body := .challenging e n (some v) .expected, timer := tm }) ∧
      (∀ (p : Port) (e : Ext) (n v : Nonce) (tm : Option Nat),
        q.requester = .login p (s.login p).incarnation .expected →
        (s.login p).entry = some { body := .challenging e n (some v) .expected, timer := tm } →
        result.extractLsb' 64 64 ≠ v → (s.login p).failures < 2 → (s.port p).state = .up →
        Completes .mixerCompletion s fun t => t.scr.mixer = rest ∧ (t.login p).entry = none ∧
          (t.login p).failures = (s.login p).failures + 1 ∧ Tells t p (.loginResult .denied)) ∧
      (∀ (p : Port) (e : Ext) (n v : Nonce) (tm : Option Nat) (im : Image),
        q.requester = .login p (s.login p).incarnation .expected →
        (s.login p).entry = some { body := .challenging e n (some v) .expected, timer := tm } →
        result.extractLsb' 64 64 ≠ v → (s.login p).failures = 2 → (s.port p).state = .up → s.station.image = some im →
        Completes .mixerCompletion s fun t => t.scr.mixer = rest ∧ t.login p = { s.login p with
          entry := none, failures := 3, lockedOut := true, lockoutTimer := some im.lockoutTime } ∧
          Tells t p (.loginResult .locked)) ∧
      (∀ (p : Port) (e : Ext) (n v : Nonce) (tm : Option Nat),
        q.requester = .login p (s.login p).incarnation .expected →
        (s.login p).entry = some { body := .challenging e n (some v) .expected, timer := tm } →
        result.extractLsb' 64 64 = v → (s.port p).state = .up →
        let alone : Prop := ∀ r, r ≠ p → (s.loginBody r).bind LoginBody.ext ≠ some e
        let ends (t : State) (why : LoginResult) : Prop := (t.login p).entry = none ∧ Tells t p (.loginResult why)
        Completes .mixerCompletion s (fun t => (t.login p).failures = 0 ∧
          ∀ r, r ≠ p → (s.loginBody r).bind LoginBody.ext = some e → (t.login r).entry = none) ∧
        (alone → Completes .mixerCompletion s fun t => t.scr.mixer = rest ∧ t.calls.records = s.calls.records ∧
          t.calls.confs = s.calls.confs ∧ t.calls.waitList = s.calls.waitList ∧
          t.callPort p = { s.callPort p with burst := none } ∧
          ∀ r, r ≠ p → t.login r = s.login r ∧ t.callPort r = s.callPort r) ∧
        (∀ home, s.homeOf e = some home → home ≠ s.self →
          (∀ rg, s.calls.plan.get home = .absent rg → Completes .mixerCompletion s fun t => ends t .noHome) ∧
          (∀ rg, s.calls.plan.get home = .present rg → alone →
            (QueueRoom 1 s → Completes .mixerCompletion s fun t =>
              (t.login p).entry = some { body := .confirming e, timer := some 16 } ∧ (t.port p).tone = .confirm ∧
              Queues s t [cellFrom s home (s.loginTag p) Tag.absent (.admitMove e p)]) ∧
            (20 ≤ s.highway.queue.length → Completes .mixerCompletion s fun t => ends t .busy ∧ Queues s t []))) ∧
        (∀ h, s.homeOf e = some s.self → s.homeRecord e = some h →
          let admits (t : State) : Prop :=
            (t.login p).entry = some { body := .admitted e h.rights (h.epoch + 1) .none, timer := none } ∧
            t.homeRecord e = some { h with location := some (s.self, p), epoch := h.epoch + 1 } ∧
            Tells t p (.loginResult .ok)
          (h.barred = true → Completes .mixerCompletion s fun t => ends t .barred ∧ t.homeRecord e = some h) ∧
          (h.barred = false → (h.location = none ∨ ∃ r, h.location = some (s.self, r)) →
            Completes .mixerCompletion s admits) ∧
          (∀ (o : Station) (r : Port), h.barred = false → h.location = some (o, r) → o ≠ s.self → alone →
            (QueueRoom 1 s → Completes .mixerCompletion s fun t => admits t ∧
              Queues s t [broadcast s (.admitChange e .moved (some (s.self, p)) h.rights (h.epoch + 1))]) ∧
            (20 ≤ s.highway.queue.length → Completes .mixerCompletion s fun t => ends t .busy ∧
              t.homeRecord e = some h ∧ Queues s t [])))))

/-- R121, R118: SYNC-ASK at the talker. For a record in use whose talk lane is ACTIVE or MOVING with an active key and no
rekey in progress, the lane notes the slot asked about and asks for its next key; where the mixer is full, the refusal is
counted and rekey-wanted is set without a nonce (whatever it carried before: the model's choice, log 46). With a rekey in
progress, by a request or a staged key, and without an active key, it sets rekey-wanted and keeps a nonce there. A record in CLEARING discards it, and so does receiver tag FFFFh. A tag of no record in use
draws CALL-CLEAR GONE under the tag asked about, and no record changes. -/
def Obligations.SyncAskDrawsRekeyOrGone : Prop :=
  ∀ (s : State) (x : Stored) (slot : Slot), s.nextCell .keyC = some x → x.cell.body = .syncAsk slot →
    (x.cell.receiver = Tag.absent → Completes .syncAskAtTalker s fun t => t = taken s .keyC x) ∧
    (x.cell.receiver ≠ Tag.absent → s.recordOf x.cell.receiver = none → s.station.state = .active →
      s.highway.queue.length < 24 → Completes .syncAskAtTalker s fun t =>
        t.calls = s.calls ∧ t.scr = s.scr ∧
        Queues s t [cellFrom s x.cell.source x.cell.receiver x.cell.sender (.callClear .gone)]) ∧
    (∀ (r : RecordId) (k : Call), x.cell.receiver ≠ Tag.absent → s.recordOf x.cell.receiver = some r →
      s.call? r = some k →
      (k.state = .clearing → Completes .syncAskAtTalker s fun t => t = taken s .keyC x) ∧
      (∀ (l : TalkId) (t0 : TalkLane), k.state ≠ .clearing → k.talkLane = some l → s.talk? l = some t0 →
        (t0.state = .claiming → Completes .syncAskAtTalker s fun t => t = taken s .keyC x) ∧
        (t0.state ≠ .claiming → t0.activeKey ≠ none → t0.request = .none → t0.staged = none →
          s.scr.mixer.length < 16 → Completes .syncAskAtTalker s fun t => ∃ t1, t.talk? l = some t1 ∧
            t1.lastAsked = some slot ∧ t1.request = .next (nextKeyCount t0.keyCount) (t0.partner.getD 0) ∧
            t1.wanted = .clear ∧ t.scr.mixer.length = s.scr.mixer.length + 1) ∧
        (t0.state ≠ .claiming → t0.activeKey ≠ none → t0.request = .none → t0.staged = none →
          s.scr.mixer.length = 16 → Completes .syncAskAtTalker s fun t =>
            t.talk? l = some { t0 with lastAsked := some slot, wanted := .set none } ∧ t.scr.mixer = s.scr.mixer ∧
            t.highway.counters = (s.recordFault .mixerFull s.self none).highway.counters) ∧
        (t0.state ≠ .claiming → t0.request ≠ .none ∨ t0.staged ≠ none ∨ t0.activeKey = none →
          Completes .syncAskAtTalker s fun t => t.scr.mixer = s.scr.mixer ∧
            (∀ w, t0.wanted = .set w → t.talk? l = some { t0 with lastAsked := some slot }) ∧
            (t0.wanted = .clear → t.talk? l = some { t0 with lastAsked := some slot, wanted := .set none }))))

/-! ### Listen lanes and voice -/

/-- R130, R131: KEY-NEXT at the one listen lane of its talker. The lane takes the cell's slot. With the inputs of a key or
request it holds it goes no further; otherwise it asks the mixer for the cell's key, drops a staged key, and keeps the
remaining count, the lead of 2 less the stamp, with the request; a JOIN lane in WAITKEY stops its timer. A full mixer
leaves it without request and staged key, and a lane in WAITKEY starts its timer at 8. A lane in SEARCH resets its cursor
(`restart`, what the next boundary reads: O55). With no lane of the talker the cell is discarded. -/
def Obligations.KeyNextBringsTheListenersKey : Prop :=
  ∀ (s : State) (x : Stored) (slot : Slot) (a b : Nonce) (n : Nat),
    s.nextCell .keyC = some x → x.cell.body = .keyNext slot a b n 2 →
    let of (t : ListenLane) : Prop := t.talker = x.cell.source ∧ t.talkerTag = x.cell.sender
    ((∀ l t0, s.listen? l = some t0 → ¬ of t0) → Completes .keyNext s fun t => t = taken s .keyC x) ∧
    (∀ (l : ListenId) (t0 : ListenLane), s.listen? l = some t0 → of t0 →
      (∀ j t1, s.listen? j = some t1 → of t1 → j = l) →
      let reset : Option Search := t0.search.map fun c => { c with restart := true }
      (t0.holdsInputs a b n = true → Completes .keyNext s fun t =>
        t.listen? l = some { t0 with slot := slot, search := reset } ∧
        t.scr.mixer = s.scr.mixer) ∧
      (t0.holdsInputs a b n = false → s.scr.mixer.length < 16 → Completes .keyNext s fun t => ∃ t1,
        t.listen? l = some t1 ∧ t1.slot = slot ∧ t1.state = t0.state ∧ t1.search = reset ∧ t1.active = t0.active ∧
        t1.staged = none ∧
        t1.request = some { isFirst := false, talker := a, partner := b, count := n,
                            countdown := some ((2 : Int) - (x.stamp : Int)) } ∧
        (t0.state = .waitkey → t0.purpose = .join → t1.timer = none) ∧
        t.scr.mixer = s.scr.mixer ++ [{ requester := .listen l (s.listenOpening l), key := s.secret, nonceA := a,
                                        nonceB := b, count := n }]) ∧
      (t0.holdsInputs a b n = false → s.scr.mixer.length = 16 → Completes .keyNext s fun t => ∃ t1,
        t.listen? l = some t1 ∧ t1.slot = slot ∧ t1.state = t0.state ∧ t1.search = reset ∧ t1.request = none ∧
        t1.staged = none ∧ t1.active = t0.active ∧ (t0.state = .waitkey → t1.timer = some 8) ∧ t.scr.mixer = s.scr.mixer))

/-- R126, R131, R134: the boundary of a LOCKED lane with nothing requested. A figure of a whole superframe at or above the
loss threshold clears the low-figure count, one below adds to it, and the third takes the lane to SEARCH, phase 1 on
its own slot; a superframe not read under one key throughout leaves the count. Positions add 1. A staged key whose
countdown comes to 0 is installed at position 0, the active key becoming the previous one. R133: the first figure of a
lane in WAITKEY takes it to LOCKED, at or above the lock threshold, or to SEARCH, its recovery count kept. R128, R60: the
acquisition superframe of a proving lane passes on the count of its agreeing marks, and the lane goes on; after the count
superframe, with its proving errors within the limit, the lane is LOCKED and its PROVING record CONNECTED with its talk
lane sending VOICE; a superframe that fails clears the record with PATH-FAILED. -/
def Obligations.LockedLaneIsJudgedAtTheBoundary : Prop :=
  (∀ (s : State) (l : ListenId) (t0 : ListenLane) (im : Image) (k : ListenKey), AtBoundary s →
    s.station.image = some im → s.listen? l = some t0 → t0.state = .locked → t0.provingClock = none →
    t0.request = none → t0.timer = none → t0.active = some k →
    let moved : ListenKey := { k with position := k.position + 1 }
    (t0.staged = none → t0.framesRead = 64 → im.lossThreshold ≤ t0.marksAgreed →
      Completes (.listenLaneBoundary l) s fun t => ∃ t1, t.listen? l = some t1 ∧ t1.state = .locked ∧
        t1.lowCount = 0 ∧ t1.lastFigure = some t0.marksAgreed ∧ t1.active = some moved ∧ t1.framesRead = 0 ∧
        t1.marksAgreed = 0 ∧ ∀ j, j ≠ l → t.listen? j = s.listen? j) ∧
    (t0.staged = none → t0.framesRead = 64 → t0.marksAgreed < im.lossThreshold → t0.lowCount < 2 →
      Completes (.listenLaneBoundary l) s fun t => ∃ t1, t.listen? l = some t1 ∧ t1.state = .locked ∧
        t1.lowCount = t0.lowCount + 1 ∧ t1.lastFigure = some t0.marksAgreed ∧ t1.active = some moved) ∧
    (t0.staged = none → t0.framesRead = 64 → t0.marksAgreed < im.lossThreshold → t0.lowCount = 2 →
      Completes (.lowFigureLimit l) s fun t => ∃ t1, t.listen? l = some t1 ∧ t1.state = .search ∧
        t1.lowCount = 3 ∧ t1.search = some { phase := 1, slot := t0.slot, previous := false, cursor := none }) ∧
    (t0.staged = none → t0.framesRead < 64 → Completes (.listenLaneBoundary l) s fun t => ∃ t1,
      t.listen? l = some t1 ∧ t1.state = .locked ∧ t1.lowCount = t0.lowCount ∧ t1.lastFigure = t0.lastFigure) ∧
    (∀ g, t0.staged = some g → g.countdown = some 1 → t0.framesRead < 64 → Completes (.listenKeySwap l) s fun t =>
      ∃ t1, t.listen? l = some t1 ∧ t1.state = .locked ∧ t1.previous = some moved ∧ t1.staged = none ∧
        t1.active = some { key := g.key, talker := g.talker, partner := g.partner, count := g.count, position := 0 } ∧
        t1.talkerNonce = some g.talker ∧ t1.partnerNonce = some g.partner)) ∧
  (∀ (s : State) (l : ListenId) (t0 : ListenLane) (im : Image), AtBoundary s → s.station.image = some im →
    s.listen? l = some t0 → t0.state = .waitkey → t0.provingClock = none → t0.request = none → t0.staged = none →
    t0.timer = none → t0.framesRead = 64 →
    (im.lockThreshold ≤ t0.marksAgreed → Completes (.listenLaneBoundary l) s fun t => ∃ t1, t.listen? l = some t1 ∧
      t1.state = .locked ∧ t1.lowCount = 0 ∧ t1.recovery = 0 ∧ t1.lastFigure = some t0.marksAgreed) ∧
    (t0.marksAgreed < im.lockThreshold → Completes (.listenLaneBoundary l) s fun t => ∃ t1, t.listen? l = some t1 ∧
      t1.state = .search ∧ t1.recovery = t0.recovery ∧ t1.lastFigure = some t0.marksAgreed ∧
      t1.search = some { phase := 1, slot := t0.slot, previous := false, cursor := none })) ∧
  (∀ (s : State) (l : ListenId) (t0 : ListenLane) (im : Image) (r : RecordId) (k : Call) (far : Station)
    (tl : TalkId) (T : TalkLane), AtBoundary s → s.station.image = some im → s.listen? l = some t0 →
    t0.request = none → t0.staged = none → t0.timer = none → t0.owner = r → t0.ownerTag = s.callTag r →
    s.call? r = some k → k.state = .proving → k.confRole = .none → k.listenLanes = [l] → k.farStation = some far →
    k.talkLane = some tl → s.talk? tl = some T →
    (t0.provingClock = some 0 → t0.state = .proving → im.lockThreshold ≤ t0.marksAgreed →
      Completes (.listenLaneBoundary l) s fun t => ∃ t1, t.listen? l = some t1 ∧ t1.state = .proving ∧
        t1.provingClock = some (-1) ∧ t1.provingErrors = 0 ∧ t1.lastFigure = some t0.marksAgreed ∧ t.calls = s.calls) ∧
    (t0.provingClock = some (-1) → t0.state = .proving → t0.provingErrors ≤ im.provingLimit →
      Completes (.listenLaneBoundary l) s fun t => (∃ t1, t.listen? l = some t1 ∧ t1.state = .locked ∧
        t1.lowCount = 0 ∧ t1.recovery = 0 ∧ t1.provingClock = none) ∧
        t.call? r = some { k with state := .connected } ∧ t.talk? tl = some { T with mode := .voice } ∧
        t.highway = s.highway) ∧
    ((t0.provingClock = some 0 ∧ (t0.state ≠ .proving ∨ t0.marksAgreed < im.lockThreshold)) ∨
        (t0.provingClock = some (-1) ∧ (t0.state ≠ .proving ∨ im.provingLimit < t0.provingErrors)) → QueueRoom 2 s →
      Completes (.listenLaneBoundary l) s fun t => t.listen? l = none ∧ ClearsTo s t r .pathFailed far k.farTag))

/-- R133, R137: with the queue open to CALL and KEY cells, a JOIN lane in WAITKEY whose timer runs out at the boundary
enters LOST, and a lane in LOST whose SYNC-ASK timer runs out stays there; either offers SYNC-ASK to its talker under
the owner's tag and starts the timer at 8. A full queue takes no cell, and the timer starts all the same. R135, R136,
R103: a search locks on a candidate at the lock threshold, a previous key that was found changing places with the active
one; below it phases 1 and 2 go on to the next slot the map shows held by the talker, upward from the lane's own and
wrapping, then to the previous key on the own slot, and an exhausted search is LOST and asks; a search whose cursor a
KEY-NEXT has reset (R130) goes on at phase 1 on the lane's slot, whatever its phase was. R138: the first figure after
a swap in LOST locks the lane with its recovery count 0, or adds 1 to the count and begins a search. R138, R60: the third
failed one reports SYNC-LOST: the CONNECTED record outside any conference clears with that cause. Its lanes are FREE and its
slot given up; the record is CLEARING with SLOT-FREE and then CALL-CLEAR in the queue; where the queue takes only the
first, or neither (its RELEASE entry then marked refused), the record is FREE. R137: a lane that has reported SYNC-LOST is
not judged again. -/
def Obligations.LostLanesAskAndAtLastReport : Prop :=
  (∀ (s : State) (l : ListenId) (t0 : ListenLane), AtBoundary s → s.listen? l = some t0 → t0.timer = some 1 →
    t0.provingClock = none → t0.staged = none → t0.request = none → t0.framesRead = 0 → s.station.state = .active →
    let ask : Cell := cellFrom s t0.talker t0.ownerTag t0.talkerTag (.syncAsk t0.slot)
    let lost (t : State) : Prop := ∃ t1, t.listen? l = some t1 ∧ t1.state = .lost ∧ t1.timer = some 8 ∧
      t1.recovery = t0.recovery
    (t0.state = .waitkey → t0.purpose = .join →
      (s.highway.queue.length < 24 → Completes (.waitkeyTimerExpiry l) s fun t => lost t ∧ Queues s t [ask]) ∧
      (s.highway.queue.length = 24 → Completes (.waitkeyTimerExpiry l) s fun t => lost t ∧ Queues s t [])) ∧
    (t0.state = .lost → t0.awaiting = false → t0.syncLost = false →
      (s.highway.queue.length < 24 → Completes (.syncAskTimerExpiry l) s fun t => lost t ∧ Queues s t [ask]) ∧
      (s.highway.queue.length = 24 → Completes (.syncAskTimerExpiry l) s fun t => lost t ∧ Queues s t []))) ∧
  (∀ (s : State) (l : ListenId) (t0 : ListenLane) (im : Image) (c : Search) (key : ListenKey), AtBoundary s →
    s.station.image = some im → s.listen? l = some t0 → t0.state = .search → t0.search = some c → c.restart = false →
    t0.provingClock = none → t0.request = none → t0.staged = none → t0.timer = none → t0.framesRead = 64 →
    t0.active = some key →
    let moved (k : ListenKey) : ListenKey := { k with position := k.position + 1 }
    let after (y : Slot) : Nat := (y.val + 256 - t0.slot.val) % 256
    let tried : Nat := match c.cursor with
      | some z => after z
      | none => 0
    let held (y : Slot) : Prop := s.slots.map.get y = some t0.talker ∧ tried < after y
    (im.lockThreshold ≤ t0.marksAgreed → Completes (.listenLaneBoundary l) s fun t => ∃ t1, t.listen? l = some t1 ∧
      t1.state = .locked ∧ t1.slot = c.slot ∧ t1.lowCount = 0 ∧ t1.recovery = 0 ∧ t1.search = none ∧
      (c.previous = false → t1.active = some (moved key) ∧ t1.previous = t0.previous.map moved) ∧
      (∀ old, c.previous = true → t0.previous = some old →
        t1.active = some (moved old) ∧ t1.previous = some (moved key))) ∧
    (t0.marksAgreed < im.lockThreshold → c.phase = 1 ∨ c.phase = 2 →
      (∀ y, held y → (∀ z, held z → after y ≤ after z) → Completes (.listenLaneBoundary l) s fun t => ∃ t1,
        t.listen? l = some t1 ∧ t1.state = .search ∧
        t1.search = some { phase := 2, slot := y, previous := false, cursor := some y }) ∧
      ((∀ y, ¬ held y) → t0.previous ≠ none → Completes (.listenLaneBoundary l) s fun t => ∃ t1,
        t.listen? l = some t1 ∧ t1.state = .search ∧
        t1.search = some { phase := 3, slot := t0.slot, previous := true, cursor := none })) ∧
    (t0.marksAgreed < im.lockThreshold → c.phase = 3 ∨ ((c.phase = 1 ∨ c.phase = 2) ∧ (∀ y, ¬ held y) ∧
        t0.previous = none) → s.station.state = .active → s.highway.queue.length < 24 →
      Completes (.listenLaneBoundary l) s fun t => (∃ t1, t.listen? l = some t1 ∧ t1.state = .lost ∧
        t1.search = none ∧ t1.timer ≠ none ∧ t1.recovery = t0.recovery) ∧
        Queues s t [cellFrom s t0.talker t0.ownerTag t0.talkerTag (.syncAsk t0.slot)])) ∧
  (∀ (s : State) (l : ListenId) (t0 : ListenLane) (im : Image) (c : Search), AtBoundary s → s.station.image = some im →
    s.listen? l = some t0 → t0.state = .search → t0.search = some c → c.restart = true → t0.provingClock = none →
    t0.request = none → t0.staged = none → t0.timer = none →
    t0.framesRead < 64 ∨ (t0.framesRead = 64 ∧ t0.marksAgreed < im.lockThreshold) →
    Completes (.listenLaneBoundary l) s fun t => t.highway = s.highway ∧ ∃ t1, t.listen? l = some t1 ∧
      t1.state = .search ∧ t1.search = some { phase := 1, slot := t0.slot, previous := false, cursor := none }) ∧
  (∀ (s : State) (l : ListenId) (t0 : ListenLane) (im : Image), AtBoundary s → s.station.image = some im →
    s.listen? l = some t0 → t0.state = .lost → t0.provingClock = none → t0.request = none → t0.staged = none →
    t0.timer = none → t0.framesRead = 64 →
    (t0.syncLost = true → Completes (.listenLaneBoundary l) s fun t => t.calls = s.calls ∧ t.highway = s.highway ∧
      ∃ t1, t.listen? l = some t1 ∧ t1.state = .lost ∧ t1.recovery = t0.recovery) ∧
    (t0.awaiting = true → t0.syncLost = false → im.lockThreshold ≤ t0.marksAgreed →
      Completes (.listenLaneBoundary l) s fun t => ∃ t1, t.listen? l = some t1 ∧ t1.state = .locked ∧
        t1.lowCount = 0 ∧ t1.recovery = 0 ∧ t1.awaiting = false) ∧
    (t0.awaiting = true → t0.syncLost = false → t0.marksAgreed < im.lockThreshold → t0.recovery < 2 →
      Completes (.listenLaneBoundary l) s fun t => ∃ t1, t.listen? l = some t1 ∧ t1.state = .search ∧
        t1.recovery = t0.recovery + 1 ∧
        t1.search = some { phase := 1, slot := t0.slot, previous := false, cursor := none })) ∧
  (∀ (s : State) (l : ListenId) (t0 : ListenLane) (im : Image) (r : RecordId) (k : Call) (far : Station) (tl : TalkId)
    (T : TalkLane) (y : Slot), AtBoundary s →
    s.station.image = some im → s.station.state = .active → s.listen? l = some t0 → t0.state = .lost →
    t0.awaiting = true → t0.syncLost = false → t0.recovery = 2 → t0.provingClock = none → t0.framesRead = 64 →
    t0.marksAgreed < im.lockThreshold → t0.owner = r → t0.ownerTag = s.callTag r → s.call? r = some k →
    k.state = .connected → k.confRole = .none → k.listenLanes = [l] → k.farStation = some far →
    k.talkLane = some tl → s.talk? tl = some T → T.state = .active → T.slot = some y →
    let free : Cell := broadcast s (.slot (.free y))
    let ended (t : State) : Prop := t.listen? l = none ∧ t.talk? tl = none ∧ t.slots.map.get y = none
    (s.highway.queue.length ≤ 22 → Completes (.recoveryLimit l) s fun t => ended t ∧
      (∃ k', t.call? r = some k' ∧ k'.state = .clearing ∧ k'.cause = .syncLost ∧ k'.clears = 1) ∧
      Queues s t [free, cellFrom s far (s.callTag r) k.farTag (.callClear .syncLost)]) ∧
    (s.highway.queue.length = 23 → Completes (.recoveryLimit l) s fun t => ended t ∧ t.call? r = none ∧
      Queues s t [free]) ∧
    (s.highway.queue.length = 24 → Completes (.recoveryLimit l) s fun t => ended t ∧ t.call? r = none ∧
      Queues s t [] ∧ t.slots.claims = s.slots.claims ++ [
        { kind := .release, slot := y, refused := true, fresh := true }]))

/-- R115, R126, R139: one frame of voice. An ACTIVE talk lane writes into its slot: the silence code with mark 0 before its
first key; otherwise its plain sample (the port's, the proving byte, or silence) exclusive-or the keystream byte, with
the sync word's bit. No other slot is written. R140: a LOCKED or PROVING lane that reads under a key not overdue counts the
frame and, where it agreed, the mark; unless frozen, its counters add the frame, a mark that did not agree, and in PROVING
the 8 bits compared and those that differed, each stopping at its largest value; in any other state, and under an overdue
key, they hold. A port whose front record is not CONNECTED receives silence, and that of a CONNECTED one the sum, clamped,
of what its LOCKED lanes recover, however many they are (R83 gives it at most 3). -/
def Obligations.VoiceIsWrittenReadAndSummed : Prop :=
  ∀ (s : State) (bus : List (Byte × Bool)), bus.length = 256 →
    let f := s.clock.frame
    Completes (.readingTheSlot bus) s fun t =>
      (∀ (l : TalkId) (t0 : TalkLane) (x : Slot) (r : RecordId) (k : Call), s.talk? l = some t0 → t0.state = .active →
        t0.slot = some x → t0.owner = r → s.call? r = some k →
        (t0.activeKey = none → (x, 0, false) ∈ t.scr.slotsOut) ∧
        (∀ key, t0.activeKey = some key →
          let plain : Byte := match t0.mode with
            | .voice => (s.port k.port).talkSample
            | .prove => Config.provingByte f
            | .silence => 0
          (x, plain ^^^ Config.keystream key t0.position f, (Config.syncWord key t0.position).getLsbD f.val) ∈
            t.scr.slotsOut)) ∧
      (∀ w ∈ t.scr.slotsOut, ∃ l t0, s.talk? l = some t0 ∧ t0.state = .active ∧ t0.slot = some w.1) ∧
      (∀ (l : ListenId) (t0 : ListenLane), s.listen? l = some t0 →
        (∀ g : ListenKey, t0.state = .locked ∨ t0.state = .proving → t0.overdue = false → t0.active = some g →
          let heard := bus.getD t0.slot.val (0, false)
          let plain := heard.1 ^^^ Config.keystream g.key g.position f
          let agreed : Prop := heard.2 = (Config.syncWord g.key g.position).getLsbD f.val
          let wrong : Nat := (List.range 8).countP fun i => plain.getLsbD i != (Config.provingByte f).getLsbD i
          ∃ t1, t.listen? l = some t1 ∧ t1.framesRead = t0.framesRead + 1 ∧
            (agreed → t1.marksAgreed = t0.marksAgreed + 1 ∧ t1.counters.markErrors = t0.counters.markErrors) ∧
            (¬ agreed → t1.marksAgreed = t0.marksAgreed) ∧
            (t0.frozen = true → t1.counters = t0.counters) ∧
            (t0.frozen = false → t1.counters.frames = min (t0.counters.frames + 1) 4294967295 ∧
              (¬ agreed → t1.counters.markErrors = min (t0.counters.markErrors + 1) 65535) ∧
              (t0.state = .locked → t1.counters.provingBits = t0.counters.provingBits ∧
                t1.counters.provingErrors = t0.counters.provingErrors) ∧
              (t0.state = .proving → t1.counters.provingBits = min (t0.counters.provingBits + 8) 65535 ∧
                t1.counters.provingErrors = min (t0.counters.provingErrors + wrong) 65535))) ∧
        ((t0.state ≠ .locked ∧ t0.state ≠ .proving) ∨ t0.overdue = true ∨ t0.active = none →
          ∃ t1, t.listen? l = some t1 ∧ t1.counters = t0.counters)) ∧
      (∀ (p : Port), (∀ r k, s.front p = some r → s.call? r = some k → k.state ≠ .connected) →
        (t.port p).listenSample = 0) ∧
      (∀ (p : Port) (r : RecordId) (k : Call) (l : ListenId) (t0 : ListenLane) (g : ListenKey), s.front p = some r →
        s.call? r = some k → k.state = .connected → k.listenLanes = [l] → s.listen? l = some t0 → t0.request = none →
        t0.active = some g →
        (t.port p).listenSample = if t0.state = .locked
          then (bus.getD t0.slot.val (0, false)).1 ^^^ Config.keystream g.key g.position f else 0) ∧
      (∀ (p : Port) (r : RecordId) (k : Call), s.front p = some r → s.call? r = some k → k.state = .connected →
        let passes (l : ListenId) : Option Int := (s.listen? l).bind fun t0 =>
          if t0.state = .locked ∧ t0.overdue = false then t0.active.map fun g =>
            ((bus.getD t0.slot.val (0, false)).1 ^^^ Config.keystream g.key g.position f).toInt else none
        (t.port p).listenSample.toInt = max (-128) (min 127 (k.listenLanes.filterMap passes).sum)) ∧
      t.highway = s.highway ∧ t.calls = s.calls

/-! ### Encoding and whole-machine rules -/

/-- R187, spec 12: every cell whose values fit its fields survives the shelf highway. Its 40 bytes carry a good check and
decode, in the window of its source, to the cell itself: no field of any of the kinds is dropped or read elsewhere. -/
def Obligations.DecodeOfEncodeIsTheCell : Prop :=
  ∀ c : Cell, c.Fits → c.encode.length = 40 ∧ checkGood 38 c.encode = true ∧ byteAt c.encode 0 = c.body.kind ∧
    byteAt c.encode 1 = byteOf c.source.val ∧ decodeCell c.source c.encode = some c

/-- R173: whatever command runs, or none, the step answers a next state, and the station moves between its states only
as the table of R173 gives. Only COLD_RESET and READ_COMPLETION change the image. The model's choice of log 1 and log 5: a
command, resets included, leaves the shelf's clock and the rest of the queue alone. -/
def Obligations.EveryStepKeepsToTheStationTable : Prop :=
  ∀ s : State, ∃ t, step s = .next t ∧ StationMove s.station.state t.station.state ∧
    (∀ c rest, s.pending = c :: rest → t.pending = rest ∧ t.clock = s.clock ∧
      (c ≠ .coldReset → (∀ image, c ≠ .readCompletion image) → t.station.image = s.station.image)) ∧
    (s.pending = [] → t.station.image = s.station.image)

/-- The capacities the spec gives the station's lists, counts and counters (R4, R22, R105, R108, R143, R144, R149, R153,
R158, R159, R163, R167, R169), its receive store (R161), hold stacks (R71), conference table (R81), the listen lanes and
digits of its call records (R42, R46, R83, R84), and that each slot the map shows as its own is that of an ACTIVE talk
lane (R89) hold after every step from a state in which they hold, reachable or not. -/
def Obligations.EveryStepKeepsTheCapacities : Prop :=
  ∀ s t : State, Capacities s → step s = .next t → Capacities t

/-- The capacities hold right after reset. -/
def Obligations.ResetHasTheCapacities : Prop := Capacities State.reset
end

