-- ==== Sys2Proof/Laws/State.lean ====
section
/-! SUPPORT. The small lemmas of the state's accessors: what each update leaves alone, field by field, and what a
read after a write gives. Later proofs cite these and unfold no record update. -/

namespace Sys2Proof

open Sys2Proof.Machine

/-! ### Tables -/

@[simp] theorem upd_get_same {α : Type} {n : Nat} (v : Vector α n) (i : Fin n) (x : α) : (upd v i x).get i = x := by
  simp [upd, Vector.get_eq_getElem]

theorem upd_get_ne {α : Type} {n : Nat} (v : Vector α n) {i j : Fin n} (x : α) (h : j ≠ i) :
    (upd v i x).get j = v.get j := by
  have : i.val ≠ j.val := fun e => h (Fin.ext e.symm)
  simp [upd, Vector.get_eq_getElem, Vector.getElem_set_ne, this]

theorem upd_get {α : Type} {n : Nat} (v : Vector α n) (i j : Fin n) (x : α) :
    (upd v i x).get j = if j = i then x else v.get j := by
  by_cases h : j = i
  · subst h; simp
  · simp [h, upd_get_ne v x h]

end Sys2Proof

namespace Sys2Proof.Machine.State

open Sys2Proof

/-! ### setPort -/

@[simp] theorem setPort_station (p : Port) (u : PortUnit) (s : State) : (s.setPort p u).station = s.station := rfl
@[simp] theorem setPort_clock (p : Port) (u : PortUnit) (s : State) : (s.setPort p u).clock = s.clock := rfl
@[simp] theorem setPort_highway (p : Port) (u : PortUnit) (s : State) : (s.setPort p u).highway = s.highway := rfl
@[simp] theorem setPort_slots (p : Port) (u : PortUnit) (s : State) : (s.setPort p u).slots = s.slots := rfl
@[simp] theorem setPort_adm (p : Port) (u : PortUnit) (s : State) : (s.setPort p u).adm = s.adm := rfl
@[simp] theorem setPort_calls (p : Port) (u : PortUnit) (s : State) : (s.setPort p u).calls = s.calls := rfl
@[simp] theorem setPort_scr (p : Port) (u : PortUnit) (s : State) : (s.setPort p u).scr = s.scr := rfl
@[simp] theorem setPort_maint (p : Port) (u : PortUnit) (s : State) : (s.setPort p u).maint = s.maint := rfl
@[simp] theorem setPort_pending (p : Port) (u : PortUnit) (s : State) : (s.setPort p u).pending = s.pending := rfl

/-! ### modPort -/

@[simp] theorem modPort_station (p : Port) (f : PortUnit → PortUnit) (s : State) : (s.modPort p f).station = s.station := rfl
@[simp] theorem modPort_clock (p : Port) (f : PortUnit → PortUnit) (s : State) : (s.modPort p f).clock = s.clock := rfl
@[simp] theorem modPort_highway (p : Port) (f : PortUnit → PortUnit) (s : State) : (s.modPort p f).highway = s.highway := rfl
@[simp] theorem modPort_slots (p : Port) (f : PortUnit → PortUnit) (s : State) : (s.modPort p f).slots = s.slots := rfl
@[simp] theorem modPort_adm (p : Port) (f : PortUnit → PortUnit) (s : State) : (s.modPort p f).adm = s.adm := rfl
@[simp] theorem modPort_calls (p : Port) (f : PortUnit → PortUnit) (s : State) : (s.modPort p f).calls = s.calls := rfl
@[simp] theorem modPort_scr (p : Port) (f : PortUnit → PortUnit) (s : State) : (s.modPort p f).scr = s.scr := rfl
@[simp] theorem modPort_maint (p : Port) (f : PortUnit → PortUnit) (s : State) : (s.modPort p f).maint = s.maint := rfl
@[simp] theorem modPort_pending (p : Port) (f : PortUnit → PortUnit) (s : State) : (s.modPort p f).pending = s.pending := rfl

/-! ### modCallPort -/

@[simp] theorem modCallPort_station (p : Port) (f : CallPort → CallPort) (s : State) : (s.modCallPort p f).station = s.station := rfl
@[simp] theorem modCallPort_clock (p : Port) (f : CallPort → CallPort) (s : State) : (s.modCallPort p f).clock = s.clock := rfl
@[simp] theorem modCallPort_highway (p : Port) (f : CallPort → CallPort) (s : State) : (s.modCallPort p f).highway = s.highway := rfl
@[simp] theorem modCallPort_slots (p : Port) (f : CallPort → CallPort) (s : State) : (s.modCallPort p f).slots = s.slots := rfl
@[simp] theorem modCallPort_ports (p : Port) (f : CallPort → CallPort) (s : State) : (s.modCallPort p f).ports = s.ports := rfl
@[simp] theorem modCallPort_adm (p : Port) (f : CallPort → CallPort) (s : State) : (s.modCallPort p f).adm = s.adm := rfl
@[simp] theorem modCallPort_scr (p : Port) (f : CallPort → CallPort) (s : State) : (s.modCallPort p f).scr = s.scr := rfl
@[simp] theorem modCallPort_maint (p : Port) (f : CallPort → CallPort) (s : State) : (s.modCallPort p f).maint = s.maint := rfl
@[simp] theorem modCallPort_pending (p : Port) (f : CallPort → CallPort) (s : State) : (s.modCallPort p f).pending = s.pending := rfl

/-! ### modLogin -/

@[simp] theorem modLogin_station (p : Port) (f : LoginPlace → LoginPlace) (s : State) : (s.modLogin p f).station = s.station := rfl
@[simp] theorem modLogin_clock (p : Port) (f : LoginPlace → LoginPlace) (s : State) : (s.modLogin p f).clock = s.clock := rfl
@[simp] theorem modLogin_highway (p : Port) (f : LoginPlace → LoginPlace) (s : State) : (s.modLogin p f).highway = s.highway := rfl
@[simp] theorem modLogin_slots (p : Port) (f : LoginPlace → LoginPlace) (s : State) : (s.modLogin p f).slots = s.slots := rfl
@[simp] theorem modLogin_ports (p : Port) (f : LoginPlace → LoginPlace) (s : State) : (s.modLogin p f).ports = s.ports := rfl
@[simp] theorem modLogin_calls (p : Port) (f : LoginPlace → LoginPlace) (s : State) : (s.modLogin p f).calls = s.calls := rfl
@[simp] theorem modLogin_scr (p : Port) (f : LoginPlace → LoginPlace) (s : State) : (s.modLogin p f).scr = s.scr := rfl
@[simp] theorem modLogin_maint (p : Port) (f : LoginPlace → LoginPlace) (s : State) : (s.modLogin p f).maint = s.maint := rfl
@[simp] theorem modLogin_pending (p : Port) (f : LoginPlace → LoginPlace) (s : State) : (s.modLogin p f).pending = s.pending := rfl

/-! ### setRecord -/

@[simp] theorem setRecord_station (r : RecordId) (x : CallRecord) (s : State) : (s.setRecord r x).station = s.station := rfl
@[simp] theorem setRecord_clock (r : RecordId) (x : CallRecord) (s : State) : (s.setRecord r x).clock = s.clock := rfl
@[simp] theorem setRecord_highway (r : RecordId) (x : CallRecord) (s : State) : (s.setRecord r x).highway = s.highway := rfl
@[simp] theorem setRecord_slots (r : RecordId) (x : CallRecord) (s : State) : (s.setRecord r x).slots = s.slots := rfl
@[simp] theorem setRecord_ports (r : RecordId) (x : CallRecord) (s : State) : (s.setRecord r x).ports = s.ports := rfl
@[simp] theorem setRecord_adm (r : RecordId) (x : CallRecord) (s : State) : (s.setRecord r x).adm = s.adm := rfl
@[simp] theorem setRecord_scr (r : RecordId) (x : CallRecord) (s : State) : (s.setRecord r x).scr = s.scr := rfl
@[simp] theorem setRecord_maint (r : RecordId) (x : CallRecord) (s : State) : (s.setRecord r x).maint = s.maint := rfl
@[simp] theorem setRecord_pending (r : RecordId) (x : CallRecord) (s : State) : (s.setRecord r x).pending = s.pending := rfl

/-! ### setCall -/

@[simp] theorem setCall_station (r : RecordId) (k : Call) (s : State) : (s.setCall r k).station = s.station := rfl
@[simp] theorem setCall_clock (r : RecordId) (k : Call) (s : State) : (s.setCall r k).clock = s.clock := rfl
@[simp] theorem setCall_highway (r : RecordId) (k : Call) (s : State) : (s.setCall r k).highway = s.highway := rfl
@[simp] theorem setCall_slots (r : RecordId) (k : Call) (s : State) : (s.setCall r k).slots = s.slots := rfl
@[simp] theorem setCall_ports (r : RecordId) (k : Call) (s : State) : (s.setCall r k).ports = s.ports := rfl
@[simp] theorem setCall_adm (r : RecordId) (k : Call) (s : State) : (s.setCall r k).adm = s.adm := rfl
@[simp] theorem setCall_scr (r : RecordId) (k : Call) (s : State) : (s.setCall r k).scr = s.scr := rfl
@[simp] theorem setCall_maint (r : RecordId) (k : Call) (s : State) : (s.setCall r k).maint = s.maint := rfl
@[simp] theorem setCall_pending (r : RecordId) (k : Call) (s : State) : (s.setCall r k).pending = s.pending := rfl

/-! ### freeRecord -/

@[simp] theorem freeRecord_station (r : RecordId) (s : State) : (s.freeRecord r).station = s.station := rfl
@[simp] theorem freeRecord_clock (r : RecordId) (s : State) : (s.freeRecord r).clock = s.clock := rfl
@[simp] theorem freeRecord_highway (r : RecordId) (s : State) : (s.freeRecord r).highway = s.highway := rfl
@[simp] theorem freeRecord_slots (r : RecordId) (s : State) : (s.freeRecord r).slots = s.slots := rfl
@[simp] theorem freeRecord_ports (r : RecordId) (s : State) : (s.freeRecord r).ports = s.ports := rfl
@[simp] theorem freeRecord_adm (r : RecordId) (s : State) : (s.freeRecord r).adm = s.adm := rfl
@[simp] theorem freeRecord_scr (r : RecordId) (s : State) : (s.freeRecord r).scr = s.scr := rfl
@[simp] theorem freeRecord_maint (r : RecordId) (s : State) : (s.freeRecord r).maint = s.maint := rfl
@[simp] theorem freeRecord_pending (r : RecordId) (s : State) : (s.freeRecord r).pending = s.pending := rfl

/-! ### setTalkPlace -/

@[simp] theorem setTalkPlace_station (l : TalkId) (x : TalkPlace) (s : State) : (s.setTalkPlace l x).station = s.station := rfl
@[simp] theorem setTalkPlace_clock (l : TalkId) (x : TalkPlace) (s : State) : (s.setTalkPlace l x).clock = s.clock := rfl
@[simp] theorem setTalkPlace_highway (l : TalkId) (x : TalkPlace) (s : State) : (s.setTalkPlace l x).highway = s.highway := rfl
@[simp] theorem setTalkPlace_slots (l : TalkId) (x : TalkPlace) (s : State) : (s.setTalkPlace l x).slots = s.slots := rfl
@[simp] theorem setTalkPlace_ports (l : TalkId) (x : TalkPlace) (s : State) : (s.setTalkPlace l x).ports = s.ports := rfl
@[simp] theorem setTalkPlace_adm (l : TalkId) (x : TalkPlace) (s : State) : (s.setTalkPlace l x).adm = s.adm := rfl
@[simp] theorem setTalkPlace_calls (l : TalkId) (x : TalkPlace) (s : State) : (s.setTalkPlace l x).calls = s.calls := rfl
@[simp] theorem setTalkPlace_maint (l : TalkId) (x : TalkPlace) (s : State) : (s.setTalkPlace l x).maint = s.maint := rfl
@[simp] theorem setTalkPlace_pending (l : TalkId) (x : TalkPlace) (s : State) : (s.setTalkPlace l x).pending = s.pending := rfl

/-! ### setTalk -/

@[simp] theorem setTalk_station (l : TalkId) (x : TalkLane) (s : State) : (s.setTalk l x).station = s.station := rfl
@[simp] theorem setTalk_clock (l : TalkId) (x : TalkLane) (s : State) : (s.setTalk l x).clock = s.clock := rfl
@[simp] theorem setTalk_highway (l : TalkId) (x : TalkLane) (s : State) : (s.setTalk l x).highway = s.highway := rfl
@[simp] theorem setTalk_slots (l : TalkId) (x : TalkLane) (s : State) : (s.setTalk l x).slots = s.slots := rfl
@[simp] theorem setTalk_ports (l : TalkId) (x : TalkLane) (s : State) : (s.setTalk l x).ports = s.ports := rfl
@[simp] theorem setTalk_adm (l : TalkId) (x : TalkLane) (s : State) : (s.setTalk l x).adm = s.adm := rfl
@[simp] theorem setTalk_calls (l : TalkId) (x : TalkLane) (s : State) : (s.setTalk l x).calls = s.calls := rfl
@[simp] theorem setTalk_maint (l : TalkId) (x : TalkLane) (s : State) : (s.setTalk l x).maint = s.maint := rfl
@[simp] theorem setTalk_pending (l : TalkId) (x : TalkLane) (s : State) : (s.setTalk l x).pending = s.pending := rfl

/-! ### setListenPlace -/

@[simp] theorem setListenPlace_station (l : ListenId) (x : ListenPlace) (s : State) : (s.setListenPlace l x).station = s.station := rfl
@[simp] theorem setListenPlace_clock (l : ListenId) (x : ListenPlace) (s : State) : (s.setListenPlace l x).clock = s.clock := rfl
@[simp] theorem setListenPlace_highway (l : ListenId) (x : ListenPlace) (s : State) : (s.setListenPlace l x).highway = s.highway := rfl
@[simp] theorem setListenPlace_slots (l : ListenId) (x : ListenPlace) (s : State) : (s.setListenPlace l x).slots = s.slots := rfl
@[simp] theorem setListenPlace_ports (l : ListenId) (x : ListenPlace) (s : State) : (s.setListenPlace l x).ports = s.ports := rfl
@[simp] theorem setListenPlace_adm (l : ListenId) (x : ListenPlace) (s : State) : (s.setListenPlace l x).adm = s.adm := rfl
@[simp] theorem setListenPlace_calls (l : ListenId) (x : ListenPlace) (s : State) : (s.setListenPlace l x).calls = s.calls := rfl
@[simp] theorem setListenPlace_maint (l : ListenId) (x : ListenPlace) (s : State) : (s.setListenPlace l x).maint = s.maint := rfl
@[simp] theorem setListenPlace_pending (l : ListenId) (x : ListenPlace) (s : State) : (s.setListenPlace l x).pending = s.pending := rfl

/-! ### setListen -/

@[simp] theorem setListen_station (l : ListenId) (x : ListenLane) (s : State) : (s.setListen l x).station = s.station := rfl
@[simp] theorem setListen_clock (l : ListenId) (x : ListenLane) (s : State) : (s.setListen l x).clock = s.clock := rfl
@[simp] theorem setListen_highway (l : ListenId) (x : ListenLane) (s : State) : (s.setListen l x).highway = s.highway := rfl
@[simp] theorem setListen_slots (l : ListenId) (x : ListenLane) (s : State) : (s.setListen l x).slots = s.slots := rfl
@[simp] theorem setListen_ports (l : ListenId) (x : ListenLane) (s : State) : (s.setListen l x).ports = s.ports := rfl
@[simp] theorem setListen_adm (l : ListenId) (x : ListenLane) (s : State) : (s.setListen l x).adm = s.adm := rfl
@[simp] theorem setListen_calls (l : ListenId) (x : ListenLane) (s : State) : (s.setListen l x).calls = s.calls := rfl
@[simp] theorem setListen_maint (l : ListenId) (x : ListenLane) (s : State) : (s.setListen l x).maint = s.maint := rfl
@[simp] theorem setListen_pending (l : ListenId) (x : ListenLane) (s : State) : (s.setListen l x).pending = s.pending := rfl

/-! ### setHighway -/

@[simp] theorem setHighway_station (h : Highway) (s : State) : (s.setHighway h).station = s.station := rfl
@[simp] theorem setHighway_clock (h : Highway) (s : State) : (s.setHighway h).clock = s.clock := rfl
@[simp] theorem setHighway_slots (h : Highway) (s : State) : (s.setHighway h).slots = s.slots := rfl
@[simp] theorem setHighway_ports (h : Highway) (s : State) : (s.setHighway h).ports = s.ports := rfl
@[simp] theorem setHighway_adm (h : Highway) (s : State) : (s.setHighway h).adm = s.adm := rfl
@[simp] theorem setHighway_calls (h : Highway) (s : State) : (s.setHighway h).calls = s.calls := rfl
@[simp] theorem setHighway_scr (h : Highway) (s : State) : (s.setHighway h).scr = s.scr := rfl
@[simp] theorem setHighway_maint (h : Highway) (s : State) : (s.setHighway h).maint = s.maint := rfl
@[simp] theorem setHighway_pending (h : Highway) (s : State) : (s.setHighway h).pending = s.pending := rfl

/-! ### setMaint -/

@[simp] theorem setMaint_station (m : Maintenance) (s : State) : (s.setMaint m).station = s.station := rfl
@[simp] theorem setMaint_clock (m : Maintenance) (s : State) : (s.setMaint m).clock = s.clock := rfl
@[simp] theorem setMaint_highway (m : Maintenance) (s : State) : (s.setMaint m).highway = s.highway := rfl
@[simp] theorem setMaint_slots (m : Maintenance) (s : State) : (s.setMaint m).slots = s.slots := rfl
@[simp] theorem setMaint_ports (m : Maintenance) (s : State) : (s.setMaint m).ports = s.ports := rfl
@[simp] theorem setMaint_adm (m : Maintenance) (s : State) : (s.setMaint m).adm = s.adm := rfl
@[simp] theorem setMaint_calls (m : Maintenance) (s : State) : (s.setMaint m).calls = s.calls := rfl
@[simp] theorem setMaint_scr (m : Maintenance) (s : State) : (s.setMaint m).scr = s.scr := rfl
@[simp] theorem setMaint_pending (m : Maintenance) (s : State) : (s.setMaint m).pending = s.pending := rfl

/-! ### setClaims -/

@[simp] theorem setClaims_station (c : List Claim) (s : State) : (s.setClaims c).station = s.station := rfl
@[simp] theorem setClaims_clock (c : List Claim) (s : State) : (s.setClaims c).clock = s.clock := rfl
@[simp] theorem setClaims_highway (c : List Claim) (s : State) : (s.setClaims c).highway = s.highway := rfl
@[simp] theorem setClaims_ports (c : List Claim) (s : State) : (s.setClaims c).ports = s.ports := rfl
@[simp] theorem setClaims_adm (c : List Claim) (s : State) : (s.setClaims c).adm = s.adm := rfl
@[simp] theorem setClaims_calls (c : List Claim) (s : State) : (s.setClaims c).calls = s.calls := rfl
@[simp] theorem setClaims_scr (c : List Claim) (s : State) : (s.setClaims c).scr = s.scr := rfl
@[simp] theorem setClaims_maint (c : List Claim) (s : State) : (s.setClaims c).maint = s.maint := rfl
@[simp] theorem setClaims_pending (c : List Claim) (s : State) : (s.setClaims c).pending = s.pending := rfl

/-! ### setSlot -/

@[simp] theorem setSlot_station (x : Slot) (h : Option Station) (s : State) : (s.setSlot x h).station = s.station := rfl
@[simp] theorem setSlot_clock (x : Slot) (h : Option Station) (s : State) : (s.setSlot x h).clock = s.clock := rfl
@[simp] theorem setSlot_highway (x : Slot) (h : Option Station) (s : State) : (s.setSlot x h).highway = s.highway := rfl
@[simp] theorem setSlot_ports (x : Slot) (h : Option Station) (s : State) : (s.setSlot x h).ports = s.ports := rfl
@[simp] theorem setSlot_adm (x : Slot) (h : Option Station) (s : State) : (s.setSlot x h).adm = s.adm := rfl
@[simp] theorem setSlot_calls (x : Slot) (h : Option Station) (s : State) : (s.setSlot x h).calls = s.calls := rfl
@[simp] theorem setSlot_scr (x : Slot) (h : Option Station) (s : State) : (s.setSlot x h).scr = s.scr := rfl
@[simp] theorem setSlot_maint (x : Slot) (h : Option Station) (s : State) : (s.setSlot x h).maint = s.maint := rfl
@[simp] theorem setSlot_pending (x : Slot) (h : Option Station) (s : State) : (s.setSlot x h).pending = s.pending := rfl

/-! ### setConf -/

@[simp] theorem setConf_station (e : ConfId) (c : Option Conf) (s : State) : (s.setConf e c).station = s.station := rfl
@[simp] theorem setConf_clock (e : ConfId) (c : Option Conf) (s : State) : (s.setConf e c).clock = s.clock := rfl
@[simp] theorem setConf_highway (e : ConfId) (c : Option Conf) (s : State) : (s.setConf e c).highway = s.highway := rfl
@[simp] theorem setConf_slots (e : ConfId) (c : Option Conf) (s : State) : (s.setConf e c).slots = s.slots := rfl
@[simp] theorem setConf_ports (e : ConfId) (c : Option Conf) (s : State) : (s.setConf e c).ports = s.ports := rfl
@[simp] theorem setConf_adm (e : ConfId) (c : Option Conf) (s : State) : (s.setConf e c).adm = s.adm := rfl
@[simp] theorem setConf_scr (e : ConfId) (c : Option Conf) (s : State) : (s.setConf e c).scr = s.scr := rfl
@[simp] theorem setConf_maint (e : ConfId) (c : Option Conf) (s : State) : (s.setConf e c).maint = s.maint := rfl
@[simp] theorem setConf_pending (e : ConfId) (c : Option Conf) (s : State) : (s.setConf e c).pending = s.pending := rfl

/-! ### setQuery -/

@[simp] theorem setQuery_station (q : QueryId) (x : QueryPlace) (s : State) : (s.setQuery q x).station = s.station := rfl
@[simp] theorem setQuery_clock (q : QueryId) (x : QueryPlace) (s : State) : (s.setQuery q x).clock = s.clock := rfl
@[simp] theorem setQuery_highway (q : QueryId) (x : QueryPlace) (s : State) : (s.setQuery q x).highway = s.highway := rfl
@[simp] theorem setQuery_slots (q : QueryId) (x : QueryPlace) (s : State) : (s.setQuery q x).slots = s.slots := rfl
@[simp] theorem setQuery_ports (q : QueryId) (x : QueryPlace) (s : State) : (s.setQuery q x).ports = s.ports := rfl
@[simp] theorem setQuery_calls (q : QueryId) (x : QueryPlace) (s : State) : (s.setQuery q x).calls = s.calls := rfl
@[simp] theorem setQuery_scr (q : QueryId) (x : QueryPlace) (s : State) : (s.setQuery q x).scr = s.scr := rfl
@[simp] theorem setQuery_maint (q : QueryId) (x : QueryPlace) (s : State) : (s.setQuery q x).maint = s.maint := rfl
@[simp] theorem setQuery_pending (q : QueryId) (x : QueryPlace) (s : State) : (s.setQuery q x).pending = s.pending := rfl

/-! ### setWaitList -/

@[simp] theorem setWaitList_station (rs : List RecordId) (s : State) : (s.setWaitList rs).station = s.station := rfl
@[simp] theorem setWaitList_clock (rs : List RecordId) (s : State) : (s.setWaitList rs).clock = s.clock := rfl
@[simp] theorem setWaitList_highway (rs : List RecordId) (s : State) : (s.setWaitList rs).highway = s.highway := rfl
@[simp] theorem setWaitList_slots (rs : List RecordId) (s : State) : (s.setWaitList rs).slots = s.slots := rfl
@[simp] theorem setWaitList_ports (rs : List RecordId) (s : State) : (s.setWaitList rs).ports = s.ports := rfl
@[simp] theorem setWaitList_adm (rs : List RecordId) (s : State) : (s.setWaitList rs).adm = s.adm := rfl
@[simp] theorem setWaitList_scr (rs : List RecordId) (s : State) : (s.setWaitList rs).scr = s.scr := rfl
@[simp] theorem setWaitList_maint (rs : List RecordId) (s : State) : (s.setWaitList rs).maint = s.maint := rfl
@[simp] theorem setWaitList_pending (rs : List RecordId) (s : State) : (s.setWaitList rs).pending = s.pending := rfl

/-! ### setCache -/

@[simp] theorem setCache_station (c : List CacheEntry) (s : State) : (s.setCache c).station = s.station := rfl
@[simp] theorem setCache_clock (c : List CacheEntry) (s : State) : (s.setCache c).clock = s.clock := rfl
@[simp] theorem setCache_highway (c : List CacheEntry) (s : State) : (s.setCache c).highway = s.highway := rfl
@[simp] theorem setCache_slots (c : List CacheEntry) (s : State) : (s.setCache c).slots = s.slots := rfl
@[simp] theorem setCache_ports (c : List CacheEntry) (s : State) : (s.setCache c).ports = s.ports := rfl
@[simp] theorem setCache_calls (c : List CacheEntry) (s : State) : (s.setCache c).calls = s.calls := rfl
@[simp] theorem setCache_scr (c : List CacheEntry) (s : State) : (s.setCache c).scr = s.scr := rfl
@[simp] theorem setCache_maint (c : List CacheEntry) (s : State) : (s.setCache c).maint = s.maint := rfl
@[simp] theorem setCache_pending (c : List CacheEntry) (s : State) : (s.setCache c).pending = s.pending := rfl

/-! ### modCall -/

@[simp] theorem modCall_station (r : RecordId) (f : Call → Call) (s : State) : (s.modCall r f).station = s.station := by
  unfold modCall; split <;> rfl
@[simp] theorem modCall_clock (r : RecordId) (f : Call → Call) (s : State) : (s.modCall r f).clock = s.clock := by
  unfold modCall; split <;> rfl
@[simp] theorem modCall_highway (r : RecordId) (f : Call → Call) (s : State) : (s.modCall r f).highway = s.highway := by
  unfold modCall; split <;> rfl
@[simp] theorem modCall_slots (r : RecordId) (f : Call → Call) (s : State) : (s.modCall r f).slots = s.slots := by
  unfold modCall; split <;> rfl
@[simp] theorem modCall_ports (r : RecordId) (f : Call → Call) (s : State) : (s.modCall r f).ports = s.ports := by
  unfold modCall; split <;> rfl
@[simp] theorem modCall_adm (r : RecordId) (f : Call → Call) (s : State) : (s.modCall r f).adm = s.adm := by
  unfold modCall; split <;> rfl
@[simp] theorem modCall_scr (r : RecordId) (f : Call → Call) (s : State) : (s.modCall r f).scr = s.scr := by
  unfold modCall; split <;> rfl
@[simp] theorem modCall_maint (r : RecordId) (f : Call → Call) (s : State) : (s.modCall r f).maint = s.maint := by
  unfold modCall; split <;> rfl
@[simp] theorem modCall_pending (r : RecordId) (f : Call → Call) (s : State) : (s.modCall r f).pending = s.pending := by
  unfold modCall; split <;> rfl

/-! ### modTalk -/

@[simp] theorem modTalk_station (l : TalkId) (f : TalkLane → TalkLane) (s : State) : (s.modTalk l f).station = s.station := by
  unfold modTalk; split <;> rfl
@[simp] theorem modTalk_clock (l : TalkId) (f : TalkLane → TalkLane) (s : State) : (s.modTalk l f).clock = s.clock := by
  unfold modTalk; split <;> rfl
@[simp] theorem modTalk_highway (l : TalkId) (f : TalkLane → TalkLane) (s : State) : (s.modTalk l f).highway = s.highway := by
  unfold modTalk; split <;> rfl
@[simp] theorem modTalk_slots (l : TalkId) (f : TalkLane → TalkLane) (s : State) : (s.modTalk l f).slots = s.slots := by
  unfold modTalk; split <;> rfl
@[simp] theorem modTalk_ports (l : TalkId) (f : TalkLane → TalkLane) (s : State) : (s.modTalk l f).ports = s.ports := by
  unfold modTalk; split <;> rfl
@[simp] theorem modTalk_adm (l : TalkId) (f : TalkLane → TalkLane) (s : State) : (s.modTalk l f).adm = s.adm := by
  unfold modTalk; split <;> rfl
@[simp] theorem modTalk_calls (l : TalkId) (f : TalkLane → TalkLane) (s : State) : (s.modTalk l f).calls = s.calls := by
  unfold modTalk; split <;> rfl
@[simp] theorem modTalk_maint (l : TalkId) (f : TalkLane → TalkLane) (s : State) : (s.modTalk l f).maint = s.maint := by
  unfold modTalk; split <;> rfl
@[simp] theorem modTalk_pending (l : TalkId) (f : TalkLane → TalkLane) (s : State) : (s.modTalk l f).pending = s.pending := by
  unfold modTalk; split <;> rfl

/-! ### modListen -/

@[simp] theorem modListen_station (l : ListenId) (f : ListenLane → ListenLane) (s : State) : (s.modListen l f).station = s.station := by
  unfold modListen; split <;> rfl
@[simp] theorem modListen_clock (l : ListenId) (f : ListenLane → ListenLane) (s : State) : (s.modListen l f).clock = s.clock := by
  unfold modListen; split <;> rfl
@[simp] theorem modListen_highway (l : ListenId) (f : ListenLane → ListenLane) (s : State) : (s.modListen l f).highway = s.highway := by
  unfold modListen; split <;> rfl
@[simp] theorem modListen_slots (l : ListenId) (f : ListenLane → ListenLane) (s : State) : (s.modListen l f).slots = s.slots := by
  unfold modListen; split <;> rfl
@[simp] theorem modListen_ports (l : ListenId) (f : ListenLane → ListenLane) (s : State) : (s.modListen l f).ports = s.ports := by
  unfold modListen; split <;> rfl
@[simp] theorem modListen_adm (l : ListenId) (f : ListenLane → ListenLane) (s : State) : (s.modListen l f).adm = s.adm := by
  unfold modListen; split <;> rfl
@[simp] theorem modListen_calls (l : ListenId) (f : ListenLane → ListenLane) (s : State) : (s.modListen l f).calls = s.calls := by
  unfold modListen; split <;> rfl
@[simp] theorem modListen_maint (l : ListenId) (f : ListenLane → ListenLane) (s : State) : (s.modListen l f).maint = s.maint := by
  unfold modListen; split <;> rfl
@[simp] theorem modListen_pending (l : ListenId) (f : ListenLane → ListenLane) (s : State) : (s.modListen l f).pending = s.pending := by
  unfold modListen; split <;> rfl

/-! ### Reads after writes -/

@[simp] theorem port_setPort_same (p : Port) (u : PortUnit) (s : State) : (s.setPort p u).port p = u := by
  simp [port, setPort]

theorem port_setPort_ne {p q : Port} (u : PortUnit) (s : State) (h : q ≠ p) : (s.setPort p u).port q = s.port q := by
  simp [port, setPort, upd_get_ne _ _ h]

@[simp] theorem port_modPort_same (p : Port) (f : PortUnit → PortUnit) (s : State) :
    (s.modPort p f).port p = f (s.port p) := by
  simp [modPort]

theorem port_modPort_ne {p q : Port} (f : PortUnit → PortUnit) (s : State) (h : q ≠ p) :
    (s.modPort p f).port q = s.port q := by
  simp [modPort, port_setPort_ne _ _ h]

@[simp] theorem callPort_modCallPort_same (p : Port) (f : CallPort → CallPort) (s : State) :
    (s.modCallPort p f).callPort p = f (s.callPort p) := by
  simp [callPort, modCallPort]

theorem callPort_modCallPort_ne {p q : Port} (f : CallPort → CallPort) (s : State) (h : q ≠ p) :
    (s.modCallPort p f).callPort q = s.callPort q := by
  simp [callPort, modCallPort, upd_get_ne _ _ h]

@[simp] theorem login_modLogin_same (p : Port) (f : LoginPlace → LoginPlace) (s : State) :
    (s.modLogin p f).login p = f (s.login p) := by
  simp [login, modLogin]

theorem login_modLogin_ne {p q : Port} (f : LoginPlace → LoginPlace) (s : State) (h : q ≠ p) :
    (s.modLogin p f).login q = s.login q := by
  simp [login, modLogin, upd_get_ne _ _ h]

@[simp] theorem record_setRecord_same (r : RecordId) (x : CallRecord) (s : State) : (s.setRecord r x).record r = x := by
  simp [record, setRecord]

theorem record_setRecord_ne {r q : RecordId} (x : CallRecord) (s : State) (h : q ≠ r) :
    (s.setRecord r x).record q = s.record q := by
  simp [record, setRecord, upd_get_ne _ _ h]

@[simp] theorem call_setCall_same (r : RecordId) (k : Call) (s : State) : (s.setCall r k).call? r = some k := by
  simp [call?, setCall]

theorem call_setCall_ne {r q : RecordId} (k : Call) (s : State) (h : q ≠ r) : (s.setCall r k).call? q = s.call? q := by
  simp [call?, setCall, record_setRecord_ne _ _ h]

@[simp] theorem call_freeRecord_same (r : RecordId) (s : State) : (s.freeRecord r).call? r = none := by
  simp [call?, freeRecord]

theorem call_freeRecord_ne {r q : RecordId} (s : State) (h : q ≠ r) : (s.freeRecord r).call? q = s.call? q := by
  simp [call?, freeRecord, record_setRecord_ne _ _ h]

theorem call_modCall_same (r : RecordId) (f : Call → Call) (s : State) :
    (s.modCall r f).call? r = (s.call? r).map f := by
  unfold modCall
  cases h : s.call? r <;> simp [h]

theorem call_modCall_ne {r q : RecordId} (f : Call → Call) (s : State) (h : q ≠ r) :
    (s.modCall r f).call? q = s.call? q := by
  unfold modCall
  cases s.call? r <;> simp [call_setCall_ne _ _ h]

@[simp] theorem talkPlace_setTalkPlace_same (l : TalkId) (x : TalkPlace) (s : State) :
    (s.setTalkPlace l x).talkPlace l = x := by
  simp [talkPlace, setTalkPlace]

theorem talkPlace_setTalkPlace_ne {l j : TalkId} (x : TalkPlace) (s : State) (h : j ≠ l) :
    (s.setTalkPlace l x).talkPlace j = s.talkPlace j := by
  simp [talkPlace, setTalkPlace, upd_get_ne _ _ h]

@[simp] theorem talk_setTalk_same (l : TalkId) (x : TalkLane) (s : State) : (s.setTalk l x).talk? l = some x := by
  simp [talk?, setTalk]

theorem talk_setTalk_ne {l j : TalkId} (x : TalkLane) (s : State) (h : j ≠ l) :
    (s.setTalk l x).talk? j = s.talk? j := by
  simp [talk?, setTalk, talkPlace_setTalkPlace_ne _ _ h]

theorem talk_modTalk_same (l : TalkId) (f : TalkLane → TalkLane) (s : State) :
    (s.modTalk l f).talk? l = (s.talk? l).map f := by
  unfold modTalk
  cases h : s.talk? l <;> simp [h]

theorem talk_modTalk_ne {l j : TalkId} (f : TalkLane → TalkLane) (s : State) (h : j ≠ l) :
    (s.modTalk l f).talk? j = s.talk? j := by
  unfold modTalk
  cases s.talk? l <;> simp [talk_setTalk_ne _ _ h]

@[simp] theorem listenPlace_setListenPlace_same (l : ListenId) (x : ListenPlace) (s : State) :
    (s.setListenPlace l x).listenPlace l = x := by
  simp [listenPlace, setListenPlace]

theorem listenPlace_setListenPlace_ne {l j : ListenId} (x : ListenPlace) (s : State) (h : j ≠ l) :
    (s.setListenPlace l x).listenPlace j = s.listenPlace j := by
  simp [listenPlace, setListenPlace, upd_get_ne _ _ h]

@[simp] theorem listen_setListen_same (l : ListenId) (x : ListenLane) (s : State) :
    (s.setListen l x).listen? l = some x := by
  simp [listen?, setListen]

theorem listen_setListen_ne {l j : ListenId} (x : ListenLane) (s : State) (h : j ≠ l) :
    (s.setListen l x).listen? j = s.listen? j := by
  simp [listen?, setListen, listenPlace_setListenPlace_ne _ _ h]

theorem listen_modListen_same (l : ListenId) (f : ListenLane → ListenLane) (s : State) :
    (s.modListen l f).listen? l = (s.listen? l).map f := by
  unfold modListen
  cases h : s.listen? l <;> simp [h]

theorem listen_modListen_ne {l j : ListenId} (f : ListenLane → ListenLane) (s : State) (h : j ≠ l) :
    (s.modListen l f).listen? j = s.listen? j := by
  unfold modListen
  cases s.listen? l <;> simp [listen_setListen_ne _ _ h]

@[simp] theorem map_setSlot_same (x : Slot) (h : Option Station) (s : State) : (s.setSlot x h).slots.map.get x = h := by
  simp [setSlot]

theorem map_setSlot_ne {x y : Slot} (h : Option Station) (s : State) (ne : y ≠ x) :
    (s.setSlot x h).slots.map.get y = s.slots.map.get y := by
  simp [setSlot, upd_get_ne _ _ ne]

@[simp] theorem setSlot_claims (x : Slot) (h : Option Station) (s : State) :
    (s.setSlot x h).slots.claims = s.slots.claims := rfl

@[simp] theorem setClaims_claims (c : List Claim) (s : State) : (s.setClaims c).slots.claims = c := rfl

@[simp] theorem setClaims_map (c : List Claim) (s : State) : (s.setClaims c).slots.map = s.slots.map := rfl

@[simp] theorem setHighway_highway (h : Highway) (s : State) : (s.setHighway h).highway = h := rfl

@[simp] theorem setMaint_maint (m : Maintenance) (s : State) : (s.setMaint m).maint = m := rfl

@[simp] theorem conf_setConf_same (e : ConfId) (c : Option Conf) (s : State) :
    (s.setConf e c).calls.confs.get e = c := by
  simp [setConf]

theorem conf_setConf_ne {e d : ConfId} (c : Option Conf) (s : State) (h : d ≠ e) :
    (s.setConf e c).calls.confs.get d = s.calls.confs.get d := by
  simp [setConf, upd_get_ne _ _ h]

@[simp] theorem query_setQuery_same (q : QueryId) (x : QueryPlace) (s : State) :
    (s.setQuery q x).adm.queries.get q = x := by
  simp [setQuery]

theorem query_setQuery_ne {q j : QueryId} (x : QueryPlace) (s : State) (h : j ≠ q) :
    (s.setQuery q x).adm.queries.get j = s.adm.queries.get j := by
  simp [setQuery, upd_get_ne _ _ h]

@[simp] theorem setWaitList_waitList (rs : List RecordId) (s : State) : (s.setWaitList rs).calls.waitList = rs := rfl

@[simp] theorem setCache_cache (c : List CacheEntry) (s : State) : (s.setCache c).adm.cache = c := rfl

end Sys2Proof.Machine.State
end

