-- ==== Sys2Proof/Laws/Ops.lean ====
section
/-! SUPPORT. One lemma for each shared operation of Ops, Store and Ports that says all it can do; provers cite these
and unfold the operations no further. -/

namespace Sys2Proof.Machine.State

open Sys2Proof

/-! ### Faults (R169, R170) -/

/-- A fault touches counters, fault record and the pending mark of the NOTICE, and nothing else. -/
theorem recordFault_frame (k : FaultKind) (w : Station) (h : Option (List Byte)) (s : State) :
    ∃ (c : Vector Nat 12) (f : FaultRecord) (m : Bool), s.recordFault k w h = { s with
      highway := { s.highway with counters := c, fault := f }, maint := { s.maint with pending := m } } :=
  ⟨_, _, _, rfl⟩

@[simp] theorem recordFault_station (k : FaultKind) (w : Station) (h : Option (List Byte)) (s : State) :
    (s.recordFault k w h).station = s.station := rfl
@[simp] theorem recordFault_clock (k : FaultKind) (w : Station) (h : Option (List Byte)) (s : State) :
    (s.recordFault k w h).clock = s.clock := rfl
@[simp] theorem recordFault_slots (k : FaultKind) (w : Station) (h : Option (List Byte)) (s : State) :
    (s.recordFault k w h).slots = s.slots := rfl
@[simp] theorem recordFault_ports (k : FaultKind) (w : Station) (h : Option (List Byte)) (s : State) :
    (s.recordFault k w h).ports = s.ports := rfl
@[simp] theorem recordFault_adm (k : FaultKind) (w : Station) (h : Option (List Byte)) (s : State) :
    (s.recordFault k w h).adm = s.adm := rfl
@[simp] theorem recordFault_calls (k : FaultKind) (w : Station) (h : Option (List Byte)) (s : State) :
    (s.recordFault k w h).calls = s.calls := rfl
@[simp] theorem recordFault_scr (k : FaultKind) (w : Station) (h : Option (List Byte)) (s : State) :
    (s.recordFault k w h).scr = s.scr := rfl
@[simp] theorem recordFault_pending (k : FaultKind) (w : Station) (h : Option (List Byte)) (s : State) :
    (s.recordFault k w h).pending = s.pending := rfl
@[simp] theorem recordFault_queue (k : FaultKind) (w : Station) (h : Option (List Byte)) (s : State) :
    (s.recordFault k w h).highway.queue = s.highway.queue := rfl
@[simp] theorem recordFault_store (k : FaultKind) (w : Station) (h : Option (List Byte)) (s : State) :
    (s.recordFault k w h).highway.store = s.highway.store := rfl

/-- The counter of the kind goes up and stops at 65535. -/
theorem recordFault_counter_same (k : FaultKind) (w : Station) (h : Option (List Byte)) (s : State) :
    (s.recordFault k w h).highway.counters.get k.index = saturate 65535 (s.highway.counters.get k.index) := by
  simp [recordFault]

theorem recordFault_counter_ne {k : FaultKind} {j : Fin 12} (w : Station) (h : Option (List Byte)) (s : State)
    (ne : j ≠ k.index) : (s.recordFault k w h).highway.counters.get j = s.highway.counters.get j := by
  simp [recordFault, upd_get_ne _ _ ne]

/-! ### The transmit queue (R159) -/

/-- What an offer can do: the cell joins the end of the queue; or it is refused and counted while ACTIVE; or it is
refused without a count. -/
theorem offer_cases (c : Cell) (n : OfferName) (s : State) :
    (s.accepts c.body = true ∧ s.offer c n = (s.enqueue ⟨c, n⟩, true)) ∨
    (s.accepts c.body = false ∧ s.station.state = .active ∧
      s.offer c n = (s.recordFault .queueFull s.self (some c.header), false)) ∨
    (s.accepts c.body = false ∧ s.station.state ≠ .active ∧ s.offer c n = (s, false)) := by
  by_cases ha : s.accepts c.body = true
  · simp [offer, ha]
  · by_cases hs : s.station.state = .active <;> simp [offer, ha, active, hs]

/-- A queue of fewer than 20 cells accepts every cell while ACTIVE. -/
theorem accepts_of_room {s : State} (b : Body) (ha : s.station.state = .active) (hq : s.highway.queue.length < 20) :
    s.accepts b = true := by
  simp [accepts, active, ha, hq]

theorem offer_of_room {s : State} (c : Cell) (n : OfferName) (ha : s.station.state = .active)
    (hq : s.highway.queue.length < 20) : s.offer c n = (s.enqueue ⟨c, n⟩, true) := by
  simp [offer, accepts_of_room c.body ha hq]

@[simp] theorem enqueue_queue (q : Queued) (s : State) : (s.enqueue q).highway.queue = s.highway.queue ++ [q] := rfl
@[simp] theorem enqueue_station (q : Queued) (s : State) : (s.enqueue q).station = s.station := rfl
@[simp] theorem enqueue_calls (q : Queued) (s : State) : (s.enqueue q).calls = s.calls := rfl
@[simp] theorem enqueue_adm (q : Queued) (s : State) : (s.enqueue q).adm = s.adm := rfl
@[simp] theorem enqueue_scr (q : Queued) (s : State) : (s.enqueue q).scr = s.scr := rfl
@[simp] theorem enqueue_slots (q : Queued) (s : State) : (s.enqueue q).slots = s.slots := rfl
@[simp] theorem enqueue_ports (q : Queued) (s : State) : (s.enqueue q).ports = s.ports := rfl
@[simp] theorem enqueue_clock (q : Queued) (s : State) : (s.enqueue q).clock = s.clock := rfl
@[simp] theorem enqueue_maint (q : Queued) (s : State) : (s.enqueue q).maint = s.maint := rfl
@[simp] theorem enqueue_pending (q : Queued) (s : State) : (s.enqueue q).pending = s.pending := rfl

/-- A block's own tables are never touched by an offer. -/
theorem offer_frame (c : Cell) (n : OfferName) (s : State) :
    let t := (s.offer c n).1
    t.station = s.station ∧ t.clock = s.clock ∧ t.slots = s.slots ∧ t.ports = s.ports ∧ t.adm = s.adm ∧
      t.calls = s.calls ∧ t.scr = s.scr ∧ t.pending = s.pending ∧ t.highway.store = s.highway.store := by
  rcases offer_cases c n s with ⟨-, h⟩ | ⟨-, -, h⟩ | ⟨-, -, h⟩ <;> simp [h, enqueue]

/-- The queue keeps its capacity of 24. -/
theorem offer_queue_le (c : Cell) (n : OfferName) (s : State) (h : s.highway.queue.length ≤ 24) :
    (s.offer c n).1.highway.queue.length ≤ 24 := by
  rcases offer_cases c n s with ⟨ha, he⟩ | ⟨-, -, he⟩ | ⟨-, -, he⟩
  · have : s.highway.queue.length < 24 := by
      simp only [accepts, Bool.and_eq_true, Bool.or_eq_true, decide_eq_true_eq] at ha
      omega
    simp [he]; omega
  · simpa [he] using h
  · simpa [he] using h

/-! ### What a set receives (R153) -/

/-- A tone reaches a set whose port is UP and stops the burst timer; at any other port it is discarded. -/
theorem setTone_cases (p : Port) (x : Tone) (s : State) :
    ((s.port p).state = .up ∧ s.setTone p x =
      (s.modPort p fun u => { u with tone := x }).modCallPort p fun c => { c with burst := none }) ∨
    ((s.port p).state ≠ .up ∧ s.setTone p x = s) := by
  by_cases h : (s.port p).state = .up <;> simp [setTone, h]

theorem setRing_cases (p : Port) (on : Bool) (s : State) :
    ((s.port p).state = .up ∧ s.setRing p on = s.modPort p fun u => { u with ring := on }) ∨
    ((s.port p).state ≠ .up ∧ s.setRing p on = s) := by
  by_cases h : (s.port p).state = .up <;> simp [setRing, h]

/-- A message is the newest of the outbound list, whose oldest leaves when it holds 4. -/
theorem sendMessage_cases (p : Port) (m : SetMessage) (s : State) :
    ((s.port p).state = .up ∧ ((s.port p).outbound.length < 4 ∧
        s.sendMessage p m = s.modPort p (fun u => { u with outbound := (s.port p).outbound ++ [m] }) ∨
      4 ≤ (s.port p).outbound.length ∧
        s.sendMessage p m = s.modPort p (fun u => { u with outbound := (s.port p).outbound.drop 1 ++ [m] }))) ∨
    ((s.port p).state ≠ .up ∧ s.sendMessage p m = s) := by
  by_cases h : (s.port p).state = .up
  · by_cases hl : (s.port p).outbound.length < 4
    · exact Or.inl ⟨h, Or.inl ⟨hl, by simp [sendMessage, h, modPort, hl]⟩⟩
    · exact Or.inl ⟨h, Or.inr ⟨by omega, by simp [sendMessage, h, modPort, hl]⟩⟩
  · exact Or.inr ⟨h, by simp [sendMessage, h]⟩

theorem sendMessage_last {p : Port} {s : State} (m : SetMessage) (h : (s.port p).state = .up) :
    ((s.sendMessage p m).port p).outbound.getLast? = some m := by
  simp [sendMessage, h]

/-- A refusal burst, or nothing at a set that is on-hook (R72). -/
theorem refuseKey_cases (p : Port) (s : State) :
    ((s.callPort p).hookView = .off ∧
      s.refuseKey p = (s.setTone p .reorder).modCallPort p fun c => { c with burst := some 25 }) ∨
    ((s.callPort p).hookView ≠ .off ∧ s.refuseKey p = s) := by
  by_cases h : (s.callPort p).hookView = .off <;> simp [refuseKey, h]

/-! ### The key mixer's queue (R105) and the nonce source (R108) -/

/-- A request is the newest of the queue, or the queue is full and MIXER-FULL is counted. -/
theorem mixRequest_cases (who : Requester) (key : Key) (a b : Nonce) (n : Nat) (s : State) :
    (s.scr.mixer.length < 16 ∧ s.mixRequest who key a b n = ({ s with scr := { s.scr with
        mixer := s.scr.mixer ++ [{ requester := who, key := key, nonceA := a, nonceB := b, count := n }] } }, true)) ∨
    (16 ≤ s.scr.mixer.length ∧ s.mixRequest who key a b n = (s.recordFault .mixerFull s.self none, false)) := by
  by_cases h : s.scr.mixer.length < 16
  · simp [mixRequest, h]
  · exact Or.inr ⟨by omega, by simp [mixRequest, h]⟩

theorem mixRequest_le (who : Requester) (key : Key) (a b : Nonce) (n : Nat) (s : State)
    (h : s.scr.mixer.length ≤ 16) : (s.mixRequest who key a b n).1.scr.mixer.length ≤ 16 := by
  rcases mixRequest_cases who key a b n s with ⟨hl, he⟩ | ⟨-, he⟩
  · simp [he]; omega
  · simpa [he] using h

/-- A draw touches the list of values given, and nothing else. -/
theorem drawNonce_eq (s : State) :
    s.drawNonce.1 = { s with scr := { s.scr with noncesGiven := s.drawNonce.2 :: s.scr.noncesGiven } } := rfl

/-! ### The receive store (R162) -/

/-- A consumer takes its next cell and acts, or nothing changes. -/
theorem consume_cases (c : StoreClass) (kind : Body → Bool) (act : Stored → State → State) (s : State) :
    (∃ x, s.nextCell c = some x ∧ kind x.cell.body = true ∧ s.consume c kind act = act x (s.takeCell c)) ∨
    s.consume c kind act = s := by
  unfold consume
  cases h : s.nextCell c with
  | none => exact Or.inr rfl
  | some x =>
    by_cases hk : kind x.cell.body = true
    · exact Or.inl ⟨x, rfl, hk, by simp [hk]⟩
    · exact Or.inr (by simp [hk])

theorem consume_of_next {c : StoreClass} {kind : Body → Bool} {act : Stored → State → State} {s : State} {x : Stored}
    (h : s.nextCell c = some x) (hk : kind x.cell.body = true) : s.consume c kind act = act x (s.takeCell c) := by
  simp [consume, h, hk]

/-- The next cell is the first of its class in the store, and the consumer has taken none at this frame end. -/
theorem nextCell_spec {s : State} {c : StoreClass} {x : Stored} (h : s.nextCell c = some x) :
    c ∉ s.highway.taken ∧ x ∈ s.highway.store ∧ x.inClass c = true := by
  unfold nextCell at h
  split at h
  · cases h
  · rename_i hc
    exact ⟨by simpa using hc, List.mem_of_find?_eq_some h,
      by simpa using List.find?_some (p := fun x : Stored => x.inClass c) h⟩

theorem eraseP_eq_erase_of_find {α : Type} [BEq α] [LawfulBEq α] (p : α → Bool) :
    ∀ (xs : List α) (x : α), xs.find? p = some x → xs.eraseP p = xs.erase x
  | [], _, h => by simp at h
  | y :: ys, x, h => by
    by_cases hy : p y = true
    · obtain rfl : y = x := by simpa [List.find?_cons, hy] using h
      simp [hy]
    · have hx : p x = true := List.find?_some h
      have hne : y ≠ x := fun e => hy (e ▸ hx)
      have h' : ys.find? p = some x := by simpa [List.find?_cons, hy] using h
      simp [hy, hne, eraseP_eq_erase_of_find p ys x h']

/-- The cell that leaves the store is the one the consumer takes next. -/
theorem takeCell_of_next {s : State} {c : StoreClass} {x : Stored} (h : s.nextCell c = some x) :
    s.takeCell c = { s with highway := { s.highway with
      store := s.highway.store.erase x, taken := s.highway.taken ++ [c] } } := by
  have hf : s.highway.store.find? (fun y => y.inClass c) = some x := by
    unfold nextCell at h
    split at h
    · cases h
    · exact h
  simp [takeCell, setHighway, eraseP_eq_erase_of_find _ _ _ hf]

@[simp] theorem takeCell_queue (c : StoreClass) (s : State) : (s.takeCell c).highway.queue = s.highway.queue := rfl
@[simp] theorem takeCell_station (c : StoreClass) (s : State) : (s.takeCell c).station = s.station := rfl
@[simp] theorem takeCell_calls (c : StoreClass) (s : State) : (s.takeCell c).calls = s.calls := rfl
@[simp] theorem takeCell_adm (c : StoreClass) (s : State) : (s.takeCell c).adm = s.adm := rfl
@[simp] theorem takeCell_scr (c : StoreClass) (s : State) : (s.takeCell c).scr = s.scr := rfl
@[simp] theorem takeCell_ports (c : StoreClass) (s : State) : (s.takeCell c).ports = s.ports := rfl
@[simp] theorem takeCell_slots (c : StoreClass) (s : State) : (s.takeCell c).slots = s.slots := rfl
@[simp] theorem takeCell_maint (c : StoreClass) (s : State) : (s.takeCell c).maint = s.maint := rfl
@[simp] theorem takeCell_clock (c : StoreClass) (s : State) : (s.takeCell c).clock = s.clock := rfl
@[simp] theorem takeCell_pending (c : StoreClass) (s : State) : (s.takeCell c).pending = s.pending := rfl

/-! ### Port events (R150) -/

/-- An event that is due and has a taker leaves its latch and is acted on; otherwise nothing changes. -/
theorem takeOffer_cases (p : Port) (taker : PortEvent → Option (State → State)) (s : State) :
    (∃ e act, s.dueEvent p = some e ∧ taker e = some act ∧
      s.takeOffer p taker = act (s.modPort p fun u => u.release e)) ∨
    s.takeOffer p taker = s := by
  unfold takeOffer
  cases h : s.dueEvent p with
  | none => exact Or.inr rfl
  | some e =>
    cases ht : taker e with
    | none => exact Or.inr (by simp [ht])
    | some act => exact Or.inl ⟨e, act, rfl, ht, by simp [ht]⟩

/-- A due event is latched, not yet offered at this frame end, and of a priority above the level (R150, R151). -/
theorem dueEvent_spec {s : State} {p : Port} {e : PortEvent} (h : s.dueEvent p = some e) :
    (s.port p).offered = false ∧ e ∈ (s.port p).latched ∧ s.level p < e.priority := by
  unfold dueEvent at h
  split at h
  · cases h
  · rename_i ho
    exact ⟨by simpa using ho, List.mem_of_find?_eq_some h, by simpa using List.find?_some (p := fun e : PortEvent => decide (s.level p < e.priority)) h⟩

/-! ### What a CALL cell names (R64, R86) -/

theorem namedRecord_eq_some_iff {s : State} {x : Cell} {r : RecordId} : s.namedRecord x = some r ↔
    s.recordOf x.receiver = some r ∧ ∃ k, s.call? r = some k ∧ k.confRole ≠ .controller ∧
      k.farStation = some x.source ∧ senderMatches x k = true := by
  unfold namedRecord
  cases h : s.recordOf x.receiver with
  | none => simp
  | some q =>
    cases hk : s.call? q with
    | none =>
      simp only [hk, Option.some.injEq, reduceCtorEq, false_iff, not_and]
      rintro rfl ⟨k, h', -⟩
      simp [hk] at h'
    | some k =>
      simp only [hk, Option.ite_none_right_eq_some, Option.some.injEq]
      constructor
      · rintro ⟨h1, rfl⟩
        exact ⟨rfl, k, hk, h1⟩
      · rintro ⟨rfl, k', h2, h1⟩
        obtain rfl : k = k' := by simpa [hk] using h2
        exact ⟨h1, rfl⟩

/-- A CALL-CLEAR GONE is right under the far call tag, and at a MEMBER record under the controller's (log 64). -/
theorem senderMatches_gone {x : Cell} {k : Call} (h : x.body = .callClear .gone) :
    senderMatches x k = true ↔ x.sender = k.farTag ∨ (k.confRole = .member ∧ x.sender = k.controllerTag) := by
  simp [senderMatches, h]

end Sys2Proof.Machine.State
end

