-- ==== Sys2Proof/Laws/Step.lean ====
section
/-! SUPPORT. What a step can do, said once, and the lemmas of the words the statements use. -/

namespace Sys2Proof.Machine

open Sys2Proof

/-- Every command answers a next state: the spec stops no command (R169 makes its faults state). -/
theorem exec_next (c : Instr) (s : State) : ∃ t, exec c s = .next t := by
  cases c <;> exact ⟨_, rfl⟩

/-- A step runs the command at the front, or is one place of the sequencer. -/
theorem step_cases {s t : State} (h : step s = .next t) :
    (∃ c rest, s.pending = c :: rest ∧ exec c { s with pending := rest } = .next t) ∨
    (s.pending = [] ∧ t = s.idle) := by
  unfold step at h
  split at h
  · exact Or.inl ⟨_, _, by assumption, h⟩
  · exact Or.inr ⟨by assumption, by cases h; rfl⟩

theorem step_next (s : State) : ∃ t, step s = .next t := by
  unfold step
  split
  · exact exec_next _ _
  · exact ⟨_, rfl⟩

/-- The sequencer's own effect, the commands it makes due, and the clock's next place. -/
theorem idle_eq (s : State) :
    s.idle = { s.stageEffect with
      pending := s.stageEffect.stageCommands, clock := s.stageEffect.clock.advance } := rfl

@[simp] theorem stageEffect_clock (s : State) : s.stageEffect.clock = s.clock := by
  unfold State.stageEffect
  split <;> first | rfl | (split <;> rfl)

@[simp] theorem stageEffect_image (s : State) : s.stageEffect.station.image = s.station.image := by
  unfold State.stageEffect
  split <;> first | rfl | (split <;> rfl)

@[simp] theorem stageEffect_state (s : State) : s.stageEffect.station.state = s.station.state := by
  unfold State.stageEffect
  split <;> first | rfl | (split <;> rfl)

/-- A command whose meaning is known completes as its meaning says. -/
theorem completes_of_exec {c : Instr} {s t : State} {P : State → Prop} (h : exec c s = .next t) (hp : P t) :
    Completes c s P :=
  ⟨t, h, hp⟩

theorem Completes.mono {c : Instr} {s : State} {P Q : State → Prop} (h : Completes c s P) (f : ∀ t, P t → Q t) :
    Completes c s Q :=
  let ⟨t, he, hp⟩ := h
  ⟨t, he, f t hp⟩

/-- Room for `n + 1` cells is room for one, and for `n` after it. -/
theorem QueueRoom.offer {n : Nat} {s : State} (h : QueueRoom (n + 1) s) (c : Cell) (x : OfferName) :
    s.offer c x = (s.enqueue ⟨c, x⟩, true) ∧ QueueRoom n (s.enqueue ⟨c, x⟩) := by
  obtain ⟨ha, hq⟩ := h
  refine ⟨State.offer_of_room c x ha (by omega), ha, ?_⟩
  simp only [State.enqueue_queue, List.length_append, List.length_singleton]
  omega

/-! ### The nonce source (R108) -/

/-- Of more candidates than values given, one is unused: the source never repeats a value while one is left. -/
theorem firstUnused_notMem (given : List Nonce) (c : Nonce) (h : given.length < 2 ^ 64) :
    State.firstUnused given c ∉ given := by
  unfold State.firstUnused
  cases hf : ((List.range (given.length + 1)).map fun k => c + BitVec.ofNat 64 k).find?
      (fun x => !given.contains x) with
  | some x => simpa using List.find?_some (p := fun x => !given.contains x) hf
  | none =>
    exfalso
    have hall := List.find?_eq_none.1 hf
    have hsub : ((List.range (given.length + 1)).map fun k => c + BitVec.ofNat 64 k) ⊆ given := by
      intro x hx
      simpa using hall x hx
    have hnd : ((List.range (given.length + 1)).map fun k => c + BitVec.ofNat 64 k).Nodup := by
      refine List.Nodup.map_on ?_ List.nodup_range
      intro a ha b hb hab
      simp only [List.mem_range] at ha hb
      have := congrArg BitVec.toNat ((add_right_inj c).1 hab)
      simp only [BitVec.toNat_ofNat] at this
      rwa [Nat.mod_eq_of_lt (by omega), Nat.mod_eq_of_lt (by omega)] at this
    have := (hnd.subperm hsub).length_le
    simp at this

theorem drawNonce_fresh (s : State) (h : s.scr.noncesGiven.length < 2 ^ 64) :
    s.drawNonce.2 ∉ s.scr.noncesGiven :=
  firstUnused_notMem _ _ h

end Sys2Proof.Machine
end

