-- ==== Sys2Proof/Laws/Lanes.lean ====
section
/-! SUPPORT. One lemma for each shared operation over lanes, slots and call records: opening, closing, claiming,
clearing. -/

namespace Sys2Proof.Machine.State

open Sys2Proof

/-! ### Slots (R91, R92, R95) -/

/-- The slot an attempt names is FREE in the map and named by no entry (R91). -/
theorem selectSlot_claimable {s : State} {x : Slot} (h : s.selectSlot = some x) : Claimable s x := by
  have hp := List.find?_some (p := fun x => (s.holder x).isNone && !s.slots.claims.any (fun e => e.names x)) h
  simp only [Bool.and_eq_true, Option.isNone_iff_eq_none, Bool.not_eq_true', List.any_eq_false] at hp
  refine ⟨hp.1, fun e he => ?_⟩
  have := hp.2 e he
  simp only [Claim.names, Bool.or_eq_true, decide_eq_true_eq, not_or] at this
  exact this

/-- An entry that joins the list stands last, marked when its cell was refused (R92, R96). -/
theorem addClaim_claims (e : Claim) (s : State) :
    (s.addClaim e).slots.claims = s.slots.claims ++
      [{ e with refused := !(s.offerClaim e).2, fresh := !(s.offerClaim e).2 }] := by
  have h := (offer_frame (s.cellToAll (.slot e.cell)) (.slotCell e.cell) s).2.2.1
  simp [addClaim, offerClaim, h]

theorem addClaim_map (e : Claim) (s : State) : (s.addClaim e).slots.map = s.slots.map := by
  have h := (offer_frame (s.cellToAll (.slot e.cell)) (.slotCell e.cell) s).2.2.1
  simp [addClaim, offerClaim, h]

/-- A slot given up is FREE, and every other slot stays (R95). -/
theorem releaseSlot_map (x : Slot) (s : State) : (s.releaseSlot x).slots.map = upd s.slots.map x none := by
  simp [releaseSlot, addClaim_map, setSlot]

/-- A slot shown as this station's own stays so only where a talk lane is ACTIVE on it; every other slot stays
(R89). -/
theorem freeIdleSlots_get (x : Slot) (s : State) :
    s.freeIdleSlots.slots.map.get x = if s.holder x = some s.self ∧ ∀ l, s.activeSlot l ≠ some x then none
      else s.slots.map.get x := by
  simp only [freeIdleSlots, holder, Vector.get_eq_getElem, Vector.getElem_ofFn]
  refine if_congr ?_ rfl rfl
  simp

@[simp] theorem freeIdleSlots_claims (s : State) : s.freeIdleSlots.slots.claims = s.slots.claims := by
  unfold freeIdleSlots; rfl
@[simp] theorem freeIdleSlots_scr (s : State) : s.freeIdleSlots.scr = s.scr := by
  unfold freeIdleSlots; rfl
@[simp] theorem freeIdleSlots_station (s : State) : s.freeIdleSlots.station = s.station := by
  unfold freeIdleSlots; rfl

/-! ### Listen lanes (R125) -/

/-- No lane opens when none is FREE; otherwise the first FREE one does. -/
theorem openListen_cases (r : RecordId) (u : Purpose) (st : Station) (tag : Tag) (x : Slot)
    (ns : Option (Nonce × Nonce)) (s : State) :
    (s.freeListens = [] ∧ s.openListen r u st tag x ns = (s, false)) ∨
    (∃ l rest, s.freeListens = l :: rest ∧ (s.openListen r u st tag x ns).2 = true) := by
  unfold openListen
  cases h : s.freeListens with
  | nil => exact Or.inl ⟨rfl, rfl⟩
  | cons l rest => exact Or.inr ⟨l, rest, rfl, rfl⟩

/-- A closed lane is FREE, and the others stay as they are. -/
theorem listen_closeListen_same (l : ListenId) (s : State) : (s.closeListen l).listen? l = none := by
  unfold closeListen
  cases h : s.listen? l with
  | none => simpa using h
  | some t =>
    simp [listen?, listenPlace, setListenPlace]

theorem listen_closeListen_ne {l j : ListenId} (s : State) (ne : j ≠ l) :
    (s.closeListen l).listen? j = s.listen? j := by
  unfold closeListen
  cases s.listen? l with
  | none => rfl
  | some t =>
    simp [listen?, listenPlace, setListenPlace, upd_get_ne _ _ ne]

/-- No two of the places a record's lanes are set to name one record (R83, log 48). -/
theorem distinctPlaces_nodup (ms : List MemberPlace) :
    ((distinctPlaces ms).map fun m => (m.station, m.tag)).Nodup := by
  suffices h : ∀ (ms done : List MemberPlace), (done.map fun m => (m.station, m.tag)).Nodup →
      ((ms.foldl (fun done m => if done.any fun d => d.station == m.station && d.tag == m.tag then done
        else done ++ [m]) done).map fun m => (m.station, m.tag)).Nodup from h ms [] List.nodup_nil
  intro ms
  induction ms with
  | nil => exact fun _ h => h
  | cons m ms ih =>
    intro done h
    refine ih _ ?_
    dsimp only
    split
    · exact h
    · rename_i hd
      rw [List.map_append, List.nodup_append]
      refine ⟨h, by simp, ?_⟩
      simp only [List.mem_map, List.map_cons, List.map_nil, List.mem_singleton]
      rintro _ ⟨d, hm, rfl⟩ _ rfl e
      simp only [Prod.mk.injEq] at e
      exact hd (List.any_eq_true.2 ⟨d, hm, by simp [e.1, e.2]⟩)

/-! ### Talk lanes (R110, R111) -/

/-- Without a FREE lane, or without a slot for the first attempt, the record gets NO-SLOT. -/
theorem openTalk_none (r : RecordId) (p : Option Nonce) (s : State) (h : s.firstFreeTalk = none) :
    s.openTalk r p = (s, false) := by
  simp [openTalk, h]

theorem firstFreeTalk_free {s : State} {l : TalkId} (h : s.firstFreeTalk = some l) : s.talk? l = none := by
  simpa using List.find?_some (p := fun l => (s.talk? l).isNone) h

theorem firstFreeRecord_free {s : State} {r : RecordId} (h : s.firstFreeRecord = some r) : s.call? r = none := by
  simpa using List.find?_some (p := fun r => (s.call? r).isNone) h

/-- The mark of a refused KEY-NEXT touches the staged key alone (R119). -/
theorem talk_markRefusedNext (l : TalkId) (s : State) :
    (s.markRefusedNext l).talk? l = (s.talk? l).map fun t => { t with
      staged := t.staged.map fun g => { g with fresh := decide (t.state = .active) && !g.queued } } :=
  talk_modTalk_same l _ s

/-- A KEY-NEXT refused in the present frame is not offered at its boundary (R119). -/
theorem keyNextReoffer_fresh {l : TalkId} {s : State} {t : TalkLane} {g : TalkStaged} (lane : s.talk? l = some t)
    (staged : t.staged = some g) (fresh : g.fresh = true) : s.keyNextReoffer l = s := by
  simp [keyNextReoffer, lane, staged, fresh]

/-- A rekey in progress, or a lane that cannot rekey, only notes the trigger (R118). -/
theorem rekeyTrigger_inProgress {l : TalkId} {s : State} {t : TalkLane} (nonce : Option Nonce)
    (lane : s.talk? l = some t) (busy : t.mayRekey = false) :
    s.rekeyTrigger l nonce = s.setTalk l { t with wanted := t.wanted.trigger nonce } := by
  simp [rekeyTrigger, modTalk, lane, busy]

/-! ### Clearing (R62) -/

/-- A cleared record is FREE at once, or in CLEARING for the cells it waits for. -/
theorem awaitClears_cases (r : RecordId) (n : Nat) (s : State) :
    (n = 0 ∧ s.awaitClears r n = s.freeRecord r) ∨
    (n ≠ 0 ∧ s.awaitClears r n = s.modCall r fun k => { k with state := .clearing, clears := n }) := by
  by_cases h : n = 0 <;> simp [awaitClears, h]

/-- What clearing a record can do: nothing to a FREE or CLEARING one; else its end, and the far end's cells. -/
theorem clearRecordTone_cases (r : RecordId) (c : Cause) (tone : Option Tone) (s : State) :
    s.clearRecordTone r c tone = s ∨
    (∃ k, s.call? r = some k ∧ k.isClearing = false ∧
      ((k.confRole = .controller ∧ s.clearRecordTone r c tone = (s.endRecord r c tone).endConference r) ∨
       (k.confRole ≠ .controller ∧ ∃ far, k.farMayExist = true ∧ k.farStation = some far ∧
          s.clearRecordTone r c tone = (s.endRecord r c tone).offerCallClear r c far k.farTag) ∨
       (k.confRole ≠ .controller ∧ s.clearRecordTone r c tone = (s.endRecord r c tone).freeRecord r))) := by
  unfold clearRecordTone
  cases h : s.call? r with
  | none => exact Or.inl rfl
  | some k =>
    by_cases hc : k.isClearing = true
    · exact Or.inl (by simp [hc])
    · refine Or.inr ⟨k, rfl, by simpa using hc, ?_⟩
      by_cases hr : k.confRole = .controller
      · exact Or.inl ⟨hr, by simp [hc, hr]⟩
      · cases hm : k.farMayExist with
        | false => exact Or.inr (Or.inr ⟨hr, by simp [hc, hr, hm]⟩)
        | true => cases hf : k.farStation with
          | none => exact Or.inr (Or.inr ⟨hr, by simp [hc, hr, hm, hf]⟩)
          | some far => exact Or.inr (Or.inl ⟨hr, far, rfl, rfl, by simp [hc, hr, hm, hf]⟩)

end Sys2Proof.Machine.State
end

