-- ==== Sys2Proof/Laws/Clearing.lean ====
section
/-! SUPPORT. What clearing a record and clearing a port's records can do (R62, R67, R86), said once: one lemma for the
ending of a record, one for its clearing, and `clearPort_cleared` for the drop or the logout of a login. -/

namespace Sys2Proof.Machine.State

open Sys2Proof

/-! ### What an operation leaves of a record, and how many cells it queues -/

/-- A record that an operation does not concern: at most its timer changes, and lanes leave its list. -/
def Keeps (s t : State) (q : RecordId) : Prop :=
  (t.record q).incarnation = (s.record q).incarnation ∧
  (s.call? q = none → t.call? q = none) ∧
  ∀ k, s.call? q = some k → ∃ tm ls, ls.Sublist k.listenLanes ∧
    t.call? q = some { k with timer := tm, listenLanes := ls }

theorem Keeps.of_records {s t : State} (h : t.calls.records = s.calls.records) (q : RecordId) : Keeps s t q := by
  have hr : t.record q = s.record q := by simp [record, h]
  refine ⟨by rw [hr], fun hn => by simpa [call?, hr] using hn, fun k hk => ⟨k.timer, k.listenLanes, .refl _, ?_⟩⟩
  simpa [call?, hr] using hk

theorem Keeps.refl (s : State) (q : RecordId) : Keeps s s q := .of_records rfl q

theorem Keeps.trans {s t u : State} {q : RecordId} (a : Keeps s t q) (b : Keeps t u q) : Keeps s u q := by
  refine ⟨b.1.trans a.1, fun h => b.2.1 (a.2.1 h), fun k hk => ?_⟩
  obtain ⟨tm, ls, hl, h⟩ := a.2.2 k hk
  obtain ⟨tm', ls', hl', h'⟩ := b.2.2 _ h
  exact ⟨tm', ls', hl'.trans hl, h'⟩

theorem record_modCall_incarnation (r q : RecordId) (f : Call → Call) (s : State) :
    ((s.modCall r f).record q).incarnation = (s.record q).incarnation := by
  unfold modCall
  cases s.call? r with
  | none => rfl
  | some k =>
    by_cases h : q = r
    · subst h; simp [setCall]
    · simp [setCall, record_setRecord_ne _ _ h]

/-- An update of the timer or the lanes of any record keeps every record. -/
theorem Keeps.modCall (r q : RecordId) (f : Call → Call) (s : State)
    (hf : ∀ k, ∃ tm ls, ls.Sublist k.listenLanes ∧ f k = { k with timer := tm, listenLanes := ls }) : Keeps s (s.modCall r f) q := by
  refine ⟨record_modCall_incarnation r q f s, fun hn => ?_, fun k hk => ?_⟩
  · by_cases h : q = r
    · subst h; simp [call_modCall_same, hn]
    · rw [call_modCall_ne f s h, hn]
  · by_cases h : q = r
    · subst h
      obtain ⟨tm, ls, hl, e⟩ := hf k
      exact ⟨tm, ls, hl, by simp [call_modCall_same, hk, e]⟩
    · exact ⟨k.timer, k.listenLanes, .refl _, by rw [call_modCall_ne f s h, hk]⟩

/-- An update of one record keeps the others. -/
theorem Keeps.modCall_ne {r q : RecordId} (f : Call → Call) (s : State) (h : q ≠ r) : Keeps s (s.modCall r f) q := by
  have hc := call_modCall_ne f s h
  exact ⟨record_modCall_incarnation r q f s, fun hn => by rw [hc, hn],
    fun k hk => ⟨k.timer, k.listenLanes, .refl _, by rw [hc, hk]⟩⟩

/-- At most `n` cells join the end of the transmit queue, and the station's own state stands. -/
def Sends (n : Nat) (s t : State) : Prop :=
  t.station = s.station ∧ ∃ new, t.highway.queue = s.highway.queue ++ new ∧ new.length ≤ n

theorem Sends.refl (s : State) : Sends 0 s s := ⟨rfl, [], by simp, by simp⟩

theorem Sends.of_eq {s t : State} (hs : t.station = s.station) (hq : t.highway.queue = s.highway.queue) :
    Sends 0 s t :=
  ⟨hs, [], by simp [hq], by simp⟩

theorem Sends.trans {m n : Nat} {s t u : State} (a : Sends m s t) (b : Sends n t u) : Sends (m + n) s u := by
  obtain ⟨hs, x, hx, hl⟩ := a
  obtain ⟨hs', y, hy, hl'⟩ := b
  exact ⟨hs'.trans hs, x ++ y, by simp [hy, hx], by simp; omega⟩

theorem Sends.mono {m n : Nat} {s t : State} (a : Sends m s t) (h : m ≤ n) : Sends n s t :=
  ⟨a.1, a.2.choose, a.2.choose_spec.1, a.2.choose_spec.2.trans h⟩

theorem Sends.mem {n : Nat} {s t : State} (a : Sends n s t) {q : Queued} (h : q ∈ s.highway.queue) :
    q ∈ t.highway.queue := by
  obtain ⟨-, x, hx, -⟩ := a
  rw [hx]
  exact List.mem_append_left _ h

theorem Sends.self {n : Nat} {s t : State} (a : Sends n s t) : t.self = s.self := by simp [State.self, a.1]

theorem Sends.room {m n : Nat} {s t : State} (a : Sends m s t) (h : QueueRoom (m + n) s) : QueueRoom n t := by
  obtain ⟨hs, x, hx, hl⟩ := a
  refine ⟨by rw [hs]; exact h.1, ?_⟩
  have := h.2
  simp only [hx, List.length_append]
  omega

theorem Sends.offer (c : Cell) (n : OfferName) (s : State) : Sends 1 s (s.offer c n).1 := by
  rcases offer_cases c n s with ⟨-, h⟩ | ⟨-, -, h⟩ | ⟨-, -, h⟩
  · exact ⟨by simp [h], [⟨c, n⟩], by simp [h], by simp⟩
  · exact ⟨by simp [h], [], by simp [h], by simp⟩
  · exact ⟨by simp [h], [], by simp [h], by simp⟩

theorem offer_calls (c : Cell) (n : OfferName) (s : State) : (s.offer c n).1.calls = s.calls :=
  (offer_frame c n s).2.2.2.2.2.1

/-! ### The parts of a clearing -/

theorem addClaim_calls (e : Claim) (s : State) : (s.addClaim e).calls = s.calls := by
  simp [addClaim, offerClaim, offer_calls]

theorem Sends.addClaim (e : Claim) (s : State) : Sends 1 s (s.addClaim e) := by
  have h := Sends.offer (s.cellToAll (.slot e.cell)) (.slotCell e.cell) s
  exact h.trans (Sends.of_eq (t := s.addClaim e) rfl rfl)

/-- A talk lane closes with one SLOT-FREE at most, and no record, stack or conference changes (R95, R111). -/
theorem closeTalk_calls (l : TalkId) (s : State) : (s.closeTalk l).calls = s.calls := by
  unfold closeTalk
  cases s.talk? l with
  | none => rfl
  | some t =>
    dsimp only
    split <;> first | rfl | simp [releaseSlot, addClaim_calls, setTalkPlace, setSlot]

theorem Sends.closeTalk (l : TalkId) (s : State) : Sends 1 s (s.closeTalk l) := by
  unfold State.closeTalk
  cases s.talk? l with
  | none => exact (Sends.refl s).mono (by omega)
  | some t =>
    dsimp only
    split
    · exact (Sends.of_eq rfl rfl).trans (Sends.addClaim _ _)
    all_goals exact (Sends.of_eq rfl rfl).mono (by omega)

/-- What an operation leaves of the Call Controller's other tables: hook views and stacks, and the conferences. -/
def SameTables (s t : State) : Prop :=
  (∀ p, (t.callPort p).stack = (s.callPort p).stack) ∧ t.calls.confs = s.calls.confs

theorem SameTables.of_calls {s t : State} (h : t.calls = s.calls) : SameTables s t :=
  ⟨fun p => by simp [callPort, h], by rw [h]⟩

theorem SameTables.trans {s t u : State} (a : SameTables s t) (b : SameTables t u) : SameTables s u :=
  ⟨fun p => (b.1 p).trans (a.1 p), b.2.trans a.2⟩

theorem SameTables.modCall (r : RecordId) (f : Call → Call) (s : State) : SameTables s (s.modCall r f) := by
  unfold State.modCall
  cases s.call? r <;> exact ⟨fun _ => rfl, rfl⟩

/-- A listen lane closes without a cell; of the records, only the list of its owner changes (R125). -/
theorem closeListen_spec (l : ListenId) (s : State) :
    (∀ q, Keeps s (s.closeListen l) q) ∧ Sends 0 s (s.closeListen l) ∧ SameTables s (s.closeListen l) := by
  unfold closeListen
  cases s.listen? l with
  | none => exact ⟨Keeps.refl s, Sends.refl s, .of_calls rfl⟩
  | some t =>
    dsimp only
    refine ⟨fun q => ?_, ?_, ?_⟩
    · exact Keeps.trans (.of_records rfl q) (.modCall _ _ _ _ fun k => ⟨k.timer, k.listenLanes.erase l, List.erase_sublist, rfl⟩)
    · exact Sends.of_eq (by simp) (by simp)
    · exact SameTables.trans (.of_calls rfl) (.modCall _ _ _)

theorem closeListens_spec (ls : List ListenId) (s : State) :
    (∀ q, Keeps s (s.closeListens ls) q) ∧ Sends 0 s (s.closeListens ls) ∧ SameTables s (s.closeListens ls) := by
  unfold closeListens
  induction ls generalizing s with
  | nil => exact ⟨Keeps.refl s, Sends.refl s, .of_calls rfl⟩
  | cons l ls ih =>
    obtain ⟨k, c, m⟩ := closeListen_spec l s
    obtain ⟨k', c', m'⟩ := ih (s.closeListen l)
    exact ⟨fun q => (k q).trans (k' q), c.trans c', m.trans m'⟩

theorem setTone_calls (p : Port) (x : Tone) (s : State) : (s.setTone p x).calls.records = s.calls.records ∧
    SameTables s (s.setTone p x) ∧ Sends 0 s (s.setTone p x) := by
  rcases setTone_cases p x s with ⟨-, h⟩ | ⟨-, h⟩
  · rw [h]
    refine ⟨rfl, ⟨fun q => ?_, rfl⟩, Sends.of_eq rfl rfl⟩
    by_cases e : q = p
    · subst e; simp; rfl
    · rw [callPort_modCallPort_ne _ _ e]; rfl
  · rw [h]
    exact ⟨rfl, .of_calls rfl, Sends.refl s⟩

theorem setRing_calls (p : Port) (on : Bool) (s : State) : (s.setRing p on).calls = s.calls ∧
    Sends 0 s (s.setRing p on) := by
  rcases setRing_cases p on s with ⟨-, h⟩ | ⟨-, h⟩ <;> rw [h]
  · exact ⟨rfl, Sends.of_eq rfl rfl⟩
  · exact ⟨rfl, Sends.refl s⟩

/-- A record leaves its port's stack, which loses nothing else; a new top's timer may start (R71, R76). -/
theorem leaveStack_spec (p : Port) (r : RecordId) (s : State) :
    (∀ q, Keeps s (s.leaveStack p r) q) ∧ Sends 0 s (s.leaveStack p r) ∧
    (∀ q, ((s.leaveStack p r).callPort q).stack =
      if q = p then (s.callPort p).stack.erase r else (s.callPort q).stack) ∧
    (s.leaveStack p r).calls.confs = s.calls.confs := by
  have base (g : CallPort → CallPort) (t : State) (hg : ∀ c, (g c).stack = c.stack) :
      SameTables t (t.modCallPort p g) := by
    refine ⟨fun q => ?_, rfl⟩
    by_cases e : q = p
    · subst e; simp [hg]
    · rw [callPort_modCallPort_ne _ _ e]
  have first : ∀ q, ((s.modCallPort p fun c => { c with stack := (s.callPort p).stack.erase r }).callPort q).stack =
      if q = p then (s.callPort p).stack.erase r else (s.callPort q).stack := by
    intro q
    by_cases e : q = p
    · subst e; simp
    · rw [callPort_modCallPort_ne _ _ e, if_neg e]
  unfold leaveStack
  dsimp only
  split
  · split
    · refine ⟨fun q => .of_records ?_ q, ?_, fun q => ?_, ?_⟩
      · exact congrArg (·.records) (setRing_calls p false _).1
      · have h := (setRing_calls p false
          (s.modCallPort p fun c => { c with stack := (s.callPort p).stack.erase r })).2
        exact Sends.of_eq h.1 (by obtain ⟨-, x, hx, hl⟩ := h; simpa [List.length_eq_zero_iff.1 (Nat.le_zero.1 hl)] using hx)
      · rw [(base (fun c => { c with recalled := false }) _ fun _ => rfl).1 q,
          (SameTables.of_calls (setRing_calls p false _).1).1 q, first q]
      · exact congrArg (·.confs) (setRing_calls p false _).1
    · refine ⟨fun q => ?_, ?_, fun q => ?_, ?_⟩
      · exact Keeps.trans (.of_records rfl q) (.modCall _ _ _ _ fun k => ⟨some 3875, k.listenLanes, .refl _, rfl⟩)
      · exact Sends.of_eq (by simp) (by simp)
      · rw [(SameTables.modCall _ _ _).1 q, first q]
      · exact (SameTables.modCall _ _ _).2
  · exact ⟨fun q => .of_records rfl q, Sends.of_eq rfl rfl, first, rfl⟩

/-! ### The ending of a record (steps 1 to 3 of R62) -/

/-- The record that ends has the cause, no lane and no timer, and its state, far end and role as they were; every other
record is kept; one SLOT-FREE at most is queued; a HELD record leaves its port's stack, and no conference changes. -/
theorem endRecord_spec (r : RecordId) (c : Cause) (tone : Option Tone) (s : State) {k : Call} (hk : s.call? r = some k) :
    let t := s.endRecord r c tone
    t.call? r = some { k with cause := c, talkLane := none, listenLanes := [], timer := none } ∧
    (t.record r).incarnation = (s.record r).incarnation ∧ (∀ q, q ≠ r → Keeps s t q) ∧ Sends 1 s t ∧
    (∀ q, (t.callPort q).stack =
      if k.state = .held ∧ q = k.port then (s.callPort q).stack.erase r else (s.callPort q).stack) ∧
    t.calls.confs = s.calls.confs := by
  intro t
  let s1 := s.modCall r fun k => { k with cause := c }
  let s2 := if k.isFront && k.ringing then s1.setRing k.port false else s1
  let s3 := match tone with
    | some x => if k.isFront && decide ((s.callPort k.port).hookView = Hook.off) then s2.setTone k.port x else s2
    | none => s2
  let s4 := match k.talkLane with
    | some l => s3.closeTalk l
    | none => s3
  let s5 := (s4.closeListens k.listenLanes).detach r
  let s6 := if k.state = .held then s5.leaveStack k.port r else s5
  have ht : t = s6.modCall r fun k => { k with talkLane := none, listenLanes := [], timer := none } := by
    simp only [t, endRecord, hk]; rfl
  have c1 : s1.call? r = some { k with cause := c } := by simp [s1, call_modCall_same, hk]
  have n1 : ∀ q, q ≠ r → Keeps s s1 q := fun q h => .modCall_ne _ s h
  have d1 : Sends 0 s s1 := Sends.of_eq (by simp [s1]) (by simp [s1])
  have t1 : SameTables s s1 := .modCall _ _ _
  have h2 : s2.calls = s1.calls ∧ Sends 0 s1 s2 := by
    dsimp only [s2]
    split
    · exact setRing_calls _ _ _
    · exact ⟨rfl, Sends.refl _⟩
  have h3 : s3.calls.records = s2.calls.records ∧ SameTables s2 s3 ∧ Sends 0 s2 s3 := by
    dsimp only [s3]
    split
    · split
      · exact setTone_calls _ _ _
      · exact ⟨rfl, .of_calls rfl, Sends.refl _⟩
    · exact ⟨rfl, .of_calls rfl, Sends.refl _⟩
  have h4 : s4.calls = s3.calls ∧ Sends 1 s3 s4 := by
    dsimp only [s4]
    split
    · exact ⟨closeTalk_calls _ _, Sends.closeTalk _ _⟩
    · exact ⟨rfl, (Sends.refl _).mono (by omega)⟩
  obtain ⟨k5, d5, t5⟩ := closeListens_spec k.listenLanes s4
  have e5 : (∀ q, Keeps s4 s5 q) ∧ Sends 0 s4 s5 ∧ SameTables s4 s5 :=
    ⟨fun q => (k5 q).trans (.of_records rfl q), d5.trans (n := 0) (Sends.of_eq rfl rfl),
      t5.trans ⟨fun _ => rfl, rfl⟩⟩
  have h6 : (∀ q, Keeps s5 s6 q) ∧ Sends 0 s5 s6 ∧ (∀ q, (s6.callPort q).stack =
      if k.state = .held ∧ q = k.port then (s5.callPort q).stack.erase r else (s5.callPort q).stack) ∧
      s6.calls.confs = s5.calls.confs := by
    dsimp only [s6]
    split
    · rename_i hh
      obtain ⟨a, b, d, e⟩ := leaveStack_spec k.port r s5
      refine ⟨a, b, fun q => ?_, e⟩
      rw [d q]
      by_cases hq : q = k.port
      · subst hq; simp [hh]
      · simp [hq]
    · rename_i hh
      exact ⟨Keeps.refl _, Sends.refl _, fun q => by simp [hh], rfl⟩
  have keep : ∀ q, Keeps s1 s6 q := fun q =>
    (Keeps.of_records (by rw [h4.1, h3.1, h2.1]) q : Keeps s1 s4 q).trans ((e5.1 q).trans (h6.1 q))
  have sends : Sends 1 s s6 :=
    ((((d1.trans h2.2).trans h3.2.2).trans h4.2).trans e5.2.1).trans h6.2.1
  have tables : SameTables s s5 := t1.trans ((SameTables.of_calls h2.1).trans (h3.2.1.trans
    ((SameTables.of_calls h4.1).trans e5.2.2)))
  obtain ⟨tm, ls, -, c6⟩ := (keep r).2.2 _ c1
  refine ⟨?_, ?_, fun q hq => ?_, ?_, fun q => ?_, ?_⟩
  · simp [ht, call_modCall_same, c6]
  · rw [ht, record_modCall_incarnation, (keep r).1]
    exact record_modCall_incarnation r r _ s
  · rw [ht]
    exact (n1 q hq).trans ((keep q).trans (.modCall_ne _ _ hq))
  · rw [ht]
    exact sends.trans (n := 0) (Sends.of_eq (by simp) (by simp))
  · rw [ht, (SameTables.modCall _ _ _).1 q, h6.2.2.1 q, tables.1 q]
  · rw [ht, (SameTables.modCall _ _ _).2, h6.2.2.2, tables.2]

/-! ### The cells of a clearing (steps 4 and 5 of R62, R86) -/

theorem record_of_calls {s t : State} (h : t.calls = s.calls) (r : RecordId) : t.record r = s.record r := by
  simp [record, h]

theorem call_of_calls {s t : State} (h : t.calls = s.calls) (r : RecordId) : t.call? r = s.call? r := by
  simp [call?, record, h]

/-- An offer that finds room puts its cell under its name into the queue. -/
theorem offer_of_queueRoom {n : Nat} {s : State} (h : QueueRoom (n + 1) s) (c : Cell) (x : OfferName) :
    (s.offer c x).2 = true ∧ (⟨c, x⟩ : Queued) ∈ (s.offer c x).1.highway.queue := by
  rw [(QueueRoom.offer h c x).1]
  exact ⟨rfl, by simp⟩

/-- CALL-CLEAR CONF-ENDED to the members of a list: the calls stand, a cell for each member at most, and with room for
all of them each is queued under the record's name and counted. -/
theorem confEnded_spec (r : RecordId) (ms : List Member) (s : State) (n : Nat) :
    let x := ms.foldl (fun (a : State × Nat) m =>
      let o := a.1.offer (a.1.memberClear m .confEnded) (a.1.clearingName r)
      (o.1, if o.2 then a.2 + 1 else a.2)) (s, n)
    x.1.calls = s.calls ∧ Sends ms.length s x.1 ∧
    (QueueRoom ms.length s → x.2 = n + ms.length ∧ ∀ m ∈ ms,
      clearingCell s r (cellFrom s m.station m.link m.tag (.callClear .confEnded)) ∈ x.1.highway.queue) := by
  induction ms generalizing s n with
  | nil => exact ⟨rfl, Sends.refl s, fun _ => ⟨rfl, by simp⟩⟩
  | cons m ms ih =>
    simp only [List.foldl_cons]
    have hs := Sends.offer (s.memberClear m .confEnded) (s.clearingName r) s
    have hc := offer_calls (s.memberClear m .confEnded) (s.clearingName r) s
    obtain ⟨a, b, d⟩ := ih (s.offer (s.memberClear m .confEnded) (s.clearingName r)).1
      (if (s.offer (s.memberClear m .confEnded) (s.clearingName r)).2 = true then n + 1 else n)
    refine ⟨a.trans hc, (hs.trans b).mono (by simp; omega), fun room => ?_⟩
    obtain ⟨ok, mem⟩ := offer_of_queueRoom room (s.memberClear m .confEnded) (s.clearingName r)
    obtain ⟨e, f⟩ := d (hs.room (by simpa [Nat.add_comm] using room))
    refine ⟨by rw [e, if_pos ok]; simp; omega, fun m' hm => ?_⟩
    rcases List.mem_cons.1 hm with rfl | hm
    · exact b.mem mem
    · have := f m' hm
      simpa [clearingCell, cellFrom, hs.self, record_of_calls hc] using this

/-- A cleared record is FREE, or waits in CLEARING for its cells and is otherwise as it was. -/
theorem awaitClears_spec (r : RecordId) (n : Nat) (s : State) {k : Call} (hk : s.call? r = some k) :
    let t := s.awaitClears r n
    (n = 0 → t.call? r = none) ∧ (n ≠ 0 → t.call? r = some { k with state := .clearing, clears := n }) ∧
    (t.record r).incarnation = (s.record r).incarnation ∧ (∀ q, q ≠ r → Keeps s t q) ∧ Sends 0 s t ∧ SameTables s t := by
  intro t
  rcases awaitClears_cases r n s with ⟨h0, h⟩ | ⟨h0, h⟩
  · refine ⟨fun _ => by simp [t, h], fun e => absurd h0 e, by simp [t, h, freeRecord], fun q hq => ?_, ?_, ?_⟩
    · have hc := call_freeRecord_ne s hq
      have hr : ((s.freeRecord r).record q) = s.record q := by simp [freeRecord, record_setRecord_ne _ _ hq]
      rw [show t = s.freeRecord r from h]
      exact ⟨by rw [hr], fun e => by rw [hc, e], fun k e => ⟨k.timer, k.listenLanes, .refl _, by rw [hc, e]⟩⟩
    · rw [show t = s.freeRecord r from h]; exact Sends.of_eq rfl rfl
    · rw [show t = s.freeRecord r from h]; exact ⟨fun _ => rfl, rfl⟩
  · rw [show t = _ from h]
    exact ⟨fun e => absurd e h0, fun _ => by simp [call_modCall_same, hk], record_modCall_incarnation r r _ s,
      fun q hq => .modCall_ne _ s hq, Sends.of_eq (by simp) (by simp), .modCall _ _ _⟩

theorem confOf_spec {s : State} {r : RecordId} {e : ConfId} {cf : Conf} (h : s.confOf r = some (e, cf)) :
    s.calls.confs.get e = some cf ∧ cf.controller = r := by
  obtain ⟨e', -, he⟩ := List.exists_of_findSome?_eq_some h
  cases hc : s.calls.confs.get e' with
  | none => simp [hc] at he
  | some c =>
    rw [hc] at he
    dsimp only at he
    split at he
    · rename_i hr
      cases he
      exact ⟨hc, hr⟩
    · cases he

theorem confOf_isSome {s : State} {r : RecordId} {e : ConfId} {cf : Conf} (h : s.calls.confs.get e = some cf)
    (hr : cf.controller = r) : ∃ x, s.confOf r = some x := by
  cases hc : s.confOf r with
  | some x => exact ⟨x, rfl⟩
  | none =>
    have := (List.findSome?_eq_none_iff.1 hc) e (List.mem_finRange e)
    simp [h, hr] at this

/-! ### Clearing a record (R62, R86) -/

/-- What the clearing of one record in use, not in CLEARING, leaves. -/
structure Cleared (s t : State) (r : RecordId) (k : Call) (c : Cause) : Prop where
  ended : t.call? r = none ∨
    ∃ k', t.call? r = some k' ∧ k'.state = .clearing ∧ k'.cause = c ∧ k'.talkLane = none ∧ k'.listenLanes = []
  quiet : k.confRole ≠ .controller → k.state = .dialing ∨ k.state = .routing → t.call? r = none
  incarnation : (t.record r).incarnation = (s.record r).incarnation
  others : ∀ q, q ≠ r → Keeps s t q
  heldLists : ∀ q, (t.callPort q).stack =
    if k.state = .held ∧ q = k.port then (s.callPort q).stack.erase r else (s.callPort q).stack
  confs : ∀ e, t.calls.confs.get e = s.calls.confs.get e ∨
    (t.calls.confs.get e = none ∧ ∃ cf, s.calls.confs.get e = some cf ∧ cf.controller = r)
  sends : (∀ e cf, s.calls.confs.get e = some cf → cf.members.length ≤ 3) → Sends 4 s t
  plain : ∀ far, k.confRole ≠ .controller → k.state ≠ .dialing → k.state ≠ .routing → k.farStation = some far →
    QueueRoom 4 s → (∃ k', t.call? r = some k' ∧ k'.state = .clearing ∧ k'.clears = 1) ∧
      clearingCell s r (cellFrom s far (s.callTag r) k.farTag (.callClear c)) ∈ t.highway.queue
  conference : ∀ e cf, k.confRole = .controller → s.calls.confs.get e = some cf → cf.controller = r → cf.members ≠ [] →
    cf.members.length ≤ 3 → (∀ e' cf', s.calls.confs.get e' = some cf' → cf'.controller = r → e' = e) → QueueRoom 4 s →
    t.calls.confs.get e = none ∧
    (∃ k', t.call? r = some k' ∧ k'.state = .clearing ∧ k'.confRole = .none ∧ k'.clears = cf.members.length) ∧
    ∀ m ∈ cf.members, clearingCell s r (cellFrom s m.station m.link m.tag (.callClear .confEnded)) ∈ t.highway.queue

theorem clearRecord_cleared (r : RecordId) (c : Cause) (s : State) {k : Call} (hk : s.call? r = some k)
    (hn : k.state ≠ .clearing) : Cleared s (s.clearRecord r c) r k c := by
  obtain ⟨e1, e2, e3, e4, e5, e6⟩ := endRecord_spec r c c.tone s hk
  set u := s.endRecord r c c.tone with hu
  have hcl : k.isClearing = false := by simp [Call.isClearing, hn]
  by_cases hr : k.confRole = .controller
  · have ht : s.clearRecord r c = u.endConference r := by
      simp [clearRecord, clearRecordTone, hk, hcl, hr, hu]
    rw [ht]
    unfold endConference
    cases hc : u.confOf r with
    | none =>
      obtain ⟨f1, -, f3, f4, f5, f6⟩ := awaitClears_spec r 0 u e1
      have hf : u.awaitClears r 0 = u.freeRecord r := by simp [awaitClears]
      rw [hf] at f1 f3 f4 f5 f6
      refine ⟨.inl (f1 rfl), fun h => absurd hr h, f3.trans e2, fun q hq => (e3 q hq).trans (f4 q hq),
        fun q => (f6.1 q).trans (e5 q), fun e => .inl (by rw [f6.2, e6]), fun _ => (e4.trans f5).mono (by omega),
        fun _ h => absurd hr h, fun e cf _ he hcf _ _ _ _ => ?_⟩
      obtain ⟨x, hx⟩ := confOf_isSome (s := u) (by rw [e6]; exact he) hcf
      rw [hc] at hx
      cases hx
    | some y =>
      obtain ⟨e, cf⟩ := y
      obtain ⟨hget, hctl⟩ := confOf_spec hc
      dsimp only
      obtain ⟨x1, x2, x3⟩ := confEnded_spec r cf.members u 0
      set x := cf.members.foldl (fun (a : State × Nat) m =>
        let o := a.1.offer (a.1.memberClear m .confEnded) (a.1.clearingName r)
        (o.1, if o.2 then a.2 + 1 else a.2)) (u, 0) with hx
      set v := (x.1.setConf e none).modCall r fun k => { k with confRole := .none } with hv
      have xc : (x.1.setConf e none).call? r = some { k with
          cause := c, talkLane := none, listenLanes := [], timer := none } := by
        rw [← e1, ← call_of_calls x1 r]; rfl
      have vc : v.call? r = some { k with
          cause := c, talkLane := none, listenLanes := [], timer := none, confRole := .none } := by
        simp [hv, call_modCall_same, xc]
      have xk : ∀ q, Keeps u (x.1.setConf e none) q := fun q => .of_records (by rw [← x1]; rfl) q
      have vs : Sends cf.members.length u v :=
        x2.trans (n := 0) (Sends.of_eq (by simp [hv]) (by simp [hv]))
      obtain ⟨f0, f1, f3, f4, f5, f6⟩ := awaitClears_spec r x.2 v vc
      have confs : ∀ d, (v.awaitClears r x.2).calls.confs.get d =
          if d = e then none else s.calls.confs.get d := by
        intro d
        rw [f6.2, hv, (SameTables.modCall _ _ _).2]
        by_cases hd : d = e
        · subst hd; simp
        · rw [conf_setConf_ne _ _ hd, x1, e6, if_neg hd]
      refine ⟨?_, fun h => absurd hr h, ?_, fun q hq => ?_, fun q => ?_, fun d => ?_, fun h3 => ?_,
        fun _ h => absurd hr h, fun d cg _ hd hcg hne hl huniq room => ?_⟩
      · by_cases h0 : x.2 = 0
        · exact .inl (f0 h0)
        · exact .inr ⟨_, f1 h0, rfl, rfl, rfl, rfl⟩
      · rw [f3, hv, record_modCall_incarnation, (xk r).1, e2]
      · exact (e3 q hq).trans ((xk q).trans ((Keeps.modCall_ne _ _ hq).trans (f4 q hq)))
      · rw [f6.1 q, hv, (SameTables.modCall _ _ _).1 q, ← e5 q]
        simp [callPort, setConf, x1]
      · rw [confs d]
        by_cases hd : d = e
        · subst hd
          exact .inr ⟨by simp, cf, by rw [← e6]; exact hget, hctl⟩
        · exact .inl (by simp [hd])
      · have := h3 e cf (by rw [← e6]; exact hget)
        exact ((e4.trans vs).trans f5).mono (by omega)
      · have hde : d = e := (huniq e cf (by rw [← e6]; exact hget) hctl).symm
        subst hde
        obtain rfl : cg = cf := by
          rw [← e6, hget] at hd
          exact (Option.some.inj hd).symm
        have roomU : QueueRoom cg.members.length u := by
          have h3 := e4.room (n := 3) (by simpa using room)
          exact ⟨h3.1, by have := h3.2; omega⟩
        obtain ⟨g1, g2⟩ := x3 roomU
        have hx0 : x.2 ≠ 0 := by
          rw [g1]
          have := List.length_pos_iff.2 hne
          omega
        refine ⟨by rw [confs d]; simp, ⟨_, f1 hx0, rfl, rfl, by rw [g1]; simp⟩, fun m hm => ?_⟩
        have hmem := g2 m hm
        have : clearingCell s r (cellFrom s m.station m.link m.tag (.callClear .confEnded)) =
            clearingCell u r (cellFrom u m.station m.link m.tag (.callClear .confEnded)) := by
          simp [clearingCell, cellFrom, e4.self, e2]
        rw [this]
        exact f5.mem ((Sends.of_eq (s := x.1) (t := v) (by simp [hv]) (by simp [hv])).mem hmem)
  · by_cases hm : k.farMayExist = true ∧ ∃ far, k.farStation = some far
    · obtain ⟨hm, far, hfar⟩ := hm
      have ht : s.clearRecord r c = u.offerCallClear r c far k.farTag := by
        simp [clearRecord, clearRecordTone, hk, hcl, hr, hm, hfar, hu]
      rw [ht]
      unfold offerCallClear
      dsimp only
      set o := u.offer (u.cellTo far (u.callTag r) k.farTag (.callClear c)) (u.clearingName r) with ho
      have oc : o.1.calls = u.calls := offer_calls _ _ _
      have os : Sends 1 u o.1 := Sends.offer _ _ _
      obtain ⟨f0, f1, f3, f4, f5, f6⟩ := awaitClears_spec r (if o.2 then 1 else 0) o.1
        (show o.1.call? r = _ by rw [call_of_calls oc]; exact e1)
      have hst : ¬ (k.state = .dialing ∨ k.state = .routing) := by
        rintro (h | h) <;> simp [Call.farMayExist, h] at hm
      refine ⟨?_, fun _ h => absurd h hst, by rw [f3, record_of_calls oc, e2],
        fun q hq => (e3 q hq).trans ((Keeps.of_records (by rw [oc]) q).trans (f4 q hq)), fun q => ?_,
        fun e => .inl (by rw [f6.2, oc, e6]), fun _ => ((e4.trans os).trans f5).mono (by omega),
        fun far' _ _ _ hfar' room => ?_, fun _ _ h => absurd h hr⟩
      · by_cases h0 : o.2 = true
        · exact .inr ⟨_, f1 (by simp [h0]), rfl, rfl, rfl, rfl⟩
        · exact .inl (f0 (by simp [h0]))
      · rw [f6.1 q, ← e5 q]; simp [callPort, oc]
      · obtain rfl : far = far' := by rw [hfar] at hfar'; exact Option.some.inj hfar'
        obtain ⟨ok, mem⟩ := offer_of_queueRoom (e4.room (n := 3) (by simpa using room))
          (u.cellTo far (u.callTag r) k.farTag (.callClear c)) (u.clearingName r)
        refine ⟨⟨_, f1 (by simp [ho, ok]), rfl, by simp [ho, ok]⟩, ?_⟩
        have : clearingCell s r (cellFrom s far (s.callTag r) k.farTag (.callClear c)) =
            ⟨u.cellTo far (u.callTag r) k.farTag (.callClear c), u.clearingName r⟩ := by
          simp [clearingCell, cellFrom, cellTo, clearingName, callTag, e4.self, e2]
        rw [this]
        exact f5.mem mem
    · have ht : s.clearRecord r c = u.awaitClears r 0 := by
        have hz : u.awaitClears r 0 = u.freeRecord r := by simp [awaitClears]
        rw [hz]
        simp only [clearRecord, clearRecordTone, hk, hcl, hr]
        cases hf : k.farMayExist with
        | false => simp [hu]
        | true =>
          cases hs : k.farStation with
          | none => simp [hu]
          | some far => exact absurd ⟨hf, far, hs⟩ hm
      rw [ht]
      obtain ⟨f0, -, f3, f4, f5, f6⟩ := awaitClears_spec r 0 u e1
      refine ⟨.inl (f0 rfl), fun _ _ => f0 rfl, f3.trans e2, fun q hq => (e3 q hq).trans (f4 q hq),
        fun q => (f6.1 q).trans (e5 q), fun e => .inl (by rw [f6.2, e6]), fun _ => (e4.trans f5).mono (by omega),
        fun far _ h1 h2 hfar _ => absurd ⟨?_, far, hfar⟩ hm, fun _ _ h => absurd h hr⟩
      revert h1 h2 hn
      unfold Call.farMayExist
      cases k.state <;> simp

/-! ### Clearing a port (R67) -/

/-- What the clearings of several records, one after the other, leave. -/
structure AllCleared (s t : State) (rs : List RecordId) (c : Cause) : Prop where
  ended : ∀ r ∈ rs, t.call? r = none ∨
    ∃ k', t.call? r = some k' ∧ k'.state = .clearing ∧ k'.cause = c ∧ k'.talkLane = none ∧ k'.listenLanes = []
  quiet : ∀ r ∈ rs, ∀ k, s.call? r = some k → k.confRole ≠ .controller → k.state = .dialing ∨ k.state = .routing →
    t.call? r = none
  incarnation : ∀ r, (t.record r).incarnation = (s.record r).incarnation
  others : ∀ q, q ∉ rs → Keeps s t q
  heldLists : ∀ q, (t.callPort q).stack.Sublist (s.callPort q).stack ∧
    ∀ r ∈ rs, ∀ k, s.call? r = some k → k.port = q → k.state = .held → (s.callPort q).stack.Nodup →
      r ∉ (t.callPort q).stack
  confs : ∀ e, t.calls.confs.get e = s.calls.confs.get e ∨
    (t.calls.confs.get e = none ∧ ∃ cf, s.calls.confs.get e = some cf ∧ cf.controller ∈ rs)
  sends : (∀ e cf, s.calls.confs.get e = some cf → cf.members.length ≤ 3) → Sends (4 * rs.length) s t
  plain : (∀ e cf, s.calls.confs.get e = some cf → cf.members.length ≤ 3) → QueueRoom (4 * rs.length) s →
    ∀ r ∈ rs, ∀ k, s.call? r = some k → ∀ far, k.confRole ≠ .controller → k.state ≠ .dialing → k.state ≠ .routing →
      k.farStation = some far → (∃ k', t.call? r = some k' ∧ k'.state = .clearing ∧ k'.clears = 1) ∧
        clearingCell s r (cellFrom s far (s.callTag r) k.farTag (.callClear c)) ∈ t.highway.queue
  conference : (∀ e cf, s.calls.confs.get e = some cf → cf.members.length ≤ 3) → QueueRoom (4 * rs.length) s →
    ∀ r ∈ rs, ∀ k, s.call? r = some k → ∀ e cf, k.confRole = .controller → s.calls.confs.get e = some cf →
      cf.controller = r → cf.members ≠ [] →
      (∀ e' cf', s.calls.confs.get e' = some cf' → cf'.controller = r → e' = e) →
      t.calls.confs.get e = none ∧
      (∃ k', t.call? r = some k' ∧ k'.state = .clearing ∧ k'.confRole = .none ∧ k'.clears = cf.members.length) ∧
      ∀ m ∈ cf.members, clearingCell s r (cellFrom s m.station m.link m.tag (.callClear .confEnded)) ∈ t.highway.queue

/-- A record that ended and is then kept has still ended. -/
theorem Keeps.ended {s t : State} {r : RecordId} {c : Cause} (h : Keeps s t r) (hs : s.call? r = none ∨
    ∃ k', s.call? r = some k' ∧ k'.state = .clearing ∧ k'.cause = c ∧ k'.talkLane = none ∧ k'.listenLanes = []) :
    t.call? r = none ∨
    ∃ k', t.call? r = some k' ∧ k'.state = .clearing ∧ k'.cause = c ∧ k'.talkLane = none ∧ k'.listenLanes = [] := by
  rcases hs with hn | ⟨k, hk, h1, h2, h3, h4⟩
  · exact .inl (h.2.1 hn)
  · obtain ⟨tm, ls, hl, ht⟩ := h.2.2 k hk
    exact .inr ⟨_, ht, h1, h2, h3, List.sublist_nil.1 (h4 ▸ hl)⟩

theorem clearRecords_cleared (c : Cause) : ∀ (rs : List RecordId) (s : State), rs.Nodup →
    (∀ r ∈ rs, ∃ k, s.call? r = some k ∧ k.state ≠ .clearing) →
    AllCleared s (rs.foldl (fun s r => s.clearRecord r c) s) rs c := by
  intro rs
  induction rs with
  | nil =>
    intro s _ _
    exact ⟨by simp, by simp, fun _ => rfl, fun q _ => Keeps.refl s q, fun q => ⟨.refl _, by simp⟩, fun _ => .inl rfl,
      fun _ => Sends.refl s, by simp, by simp⟩
  | cons r rs ih =>
    intro s nodup use
    obtain ⟨hr, nodup'⟩ := List.nodup_cons.1 nodup
    obtain ⟨k, hk, hn⟩ := use r (List.mem_cons_self ..)
    have one := clearRecord_cleared r c s hk hn
    set u := s.clearRecord r c with hu
    have kept : ∀ q ∈ rs, Keeps s u q := fun q hq => one.others q fun e => hr (e ▸ hq)
    have rest := ih u nodup' fun q hq => by
      obtain ⟨k', hk', hn'⟩ := use q (List.mem_cons_of_mem _ hq)
      obtain ⟨tm, ls, -, h⟩ := (kept q hq).2.2 k' hk'
      exact ⟨_, h, hn'⟩
    rw [List.foldl_cons]
    set t := rs.foldl (fun s r => s.clearRecord r c) u
    have confsU : ∀ e cf, u.calls.confs.get e = some cf → s.calls.confs.get e = some cf := by
      intro e cf h
      rcases one.confs e with h' | ⟨h', -⟩
      · rwa [h'] at h
      · rw [h'] at h; cases h
    have len : (r :: rs).length = rs.length + 1 := rfl
    have tail := rest.others r hr
    refine ⟨?_, ?_, fun q => (rest.incarnation q).trans ?_, fun q hq => ?_, fun q => ⟨?_, ?_⟩, fun e => ?_,
      fun h3 => ?_, fun h3 room => ?_, fun h3 room => ?_⟩
    · intro q hq
      rcases List.mem_cons.1 hq with rfl | hq
      · exact tail.ended one.ended
      · exact rest.ended q hq
    · intro q hq k' hk' h1 h2
      rcases List.mem_cons.1 hq with rfl | hq
      · rw [hk] at hk'; cases hk'
        exact tail.2.1 (one.quiet h1 h2)
      · obtain ⟨tm, ls, -, h⟩ := (kept q hq).2.2 k' hk'
        exact rest.quiet q hq _ h h1 h2
    · by_cases e : q = r
      · subst e; exact one.incarnation
      · exact (one.others q e).1
    · simp only [List.mem_cons, not_or] at hq
      exact (one.others q hq.1).trans (rest.others q hq.2)
    · refine (rest.heldLists q).1.trans ?_
      rw [one.heldLists q]
      split
      · exact List.erase_sublist
      · exact .refl _
    · intro q' hq' k' hk' hp hheld hnd
      have sub : (u.callPort q).stack.Sublist (s.callPort q).stack := by
        rw [one.heldLists q]
        split
        · exact List.erase_sublist
        · exact .refl _
      rcases List.mem_cons.1 hq' with rfl | hq'
      · rw [hk] at hk'; cases hk'
        refine fun hmem => ?_
        have := (rest.heldLists q).1.subset hmem
        rw [one.heldLists q, if_pos ⟨hheld, hp.symm⟩, hnd.mem_erase_iff] at this
        exact this.1 rfl
      · obtain ⟨tm, ls, -, h⟩ := (kept q' hq').2.2 k' hk'
        exact (rest.heldLists q).2 q' hq' _ h hp hheld (hnd.sublist sub)
    · rcases rest.confs e with h | ⟨h, cf, hcf, hm⟩
      · rcases one.confs e with h' | ⟨h', cf, hcf, hm⟩
        · exact .inl (h.trans h')
        · exact .inr ⟨h.trans h', cf, hcf, by simp [hm]⟩
      · exact .inr ⟨h, cf, confsU e cf hcf, List.mem_cons_of_mem _ hm⟩
    · have := (one.sends h3).trans (rest.sends fun e cf h => h3 e cf (confsU e cf h))
      exact this.mono (by simp; omega)
    all_goals
      have s4 := one.sends h3
      have h3' : ∀ e cf, u.calls.confs.get e = some cf → cf.members.length ≤ 3 := fun e cf h => h3 e cf (confsU e cf h)
      have roomU : QueueRoom (4 * rs.length) u := s4.room (by
        rw [show 4 + 4 * rs.length = 4 * (r :: rs).length by simp; omega]; exact room)
      have room4 : QueueRoom 4 s := ⟨room.1, by have := room.2; simp only [len] at this; omega⟩
      have after := rest.sends h3'
    · intro q hq k' hk' far h1 h2 h4 hfar
      rcases List.mem_cons.1 hq with rfl | hq
      · rw [hk] at hk'; cases hk'
        obtain ⟨⟨k1, hk1, c1, c2⟩, hmem⟩ := one.plain far h1 h2 h4 hfar room4
        obtain ⟨tm, ls, -, h⟩ := tail.2.2 k1 hk1
        exact ⟨⟨_, h, c1, c2⟩, after.mem hmem⟩
      · obtain ⟨tm, ls, -, h⟩ := (kept q hq).2.2 k' hk'
        obtain ⟨a, b⟩ := rest.plain h3' roomU q hq _ h far h1 h2 h4 hfar
        refine ⟨a, ?_⟩
        simpa [clearingCell, cellFrom, callTag, s4.self, (kept q hq).1] using b
    · intro q hq k' hk' e cf h1 hcf hctl hne huniq
      rcases List.mem_cons.1 hq with rfl | hq
      · rw [hk] at hk'; cases hk'
        obtain ⟨a, ⟨k1, hk1, c1, c2, c3⟩, hmem⟩ := one.conference e cf h1 hcf hctl hne (h3 e cf hcf) huniq room4
        obtain ⟨tm, ls, -, h⟩ := tail.2.2 k1 hk1
        refine ⟨?_, ⟨_, h, c1, c2, c3⟩, fun m hm => after.mem (hmem m hm)⟩
        rcases rest.confs e with h' | ⟨h', -⟩
        · exact h'.trans a
        · exact h'
      · obtain ⟨tm, ls, -, h⟩ := (kept q hq).2.2 k' hk'
        have hcfU : u.calls.confs.get e = some cf := by
          rcases one.confs e with h' | ⟨-, cf', hcf', hc'⟩
          · rw [h']; exact hcf
          · rw [hcf] at hcf'; cases hcf'
            exact absurd hq (hctl ▸ hc' ▸ hr)
        obtain ⟨a, b, d⟩ := rest.conference h3' roomU q hq _ h e cf h1 hcfU hctl hne
          fun e' cf' h' => huniq e' cf' (confsU e' cf' h')
        refine ⟨a, b, fun m hm => ?_⟩
        simpa [clearingCell, cellFrom, callTag, s4.self, (kept q hq).1] using d m hm

theorem recordsWhere_mem {s : State} {p : Call → Bool} {r : RecordId} :
    r ∈ s.recordsWhere p ↔ ∃ k, s.call? r = some k ∧ p k = true := by
  simp only [recordsWhere, List.mem_filter, List.mem_finRange, true_and]
  cases s.call? r <;> simp

/-- A clearing that finds room sends each record's cells (the `told` of `PortCleared`). -/
def Told (s t : State) (p : Port) (c : Cause) : Prop :=
  ∀ r k, s.call? r = some k → k.port = p → k.state ≠ .clearing →
    (∀ far, k.confRole ≠ .controller → k.state ≠ .dialing → k.state ≠ .routing → k.farStation = some far →
      (∃ k', t.call? r = some k' ∧ k'.state = .clearing ∧ k'.clears = 1) ∧
      clearingCell s r (cellFrom s far (s.callTag r) k.farTag (.callClear c)) ∈ t.highway.queue) ∧
    (∀ e cf, k.confRole = .controller → s.calls.confs.get e = some cf → cf.controller = r → cf.members ≠ [] →
      (∀ e' cf', s.calls.confs.get e' = some cf' → cf'.controller = r → e' = e) →
      t.calls.confs.get e = none ∧
      (∃ k', t.call? r = some k' ∧ k'.state = .clearing ∧ k'.confRole = .none ∧ k'.clears = cf.members.length) ∧
      ∀ m ∈ cf.members,
        clearingCell s r (cellFrom s m.station m.link m.tag (.callClear .confEnded)) ∈ t.highway.queue)

/-- The records that a drop or logout clears (R67). -/
def portRecords (s : State) (p : Port) : List RecordId :=
  s.recordsWhere fun k => decide (k.port = p) && !k.isClearing

theorem portRecords_mem {s : State} {p : Port} {r : RecordId} :
    r ∈ s.portRecords p ↔ ∃ k, s.call? r = some k ∧ k.port = p ∧ k.state ≠ .clearing := by
  rw [portRecords, recordsWhere_mem]
  simp [Call.isClearing]

theorem portRecords_nodup (s : State) (p : Port) : (s.portRecords p).Nodup := by
  unfold portRecords recordsWhere
  exact (List.nodup_finRange 64).filter _

theorem portRecords_length {s : State} {p : Port} {rs : List RecordId} (h : StandOn s p rs) :
    (s.portRecords p).length = rs.length :=
  ((List.perm_ext_iff_of_nodup (portRecords_nodup s p) h.1).2 fun q => portRecords_mem.trans (h.2 q).symm).length_eq

theorem clearPort_all (p : Port) (c : Cause) (s : State) : AllCleared s (s.clearPort p c) (s.portRecords p) c :=
  clearRecords_cleared c _ s (portRecords_nodup s p) fun r hr => by
    obtain ⟨k, hk, -, hn⟩ := portRecords_mem.1 hr
    exact ⟨k, hk, hn⟩

theorem clearPort_told (p : Port) (c : Cause) {s : State} {rs : List RecordId} (hrs : StandOn s p rs)
    (room : QueueRoom (4 * rs.length) s) (h3 : ∀ e cf, s.calls.confs.get e = some cf → cf.members.length ≤ 3) :
    Told s (s.clearPort p c) p c := by
  intro r k hk hp hn
  have hr := portRecords_mem.2 ⟨k, hk, hp, hn⟩
  have room' : QueueRoom (4 * (s.portRecords p).length) s := by rwa [portRecords_length hrs]
  have all := clearPort_all p c s
  exact ⟨fun far h1 h2 h4 hfar => all.plain h3 room' r hr k hk far h1 h2 h4 hfar,
    fun e cf h1 hcf hctl hne huniq => all.conference h3 room' r hr k hk e cf h1 hcf hctl hne huniq⟩

/-- A drop or logout ends the calls of its port, as R67 says. -/
theorem clearPort_cleared (p : Port) (c : Cause) (s : State) : PortCleared s (s.clearPort p c) p c := by
  have all := clearPort_all p c s
  refine ⟨fun r k hk hp hn => all.ended r (portRecords_mem.2 ⟨k, hk, hp, hn⟩), fun r k hk hp hr hs => ?_,
    fun ⟨⟨rs, hrs, room⟩, h3⟩ => clearPort_told p c hrs ⟨room.1, by have := room.2; omega⟩ h3, fun r hr => ?_,
    fun r k hk hp hh hnd => ?_⟩
  · exact all.quiet r (portRecords_mem.2 ⟨k, hk, hp, by rcases hs with h | h <;> simp [h]⟩) k hk hr hs
  · have keep : Keeps s (s.clearPort p c) r := all.others r fun hm => by
      obtain ⟨k, hk, hp, hn⟩ := portRecords_mem.1 hm
      rcases hr k hk with h | h
      · exact h hp
      · exact hn h
    cases hk : s.call? r with
    | none => simpa [hk] using keep.2.1 hk
    | some k =>
      obtain ⟨tm, ls, -, h⟩ := keep.2.2 k hk
      simp [h]
  · exact (all.heldLists p).2 r (portRecords_mem.2 ⟨k, hk, hp, by simp [hh]⟩) k hk hp hh hnd

/-- With room for the clearing of a port's records, its cells join the end of the queue. -/
theorem clearPort_sends (p : Port) (c : Cause) {s : State} {rs : List RecordId} (hrs : StandOn s p rs)
    (h3 : ∀ e cf, s.calls.confs.get e = some cf → cf.members.length ≤ 3) :
    Sends (4 * rs.length) s (s.clearPort p c) := by
  rw [← portRecords_length hrs]
  exact (clearPort_all p c s).sends h3

/-! ### What the sets hear of a clearing (R66) -/

/-- No port changes but for its tone, which may become the one named, and for its ring; no hook view changes. -/
def Hear (x : Tone) (s t : State) : Prop :=
  ∀ p, (t.port p).state = (s.port p).state ∧ (t.callPort p).hookView = (s.callPort p).hookView ∧
    ((t.port p).tone = (s.port p).tone ∨ (t.port p).tone = x)

theorem Hear.of_eq {x : Tone} {s t : State} (hp : t.ports = s.ports) (hc : t.calls.ports = s.calls.ports) :
    Hear x s t := fun p => by simp [port, callPort, hp, hc]

theorem Hear.trans {x : Tone} {s t u : State} (a : Hear x s t) (b : Hear x t u) : Hear x s u := fun p => by
  obtain ⟨a1, a2, a3⟩ := a p
  obtain ⟨b1, b2, b3⟩ := b p
  refine ⟨b1.trans a1, b2.trans a2, ?_⟩
  rcases b3 with b3 | b3
  · rcases a3 with a3 | a3
    · exact .inl (b3.trans a3)
    · exact .inr (b3.trans a3)
  · exact .inr b3

theorem Hear.kept {x : Tone} {s t : State} (a : Hear x s t) {p : Port} (h : (s.port p).tone = x) :
    (t.port p).tone = x := by
  rcases (a p).2.2 with e | e
  · exact e.trans h
  · exact e

theorem Hear.modCall (x : Tone) (r : RecordId) (f : Call → Call) (s : State) : Hear x s (s.modCall r f) :=
  Hear.of_eq (by unfold State.modCall; cases s.call? r <;> rfl) (by unfold State.modCall; cases s.call? r <;> rfl)

theorem Hear.setRing (x : Tone) (p : Port) (on : Bool) (s : State) : Hear x s (s.setRing p on) := by
  rcases setRing_cases p on s with ⟨-, h⟩ | ⟨-, h⟩ <;> rw [h]
  · intro q
    by_cases e : q = p
    · subst e; simp [callPort]
    · rw [port_modPort_ne _ _ e]; exact ⟨rfl, rfl, .inl rfl⟩
  · exact Hear.of_eq rfl rfl

theorem Hear.modCallPort (x : Tone) (p : Port) (f : CallPort → CallPort) (s : State)
    (hf : ∀ c, (f c).hookView = c.hookView) : Hear x s (s.modCallPort p f) := fun q => by
  by_cases e : q = p
  · subst e
    exact ⟨rfl, by rw [callPort_modCallPort_same, hf], .inl rfl⟩
  · rw [callPort_modCallPort_ne _ _ e]; exact ⟨rfl, rfl, .inl rfl⟩

theorem Hear.setTone (x : Tone) (p : Port) (s : State) : Hear x s (s.setTone p x) := by
  rcases setTone_cases p x s with ⟨-, h⟩ | ⟨-, h⟩ <;> rw [h]
  · refine Hear.trans (t := s.modPort p fun u => { u with tone := x }) (fun q => ?_) (.modCallPort _ _ _ _ fun _ => rfl)
    by_cases e : q = p
    · subst e; simp [callPort]
    · rw [port_modPort_ne _ _ e]; exact ⟨rfl, rfl, .inl rfl⟩
  · exact Hear.of_eq rfl rfl

theorem Hear.offer (x : Tone) (c : Cell) (n : OfferName) (s : State) : Hear x s (s.offer c n).1 := by
  obtain ⟨-, -, -, hp, -, hc, -⟩ := offer_frame c n s
  exact Hear.of_eq hp (by rw [hc])

theorem Hear.closeTalk (x : Tone) (l : TalkId) (s : State) : Hear x s (s.closeTalk l) := by
  refine Hear.of_eq ?_ (by rw [closeTalk_calls])
  unfold State.closeTalk
  cases s.talk? l with
  | none => rfl
  | some t =>
    dsimp only
    split <;> first
      | rfl
      | simp [releaseSlot, addClaim, offerClaim, setTalkPlace, setSlot, setClaims, (offer_frame _ _ _).2.2.2.1]

theorem Hear.closeListens (x : Tone) (ls : List ListenId) (s : State) : Hear x s (s.closeListens ls) := by
  unfold State.closeListens
  induction ls generalizing s with
  | nil => exact Hear.of_eq rfl rfl
  | cons l ls ih =>
    refine Hear.trans (t := s.closeListen l) ?_ (ih _)
    unfold closeListen
    cases s.listen? l with
    | none => exact Hear.of_eq rfl rfl
    | some t => exact Hear.trans (t := s.setListenPlace l _) (Hear.of_eq rfl rfl) (.modCall _ _ _ _)

theorem Hear.leaveStack (x : Tone) (p : Port) (r : RecordId) (s : State) : Hear x s (s.leaveStack p r) := by
  unfold State.leaveStack
  dsimp only
  have h : Hear x s (s.modCallPort p fun c => { c with stack := (s.callPort p).stack.erase r }) :=
    .modCallPort _ _ _ _ fun _ => rfl
  split
  · split
    · exact (h.trans (.setRing _ _ _ _)).trans (.modCallPort _ _ _ _ fun _ => rfl)
    · exact h.trans (.modCall _ _ _ _)
  · exact h

/-- The ending of a record lets no set hear any tone but the cause's, and a front record's set with its hook view OFF
hears that one. -/
theorem endRecord_hear (r : RecordId) (c : Cause) (x : Tone) (s : State) :
    Hear x s (s.endRecord r c (some x)) ∧ ∀ k, s.call? r = some k → k.isFront = true → (s.port k.port).state = .up →
      (s.callPort k.port).hookView = .off → ((s.endRecord r c (some x)).port k.port).tone = x := by
  unfold endRecord
  cases hk : s.call? r with
  | none => exact ⟨Hear.of_eq rfl rfl, by simp⟩
  | some k =>
    dsimp only
    set s2 := if (k.isFront && k.ringing) = true then (s.modCall r fun k => { k with cause := c }).setRing k.port false
      else s.modCall r fun k => { k with cause := c } with hs2
    have h2 : Hear x s s2 := by
      rw [hs2]
      split
      · exact (Hear.modCall _ _ _ _).trans (.setRing _ _ _ _)
      · exact Hear.modCall _ _ _ _
    set s3 := if (k.isFront && decide ((s.callPort k.port).hookView = Hook.off)) = true then s2.setTone k.port x else s2
      with hs3
    have h3 : Hear x s s3 := by
      rw [hs3]
      split
      · exact h2.trans (.setTone _ _ _)
      · exact h2
    have tone : k.isFront = true → (s.port k.port).state = .up → (s.callPort k.port).hookView = .off →
        (s3.port k.port).tone = x := fun h hu ho => by
      have hu2 : (s2.port k.port).state = .up := (h2 k.port).1.trans hu
      rw [hs3, if_pos (by simp [h, ho])]
      rcases setTone_cases k.port x s2 with ⟨-, e⟩ | ⟨n, -⟩
      · rw [e]
        simp [port, State.modCallPort, modPort, setPort]
      · exact absurd hu2 n
    have rest : Hear x s3 ((if k.state = CallState.held then (((match k.talkLane with
        | some l => s3.closeTalk l
        | none => s3).closeListens k.listenLanes).detach r).leaveStack k.port r else
        ((match k.talkLane with
        | some l => s3.closeTalk l
        | none => s3).closeListens k.listenLanes).detach r).modCall r
          fun k => { k with talkLane := none, listenLanes := [], timer := none }) := by
      refine Hear.trans ?_ (.modCall _ _ _ _)
      have h4 : Hear x s3 (match k.talkLane with
        | some l => s3.closeTalk l
        | none => s3) := by
        split
        · exact Hear.closeTalk _ _ _
        · exact Hear.of_eq rfl rfl
      have h5 := (h4.trans (Hear.closeListens x k.listenLanes _)).trans
        (u := ((match k.talkLane with
          | some l => s3.closeTalk l
          | none => s3).closeListens k.listenLanes).detach r) (Hear.of_eq rfl rfl)
      split
      · exact h5.trans (.leaveStack _ _ _ _)
      · exact h5
    refine ⟨h3.trans rest, fun k' hk' h hu ho => ?_⟩
    cases hk'
    exact rest.kept (tone h hu ho)

theorem Hear.awaitClears (x : Tone) (r : RecordId) (n : Nat) (s : State) : Hear x s (s.awaitClears r n) := by
  unfold State.awaitClears
  split
  · exact Hear.of_eq rfl rfl
  · exact Hear.modCall _ _ _ _

/-- A clearing lets no set hear any tone but the cause's, and a front record's set with its hook view OFF hears that
one. -/
theorem clearRecord_hear (r : RecordId) (c : Cause) (x : Tone) (s : State) (hx : c.tone = some x) :
    Hear x s (s.clearRecord r c) ∧ ∀ k, s.call? r = some k → k.isFront = true → (s.port k.port).state = .up →
      (s.callPort k.port).hookView = .off → ((s.clearRecord r c).port k.port).tone = x := by
  unfold clearRecord clearRecordTone
  cases hk : s.call? r with
  | none => exact ⟨Hear.of_eq rfl rfl, by simp⟩
  | some k =>
    dsimp only
    split
    · rename_i hcl
      refine ⟨Hear.of_eq rfl rfl, fun k' hk' h => ?_⟩
      cases hk'
      simp [Call.isClearing, Call.isFront] at hcl h
      simp [hcl] at h
    · rw [hx]
      obtain ⟨e1, e2⟩ := endRecord_hear r c x s
      have free : ∀ u : State, Hear x u (u.freeRecord r) := fun u => Hear.of_eq rfl rfl
      have rest : ∀ t, Hear x (s.endRecord r c (some x)) t → Hear x s t ∧ ∀ k', some k = some k' → k'.isFront = true →
          (s.port k'.port).state = .up → (s.callPort k'.port).hookView = .off → (t.port k'.port).tone = x :=
        fun t ht => ⟨e1.trans ht, fun k' hk' h hu ho => ht.kept (e2 k' (hk.trans hk') h hu ho)⟩
      split
      · apply rest
        unfold endConference
        split
        · exact free _
        · rename_i e cf _
          have fold : ∀ (ms : List Member) (u : State) (n : Nat), Hear x u (ms.foldl (fun (a : State × Nat) m =>
              let o := a.1.offer (a.1.memberClear m .confEnded) (a.1.clearingName r)
              (o.1, if o.2 then a.2 + 1 else a.2)) (u, n)).1 := by
            intro ms
            induction ms with
            | nil => exact fun u _ => Hear.of_eq rfl rfl
            | cons m ms ih => exact fun u n => (Hear.offer x _ _ u).trans (ih _ _)
          refine ((fold cf.members _ 0).trans ?_).trans (.awaitClears _ _ _ _)
          exact Hear.trans (t := State.setConf e none _) (Hear.of_eq rfl rfl) (.modCall _ _ _ _)
      · split
        · exact rest _ ((Hear.offer _ _ _ _).trans (.awaitClears _ _ _ _))
        · exact rest _ (free _)
        · exact rest _ (free _)

/-- The front record of a port, as R47 names it. -/
theorem front_spec {s : State} {p : Port} {r : RecordId} (h : s.front p = some r) :
    ∃ k, s.call? r = some k ∧ k.port = p ∧ k.isFront = true := by
  have := List.find?_some h
  split at this
  · rename_i k hk
    simp only [Bool.and_eq_true, decide_eq_true_eq] at this
    exact ⟨k, hk, this.1, this.2⟩
  · cases this

/-- The set whose front record a drop or a logout clears hears TONE REORDER (R66, R67). -/
theorem clearPort_front (p : Port) (c : Cause) (s : State) (hx : c.tone = some .reorder) :
    FrontHearsReorder s (s.clearPort p c) p := by
  intro hu ho r k ⟨hf, hk⟩
  obtain ⟨k', hk', hp, hfr⟩ := front_spec hf
  rw [hk] at hk'
  cases hk'
  have fold : ∀ (rs : List RecordId) (u : State), Hear .reorder u (rs.foldl (fun s r => s.clearRecord r c) u) := by
    intro rs
    induction rs with
    | nil => exact fun u => Hear.of_eq rfl rfl
    | cons r rs ih => exact fun u => (clearRecord_hear r c .reorder u hx).1.trans (ih _)
  have all : ∀ (rs : List RecordId) (u : State), rs.Nodup → (∀ q ∈ rs, ∃ k, u.call? q = some k ∧ k.state ≠ .clearing) →
      r ∈ rs → (u.port p).state = .up → (u.callPort p).hookView = .off →
      (∃ k, u.call? r = some k ∧ k.port = p ∧ k.isFront = true) →
      ((rs.foldl (fun s r => s.clearRecord r c) u).port p).tone = .reorder := by
    intro rs
    induction rs with
    | nil => intro u _ _ h; cases h
    | cons q rs ih =>
      intro u nodup use hm hu ho ⟨k, hk, hp, hfr⟩
      obtain ⟨hq, nodup'⟩ := List.nodup_cons.1 nodup
      obtain ⟨h1, h2⟩ := clearRecord_hear q c .reorder u hx
      rw [List.foldl_cons]
      rcases List.mem_cons.1 hm with rfl | hm
      · exact (fold rs _).kept (by rw [← hp]; exact h2 k hk hfr (hp ▸ hu) (hp ▸ ho))
      · obtain ⟨kq, hkq, hn⟩ := use q (List.mem_cons_self ..)
        have one := clearRecord_cleared q c u hkq hn
        have kept : ∀ j ∈ rs, Keeps u (u.clearRecord q c) j := fun j hj => one.others j fun e => hq (e ▸ hj)
        refine ih _ nodup' (fun j hj => ?_) hm ((h1 p).1.trans hu) ((h1 p).2.1.trans ho) ?_
        · obtain ⟨k', hk', hn'⟩ := use j (List.mem_cons_of_mem _ hj)
          obtain ⟨tm, ls, -, h⟩ := (kept j hj).2.2 k' hk'
          exact ⟨_, h, hn'⟩
        · obtain ⟨tm, ls, -, h⟩ := (kept r hm).2.2 k hk
          exact ⟨_, h, hp, hfr⟩
  refine all _ s ((List.nodup_finRange 64).filter _) (fun q hq => ?_) (recordsWhere_mem.2 ⟨k, hk, ?_⟩) hu ho
    ⟨k, hk, hp, hfr⟩
  · obtain ⟨k', hk', h⟩ := recordsWhere_mem.1 hq
    simp only [Bool.and_eq_true, Bool.not_eq_true', Call.isClearing, decide_eq_false_iff_not] at h
    exact ⟨k', hk', h.2⟩
  · simp only [Call.isFront] at hfr
    simp [hp, Call.isClearing]
    intro h
    simp [h] at hfr

/-! ### Logins that end (R3, R14, R67) -/

/-- A port is cleared also where other blocks have changed, or one cell more is queued, before its clearing, and where
cells join the queue and hook views change after it. -/
theorem portCleared_of_same {s s' t : State} {p : Port} {c : Cause} (hst : s'.station = s.station)
    (hc : s'.calls = s.calls) (hq : s'.highway.queue.length ≤ s.highway.queue.length + 1)
    (hr : ∀ r, t.call? r = (s'.clearPort p c).call? r) (hcf : t.calls.confs = (s'.clearPort p c).calls.confs)
    (hs : ∀ q, (t.callPort q).stack = ((s'.clearPort p c).callPort q).stack)
    (hm : ∀ q ∈ (s'.clearPort p c).highway.queue, q ∈ t.highway.queue) : PortCleared s t p c := by
  have hcall : ∀ r, s'.call? r = s.call? r := call_of_calls hc
  have hrec : ∀ r, s'.record r = s.record r := record_of_calls hc
  have hself : s'.self = s.self := by simp [State.self, hst]
  have hport : ∀ q, s'.callPort q = s.callPort q := fun q => by simp [callPort, hc]
  obtain ⟨h1, h2, -, h4, h5⟩ := clearPort_cleared p c s'
  have h3 : RoomToClear s p → Told s' (s'.clearPort p c) p c := fun ⟨⟨rs, hrs, room⟩, h3⟩ =>
    clearPort_told p c (rs := rs) ⟨hrs.1, fun r => by rw [hcall]; exact hrs.2 r⟩
      ⟨by rw [hst]; exact room.1, by have := room.2; omega⟩ (by rw [hc]; exact h3)
  simp only [Told, hcall, hrec, hself, hport, hc, callTag, clearingCell, cellFrom] at h1 h2 h3 h4 h5
  refine ⟨fun r k a b d => ?_, fun r k a b d e => ?_, fun room r k a b d => ?_, fun r a => ?_, fun r k a b d e => ?_⟩
  · rw [hr]; exact h1 r k a b d
  · rw [hr]; exact h2 r k a b d e
  · obtain ⟨g1, g2⟩ := h3 room r k a b d
    simp only [hr, hcf, clearingCell, cellFrom, callTag]
    exact ⟨fun far i j l m => ⟨(g1 far i j l m).1, hm _ (g1 far i j l m).2⟩,
      fun e cf i j l m n => ⟨(g2 e cf i j l m n).1, (g2 e cf i j l m n).2.1,
        fun x hx => hm _ ((g2 e cf i j l m n).2.2 x hx)⟩⟩
  · rw [hr]; exact h4 r a
  · rw [hs]; exact h5 r k a b d e

/-- A message to a set changes its outbound list and nothing else (R153). -/
theorem sendMessage_frame (p : Port) (m : SetMessage) (s : State) :
    (s.sendMessage p m).calls = s.calls ∧ (s.sendMessage p m).highway = s.highway ∧ (s.sendMessage p m).adm = s.adm ∧
    ∀ q, ((s.sendMessage p m).port q).tone = (s.port q).tone := by
  unfold sendMessage
  split
  · refine ⟨rfl, rfl, rfl, fun q => ?_⟩
    by_cases h : q = p
    · subst h; simp
    · rw [port_modPort_ne _ _ h]
  · exact ⟨rfl, rfl, rfl, fun _ => rfl⟩

theorem dropReason_tone (why : DropReason) : why.cause.tone = some .reorder := by cases why <;> rfl

/-- The drop of an ADMITTED login ends the calls of its port with the cause of the drop (R3, R67). -/
theorem dropLogin_cleared {s : State} {p : Port} {e : Ext} {r : Rights} {x : Epoch} {n : Renewal} (why : DropReason)
    (h : s.loginBody p = some (.admitted e r x n)) :
    PortCleared s (s.dropLogin p why) p why.cause ∧ FrontHearsReorder s (s.dropLogin p why) p := by
  have f := clearPort_front p why.cause (s.setEntry p none) (dropReason_tone why)
  unfold dropLogin
  rw [h]
  dsimp only
  cases why.result with
  | none => exact ⟨portCleared_of_same (s' := s.setEntry p none) rfl rfl (Nat.le_succ _) (fun _ => rfl) rfl (fun _ => rfl) fun _ h => h, f⟩
  | some m =>
    obtain ⟨h1, h2, -, h4⟩ := sendMessage_frame p (.loginResult m) ((s.setEntry p none).clearPort p why.cause)
    refine ⟨portCleared_of_same (s' := s.setEntry p none) rfl rfl (Nat.le_succ _) (call_of_calls h1) (by dsimp only [sendResult]; rw [h1])
      (fun q => by dsimp only [sendResult, callPort]; rw [h1]) fun q hq => by dsimp only [sendResult]; rwa [h2], ?_⟩
    intro hu ho r k hf
    exact (h4 p).trans (f hu ho r k hf)

/-- A home record's update changes the Admission Unit's tables and nothing else. -/
theorem setHomeRecord_frame (e : Ext) (h : HomeRecord) (s : State) :
    (s.setHomeRecord e h).ports = s.ports ∧ (s.setHomeRecord e h).calls = s.calls ∧
    (s.setHomeRecord e h).highway = s.highway := by
  unfold setHomeRecord
  split <;> exact ⟨rfl, rfl, rfl⟩

/-- The logout of an ADMITTED login ends the calls of its port with ADMISSION (R14, R67). -/
theorem logOut_cleared {s : State} {p : Port} {e : Ext} {r : Rights} {x : Epoch} {n : Renewal}
    (h : s.loginBody p = some (.admitted e r x n)) :
    PortCleared s (s.logOut p) p .admission ∧ FrontHearsReorder s (s.logOut p) p := by
  have f := clearPort_front p .admission (s.setEntry p none) rfl
  set u := (s.setEntry p none).clearPort p .admission with hu
  have rest : ∀ t : State, t.ports = u.ports → t.calls = u.calls → (∀ q ∈ u.highway.queue, q ∈ t.highway.queue) →
      PortCleared s t p .admission ∧ FrontHearsReorder s t p := fun t hp hc hq =>
    ⟨portCleared_of_same (s' := s.setEntry p none) rfl rfl (Nat.le_succ _) (call_of_calls hc) (by rw [hc])
      (fun q => by simp only [callPort, hc, hu]) hq,
      fun h1 h2 r k hf => by rw [show t.port p = u.port p by simp [port, hp]]; exact f h1 h2 r k hf⟩
  have offered : ∀ (v : State) (x : Cell), v.ports = u.ports → v.calls = u.calls →
      v.highway.queue = u.highway.queue → PortCleared s (v.offerSkip x .plain) p .admission ∧
        FrontHearsReorder s (v.offerSkip x .plain) p := fun v x hp hc hq => by
    obtain ⟨-, -, -, op, -, oc, -⟩ := offer_frame x .plain v
    exact rest _ (op.trans hp) (oc.trans hc) fun q h => (Sends.offer x .plain v).mem (hq ▸ h)
  have same := rest u rfl rfl fun _ h => h
  unfold logOut
  rw [h]
  dsimp only
  rw [← hu]
  split
  · exact same
  · split
    · unfold clearLocation
      split
      · split
        · obtain ⟨h1, h2, h3⟩ := setHomeRecord_frame e _ u
          exact offered _ _ h1 h2 (by rw [h3])
        · exact same
      · exact same
    · exact offered _ _ rfl rfl rfl

end Sys2Proof.Machine.State
end

