-- ==== Sys2Proof/Laws/Sequencer.lean ====
section
/-! SUPPORT. The frame sequencer: what a place of the frame does by itself and makes due, said once for the proofs about
an idle step. -/

namespace Sys2Proof.Machine

open Sys2Proof

@[simp] theorem mem_when (due : Bool) (i c : Instr) : c ∈ when_ due i ↔ due = true ∧ c = i := by
  unfold when_
  cases due <;> simp

/-- At the place of a port or lane a stage brings that port's or lane's commands. -/
theorem atIndex_eq {n : Nat} (s : State) (f : Fin n → List Instr) {i : Fin n} (h : s.clock.index = i.val) :
    s.atIndex f = f i := by
  have : s.clock.at? n = some i := by
    unfold Clock.at?
    rw [dif_pos (h ▸ i.isLt)]
    exact congrArg some (Fin.ext h)
  unfold State.atIndex
  rw [this]

/-- Only the start of a frame and the tick of frame 63 change anything by themselves. -/
theorem stageEffect_eq_self (s : State) (h : s.clock.stage ≠ .frameStart)
    (h' : s.clock.stage ≠ .tick ∨ s.clock.frame ≠ 63) : s.stageEffect = s := by
  unfold State.stageEffect
  split
  · rename_i e
    exact absurd e h
  · rename_i e
    rw [if_neg (h'.resolve_left (not_not_intro e))]
  all_goals rfl

theorem stageEffect_frameStart {s : State} (h : s.clock.stage = .frameStart) : s.stageEffect = s.beginFrame := by
  unfold State.stageEffect
  rw [h]

theorem stageEffect_boundary {s : State} (h : s.clock.stage = .tick) (h' : s.clock.frame = 63) :
    s.stageEffect = s.passBoundary := by
  unfold State.stageEffect
  rw [h]
  exact if_pos h'

/-- The expiries of a boundary are those of the timers that stand at 0, and no others. -/
theorem mem_expiries (s : State) (c : Instr) : c ∈ s.expiries ↔ TimerRunOut s c := by
  unfold State.expiries TimerRunOut
  simp only [List.mem_append, List.mem_flatMap, List.mem_finRange, true_and, mem_when]
  constructor
  · rintro (((⟨p, h⟩ | ⟨i, h⟩) | ⟨r, h⟩) | ⟨p, h⟩)
    · unfold State.loginExpiry at h
      rw [List.mem_append, mem_when] at h
      rcases h with h | h
      · left
        split at h <;> simp_all
      · exact Or.inr (Or.inl ⟨p, by simpa using h.1, h.2⟩)
    · right; right; left
      unfold State.queryExpiry at h
      split at h <;> simp_all
    · right; right; right; left
      unfold State.recordExpiry at h
      split at h
      · split at h
        · refine ⟨r, _, by assumption, by assumption, ?_⟩
          split at h
          · split at h <;> simp_all [Option.isSome_iff_ne_none]
          all_goals simp_all
        · simp at h
      · simp at h
    · exact Or.inr (Or.inr (Or.inr (Or.inr ⟨p, by simpa using h⟩)))
  · rintro (⟨p, x, h, ht, h'⟩ | ⟨p, h, rfl⟩ | ⟨i, y, h, ht, rfl⟩ | ⟨r, k, h, ht, h'⟩ | ⟨p, h, rfl⟩)
    · refine Or.inl (Or.inl (Or.inl ⟨p, ?_⟩))
      unfold State.loginExpiry
      obtain ⟨b, tm⟩ := x
      simp only at ht h'
      subst ht
      rcases h' with ⟨e, n, v, k, rfl, rfl⟩ | ⟨e, rfl, rfl⟩ | ⟨e, r, ep, rfl, rfl⟩ <;> simp [h]
    · refine Or.inl (Or.inl (Or.inl ⟨p, ?_⟩))
      unfold State.loginExpiry
      simp [h]
    · refine Or.inl (Or.inl (Or.inr ⟨i, ?_⟩))
      unfold State.queryExpiry
      obtain ⟨_, _, _, _⟩ := y
      simp only at ht
      subst ht
      simp [h]
    · refine Or.inl (Or.inr ⟨r, ?_⟩)
      unfold State.recordExpiry
      rw [h]
      simp only [ht, if_true]
      rcases h' with ⟨h1, h2, rfl⟩ | ⟨h1, h2, rfl⟩ | ⟨h1, rfl⟩ | ⟨h1, rfl⟩ | ⟨h1, rfl⟩ | ⟨h1, rfl⟩ <;> simp [h1]
      · simp [h2]
      · cases hk : k.farExt <;> simp_all
    · exact Or.inr ⟨p, by simpa using h⟩

end Sys2Proof.Machine
end

