-- ==== Sys2Proof/Tests/Slice0.lean ====
section
/-! SUPPORT. Tests and witnesses. Expected values come from the manual's worked examples and tables (station 4 of spec 04
and 05, the formats of spec 12), as each comment names. A `witness_` theorem shows a state that meets the hypotheses of
one statement, clause by clause, and what the command does there. -/

namespace Sys2Proof.Tests

open Sys2Proof Sys2Proof.Machine

/-! ### WellFormed: what each check refuses -/

theorem smoke_image_of_88_bytes_refused : (Instr.readCompletion (List.replicate 88 0)).wellFormed = false := by decide
theorem smoke_image_of_89_bytes_taken : (Instr.readCompletion (List.replicate 89 0)).wellFormed = true := by decide
theorem smoke_window_of_39_bytes_refused : (Instr.windowHeard 3 (List.replicate 39 0)).wellFormed = false := by decide
theorem smoke_backplane_of_255_slots_refused :
    (Instr.readingTheSlot (List.replicate 255 (0, false))).wellFormed = false := by decide +kernel
theorem smoke_login_req_of_three_octets_refused :
    (Instr.admissionMessageArrival 0 (.loginReq 65536)).wellFormed = false := by decide

/-! ### Small states -/

/-- The image of station 4 as the tests use it: numbers 4000 to 4099, maintenance station 1. -/
def imageFour : Image := {
  station := 4, range := ⟨4000, 100⟩, defaultRights := 2, mask := 0xFFFFFF, reservedAdmit := 2, reservedCall := 2
  reservedKey := 2, reservedMaint := 2, maintenance := some 1, lockThreshold := 60, lossThreshold := 48
  lockoutTime := 3750, keyAgeLimit := 7500, provingLimit := 8, secret := 5, diverts := Vector.replicate 8 {} }

/-- Station 4 just ACTIVE: nothing logged in, no call, home records at epoch 7. -/
def live : State := {
  station := { state := .active, image := some imageFour }
  calls := { plan := upd (Vector.replicate 16 .unknown) 4 (.present ⟨4000, 100⟩) }
  adm := { homes := List.replicate 100 { location := none, rights := 2, barred := false, epoch := 7 } } }

def inState (st : StationState) (s : State) : State := { s with station := { s.station with state := st } }

def atFrame (f : Fin 64) (s : State) : State := { s with clock := { s.clock with frame := f } }

/-- A port in UP with a change to it. -/
def withPort (p : Port) (f : PortUnit → PortUnit) (s : State) : State :=
  s.modPort p fun u => f { u with state := .up }

def withLogin (p : Port) (b : LoginBody) (timer : Option Nat) (s : State) : State :=
  s.modLogin p fun l => { l with entry := some { body := b, timer := timer } }

/-- Port 6 in UP with extension 4021 ADMITTED in a class, hook view OFF (spec 04, worked example). -/
def user (rights : Rights) (f : PortUnit → PortUnit) (s : State) : State :=
  ((withPort 6 f s).modCallPort 6 fun c => { c with hookView := .off }).modLogin 6
    fun l => { l with entry := some { body := .admitted 4021 rights 43 .none, timer := none } }

def withCall (r : RecordId) (incarnation : Byte) (k : Call) (s : State) : State :=
  s.setRecord r { incarnation := incarnation, call := some k }

def withHome (n : Ext) (f : HomeRecord → HomeRecord) (s : State) : State :=
  s.setHomeRecord n (f { location := none, rights := 2, barred := false, epoch := 7 })

def withQueue (n : Nat) (s : State) : State :=
  s.setHighway { s.highway with
    queue := List.replicate n { cell := s.cellToAll (.slot (.free 9)), name := .plain } }

/-- A cell of a peer for station 4. -/
def peerCell (from_ : Station) (b : Body) : Cell := { source := from_, dest := .one 4, body := b }

/-- The only cell in the store, two superframes old at most. -/
def holding (c : Cell) (s : State) : State :=
  s.setHighway { s.highway with store := [{ cell := c, header := c.header, stamp := 0 }] }

def stored (c : Cell) : Stored := { cell := c, header := c.header, stamp := 0 }

/-- Every record in use. -/
def noFreeRecord (s : State) : State :=
  { s with calls := { s.calls with
    records := s.calls.records.map fun r => match r.call with
      | some _ => r
      | none => { r with call := some { state := .clearing, port := 0, ownExt := 0, role := .caller } } } }

/-! ### The two calls of station 4, port 6 (spec 04 and 05, worked examples) -/

/-- Record 5: 3107 at station 9. -/
def callFive : Call := {
  state := .connected, port := 6, ownExt := 4021, role := .caller, farExt := some 3107, calledEpoch := some 43
  farStation := some 9, farTag := ⟨0x02, 0x1F⟩, farSlot := some 144, farNonce := some 9, talkLane := some 0
  listenLanes := [0] }

/-- Record 6: 3290 at station 12. -/
def callSix : Call := {
  state := .connected, port := 6, ownExt := 4021, role := .caller, farExt := some 3290, calledEpoch := some 1
  farStation := some 12, farTag := ⟨0x08, 0x21⟩, farSlot := some 192, farNonce := some 12, talkLane := some 1
  listenLanes := [1] }

def talkZero : TalkLane := {
  state := .active, owner := 5, ownerTag := ⟨5, 12⟩, slot := some 64, ownNonce := 4, partner := some 9
  activeKey := some 77, mode := .voice }

def talkOne : TalkLane := {
  state := .active, owner := 6, ownerTag := ⟨6, 5⟩, slot := some 65, ownNonce := 40, partner := some 12
  activeKey := some 78, mode := .voice }

def listenZero : ListenLane := {
  state := .locked, owner := 5, ownerTag := ⟨5, 12⟩, purpose := .setup, talker := 9, talkerTag := ⟨0x02, 0x1F⟩
  slot := 144, talkerNonce := some 9, partnerNonce := some 4
  active := some { key := 79, talker := 9, partner := 4, count := 0 } }

def listenOne : ListenLane := {
  state := .locked, owner := 6, ownerTag := ⟨6, 5⟩, purpose := .setup, talker := 12, talkerTag := ⟨0x08, 0x21⟩
  slot := 192, talkerNonce := some 12, partnerNonce := some 40
  active := some { key := 80, talker := 12, partner := 40, count := 0 } }

/-- Record 5 with its lanes, in a state. -/
def withFive (k : Call) (s : State) : State := ((withCall 5 12 k s).setTalk 0 talkZero).setListen 0 listenZero

/-- Record 5 CONNECTED and front at port 6; slots 64 and 144 held. -/
def oneCall : State := ((withFive callFive (user 2 id live)).setSlot 64 (some 4)).setSlot 144 (some 9)

/-- Record 6 front, record 5 HELD. -/
def twoCalls (f : PortUnit → PortUnit) : State :=
  ((((withCall 6 5 callSix (withFive { callFive with state := .held } (user 2 f live))).setTalk 1 talkOne).setListen 1
    listenOne).setSlot 64 (some 4)).setSlot 65 (some 4) |>.modCallPort 6 fun c => { c with stack := [5] }

/-! ### The queue and resets -/

theorem witness_StepRunsFrontCommand :
    step { live with pending := [.coldReset, .census] } = exec .coldReset { live with pending := [.census] } := rfl

theorem witness_IdleStepGoesThroughTheFrame :
    ∃ t, step { live with clock := { frame := 63, stage := .frameEnd } } = .next t ∧ t.clock = {} := ⟨_, rfl, by decide +kernel⟩

/-- A state at a place of the frame. -/
def placed (f : Fin 64) (st : Stage) (i : Nat) (s : State) : State := { s with clock := ⟨f, st, i⟩ }

/-- The idle step of a place leaves these commands in the queue. -/
def Brings (s : State) (cmds : List Instr) : Prop := ∃ t, step s = .next t ∧ t.pending = cmds

/-- Every timer kind at `n`, a stored cell and a refused NOTICE. -/
def running (n : Nat) : State :=
  let s := (withCall 5 12 { callFive with state := .offering, timer := some n }
    (withLogin 6 (.confirming 3107) (some n) live)).modLogin 7 fun l => { l with lockedOut := true, lockoutTimer := some n }
  let s1 := (s.setQuery 1 { query := some { ext := 3107, home := 2, timer := some n, waiters := [] } }).modCallPort 8
    fun c => { c with burst := some n }
  { holding (peerCell 9 (.callClear .busy)) s1 with maint := { refused := true } }

/-- What stands above is checked. -/
inductive QueueSection where
  | checked

/-- The tick of frame 63 lessens every timer, and that of frame 62 none; then those at 0 expire, at frame 63 alone. -/
theorem witness_IdleStepGoesThroughTheFrame_timers :
    (∃ t, step (placed 63 .tick 0 (running 1)) = .next t ∧ ((t.login 6).entry.bind (·.timer)) = some 0 ∧
      (t.login 7).lockoutTimer = some 0 ∧ ((t.adm.queries.get 1).query.bind (·.timer)) = some 0 ∧
      ((t.call? 5).bind (·.timer)) = some 0 ∧ (t.callPort 8).burst = some 0 ∧
      t.highway.store.map (·.stamp) = [1] ∧ t.maint = {}) ∧
    (∃ t, step (placed 62 .tick 0 (running 1)) = .next t ∧ t = placed 62 .expiries 0 (running 1)) ∧
    Brings (placed 63 .expiries 0 (running 0)) [.confirmingTimerExpiry 6, .lockoutTimerExpiry 7, .queryTimerExpiry 1,
      .answerTimerExpiry 5, .burstTimerExpiry 8] ∧
    Brings (placed 63 .expiries 0 (running 1)) [] ∧ Brings (placed 62 .expiries 0 (running 0)) [] :=
  ⟨⟨_, rfl, by decide +kernel⟩, ⟨_, rfl, by decide +kernel⟩, ⟨_, rfl, by decide +kernel⟩, ⟨_, rfl, by decide +kernel⟩,
    ⟨_, rfl, by decide +kernel⟩⟩

/-- A RESTART reply has been sent. -/
def restartSent : Queued := { cell := live.cellToAll (.maintReply 0x0B .ok []), name := .restartReply }

def restarting : State :=
  { (((withHome 4021 (fun h => { h with location := some (4, 6), epoch := 43 }) oneCall).setHighway { live.highway with
      sent := some restartSent
      presence := upd live.highway.presence 9 { state := .present, startTag := 3 } }).setPort 6
      { state := .up, enable := true, lineLossCount := 3, replacedCount := 2, good := 4, bad := 1, setFrames := 9,
        lineLoss := true, admission := some .logout, hook := some .off, keys := [.holdKey], digits := [1],
        reportedHook := .off, tone := .dial, ring := true, outbound := [.loginResult .ok] }) with maint := { restartDue := true, pending := true } }

/-- What stands above is checked. -/
inductive FrameSection where
  | checked

/-- The hypotheses of the four reset statements; R104, R70, R21, R172 and R156 after the warm reset. -/
theorem witness_WarmReset :
    (restarting.highway.sent = some restartSent ∧ restartSent.name = .restartReply ∧
      restarting.station.state = .active ∧ restarting.maint.restartDue = true ∧
      restarting.station.image = some imageFour) ∧
    Completes .cellCarried restarting fun t =>
      (t.slots.map.get 64 = none ∧ t.slots.claims = []) ∧ t.record 5 = { incarnation := 12 } ∧
      t.homeRecord 4021 = some { location := none, rights := 2, barred := false, epoch := 44 } ∧
      t.station.startTag = 1 ∧ t.station.state = .listening ∧ (t.highway.presence.get 9).state = .absent ∧
      t.port 6 = { state := .down, enable := true, lineLossCount := 3, replacedCount := 2 } ∧
      t.talkPlace 0 = {} ∧ t.listenPlace 0 = {} :=
  ⟨by decide +kernel, _, rfl, by decide +kernel⟩

/-- R104, R123, R142, R156 and R45 after COLD_RESET; the divert table waits for the load (log 5). -/
theorem test_coldReset_leaves_reset_values :
    Completes .coldReset restarting fun t => t.station = {} ∧ t.call? 5 = none ∧ t.slots.map.get 64 = none ∧
      t.port 6 = {} ∧ t.talkPlace 0 = {} ∧ t.listenPlace 0 = {} ∧ t.calls.diverts.get 0 = {} ∧
      t.scr.nonceSeed = 1 :=
  ⟨_, rfl, by decide +kernel⟩

/-! ### The image (spec 12; R175) -/

/-- The 16-bit check of the nine characters "123456789" under generator 1021h from FFFFh is 29B1h, the published check
value of that code. -/
theorem test_check16_of_123456789 :
    check16 [0x31, 0x32, 0x33, 0x34, 0x35, 0x36, 0x37, 0x38, 0x39] = 0x29B1 := by decide +kernel

/-- The 8-bit check of the same characters under generator 07h from 00h is F4h. -/
theorem test_check8_of_123456789 :
    check8 [0x31, 0x32, 0x33, 0x34, 0x35, 0x36, 0x37, 0x38, 0x39] = 0xF4 := by decide +kernel

/-- An image written out by the table of spec 12: station 4, low 0FA0h, length 64h, ports 0 to 7 enabled, reserved
counts 2, maintenance station 1, zeros to the divert entries (all disabled, low 0 to high 0 at station 0). -/
def imageBody : List Byte :=
  [0x31, 4, 0x0F, 0xA0, 0, 0x64, 2, 0xFF, 0, 0, 2, 2, 2, 2, 1] ++ List.replicate 72 0

/-- An image with one byte of its body changed. -/
def imageWith (at_ : Nat) (b : Byte) : List Byte := withCheck (imageBody.set at_ b)

/-- What stands above is checked. -/
inductive ResetSection where
  | checked

set_option maxRecDepth 20000 in
theorem test_image_fields_and_defaults : (decodeImage (withCheck imageBody)).any (fun im => decide (
    im.station = 4 ∧ im.range = ⟨4000, 100⟩ ∧ im.mask = 0x0000FF ∧ im.maintenance = some 1 ∧
    im.lockThreshold = 60 ∧ im.lossThreshold = 48 ∧ im.lockoutTime = 3750 ∧ im.keyAgeLimit = 7500 ∧
    im.provingLimit = 8)) = true := by decide +kernel

set_option maxRecDepth 20000 in
/-- A field outside its range by one: station 16, rights class 4, ADMIT count 0, MAINT count 9, the station itself as
maintenance station, key age limit 1. -/
theorem witness_ReadingTheImage_bad : State.reset.station.state = .loading ∧
    ((byteAt (imageWith 1 16) 1).toNat = 16 ∧ (byteAt (imageWith 6 4) 6).toNat = 4 ∧
      (byteAt (imageWith 0x0A 0) 0x0A).toNat = 0 ∧ (byteAt (imageWith 0x0D 9) 0x0D).toNat = 9 ∧
      byteAt (imageWith 0x0E 4) 0x0E = byteAt (imageWith 0x0E 4) 1 ∧ fieldAt (imageWith 0x14 1) 0x13 2 = 1 ∧
      checkGood 87 (imageBody ++ [0, 0]) = false) ∧
    ∀ x ∈ [imageWith 1 16, imageWith 6 4, imageWith 0x0A 0, imageWith 0x0D 9, imageWith 0x0E 4, imageWith 0x14 1,
      imageBody ++ [0, 0]], decodeImage x = none := by decide +kernel

set_option maxRecDepth 20000 in
/-- Each other field of R175's table, one above its range: home length 612, maintenance station 10h and FEh, lock
threshold 65 and, with the loss threshold at its default, 47, loss threshold 65 and 61, proving limit 512, and divert
entry 7 with low above high, high 16384 and target 16. Fields at the end of their ranges are taken. -/
theorem witness_ReadingTheImage_fields :
    (∀ x ∈ [imageWith 4 2, imageWith 0x0E 0x10, imageWith 0x0E 0xFE, imageWith 0x0F 65, imageWith 0x0F 47,
      imageWith 0x10 65, imageWith 0x10 61, imageWith 0x15 2, imageWith 0x52 1, imageWith 0x53 0x40,
      imageWith 0x55 16], decodeImage x = none) ∧
    (∀ x ∈ [imageWith 0x0E 0xFF, imageWith 0x0F 64, imageWith 0x10 60, imageWith 0x15 1, imageWith 0x55 15],
      (decodeImage x).isSome = true) ∧
    Completes (.readCompletion (imageWith 0x55 16)) State.reset (fun t => t.station.state = .halted ∧
      t.station.faultOutput = true ∧ t.station.image = none) :=
  ⟨by decide +kernel, by decide +kernel, _, rfl, by decide +kernel⟩

/-- Divert entries 0 to 7: the first two enabled and overlapping at 900 (03 84h). -/
def overlapBytes : List Byte :=
  withCheck (imageBody.take 0x27 ++ [0x03, 0x84, 0x03, 0x84, 7, 2] ++ [0x03, 0x80, 0x03, 0x90, 8, 2] ++
    List.replicate 36 0)

set_option maxRecDepth 20000 in
theorem witness_ReadingTheImage_good :
    Completes (.readCompletion overlapBytes) State.reset fun t => t.station.state = .listening ∧
      (t.calls.diverts.get 0).covers 900 = true ∧ (t.calls.diverts.get 1).enable = false ∧
      (t.port 7).state = .down ∧ (t.port 8).state = .disabled ∧ t.calls.plan.get 4 = .present ⟨4000, 100⟩ ∧
      t.highway.counters.get FaultKind.rangeOverlap.index = 1 ∧
      t.calls.diverts.get 0 = { low := 900, high := 900, target := 7, outside := false, enable := true } ∧
      t.calls.diverts.get 1 = { low := 896, high := 912, target := 8, outside := false, enable := false } ∧
      t.port 7 = { state := .down, enable := true } :=
  ⟨_, rfl, by decide +kernel⟩

theorem test_readFailure_halts : Completes .readFailure State.reset fun t =>
    t.station.state = .halted ∧ t.station.faultOutput = true := ⟨_, rfl, by decide⟩

def listening (count : Nat) : State := { inState .listening (atFrame 63 live) with
  station := { state := .listening, image := some imageFour, listeningCount := count } }

theorem witness_SecondFullSuperframeMakesActive :
    ((listening 2).station.state = .listening ∧ AtBoundary (listening 2)) ∧
    Completes .listeningCountLimit (listening 2) (fun t => t.station.state = .active) ∧
    Completes .listeningCountLimit (listening 1) (fun t => t.station.state = .listening) :=
  ⟨⟨rfl, rfl⟩, ⟨_, rfl, by decide +kernel⟩, ⟨_, rfl, by decide +kernel⟩⟩

/-! ### The highway -/

/-- What stands above is checked. -/
inductive ImageSection where
  | checked

/-- In frame 0 the census lists the own slots, ascending, after the fields of spec 12; COLD stands in the first. -/
theorem witness_OwnWindowIsSentAndReported_census :
    (oneCall.station.image = some imageFour ∧ oneCall.station.state = .active ∧ oneCall.clock.frame = 0) ∧
    Completes .sendWindow oneCall fun t => t.highway.windowOut.map (·.take 15) =
      some [1, 4, 0xFF, 1, 0xFF, 0xFF, 0xFF, 0xFF, 0x0F, 0xA0, 99, 0, 0, 1, 64] ∧ t.highway.censusCount = 1 :=
  ⟨by decide +kernel, _, rfl, by decide +kernel⟩

def freeCell (x : Slot) : Queued := { cell := live.cellToAll (.slot (.free x)), name := .slotCell (.free x) }

def chosen (q : Queued) (s : State) : State := s.setHighway { s.highway with chosen := some q }

def sent (q : Queued) (s : State) : State := s.setHighway { s.highway with sent := some q }

theorem witness_OwnWindowIsSentAndReported_chosen :
    (atFrame 5 (chosen (freeCell 9) live)).clock.frame ≠ 0 ∧
    Completes .sendWindow (atFrame 5 (chosen (freeCell 9) live)) (fun t =>
      t.highway.windowOut.map (·.take 9) = some [3, 4, 0xFF, 0, 0xFF, 0xFF, 0xFF, 0xFF, 9] ∧ t.highway.chosen = none) ∧
    Completes .sendWindow (inState .listening live) (fun t => t.highway.windowOut = none) :=
  ⟨by decide +kernel, ⟨_, rfl, by decide +kernel⟩, ⟨_, rfl, by decide +kernel⟩⟩

/-- Claims of slots 81 and 82, a RELEASE of 9, and a CLEARING record of one and of two cells. -/
def claiming (refused : Bool) (s : State) : State :=
  s.setClaims [{ kind := .claim, slot := 81, lane := some 0, refused := refused }, { kind := .release, slot := 9 }]

def clearing (n : Nat) : State := withCall 5 12 { callFive with state := .clearing, clears := n } live

theorem witness_OwnWindowIsSentAndReported_carried :
    Completes .cellCarried (sent (freeCell 9) (claiming false live)) (fun t =>
      t.slots.claims = [{ kind := .claim, slot := 81, lane := some 0 }]) ∧
    Completes .cellCarried (atFrame 20 (sent { freeCell 81 with name := .slotCell (.claim 81) } (claiming false live)))
      (fun t => t.slots.claims.map (·.carried) = [some 20, none]) ∧
    Completes .cellCarried (sent { freeCell 9 with name := .clearing 5 12 } (clearing 1))
      (fun t => t.record 5 = { incarnation := 12 }) ∧
    Completes .cellCarried (sent { freeCell 9 with name := .clearing 5 12 } (clearing 2))
      (fun t => (t.call? 5).map (·.clears) = some 1) ∧
    Completes .cellCarried (sent { freeCell 9 with name := .clearing 5 11 } (clearing 1))
      (fun t => (t.call? 5).isSome = true) ∧
    Completes .cellCarried { sent { freeCell 9 with name := .notice } live with maint := { queued := true } }
      (fun t => t.maint.queued = false) ∧
    Completes .cellCarried (sent { freeCell 9 with name := .keyNext 0 0 } (live.setTalk 0 { talkZero with
      staged := some { key := 1, count := 1, partner := 9, isFirst := false, queued := true } }))
      (fun t => ((t.talk? 0).bind (·.staged)).bind (·.countdown) = some 2) :=
  ⟨⟨_, rfl, by decide +kernel⟩, ⟨_, rfl, by decide +kernel⟩, ⟨_, rfl, by decide +kernel⟩, ⟨_, rfl, by decide +kernel⟩,
    ⟨_, rfl, by decide +kernel⟩, ⟨_, rfl, by decide +kernel⟩, ⟨_, rfl, by decide +kernel⟩⟩

/-- A CALL-CLEAR behind an older CALL-OFFER of the same record waits, and a CALL cell of another record goes (R160). -/
def ordered : State := live.setHighway { live.highway with queue := [
  { cell := cellFrom live 9 ⟨5, 12⟩ Tag.absent (.callClear .normal), name := .plain },
  { cell := cellFrom live 9 ⟨5, 12⟩ Tag.absent (.syncAsk 3), name := .plain },
  { cell := cellFrom live 9 ⟨6, 12⟩ Tag.absent (.callClear .busy), name := .plain },
  { cell := cellFrom live 9 ⟨0, 0⟩ Tag.absent (.admitAsk 1), name := .plain }] }

theorem witness_ChoiceTakesOldestOfFirstClass :
    (ordered.station.state = .active ∧ ordered.clock.frame ≠ 63 ∧ ordered.highway.chosen = none ∧
      ordered.highway.queue ≠ []) ∧
    Completes .transmitChoice ordered (fun t => t.highway.chosen.map (·.cell.body) = some (.callClear .normal)) ∧
    Completes .transmitChoice (atFrame 63 ordered) (fun t => t = atFrame 63 ordered) :=
  ⟨by decide +kernel, ⟨_, rfl, by decide +kernel⟩, ⟨_, rfl, by decide +kernel⟩⟩

/-- SLOT-FREE 7 of station 9, by the table of spec 12. -/
def slotFree : List Byte := withCheck ([3, 9, 0xFF, 0, 0xFF, 0xFF, 0xFF, 0xFF, 7] ++ List.replicate 29 0)

theorem test_decodeCell_slotFree : decodeCell 9 slotFree =
    some { source := 9, dest := .all, body := .slot (.free 7) } := by decide +kernel

/-- What stands above is checked. -/
inductive WindowSection where
  | checked

/-- A bad check; kind 05h, which the table does not give; a SLOT-FREE in frame 0; source 8 in window 9; an empty
window; destination 16. -/
theorem witness_BadWindowsAreDiscardedAndCounted :
    let s := atFrame 5 (inState .listening live)
    let kindFive := withCheck (5 :: (slotFree.take 38).drop 1)
    let empty := withCheck (0 :: (slotFree.take 38).drop 1)
    let toSixteen := withCheck ((slotFree.take 38).set 2 16)
    let fromEight := withCheck ((slotFree.take 38).set 1 8)
    (checkGood 38 (slotFree.set 39 0) = false ∧ decodeCell 9 kindFive = none ∧ decodeCell 9 toSixteen = none ∧
      checkGood 38 kindFive = true ∧ checkGood 38 fromEight = true ∧ checkGood 38 empty = true) ∧
    Completes (.windowHeard 9 (slotFree.set 39 0)) s (fun t => t.highway.counters.get 0 = 1) ∧
    Completes (.windowHeard 9 kindFive) s (fun t => t.highway.counters.get 1 = 1) ∧
    Completes (.windowHeard 9 toSixteen) s (fun t => t.highway.counters.get 1 = 1) ∧
    Completes (.windowHeard 9 slotFree) (atFrame 0 s) (fun t => t.highway.counters.get 1 = 1) ∧
    Completes (.windowHeard 9 fromEight) s (fun t => t.highway.counters.get 2 = 1) ∧
    Completes (.windowHeard 9 empty) s (fun t => t.highway = s.highway) ∧
    Completes (.windowHeard 9 slotFree) (inState .halted live) (fun t => t = inState .halted live) :=
  ⟨by decide +kernel, ⟨_, rfl, by decide +kernel⟩, ⟨_, rfl, by decide +kernel⟩, ⟨_, rfl, by decide +kernel⟩,
    ⟨_, rfl, by decide +kernel⟩, ⟨_, rfl, by decide +kernel⟩, ⟨_, rfl, by decide +kernel⟩, ⟨_, rfl, by decide +kernel⟩⟩

/-- CALL-CLEAR BUSY of station 9 to a station: kind 23h, cause 02h. -/
def clearBytes (to_ : Byte) : List Byte := withCheck ([0x23, 9, to_, 0, 2, 0x1F, 5, 12, 2] ++ List.replicate 29 0)

/-- A store whose CALL buffers and pool (32 - 8) are all taken. -/
def fullStore (refusals : Nat) : State := (atFrame 5 live).setHighway { live.highway with
  store := List.replicate 26 (stored (peerCell 9 (.callClear .busy)))
  refusals := List.replicate refusals (peerCell 9 (.refuse 0x23 ⟨2, 0x1F⟩ .storeFull)) }

theorem witness_CellIsStoredOrRefused :
    ((atFrame 5 live).hasBuffer .callC = true ∧ (fullStore 0).hasBuffer .callC = false ∧
      (decodeCell 9 (clearBytes 4)).map (·.dest) = some (.one 4) ∧ (9 : Station) ≠ (atFrame 5 live).self) ∧
    Completes (.windowHeard 9 (clearBytes 4)) (atFrame 5 live) (fun t => t.highway.store.length = 1) ∧
    Completes (.windowHeard 9 (clearBytes 0xFF)) (fullStore 0) (fun t =>
      t.highway.counters.get 4 = 1 ∧ t.highway.refusals = []) ∧
    Completes (.windowHeard 9 (clearBytes 4)) (fullStore 3) (fun t => t.highway.refusals.getLast? = some {
      source := 4, dest := .one 9, receiver := ⟨2, 0x1F⟩, body := .refuse 0x23 ⟨2, 0x1F⟩ .storeFull }) ∧
    Completes (.windowHeard 9 (clearBytes 4)) (fullStore 4) (fun t =>
      t.highway.refusals.length = 4 ∧ t.highway.counters.get 6 = 1) ∧
    Completes (.windowHeard 9 (clearBytes 5)) (atFrame 5 live) (fun t => t = atFrame 5 live) :=
  ⟨by decide +kernel, ⟨_, rfl, by decide +kernel⟩, ⟨_, rfl, by decide +kernel⟩, ⟨_, rfl, by decide +kernel⟩,
    ⟨_, rfl, by decide +kernel⟩, ⟨_, rfl, by decide +kernel⟩⟩

/-- A window of station `from_` of a kind with a body, under FFFFh tags, to a destination. -/
def windowOf (from_ kind to_ : Byte) (body : List Byte) : List Byte :=
  withCheck (([kind, from_, to_, 0, 0xFF, 0xFF, 0xFF, 0xFF] ++ body ++ List.replicate 30 0).take 38)

/-- What stands above is checked. -/
inductive StoreSection where
  | checked

/-- R165, R166: SLOT cell, census and REFUSE; LISTENING and ISOLATED; the own window, while LISTENING and read back. -/
theorem witness_CellIsStoredOrRefused_classes :
    let own := windowOf 4 0x23 4 [2]
    let census := windowOf 9 0x01 0xFF [0x0C, 0x1C, 99, 0, 7, 1, 144]
    let refusal (to_ : Byte) := windowOf 9 0x08 to_ [0x23, 5, 12, 1]
    let sent (s : State) : State := s.setHighway { s.highway with windowOut := some own }
    let s := atFrame 5 live
    let kept (b : List Byte) (s : State) (w : Station) (n : Nat) : Prop :=
      Completes (.windowHeard w b) s fun t => t.highway.store.length = n ∧ t.highway.refusals = []
    ((decodeCell 9 census).isSome = true ∧ (decodeCell 9 (refusal 4)).isSome = true ∧
      (decodeCell 4 own).map (·.dest) = some (.one 4) ∧ (inState .listening (fullStore 0)).hasBuffer .callC = false) ∧
    Completes (.windowHeard 9 slotFree) s (fun t => t.highway.slotCells = [(9, .free 7)]) ∧
    Completes (.windowHeard 9 census) (atFrame 0 live) (fun t => t.highway.censuses.map (fun c => (c.station, c.body)) =
      [(9, { low := 3100, length := 100, startTag := 7, held := [144] })]) ∧
    Completes (.windowHeard 9 (refusal 4)) s (fun t => t.highway.refusesHeard.map (·.body) =
      [.refuse 0x23 ⟨5, 12⟩ .storeFull]) ∧
    Completes (.windowHeard 9 (refusal 3)) s (fun t => t = s) ∧
    kept (clearBytes 4) (inState .listening s) 9 1 ∧ kept (clearBytes 4) (inState .isolated s) 9 0 ∧
    Completes (.windowHeard 9 (clearBytes 4)) (inState .listening (fullStore 0)) (fun t =>
      t.highway.counters.get 4 = 1 ∧ t.highway.refusals = []) ∧
    kept own (inState .listening s) 4 1 ∧ kept own (sent s) 4 1 ∧
    Completes (.windowHeard 4 (own.set 39 0)) (sent s) (fun t => t.highway.counters.get 0 = 1 ∧
      t.station.state = .active) ∧
    Completes (.windowHeard 4 (windowOf 4 0 0 [])) (sent s) (fun t => t = sent s) :=
  ⟨by decide +kernel, ⟨_, rfl, by decide +kernel⟩, ⟨_, rfl, by decide +kernel⟩, ⟨_, rfl, by decide +kernel⟩,
    ⟨_, rfl, by decide +kernel⟩, ⟨_, rfl, by decide +kernel⟩, ⟨_, rfl, by decide +kernel⟩, ⟨_, rfl, by decide +kernel⟩,
    ⟨_, rfl, by decide +kernel⟩, ⟨_, rfl, by decide +kernel⟩, ⟨_, rfl, by decide +kernel⟩, ⟨_, rfl, by decide +kernel⟩⟩

/-- What stands above is checked. -/
inductive ArrivalSection where
  | checked

theorem witness_ClashIsolatesTheStation :
    ((atFrame 5 oneCall).station.state = .active ∧ slotFree.length = 40 ∧ checkGood 38 slotFree = true ∧
      byteAt slotFree 0 ≠ 0 ∧ (atFrame 5 oneCall).highway.windowOut ≠ some slotFree) ∧
    Completes (.windowHeard 4 slotFree) (atFrame 5 oneCall) fun t => t.station.state = .isolated ∧
      t.call? 5 = none ∧ t.slots.map.get 64 = none ∧ t.slots.map.get 144 = some 9 ∧ t.highway.counters.get 3 = 1 :=
  ⟨by decide +kernel, _, rfl, by decide +kernel⟩

def oneRefusal : State := live.setHighway { live.highway with
  refusals := [peerCell 9 (.refuse 0x23 ⟨2, 0x1F⟩ .storeFull)] }

def majorFault : Captured := { kind := .windowClash, severity := .major, frame := 3, window := 4, header := none }

/-- A NOTICE is due to station 1; `n` cells are queued. -/
def noticeWaits (n : Nat) : State :=
  { withQueue n live with
    maint := { pending := true }
    highway := { (withQueue n live).highway with
      fault := { content := some majorFault }
      presence := upd live.highway.presence 1 { state := .present } } }

theorem witness_RefusalsAndNoticesAreOffered :
    ((∀ c ∈ oneRefusal.highway.refusals, c.body.cellClass = .refuse) ∧
      (noticeWaits 19).station.state = .active ∧ imageFour.maintenance = some 1 ∧
      (noticeWaits 19).highway.fault.content = some majorFault ∧
      ((noticeWaits 19).highway.presence.get 1).state = .present) ∧
    Completes .refusalListOffer oneRefusal (fun t => t.highway.refusals = [] ∧ t.highway.queue.length = 1) ∧
    Completes .refusalListOffer { oneRefusal with highway := { oneRefusal.highway with
      queue := (withQueue 24 live).highway.queue } } (fun t => t.highway.refusals.length = 1) ∧
    Completes .noticeOffer (noticeWaits 19) (fun t => t.maint = { queued := true } ∧
      t.highway.queue.getLast?.map (·.cell.body) = some (.notice .windowClash .major false)) ∧
    Completes .noticeOffer (noticeWaits 20) (fun t => t.maint = { pending := true, refused := true } ∧
      t.highway.counters.get 5 = 1) :=
  ⟨by decide +kernel, ⟨_, rfl, by decide +kernel⟩, ⟨_, rfl, by decide +kernel⟩, ⟨_, rfl, by decide +kernel⟩,
    ⟨_, rfl, by decide +kernel⟩⟩

/-- A MAJOR fault replaces a captured MINOR one; a MINOR one does not replace a MAJOR one (R170). -/
theorem witness_FaultIsCountedAndCaptured :
    ((live.recordFault .badCheck 3 none).recordFault .wrongWindow 5 none).highway.fault.content.map (·.kind) =
      some .wrongWindow ∧
    ((live.recordFault .wrongWindow 5 none).recordFault .badCheck 3 none).highway.fault.content.map (·.kind) =
      some .wrongWindow ∧
    ((live.recordFault .wrongWindow 5 none).recordFault .badCheck 3 none).highway.fault.multiple = true := by
  decide +kernel

def refused (kind : Byte) (t : Tag) (s : State) : State :=
  s.setHighway { s.highway with refusesHeard := [peerCell 2 (.refuse kind t .storeFull)] }

def confirming : State := withLogin 6 (.confirming 3107) (some 30) (withPort 6 id live)

/-- What stands above is checked. -/
inductive FaultSection where
  | checked

theorem witness_RefuseReachesTheOwnerOfItsKind :
    ((confirming.login 6).incarnation = 0 ∧ confirming.loginBody 6 = some (.confirming 3107) ∧
      (confirming.port 6).state = .up) ∧
    Completes .refuse (refused 0x12 ⟨6, 0⟩ confirming) (fun t =>
      (t.login 6).entry = none ∧ (t.port 6).outbound = [.loginResult .busy]) ∧
    Completes .refuse (refused 0x12 ⟨6, 1⟩ confirming) (fun t => t = confirming) ∧
    Completes .refuse (refused 0x42 ⟨6, 0⟩ confirming) (fun t => t = confirming) :=
  ⟨by decide +kernel, ⟨_, rfl, by decide +kernel⟩, ⟨_, rfl, by decide +kernel⟩, ⟨_, rfl, by decide +kernel⟩⟩

/-- R164: SLOT-FREE, SLOT-MOVE, REFUSE and a code that no kind has. -/
theorem witness_RefuseReachesTheOwnerOfItsKind_others :
    Completes .refuse (refused 0x03 ⟨6, 0⟩ confirming) (fun t => t = confirming) ∧
    Completes .refuse (refused 0x04 ⟨6, 0⟩ confirming) (fun t => t = confirming) ∧
    Completes .refuse (refused 0x08 ⟨6, 0⟩ confirming) (fun t => t = confirming) ∧
    Completes .refuse (refused 0x77 ⟨6, 0⟩ confirming) (fun t => t = confirming) :=
  ⟨⟨_, rfl, by decide +kernel⟩, ⟨_, rfl, by decide +kernel⟩, ⟨_, rfl, by decide +kernel⟩, ⟨_, rfl, by decide +kernel⟩⟩

set_option maxRecDepth 20000 in
/-- R177: the image's read enters LISTENING between two frames 0; frame 0 notes it, and the boundary that ends that
superframe counts it. -/
theorem witness_SecondFullSuperframeMakesActive_growth :
    let at_ (f : Fin 64) (st : Stage) (since : Bool) (n : Nat) : State := { inState .listening live with
      clock := { frame := f, stage := st }
      station := { state := .listening, image := some imageFour, sinceFrame0 := since, entered := true
                   listeningCount := n } }
    let after (s : State) (since : Bool) (n : Nat) : Prop := ∃ t, step s = .next t ∧ t.station.sinceFrame0 = since ∧
      t.station.listeningCount = n
    Completes (.readCompletion overlapBytes) State.reset (fun t => t.station.listeningCount = 0 ∧
      t.station.sinceFrame0 = false ∧ t.station.entered = true) ∧
    after (at_ 7 .frameStart false 0) false 0 ∧ after (at_ 0 .frameStart false 0) true 0 ∧
    after (at_ 63 .tick false 0) false 0 ∧ after (at_ 63 .tick true 0) true 1 ∧ after (at_ 63 .tick true 2) true 2 ∧
    after (at_ 62 .tick true 1) true 1 :=
  ⟨⟨_, rfl, by decide +kernel⟩, ⟨_, rfl, by decide +kernel⟩, ⟨_, rfl, by decide +kernel⟩, ⟨_, rfl, by decide +kernel⟩,
    ⟨_, rfl, by decide +kernel⟩, ⟨_, rfl, by decide +kernel⟩, ⟨_, rfl, by decide +kernel⟩⟩

/-- The callee's CALL-CONNECT is carried: its lanes swap their first keys at the boundary that ends this superframe. -/
theorem witness_OwnWindowIsSentAndReported_callConnect :
    let key : TalkStaged := { key := 99, count := 0, partner := 9, isFirst := true }
    let s (i : Byte) : State := sent { freeCell 9 with name := .callConnect 5 i }
      (((withFive { callFive with state := .proving, role := .callee } (user 2 id live)).setTalk 0 { talkZero with
        activeKey := none, staged := some key }).setListen 0 { listenZero with
          state := .waitkey, active := none, timer := some 8, request := some ⟨true, 9, 4, 0, none⟩ })
    (((s 12).record 5).incarnation = 12 ∧ ((s 12).listen? 0).map (·.provingClock) = some none) ∧
    Completes .cellCarried (s 12) (fun t =>
      (t.talk? 0).map (fun l => (l.firstBoundary, l.staged)) = some (some 1, some { key with countdown := some 1 }) ∧
      (t.listen? 0).map (fun l => (l.provingClock, l.timer, l.request)) =
        some (some 1, none, some ⟨true, 9, 4, 0, some 1⟩)) ∧
    Completes .cellCarried (s 11) (fun t => (t.talk? 0).map (·.firstBoundary) = some none) :=
  ⟨by decide +kernel, ⟨_, rfl, by decide +kernel⟩, ⟨_, rfl, by decide +kernel⟩⟩

/-- R177: no window is heard in the frame in which the image loaded, a bad one no more than a good one. -/
theorem witness_BadWindowsAreDiscardedAndCounted_entered :
    let s : State := { atFrame 5 (inState .listening live) with
      station := { state := .listening, image := some imageFour, entered := true } }
    s.station.entered = true ∧ Completes (.windowHeard 9 (slotFree.set 39 0)) s (fun t => t = s) ∧
    Completes (.windowHeard 9 slotFree) s (fun t => t = s) :=
  ⟨rfl, ⟨_, rfl, by decide +kernel⟩, ⟨_, rfl, by decide +kernel⟩⟩

/-- R171: the maintenance station's entry has become PRESENT at this frame end. -/
theorem witness_RefusalsAndNoticesAreOffered_newlyPresent :
    let s : State := { noticeWaits 19 with maint := { pending := true, newlyPresent := true } }
    s.maint.newlyPresent = true ∧ Completes .noticeOffer s (fun t => t = s) := ⟨rfl, _, rfl, by decide +kernel⟩

/-- A type ends each section: Lean checks theorems of one text side by side, and goes on past a type only when all above
it are checked, which bounds its memory. -/
inductive HighwaySection where
  | checked

/-! ### Presence and slots -/

/-- A peer 9 PRESENT with a number of missed censuses, holding slots 64 and 144, its home entry PRESENT, record 5's far
station. -/
def peerNine (missed : Nat) : State :=
  { (oneCall.setSlot 64 (some 4)) with
    highway := { live.highway with
      presence := upd live.highway.presence 9 { state := .present, startTag := 3, missed := missed } }
    calls := { oneCall.calls with plan := upd oneCall.calls.plan 9 (.present ⟨3000, 200⟩) } }

def censusOfNine : HeardCensus := {
  station := 9, cold := true, header := [], body := { low := 3000, length := 200, startTag := 4, held := [144] } }

theorem witness_CensusesSetThePresenceTable :
    ((peerNine 3).station.state = .active ∧ (peerNine 3).clock.frame = 0 ∧ (peerNine 3).highway.judged = false ∧
      (9 : Station) ≠ (peerNine 3).self ∧ ((peerNine 3).highway.presence.get 9).missed = 3 ∧
      (peerNine 3).censusOf 9 = none ∧ (peerNine 3).calls.plan.get 9 = .present ⟨3000, 200⟩) ∧
    Completes .census (peerNine 2) (fun t => (t.highway.presence.get 9).missed = 3 ∧ (t.call? 5).isSome = true) ∧
    Completes (.missedCensusLimit 9) (peerNine 3) (fun t => (t.highway.presence.get 9) =
        { state := .absent, startTag := 3, missed := 4 } ∧
      t.slots.map.get 144 = none ∧ t.calls.plan.get 9 = .absent ⟨3000, 200⟩ ∧ t.call? 5 = none) ∧
    Completes .census ((peerNine 3).setHighway { (peerNine 3).highway with censuses := [censusOfNine] }) (fun t =>
      t.highway.presence.get 9 = { state := .present, startTag := 4, missed := 0 }) :=
  ⟨by decide +kernel, ⟨_, rfl, by decide +kernel⟩, ⟨_, rfl, by decide +kernel⟩, ⟨_, rfl, by decide +kernel⟩⟩

/-- Stations 5 and 7 claim slot 81, station 9 frees 144, station 7 moves from 90 to 91 (spec 06). -/
def claimsHeard : State := atFrame 20 (live.setHighway { live.highway with
    slotCells := [(7, .claim 81), (5, .claim 81), (9, .free 144), (7, .move 90 91)] }) |> fun s =>
  { s with slots := {
      map := upd (upd s.slots.map 144 (some 9)) 90 (some 7)
      atFrameStart := upd (upd s.slots.map 144 (some 9)) 90 (some 7) } }

theorem witness_JudgmentGivesSlotsToLowestClaimants :
    (claimsHeard.station.state = .active ∧ claimsHeard.clock.frame ≠ 0 ∧ claimsHeard.highway.judged = false ∧
      ∀ e ∈ claimsHeard.slots.claims, e.carried = none) ∧
    Completes .slotJudgment claimsHeard fun t => t.slots.map.get 81 = some 5 ∧ t.slots.map.get 144 = none ∧
      t.slots.map.get 90 = none ∧ t.slots.map.get 91 = some 7 ∧ t.slots.map.get 9 = none :=
  ⟨by decide +kernel, _, rfl, by decide +kernel⟩

/-- Record 5 ROUTING to station 9 with lane 0 CLAIMING. -/
def routing (e : Claim) (s : State) : State :=
  ((withCall 5 12 { callFive with state := .routing, listenLanes := [] } s).setTalk 0 { talkZero with
    state := .claiming, slot := none, activeKey := none }).setClaims [e]

def claimOf64 (attempt : Nat) (refused : Bool) (carried : Option (Fin 64)) : Claim :=
  { kind := .claim, slot := 64, lane := some 0, attempt := attempt, refused := refused, carried := carried }

theorem witness_ClaimsAreRetriedAndWon_retry :
    ((routing (claimOf64 2 true none) live).claimOf 0 = some (claimOf64 2 true none) ∧
      (Fin.ofNat 256 (16 * 4 + 1) : Slot) = 65 ∧ (routing (claimOf64 2 true none) live).slots.map.get 65 = none) ∧
    Completes (.claimRetry 0) (routing (claimOf64 2 true none) (withQueue 23 live)) (fun t =>
      t.slots.claims = [{ kind := .claim, slot := 65, lane := some 0, attempt := 3 }] ∧
      t.highway.queue.getLast?.map (·.cell.body) = some (.slot (.claim 65))) ∧
    Completes (.claimRetry 0) (routing (claimOf64 1 true none) (withQueue 24 live)) (fun t =>
      t.slots.claims = [{
        kind := .claim, slot := 65, lane := some 0, attempt := 2, refused := true, fresh := true }]) ∧
    Completes (.claimRetry 0) (routing (claimOf64 3 true none) live) (fun t =>
      t.slots.claims = [] ∧ t.call? 5 = none ∧ t.talk? 0 = none) :=
  ⟨by decide +kernel, ⟨_, rfl, by decide +kernel⟩, ⟨_, rfl, by decide +kernel⟩, ⟨_, rfl, by decide +kernel⟩⟩

/-- The claim of 64 was carried in frame 20 and heard back; station 7 claimed it too. -/
def wonClaim : State := routing (claimOf64 1 false (some 20)) (atFrame 20 (live.setHighway { live.highway with
  slotCells := [(7, .claim 64), (4, .claim 64)] }))

/-- Spec 04: the claim is won, and CALL-OFFER goes to 9 with slot 64, epoch 43, sender 05h/0Ch; timer 250. -/
theorem witness_ClaimsAreRetriedAndWon_won :
    (wonClaim.hearing = true ∧ wonClaim.slots.atFrameStart.get 64 = none) ∧
    Completes .slotJudgment wonClaim fun t => t.slots.map.get 64 = some 4 ∧ t.slots.claims = [] ∧
      (t.talk? 0).map (·.state) = some .active ∧ (t.call? 5).map (fun k => (k.state, k.timer)) =
        some (.offering, some 250) ∧
      t.highway.queue.map (·.cell) = [cellFrom live 9 ⟨5, 12⟩ Tag.absent (.callOffer 4021 3107 43 64 4 [])] :=
  ⟨by decide +kernel, _, rfl, by decide +kernel⟩

/-- 3107 is homed at station 2. -/
def homeTwo (s : State) : State :=
  { s with calls := { s.calls with plan := upd s.calls.plan 2 (.present ⟨3000, 200⟩) } }

def census (st : Station) (cold : Bool) (low length : Nat) (slots : List Slot) : HeardCensus :=
  { station := st, cold := cold, header := [], body := { low := low, length := length, startTag := 3, held := slots } }

def hearsCensuses (cs : List HeardCensus) (s : State) : State := s.setHighway { s.highway with censuses := cs }

/-- Station 2's peer entry, with the range of 3107. -/
def peerTwo (p : PresenceState) (s : State) : State :=
  (homeTwo s).setHighway { s.highway with
    presence := upd s.highway.presence 2 { state := p, startTag := 3, missed := if p = .present then 0 else 4 } }

/-- What stands above is checked. -/
inductive JudgmentSection where
  | checked

/-- R36, R38, R7, R33: station 2 announces the numbers 4000 to 4049, which station 4 has as its own. -/
theorem witness_CensusesSetThePresenceTable_overlap :
    let s : State := hearsCensuses [census 2 true 4000 50 []]
      ((withHome 4021 (fun h => { h with location := some (4, 6) }) (user 2 id live)).setCache [
        { ext := 4030, station := 9, epoch := 43 }, { ext := 4060, station := 9, epoch := 43 }])
    (s.homeOf 4021 = some s.self ∧ s.loginBody 6 = some (.admitted 4021 2 43 .none) ∧ s.clock.frame = 0 ∧
      s.highway.counters.get FaultKind.rangeOverlap.index = 0) ∧
    Completes .census s fun t => t.homeOf 4021 ≠ some t.self ∧ t.calls.plan.get 2 = .present ⟨4000, 50⟩ ∧
      t.homeRecord 4021 = some { location := none, rights := 2, barred := false, epoch := 8 } ∧
      t.highway.counters.get FaultKind.rangeOverlap.index = 1 ∧ t.loginBody 6 = none ∧
      t.adm.cache = [{ ext := 4060, station := 9, epoch := 43 }] :=
  ⟨by decide +kernel, _, rfl, by decide +kernel⟩

/-- R98: 144 is listed by 9 and 7, 150 is left out by its holder 9, and 8, which holds 151, is not heard. -/
theorem witness_CensusesSetThePresenceTable_reconciled :
    let s : State := hearsCensuses [census 9 true 3000 200 [144], census 7 true 7000 100 [144]]
      (((live.setSlot 144 (some 9)).setSlot 150 (some 9)).setSlot 151 (some 8))
    (∀ st, (s.finding st).lost = false) ∧
    Completes .census s fun t => t.slots.map.get 144 = some 7 ∧ t.slots.map.get 150 = none ∧
      t.slots.map.get 151 = some 8 ∧ t.highway.counters.get FaultKind.slotConflict.index = 1 :=
  ⟨by decide +kernel, _, rfl, by decide +kernel⟩

/-- R99, R100: station 2 lists slot 64, which lane 0 talks in. -/
theorem witness_CensusesSetThePresenceTable_moved :
    let s : State := hearsCensuses [census 2 false 3000 200 [64]] (peerTwo .present oneCall)
    (s.talk? 0 = some talkZero ∧ s.slots.claims = [] ∧ s.highway.queue = [] ∧
      (∀ st, (s.finding st).restarted = false ∧ (s.finding st).lost = false) ∧
      s.calls.plan.get 2 = .present ⟨3000, 200⟩) ∧
    Completes .census s fun t => t.slots.map.get 64 = some 2 ∧ t.slots.map.get 65 = none ∧
      t.talk? 0 = some { talkZero with state := .moving, slot := none } ∧ t.calls.records = s.calls.records ∧
      t.slots.claims = [{ kind := .move, slot := 65, oldSlot := some 64, lane := some 0 }] ∧
      t.highway.queue.map (·.cell) = [broadcast live (.slot (.move 64 65))] :=
  ⟨by decide +kernel, _, rfl, by decide +kernel⟩

/-- R20, R32: station 2, the home of 3107, comes back cold. -/
theorem witness_CensusesSetThePresenceTable_restarted :
    let s : State := hearsCensuses [census 2 true 3000 200 []] ((withLogin 6 (.admitted 3107 2 43 .none) none
      { peerTwo .absent live with calls := { live.calls with
          plan := upd live.calls.plan 2 (.absent ⟨3000, 200⟩) } }).setCache [
        { ext := 3150, station := 9, epoch := 1 }, { ext := 4050, station := 9, epoch := 1 }])
    (s.homeOf 3107 = some 2 ∧ (s.highway.presence.get 2).state = .absent ∧
      (s.highway.presence.get 2).missed = 4) ∧
    Completes .census s fun t =>
      (t.login 6).entry = some { body := .admitted 3107 2 43 .sent, timer := some 16 } ∧
      t.adm.cache = [{ ext := 4050, station := 9, epoch := 1 }] ∧
      t.highway.queue.map (·.cell) =
        [{ cellFrom live 2 ⟨6, 0⟩ Tag.absent (.admitMove 3107 6) with renew := true }] :=
  ⟨by decide +kernel, _, rfl, by decide +kernel⟩

/-- What stands above is checked. -/
inductive ReconciliationSection where
  | checked

/-- R89 with R93 (log 45): a station of the same number claims slot 81 and this station is LISTENING. -/
theorem witness_JudgmentGivesSlotsToLowestClaimants_own :
    let s : State := atFrame 20 (inState .listening (live.setHighway { live.highway with
      slotCells := [(4, .claim 81), (7, .claim 82)] }))
    s.self = 4 ∧
    Completes .slotJudgment s fun t => t.slots.map.get 81 = none ∧ t.slots.map.get 82 = some 7 :=
  ⟨rfl, _, rfl, by decide +kernel⟩

/-- A claim refused in this frame end waits; a MOVE is won. -/
theorem witness_ClaimsAreRetriedAndWon_fresh :
    let fresh : State := routing { claimOf64 1 true none with fresh := true } live
    Completes (.claimRetry 0) fresh fun t => t = fresh :=
  ⟨_, rfl, by decide +kernel⟩

theorem witness_ClaimsAreRetriedAndWon_move :
    let e : Claim := { kind := .move, slot := 65, oldSlot := some 64, lane := some 0, carried := some 20 }
    let s : State := ((atFrame 20 ((withFive callFive (user 2 id live)).setHighway { live.highway with
      slotCells := [(4, .move 64 65)] })).setTalk 0 { talkZero with state := .moving, slot := none }).setClaims [e]
    (s.slots.atFrameStart.get 65 = none ∧ e.cell = .move 64 65) ∧
    Completes .slotJudgment s fun t => t.slots.map.get 65 = some 4 ∧ t.slots.claims = [] ∧
      t.talk? 0 = some { talkZero with slot := some 65 } ∧ t.calls = s.calls ∧ t.highway.queue = [] :=
  ⟨by decide +kernel, _, rfl, by decide +kernel⟩

/-- The claim of 64 of an ALERTING callee has been carried in frame 20. -/
def calleeWins : State :=
  ((atFrame 20 ((withCall 5 12 { callFive with
      state := .alerting, role := .callee, listenLanes := [] } (user 2 id live)).setHighway { live.highway with
    slotCells := [(4, .claim 64)] })).setTalk 0 { talkZero with
      state := .claiming, slot := none, activeKey := none }).setClaims [claimOf64 1 false (some 20)]

/-- R57: CALL-CONNECT with slot 64 and nonce 4, and a listen lane on the far slot 144 with the nonces 9 and 4. -/
theorem witness_ClaimsAreRetriedAndWon_alerting :
    (calleeWins.hearing = true ∧ calleeWins.listen? 0 = none ∧ calleeWins.slots.atFrameStart.get 64 = none) ∧
    Completes .slotJudgment calleeWins fun t => t.slots.map.get 64 = some 4 ∧ t.slots.claims = [] ∧
      (t.call? 5).map (fun k => (k.state, k.listenLanes)) = some (.proving, [0]) ∧
      (t.talk? 0).map (fun l => (l.state, l.slot, l.mode)) = some (.active, some 64, .prove) ∧
      (t.listen? 0).map (fun l => (l.state, l.slot, l.timer)) = some (.waitkey, 144, some 8) ∧
      t.highway.queue = [{
        cell := cellFrom live 9 ⟨5, 12⟩ ⟨2, 0x1F⟩ (.callConnect 64 4), name := .callConnect 5 12 }] ∧
      t.scr.mixer = [{ requester := .listen 0 1, key := 5, nonceA := 9, nonceB := 4, count := 0 }] :=
  ⟨by decide +kernel, _, rfl, by decide +kernel⟩

theorem witness_ClaimsAreRetriedAndWon_noListenLane :
    let full : State := { calleeWins with
      scr := { calleeWins.scr with listen := Vector.replicate 48 { lane := some listenOne } } }
    (∀ m, full.listen? m ≠ none) ∧
    Completes .slotJudgment full fun t => t.slots.map.get 64 = none ∧
      (t.call? 5).map (fun k => (k.state, k.cause, k.clears)) = some (.clearing, .congestion, 1) ∧
      t.highway.queue.getLast?.map (·.cell.body) = some (.callClear .congestion) :=
  ⟨by decide +kernel, _, rfl, by decide +kernel⟩

/-- The section above is checked. -/
inductive SlotSection where
  | checked

/-! ### Logins (spec 01) -/

def asks (m : AdmissionMessage) (s : State) : State := withPort 6 (fun u => { u with admission := some m }) s

theorem witness_LoginReqAndResponseOpenAChallenge_loginReq :
    ((asks (.loginReq 3107) (homeTwo live)).dueEvent 6 = some (.admission (.loginReq 3107)) ∧
      (asks (.loginReq 3107) (homeTwo live)).homeOf 3107 = some 2 ∧
      (asks (.loginReq 9999) live).homeOf 9999 = none) ∧
    Completes (.loginReq 6) (asks (.loginReq 3107) (homeTwo live)) (fun t => (t.login 6).incarnation = 1 ∧
      ((t.login 6).entry.map (·.timer)) = some (some 250) ∧ (t.port 6).admission = none ∧
      (t.port 6).outbound.length = 1) ∧
    Completes (.loginReq 6) (asks (.loginReq 9999) live) (fun t => (t.port 6).outbound = [.loginResult .noHome]) ∧
    Completes (.loginReq 6) (asks (.loginReq 3107) (withLogin 6 (.admitted 4021 2 43 .none) none live)) (fun t =>
      (t.port 6).outbound = [.loginResult .busy]) :=
  ⟨by decide +kernel, ⟨_, rfl, by decide +kernel⟩, ⟨_, rfl, by decide +kernel⟩, ⟨_, rfl, by decide +kernel⟩⟩

def challenged (step : CheckStep) (timer : Nat) (s : State) : State :=
  withLogin 6 (.challenging 3107 77 none step) (some timer) s

/-- A request of talk lane 5's opening 1, which is not the present one. -/
def request (fresh : Bool) : MixRequest :=
  { requester := .talk 5 1, key := 0, nonceA := 0, nonceB := 0, count := 0, fresh := fresh }

def mixing (n : Nat) (fresh : Bool) (s : State) : State :=
  { s with scr := { s.scr with mixer := List.replicate n (request fresh) } }

/-- The check's first request: key input the shelf secret, nonce A the extension, nonce B zero, count FFFFh (R9). -/
theorem witness_LoginReqAndResponseOpenAChallenge_response :
    (asks (.response 88) (challenged .none 100 live)).dueEvent 6 = some (.admission (.response 88)) ∧
    Completes (.response 6) (mixing 15 false (asks (.response 88) (challenged .none 100 live))) (fun t =>
      t.scr.mixer.getLast? = some ⟨.login 6 0 .setKey, 5, 3107, 0, 65535, true⟩ ∧
      (t.login 6).entry.map (·.body) = some (.challenging 3107 77 (some 88) .setKey)) ∧
    Completes (.response 6) (mixing 16 false (asks (.response 88) (challenged .none 100 live))) (fun t =>
      (t.login 6).entry = none ∧ (t.port 6).outbound = [.loginResult .busy] ∧ t.highway.counters.get 10 = 1) ∧
    Completes (.response 6) (asks (.response 88) (challenged .setKey 100 live)) (fun t => t.scr.mixer = []) :=
  ⟨by decide +kernel, ⟨_, rfl, by decide +kernel⟩, ⟨_, rfl, by decide +kernel⟩, ⟨_, rfl, by decide +kernel⟩⟩

theorem witness_LogoutEndsTheLogin :
    let away := asks .logout (withLogin 6 (.admitted 3107 2 43 .none) none (homeTwo live))
    let here := asks .logout (withLogin 6 (.admitted 4021 2 43 .none) none
      (withHome 4021 (fun h => { h with location := some (4, 6) }) live))
    (away.dueEvent 6 = some (.admission .logout) ∧ away.homeOf 3107 = some 2 ∧ (2 : Station) ≠ away.self ∧
      here.homeOf 4021 = some here.self) ∧
    Completes (.logout 6) away (fun t => (t.login 6).entry = none ∧ t.highway.queue.map (·.cell) =
      [cellFrom live 2 ⟨6, 0⟩ Tag.absent (.admitLeave 3107 43)]) ∧
    Completes (.logout 6) here (fun t =>
      t.homeRecord 4021 = some { location := none, rights := 2, barred := false, epoch := 8 }) :=
  ⟨by decide +kernel, ⟨_, rfl, by decide +kernel⟩, ⟨_, rfl, by decide +kernel⟩⟩

def failed (n : Nat) (s : State) : State := s.modLogin 6 fun l => { l with failures := n }

/-- A query for 3107 at station 2, its timer out, with record 5 ROUTING waiting (spec 02). -/
def queryOut : State :=
  (withCall 5 12 { callFive with state := .routing, talkLane := none, listenLanes := [] }
    (user 2 id (homeTwo live))).setQuery 0
      { incarnation := 20, query := some { ext := 3107, home := 2, timer := some 0, waiters := [5] } }

theorem witness_AdmissionTimersExpire :
    (((failed 2 (withPort 6 id (challenged .none 0 live))).port 6).state = .up ∧ queryOut.calls.waitList = []) ∧
    Completes (.challengingTimerExpiry 6) (failed 1 (withPort 6 id (challenged .none 0 live))) (fun t =>
      (t.login 6) = { failures := 2 } ∧ (t.port 6).outbound = [.loginResult .denied]) ∧
    Completes (.challengingTimerExpiry 6) (failed 2 (withPort 6 id (challenged .none 0 live))) (fun t =>
      (t.login 6) = { failures := 3, lockedOut := true, lockoutTimer := some 3750 } ∧
      (t.port 6).outbound = [.loginResult .locked]) ∧
    Completes (.confirmingTimerExpiry 6) (withLogin 6 (.confirming 3107) (some 0) (withPort 6 id live)) (fun t =>
      (t.login 6).entry = none ∧ (t.port 6).outbound = [.loginResult .noHome]) ∧
    Completes (.renewalTimerExpiry 6) (withLogin 6 (.admitted 3107 2 43 .sent) (some 0) (withPort 6 id live)) (fun t =>
      (t.login 6).entry = none ∧ (t.port 6).outbound = [.loginResult .noHome]) ∧
    Completes (.lockoutTimerExpiry 6) (live.modLogin 6 fun l =>
      { l with failures := 3, lockedOut := true, lockoutTimer := some 0 }) (fun t => t.login 6 = {}) ∧
    Completes (.queryTimerExpiry 0) queryOut (fun t => t.adm.queries.get 0 = { incarnation := 20 } ∧
      t.call? 5 = none ∧ (t.port 6).tone = .reorder) :=
  ⟨by decide +kernel, ⟨_, rfl, by decide +kernel⟩, ⟨_, rfl, by decide +kernel⟩, ⟨_, rfl, by decide +kernel⟩,
    ⟨_, rfl, by decide +kernel⟩, ⟨_, rfl, by decide +kernel⟩, ⟨_, rfl, by decide +kernel⟩⟩

/-- R20 and R29: REFUSE at a renewal that is SENT, and at the query of record 5. -/
theorem witness_RefuseReachesTheOwnerOfItsKind_admission :
    let renewing := withLogin 6 (.admitted 3107 2 43 .sent) (some 9) (withPort 6 id live)
    (renewing.loginBody 6 = some (.admitted 3107 2 43 .sent) ∧ queryOut.queryTag 0 = ⟨0, 20⟩ ∧
      (queryOut.call? 5).map (·.state) = some .routing) ∧
    Completes .refuse (refused 0x12 ⟨6, 0⟩ renewing) (fun t => (t.login 6).entry = none ∧
      (t.port 6).outbound = [.loginResult .noHome]) ∧
    Completes .refuse (refused 0x10 ⟨0, 20⟩ queryOut) (fun t => t.adm.queries.get 0 = { incarnation := 20 } ∧
      t.call? 5 = none ∧ t.highway.refusesHeard = []) :=
  ⟨by decide +kernel, ⟨_, rfl, by decide +kernel⟩, ⟨_, rfl, by decide +kernel⟩⟩

/-! ### Admission cells (spec 01 and 02) -/

def bodies (t : State) : List Body := t.highway.queue.map (·.cell.body)

def askCell (e : Ext) : Cell := { peerCell 7 (.admitAsk e) with sender := ⟨0, 20⟩ }
def moveCell (e : Ext) : Cell := { peerCell 12 (.admitMove e 3) with sender := ⟨3, 9⟩ }

/-- What stands above is checked. -/
inductive LoginSection where
  | checked

theorem witness_HomeAnswersAsksAndMoves :
    ((holding (askCell 4021) live).nextCell .admitC = some (stored (askCell 4021)) ∧
      (holding (askCell 4021) live).homedHere 4021 = true ∧ (holding (askCell 3107) live).homedHere 3107 = false) ∧
    Completes .admitAsk (holding (askCell 3107) live) (fun t => t.highway.queue.map (·.cell) =
      [cellFrom live 7 Tag.absent ⟨0, 20⟩ (.admitTell 3107 .notHome none 0 0)]) ∧
    Completes .admitAsk (holding (askCell 4021) (withHome 4021 (fun h => { h with location := some (9, 11) }) live))
      (fun t => t.highway.queue.map (·.cell.body) = [.admitTell 4021 .admitted (some (9, 11)) 2 7]) ∧
    Completes .admitMove (holding (moveCell 4021) live) (fun t =>
      (t.homeRecord 4021).map (fun h => (h.location, h.epoch)) = some (some (12, 3), 8) ∧
      t.highway.queue.map (·.cell) = [{ cellFrom live 12 Tag.absent ⟨3, 9⟩
        (.admitTell 4021 .admitted (some (12, 3)) 2 8) with move := true }]) ∧
    Completes .admitMove (holding (moveCell 4021) (withHome 4021 (fun h => { h with location := some (9, 11) }) live))
      (fun t => t.highway.queue.map (·.cell.body) =
        [.admitChange 4021 .moved (some (12, 3)) 2 8, .admitTell 4021 .admitted (some (12, 3)) 2 8]) ∧
    Completes .admitMove (holding (moveCell 4021)
        (withQueue 20 (withHome 4021 (fun h => { h with location := some (9, 11) }) live)))
      (fun t => (t.homeRecord 4021).map (·.epoch) = some 7 ∧ t.highway.queue.length = 20) ∧
    Completes .admitMove (holding (moveCell 4021) (withHome 4021 (fun h => { h with barred := true }) live))
      (fun t => t.highway.queue.map (·.cell.body) = [.admitTell 4021 .barred none 2 7]) :=
  ⟨by decide +kernel, ⟨_, rfl, by decide +kernel⟩, ⟨_, rfl, by decide +kernel⟩, ⟨_, rfl, by decide +kernel⟩,
    ⟨_, rfl, by decide +kernel⟩, ⟨_, rfl, by decide +kernel⟩, ⟨_, rfl, by decide +kernel⟩⟩

def tellCell (status : TellStatus) (to_ : Tag) (move : Bool) : Cell :=
  { peerCell 2 (.admitTell 3107 status (some (4, 6)) 2 44) with receiver := to_, move := move }

theorem witness_AdmitTellSettlesMovesAndQueries :
    ((homeTwo confirming).loginTag 6 = ⟨6, 0⟩ ∧
      queryOut.queryTag 0 = ⟨0, 20⟩) ∧
    Completes .admitTell (holding (tellCell .admitted ⟨6, 0⟩ true) (homeTwo confirming)) (fun t =>
      (t.login 6).entry = some { body := .admitted 3107 2 44 .none, timer := none } ∧
      (t.port 6).outbound = [.loginResult .ok]) ∧
    Completes .admitTell (holding (tellCell .barred ⟨6, 0⟩ true) (homeTwo confirming)) (fun t =>
      (t.login 6).entry = none ∧ (t.port 6).outbound = [.loginResult .barred]) ∧
    Completes .admitTell (holding (tellCell .admitted Tag.absent true) (homeTwo live)) (fun t =>
      t.highway.queue.map (·.cell.body) = [.admitLeave 3107 44]) ∧
    Completes .admitTell (holding (tellCell .notIn ⟨0, 20⟩ false) queryOut) (fun t =>
      t.adm.queries.get 0 = { incarnation := 20 } ∧ t.call? 5 = none) :=
  ⟨by decide +kernel, ⟨_, rfl, by decide +kernel⟩, ⟨_, rfl, by decide +kernel⟩, ⟨_, rfl, by decide +kernel⟩,
    ⟨_, rfl, by decide +kernel⟩⟩

/-- R28: record 5 waits for a query place; the place of the query that ended takes it with a new incarnation. -/
theorem witness_AdmissionTimersExpire_waitList :
    let other (e : Ext) : QueryPlace := { query := some { ext := e, home := 2, timer := some 8, waiters := [] } }
    let s : State := (((({ queryOut with calls := { queryOut.calls with waitList := [5] } }.setQuery 0
      { incarnation := 20, query := some { ext := 3110, home := 2, timer := some 0, waiters := [] } }).setQuery 1
        (other 3111)).setQuery 2 (other 3112)).setQuery 3 (other 3113))
    (s.homeOf 3107 = some 2 ∧ s.cacheEntry 3107 = none ∧ (s.call? 5).map (·.farExt) = some (some 3107)) ∧
    Completes (.queryTimerExpiry 0) s fun t => t.calls.waitList = [] ∧
      t.adm.queries.get 0 =
        { incarnation := 21, query := some { ext := 3107, home := 2, timer := some 8, waiters := [5] } } ∧
      t.highway.queue.map (·.cell) = [cellFrom live 2 ⟨0, 21⟩ Tag.absent (.admitAsk 3107)] :=
  ⟨by decide +kernel, _, rfl, by decide +kernel⟩

/-- What stands above is checked. -/
inductive TellSection where
  | checked

/-- R13: the answer to a renewal that is SENT. -/
theorem witness_AdmitTellSettlesMovesAndQueries_renewal :
    let s (st : TellStatus) : State := holding { tellCell st ⟨6, 0⟩ true with renew := true }
      (withLogin 6 (.admitted 3107 1 43 .sent) (some 9) (withPort 6 id (homeTwo live)))
    (s .admitted).loginTag 6 = ⟨6, 0⟩ ∧
    Completes .admitTell (s .admitted) (fun t => (t.port 6).outbound = [] ∧
      (t.login 6).entry = some { body := .admitted 3107 2 44 .none, timer := none }) ∧
    Completes .admitTell (s .barred) (fun t => (t.login 6).entry = none ∧
      (t.port 6).outbound = [.loginResult .barred]) ∧
    Completes .admitTell (s .notHome) (fun t => (t.login 6).entry = none ∧
      (t.port 6).outbound = [.loginResult .noHome]) ∧
    Completes .admitTell (s .notIn) (fun t => (t.loginBody 6) = some (.admitted 3107 1 43 .sent)) :=
  ⟨by decide +kernel, ⟨_, rfl, by decide +kernel⟩, ⟨_, rfl, by decide +kernel⟩, ⟨_, rfl, by decide +kernel⟩,
    ⟨_, rfl, by decide +kernel⟩⟩

/-- R29: the home's answer locates 3107 at station 4 itself; at station 12, which is not PRESENT; and is NOT-IN. -/
theorem witness_AdmitTellSettlesMovesAndQueries_query :
    let cached : State := queryOut.setCache [{ ext := 3107, station := 9, epoch := 1 }]
    let away : Cell := { peerCell 2 (.admitTell 3107 .admitted (some (12, 6)) 2 44) with receiver := ⟨0, 20⟩ }
    (queryOut.homeOf 3107 = some 2 ∧ queryOut.talk? 0 = none ∧ queryOut.slots.map.get 64 = none ∧
      (queryOut.highway.presence.get 12).state = .unknown) ∧
    Completes .admitTell (holding (tellCell .admitted ⟨0, 20⟩ false) queryOut) (fun t =>
      t.adm.cache = [{ ext := 3107, station := 4, epoch := 44 }] ∧
      (t.call? 5).map (fun k => (k.state, k.farStation, k.calledEpoch, k.talkLane)) =
        some (.routing, some 4, some 44, some 0) ∧
      t.highway.queue.map (·.cell) = [broadcast live (.slot (.claim 64))]) ∧
    Completes .admitTell (holding away queryOut) (fun t => t.call? 5 = none ∧ (t.port 6).tone = .reorder) ∧
    Completes .admitTell (holding (tellCell .notIn ⟨0, 20⟩ false) cached) (fun t => t.call? 5 = none ∧
      t.adm.cache = []) :=
  ⟨by decide +kernel, ⟨_, rfl, by decide +kernel⟩, ⟨_, rfl, by decide +kernel⟩, ⟨_, rfl, by decide +kernel⟩⟩

def leaveCell (ep : Epoch) : Cell := peerCell 9 (.admitLeave 4021 ep)

theorem witness_AdmitLeaveClearsMatchingLocation :
    let s := withHome 4021 (fun h => { h with location := some (9, 11) }) live
    ((holding (leaveCell 7) s).nextCell .admitC = some (stored (leaveCell 7)) ∧
      (holding (leaveCell 7) s).homedHere 4021 = true) ∧
    Completes .admitLeave (holding (leaveCell 7) s) (fun t =>
      (t.homeRecord 4021).map (fun h => (h.location, h.epoch)) = some (none, 8) ∧
      t.highway.queue.map (·.cell.body) = [.admitChange 4021 .left (some (9, 11)) 2 8]) ∧
    Completes .admitLeave (holding (leaveCell 6) s) (fun t =>
      (t.homeRecord 4021).map (·.epoch) = some 7 ∧ t.highway.queue = []) :=
  ⟨by decide +kernel, ⟨_, rfl, by decide +kernel⟩, ⟨_, rfl, by decide +kernel⟩⟩

def changeCell (why : ChangeReason) (loc : Option (Station × Port)) : Cell :=
  { peerCell 2 (.admitChange 3107 why loc 1 45) with dest := .all }

/-- 3107 of station 2's range ADMITTED at port 6 here and in the cache. -/
def admittedHere : State :=
  (withLogin 6 (.admitted 3107 2 43 .none) none (homeTwo live)).setCache [{ ext := 3107, station := 9, epoch := 43 }]

theorem witness_AdmitChangeReachesTheLogin :
    (admittedHere.admittedPort 3107 = some 6 ∧ admittedHere.self = 4 ∧ live.admittedPort 3107 = none) ∧
    Completes .admitChange (holding (changeCell .moved (some (12, 3))) admittedHere) (fun t =>
      (t.login 6).entry = none ∧ t.adm.cache = []) ∧
    Completes .admitChange (holding (changeCell .barred (some (4, 6))) admittedHere) (fun t =>
      (t.login 6).entry = none) ∧
    Completes .admitChange (holding (changeCell .rights (some (4, 6))) admittedHere) (fun t =>
      (t.login 6).entry = some { body := .admitted 3107 1 45 .none, timer := none }) ∧
    Completes .admitChange (holding (changeCell .left (some (4, 7))) admittedHere) (fun t =>
      t.adm.logins = admittedHere.adm.logins) :=
  ⟨by decide +kernel, ⟨_, rfl, by decide +kernel⟩, ⟨_, rfl, by decide +kernel⟩, ⟨_, rfl, by decide +kernel⟩,
    ⟨_, rfl, by decide +kernel⟩⟩

/-- What stands above is checked. -/
inductive ChangeSection where
  | checked

/-- 4021, homed here, is being confirmed by a move sent before its home was here (log 54): at an unlocated record, a
barred one, one at station 9, and there with a full queue. -/
theorem witness_AdmitTellSettlesMovesAndQueries_homedHere :
    let told : Cell := { peerCell 2 (.admitTell 4021 .admitted (some (4, 6)) 1 44) with receiver := ⟨6, 0⟩, move := true }
    let s (f : HomeRecord → HomeRecord) : State :=
      holding told (withHome 4021 f (withLogin 6 (.confirming 4021) (some 30) (withPort 6 id live)))
    let away (h : HomeRecord) : HomeRecord := { h with location := some (9, 11) }
    let admits (s : State) (cells : List Body) : Prop := Completes .admitTell s fun t => bodies t = cells ∧
      (t.login 6).entry = some { body := .admitted 4021 2 8 .none, timer := none } ∧
      t.homeRecord 4021 = some { location := some (4, 6), rights := 2, barred := false, epoch := 8 } ∧
      (t.port 6).outbound = [.loginResult .ok]
    ((s id).homedHere 4021 = true ∧ (s id).loginTag 6 = ⟨6, 0⟩ ∧ (s id).loginBody 6 = some (.confirming 4021)) ∧
    admits (s id) [] ∧ admits (s away) [.admitChange 4021 .moved (some (4, 6)) 2 8] ∧
    Completes .admitTell (s fun h => { h with barred := true }) (fun t => (t.login 6).entry = none ∧
      (t.port 6).outbound = [.loginResult .barred]) ∧
    Completes .admitTell (withQueue 20 (s away)) (fun t => (t.login 6).entry = none ∧
      (t.port 6).outbound = [.loginResult .busy] ∧ (t.homeRecord 4021).map (·.location) = some (some (9, 11))) :=
  ⟨by decide +kernel, ⟨_, rfl, by decide +kernel⟩, ⟨_, rfl, by decide +kernel⟩, ⟨_, rfl, by decide +kernel⟩,
    ⟨_, rfl, by decide +kernel⟩⟩

/-- Cells that R5 keeps from a login homed here: the home's own late ADMIT-CHANGE (log 62), and a move and a leave under
this station's own number (log 66). -/
theorem witness_LoginsHomedHereKeepToTheirRecord :
    let s : State := withHome 4021 (fun h => { h with location := some (4, 6), epoch := 43 }) (user 2 id live)
    let own (b : Body) : State := holding { peerCell 4 b with dest := .all } s
    let stays (c : Instr) (b : Body) : Prop := Completes c (own b) fun t =>
      t = { own b with highway := { s.highway with taken := [.admitC] } }
    (s.homedHere 4021 = true ∧ s.admittedPort 4021 = some 6 ∧ s.self = 4) ∧
    stays .admitChange (.admitChange 4021 .left (some (4, 6)) 2 42) ∧
    stays .admitChange (.admitChange 4021 .rights (some (4, 6)) 1 42) ∧
    stays .admitMove (.admitMove 4021 6) ∧ stays .admitLeave (.admitLeave 4021 43) :=
  ⟨by decide +kernel, ⟨_, rfl, by decide +kernel⟩, ⟨_, rfl, by decide +kernel⟩, ⟨_, rfl, by decide +kernel⟩,
    ⟨_, rfl, by decide +kernel⟩⟩

theorem witness_PendingRenewalsAreOffered :
    let s := atFrame 63 (withLogin 6 (.admitted 3107 2 43 .pending) none
      (withLogin 23 (.admitted 3108 2 43 .pending) none (homeTwo live)))
    (AtBoundary s ∧ s.homeOf 3107 ≠ none ∧ s.homeOf 3108 ≠ none) ∧
    Completes .renewalOffer s fun t => t.highway.queue.map (·.cell) = [
        { cellFrom live 2 ⟨6, 0⟩ Tag.absent (.admitMove 3107 6) with renew := true },
        { cellFrom live 2 ⟨23, 0⟩ Tag.absent (.admitMove 3108 23) with renew := true }] ∧
      (t.login 6).entry = some { body := .admitted 3107 2 43 .sent, timer := some 16 } :=
  ⟨⟨rfl, by decide +kernel, by decide +kernel⟩, _, rfl, by decide +kernel⟩

/-- The section above is checked. -/
inductive AdmissionSection where
  | checked

/-! ### Calls (spec 04, worked example: 4021 at port 6 of station 4 calls 3107 at station 9) -/

/-- Port 6 with 4021 ADMITTED, hook view ON. -/
def seated (f : PortUnit → PortUnit) (s : State) : State :=
  withLogin 6 (.admitted 4021 2 43 .none) none (withPort 6 f s)

def lifting (u : PortUnit) : PortUnit := { u with hook := some .off, ring := true }
def hangingUp (u : PortUnit) : PortUnit := { u with hook := some .on, reportedHook := .off }

def dialing (ds : List Digit) : Call := {
  state := .dialing, port := 6, ownExt := 4021, role := .caller, dialled := ds, timer := some 1250 }

/-- Record 5 rings at port 6 for 3107 at station 9. -/
def ringing : Call := {
  callFive with state := .alerting, role := .callee, calledEpoch := none, talkLane := none, listenLanes := [],
                timer := some 100 }

def allTalkLanesUsed (s : State) : State :=
  { s with scr := { s.scr with talk := Vector.replicate 24 { lane := some talkOne } } }

def allListenLanesUsed (s : State) : State :=
  { s with scr := { s.scr with listen := Vector.replicate 48 { lane := some listenOne } } }

def stackOf (rs : List RecordId) (recalled : Bool) (s : State) : State :=
  s.modCallPort 6 fun c => { c with stack := rs, recalled := recalled }

/-- What a record waits for, and the last cell offered. -/
def clearingWith (t : State) (c : Cause) (to_ : Station) (far : Tag) : Bool :=
  decide ((t.call? 5).map (fun k => (k.state, k.cause, k.clears)) = some (.clearing, c, 1)) &&
    decide (t.highway.queue.getLast?.map (·.cell) = some (cellFrom live to_ ⟨5, 12⟩ far (.callClear c)))

theorem witness_HookEventsStartAndEndCalls_off :
    ((seated lifting live).dueEvent 6 = some (.hook .off) ∧ (seated lifting live).front 6 = none ∧
      (withCall 5 12 ringing (seated lifting live)).front 6 = some 5) ∧
    Completes (.offHook 6) (seated lifting live) (fun t => (t.port 6).tone = .dial ∧ (t.callPort 6).hookView = .off ∧
      t.record 0 = { incarnation := 1, call := some (dialing []) }) ∧
    Completes (.offHook 6) (withPort 6 lifting live) (fun t => (t.port 6).tone = .reorder) ∧
    Completes (.offHook 6) (seated lifting (noFreeRecord live)) (fun t => (t.port 6).tone = .reorder) ∧
    Completes (.offHook 6) (withCall 5 12 ringing (seated lifting live)) (fun t => (t.port 6).ring = false ∧
      t.call? 5 = some { ringing with timer := none, talkLane := some 0 } ∧
      (t.talk? 0).map (fun l => (l.state, l.owner, l.partner)) = some (.claiming, 5, some 9)) ∧
    Completes (.offHook 6) (withCall 5 12 ringing (allTalkLanesUsed (seated lifting live))) (fun t =>
      (t.port 6).tone = .reorder ∧ clearingWith t .noSlot 9 ⟨2, 0x1F⟩ = true) ∧
    Completes (.offHook 6) (stackOf [5] true (withFive { callFive with state := .held, timer := some 100 }
      (seated lifting live))) (fun t =>
        (t.callPort 6).stack = [] ∧ t.call? 5 = some callFive ∧ (t.port 6).ring = false) :=
  ⟨by decide +kernel, ⟨_, rfl, by decide +kernel⟩, ⟨_, rfl, by decide +kernel⟩, ⟨_, rfl, by decide +kernel⟩,
    ⟨_, rfl, by decide +kernel⟩, ⟨_, rfl, by decide +kernel⟩, ⟨_, rfl, by decide +kernel⟩⟩

theorem witness_HookEventsStartAndEndCalls_on :
    ((withFive callFive (user 2 hangingUp live)).dueEvent 6 = some (.hook .on) ∧
      (withFive callFive (user 2 hangingUp live)).front 6 = some 5) ∧
    Completes (.onHook 6) (withFive callFive (user 2 hangingUp live)) (fun t =>
      clearingWith t .normal 9 ⟨2, 0x1F⟩ = true ∧ (t.port 6).tone = .none ∧ (t.callPort 6).hookView = .on) ∧
    Completes (.onHook 6) (withCall 5 12 (dialing []) (user 2 hangingUp live)) (fun t => t.call? 5 = none) ∧
    Completes (.onHook 6) (stackOf [5] false (withFive { callFive with state := .held } (user 2 hangingUp live)))
      (fun t => (t.callPort 6).recalled = true ∧ (t.port 6).ring = true ∧
        (t.call? 5).map (·.timer) = some (some 3875)) :=
  ⟨by decide +kernel, ⟨_, rfl, by decide +kernel⟩, ⟨_, rfl, by decide +kernel⟩, ⟨_, rfl, by decide +kernel⟩⟩

def dialled (d : Digit) (u : PortUnit) : PortUnit := { u with digits := [d], tone := .dial }

/-- Numbers 900 to 909 diverted outside to station 7. -/
def outside (s : State) : State :=
  { s with calls := { s.calls with diverts := upd s.calls.diverts 0 ⟨900, 909, 7, true, true⟩ } }

/-- What stands above is checked. -/
inductive HookSection where
  | checked

theorem witness_DigitsMakeANumber :
    let at_ (ds : List Digit) (d : Digit) (s : State) : State := withCall 5 12 (dialing ds) (user 2 (dialled d) s)
    ((at_ [] 7 live).dueEvent 6 = some (.digit 7) ∧ (at_ [] 7 live).front 6 = some 5 ∧
      (outside live).lookupNumber 907 = .divert 7 true ∧ live.homeOf 9997 = none) ∧
    Completes (.digit 6) (at_ [] 7 live) (fun t => t.call? 5 = some (dialing [7]) ∧ (t.port 6).tone = .none) ∧
    Completes (.digit 6) (at_ [9, 9, 9] 7 live) (fun t => t.call? 5 = none ∧ (t.port 6).tone = .reorder) ∧
    Completes (.digit 6) (at_ [4, 0, 5] 0 live) (fun t => t.call? 5 = none ∧ (t.port 6).tone = .reorder) ∧
    Completes (.digit 6) (at_ [4, 0, 5] 0 (withHome 4050 (fun h => { h with location := some (9, 11) }) live)) (fun t =>
      (t.call? 5).map (fun k => (k.state, k.farStation, k.calledEpoch, k.talkLane)) =
        some (.routing, some 9, some 7, some 0)) ∧
    Completes (.digit 6) (withCall 5 12 (dialing [0, 9, 0]) (user 3 (dialled 7) (outside live))) (fun t =>
      t.call? 5 = some { dialing [] with farExt := some 907, divert := true, timer := some 500 }) ∧
    Completes (.digit 6) (at_ [0, 9, 0] 7 (outside live)) (fun t => t.call? 5 = none) :=
  ⟨by decide +kernel, ⟨_, rfl, by decide +kernel⟩, ⟨_, rfl, by decide +kernel⟩, ⟨_, rfl, by decide +kernel⟩,
    ⟨_, rfl, by decide +kernel⟩, ⟨_, rfl, by decide +kernel⟩, ⟨_, rfl, by decide +kernel⟩⟩

/-- The eleventh onward digit is kept; the twelfth would complete the number. A digit of a CONNECTED call is dropped. -/
theorem witness_DigitsMakeANumber_onward :
    let pausing : Call := { dialing [] with farExt := some 907, divert := true, onward := List.replicate 10 3 }
    pausing.onward.length < 11 ∧
    Completes (.digit 6) (withCall 5 12 pausing (user 3 (dialled 7) (outside live))) (fun t =>
      t.call? 5 = some { pausing with onward := List.replicate 10 3 ++ [7], timer := some 500 }) ∧
    Completes (.digit 6) (withFive callFive (user 2 (dialled 7) live)) (fun t =>
      t.call? 5 = some callFive ∧ (t.port 6).digits = []) :=
  ⟨by decide, ⟨_, rfl, by decide +kernel⟩, ⟨_, rfl, by decide +kernel⟩⟩

/-- What stands above is checked. -/
inductive DigitSection where
  | checked

/-- R42, R43: the twelfth onward digit, and the fourth digit of a number diverted to station 7 without OUTSIDE; station 7
PRESENT, the target this station, and station 7 UNKNOWN. -/
theorem witness_DigitsMakeANumber_diverts :
    let full : Call := { dialing [] with
      farExt := some 907, divert := true, onward := List.replicate 11 3, timer := some 500 }
    let diverted (target : Station) (out : Bool) (s : State) : State := { s with calls := { s.calls with
      diverts := upd s.calls.diverts 0 ⟨900, 909, target, out, true⟩
      plan := upd s.calls.plan 9 (.present ⟨9000, 100⟩) } }
    let twelfth (target : Station) : State := withCall 5 12 full (user 3 (dialled 7) (diverted target true live))
    let fourth (rights : Rights) (target : Station) : State :=
      withCall 5 12 (dialing [0, 9, 0]) (user rights (dialled 7) (diverted target false live))
    let routes (s : State) (k : Call) (target : Station) : Prop := Completes (.digit 6) s fun t =>
      t.call? 5 = some { k with state := .routing, timer := none, farStation := some target, talkLane := some 0 }
    let freed (s : State) : Prop := Completes (.digit 6) s fun t => t.call? 5 = none ∧ (t.port 6).tone = .reorder
    let kept : Call := { full with onward := List.replicate 11 3 ++ [7] }
    let done : Call := { dialing [] with farExt := some 907, divert := true }
    ((twelfth 9).front 6 = some 5 ∧ ((twelfth 9).calls.diverts.get 0).covers 907 = true ∧ (twelfth 9).self = 4) ∧
    routes (twelfth 9) kept 9 ∧ routes (twelfth 4) kept 4 ∧ freed (twelfth 7) ∧
    routes (fourth 1 9) done 9 ∧ routes (fourth 3 4) done 4 ∧ freed (fourth 2 7) ∧ freed (fourth 0 9) ∧
    Completes (.onwardPauseExpiry 5) (withCall 5 12 { full with timer := some 0 } (user 3 id (diverted 7 true live)))
      (fun t => t.call? 5 = none ∧ (t.port 6).tone = .reorder) :=
  ⟨by decide +kernel, ⟨_, rfl, by decide +kernel⟩, ⟨_, rfl, by decide +kernel⟩, ⟨_, rfl, by decide +kernel⟩,
    ⟨_, rfl, by decide +kernel⟩, ⟨_, rfl, by decide +kernel⟩, ⟨_, rfl, by decide +kernel⟩, ⟨_, rfl, by decide +kernel⟩,
    ⟨_, rfl, by decide +kernel⟩⟩

/-- 3107 at station 9 calls an extension here. -/
def offerCell (called : Ext) (ep : Epoch) : Cell :=
  { peerCell 9 (.callOffer 3107 called ep 144 9 []) with sender := ⟨2, 0x1F⟩ }

def divertCell (called : Ext) : Cell := { offerCell called 0 with divert := true }

/-- What stands above is checked. -/
inductive DivertSection where
  | checked

theorem witness_OffersAreAnswered :
    let s := seated id live
    ((holding (offerCell 4021 43) s).nextCell .callC = some (stored (offerCell 4021 43)) ∧
      (holding (offerCell 4021 43) s).admittedPort 4021 = some 6 ∧ s.admittedPort 4022 = none ∧
      s.isBusy 6 = false ∧ (user 2 id live).isBusy 6 = true) ∧
    Completes .callOffer (holding (offerCell 4021 43) s) (fun t =>
      t.record 0 = { incarnation := 1, call := some { ringing with timer := some 3875 } } ∧ (t.port 6).ring = true ∧
      t.highway.queue.map (·.cell) = [cellFrom live 9 ⟨0, 1⟩ ⟨2, 0x1F⟩ (.callAnswer .ringing)]) ∧
    Completes .callOffer (holding (offerCell 4021 42) s) (fun t => bodies t = [.callAnswer .stale]) ∧
    Completes .callOffer (holding (offerCell 4022 43) s) (fun t => bodies t = [.callAnswer .stale]) ∧
    Completes .callOffer (holding (offerCell 4021 43) (user 2 id live)) (fun t => bodies t = [.callAnswer .busy]) ∧
    Completes .callOffer (holding (offerCell 4021 43) (noFreeRecord s)) (fun t =>
      bodies t = [.callAnswer .congestion]) ∧
    Completes .callOffer (holding (offerCell 4021 43) (withQueue 20 s)) (fun t =>
      t.call? 0 = none ∧ (t.port 6).ring = false ∧ t.highway.queue.length = 20) ∧
    Completes .callOffer (inState .listening (holding (offerCell 4021 43) s)) (fun t =>
      t.highway.store = [] ∧ t.call? 0 = none) ∧
    Completes .callOffer (holding (divertCell 907) s) (fun t => (t.call? 0).map (·.port) = some 6) ∧
    Completes .callOffer (holding (divertCell 4021) (user 2 id live)) (fun t => bodies t = [.callAnswer .busy]) :=
  ⟨by decide +kernel, ⟨_, rfl, by decide +kernel⟩, ⟨_, rfl, by decide +kernel⟩, ⟨_, rfl, by decide +kernel⟩,
    ⟨_, rfl, by decide +kernel⟩, ⟨_, rfl, by decide +kernel⟩, ⟨_, rfl, by decide +kernel⟩, ⟨_, rfl, by decide +kernel⟩,
    ⟨_, rfl, by decide +kernel⟩, ⟨_, rfl, by decide +kernel⟩⟩

/-- A CALL cell of station 9 for record 5. -/
def forFive (b : Body) : Cell := { peerCell 9 b with sender := ⟨2, 0x1F⟩, receiver := ⟨5, 12⟩ }

/-- Record 5 in a state before its connection, with lane 0 ACTIVE and keyless. -/
def early (st : CallState) : State :=
  (withCall 5 12 { callFive with state := st, listenLanes := [], farExt := some 4050 } (user 2 id live)).setTalk 0
    { talkZero with activeKey := none, partner := none }

theorem witness_AnswersAndConnectsReachTheCaller_answers :
    let at_ (o : AnswerOutcome) (st : CallState) (s : State → State) := s (holding (forFive (.callAnswer o)) (early st))
    ((at_ .ringing .offering id).nextCell .callC = some (stored (forFive (.callAnswer .ringing))) ∧
      (at_ .ringing .offering id).callTarget (forFive (.callAnswer .ringing)) = some (.record 5)) ∧
    Completes .callAnswer (at_ .ringing .offering id) (fun t => (t.port 6).tone = .ringback ∧
      (t.call? 5).map (fun k => (k.state, k.timer)) = some (.ringback, some 3750)) ∧
    Completes .callAnswer (at_ .busy .offering id) (fun t => t.call? 5 = none ∧ (t.port 6).tone = .busy) ∧
    Completes .callAnswer (at_ .congestion .offering id) (fun t => t.call? 5 = none ∧ (t.port 6).tone = .reorder) ∧
    Completes .callAnswer (at_ .stale .offering fun s => s.modCall 5 fun k => { k with staleRetried := true })
      (fun t => t.call? 5 = none ∧ (t.port 6).tone = .reorder) ∧
    Completes .callAnswer (at_ .stale .offering (withHome 4050 fun h => { h with location := some (12, 3) })) (fun t =>
      t.highway.queue.map (·.cell) = [cellFrom live 12 ⟨5, 12⟩ Tag.absent (.callOffer 4021 4050 7 64 4 [])] ∧
      (t.call? 5).map (fun k => (k.state, k.staleRetried, k.timer)) = some (.offering, true, some 250)) ∧
    Completes .callAnswer (at_ .busy .ringback id) (fun t => (t.call? 5).map (·.state) = some .ringback) :=
  ⟨by decide +kernel, ⟨_, rfl, by decide +kernel⟩, ⟨_, rfl, by decide +kernel⟩, ⟨_, rfl, by decide +kernel⟩,
    ⟨_, rfl, by decide +kernel⟩, ⟨_, rfl, by decide +kernel⟩, ⟨_, rfl, by decide +kernel⟩⟩

theorem witness_AnswersAndConnectsReachTheCaller_connect :
    let cell := forFive (.callConnect 144 9)
    (early .ringback).listen? 0 = none ∧
    Completes .callConnect (holding cell (early .ringback)) (fun t =>
      (t.call? 5).map (fun k => (k.state, k.farSlot, k.farNonce, k.listenLanes)) =
        some (.proving, some 144, some 9, [0]) ∧
      (t.talk? 0).map (fun l => (l.partner, l.mode, l.firstBoundary)) = some (some 9, .prove, some 1) ∧
      (t.listen? 0).map (fun l => (l.state, l.slot, l.provingClock)) = some (.waitkey, 144, some 1)) ∧
    Completes .callConnect (holding cell (allListenLanesUsed (early .ringback))) (fun t =>
      clearingWith t .congestion 9 ⟨2, 0x1F⟩ = true) ∧
    Completes .callConnect (holding cell (withFive callFive (user 2 id live))) (fun t =>
      t.call? 5 = some callFive) :=
  ⟨by decide +kernel, ⟨_, rfl, by decide +kernel⟩, ⟨_, rfl, by decide +kernel⟩, ⟨_, rfl, by decide +kernel⟩⟩

/-- What stands above is checked. -/
inductive AnswerSection where
  | checked

/-- 3107 of station 2 is dialled: from the cache, through the query for it, through a new one, through the wait list,
and with its home ABSENT (R23 to R26). -/
theorem witness_DigitsMakeANumber_lookup :
    let at_ (s : State) : State := withCall 5 12 (dialing [3, 1, 0]) (user 2 (dialled 7) s)
    let asked (e : Ext) : QueryPlace :=
      { incarnation := 20, query := some { ext := e, home := 2, timer := some 3, waiters := [7] } }
    let busy : State := { homeTwo live with adm := { live.adm with queries := Vector.replicate 4 (asked 3110) } }
    let away : State := { live with calls := { live.calls with plan := upd live.calls.plan 2 (.absent ⟨3000, 200⟩) } }
    ((at_ (homeTwo live)).homeOf 3107 = some 2 ∧ (at_ away).homeOf 3107 = some 2) ∧
    Completes (.digit 6) (at_ ((homeTwo live).setCache [⟨3108, 9, 1⟩, ⟨3107, 9, 43⟩])) (fun t =>
      t.adm.cache = [⟨3107, 9, 43⟩, ⟨3108, 9, 1⟩] ∧
      (t.call? 5).map (fun k => (k.state, k.farStation, k.calledEpoch, k.talkLane)) =
        some (.routing, some 9, some 43, some 0)) ∧
    Completes (.digit 6) (at_ ((homeTwo live).setQuery 1 (asked 3107))) (fun t => t.highway.queue = [] ∧
      ((t.adm.queries.get 1).query.map (·.waiters)) = some [7, 5]) ∧
    Completes (.digit 6) (at_ (homeTwo live)) (fun t =>
      t.adm.queries.get 0 =
        { incarnation := 1, query := some { ext := 3107, home := 2, timer := some 8, waiters := [5] } } ∧
      t.highway.queue.map (·.cell) = [cellFrom live 2 ⟨0, 1⟩ Tag.absent (.admitAsk 3107)]) ∧
    Completes (.digit 6) (at_ busy) (fun t => t.calls.waitList = [5] ∧ t.adm = (at_ busy).adm ∧
      (t.call? 5).map (·.state) = some .routing) ∧
    Completes (.digit 6) (at_ away) (fun t => t.call? 5 = none ∧ (t.port 6).tone = .reorder) :=
  ⟨by decide +kernel, ⟨_, rfl, by decide +kernel⟩, ⟨_, rfl, by decide +kernel⟩, ⟨_, rfl, by decide +kernel⟩,
    ⟨_, rfl, by decide +kernel⟩, ⟨_, rfl, by decide +kernel⟩⟩

/-- R64: an OFFERING record has no far call tag; RINGING, and CALL-CONNECT without it (R59), give it the sender tag. -/
theorem witness_AnswersAndConnectsReachTheCaller_adopts :
    let s (b : Body) : State := holding (forFive b)
      ((early .offering).modCall 5 fun k => { k with farTag := Tag.absent })
    ((s (.callAnswer .ringing)).callTag 5 = ⟨5, 12⟩ ∧
      ((s (.callAnswer .ringing)).call? 5).map (fun k => (k.farTag, k.farStation)) = some (Tag.absent, some 9)) ∧
    Completes .callAnswer (s (.callAnswer .ringing)) (fun t =>
      (t.call? 5).map (fun k => (k.state, k.timer, k.farTag)) = some (.ringback, some 3750, ⟨2, 0x1F⟩) ∧
      (t.port 6).tone = .ringback) ∧
    Completes .callAnswer (s (.callAnswer .busy)) (fun t => t.call? 5 = none ∧ (t.port 6).tone = .busy) ∧
    Completes .callConnect (s (.callConnect 144 9)) (fun t =>
      (t.call? 5).map (fun k => (k.state, k.farTag, k.farSlot, k.listenLanes)) =
        some (.proving, ⟨2, 0x1F⟩, some 144, [0]) ∧
      (t.listen? 0).map (fun l => (l.state, l.talker, l.talkerTag, l.slot)) = some (.waitkey, 9, ⟨2, 0x1F⟩, 144)) :=
  ⟨by decide +kernel, ⟨_, rfl, by decide +kernel⟩, ⟨_, rfl, by decide +kernel⟩, ⟨_, rfl, by decide +kernel⟩⟩

/-- What stands above is checked. -/
inductive LookupSection where
  | checked

theorem witness_CallClearsFreeAndStrayCellsAreRecorded :
    let cleared := holding (forFive (.callClear .normal)) oneCall
    let untagged := holding { forFive (.callClear .normal) with receiver := Tag.absent } oneCall
    let stray := holding { forFive (.callConnect 3 3) with receiver := ⟨5, 13⟩ } oneCall
    (cleared.callTarget (forFive (.callClear .normal)) = some (.record 5) ∧ stray.recordOf ⟨5, 13⟩ = none) ∧
    Completes .callClear cleared (fun t => t.call? 5 = none ∧ (t.port 6).tone = .busy ∧ bodies t = [.slot (.free 64)]) ∧
    Completes .callClear untagged (fun t => t.call? 5 = none) ∧
    Completes .callConnect stray (fun t => t.highway.counters.get FaultKind.strayCell.index = 1 ∧
      t.call? 5 = some callFive) ∧
    Completes .callConnect (inState .listening stray) (fun t => t.highway.store = [] ∧
      t.highway.counters = live.highway.counters) ∧
    Completes .callClear (holding (forFive (.callClear .normal)) (withCall 5 12 ringing (seated lifting live)))
      (fun t => t.call? 5 = none ∧ (t.port 6).ring = false) :=
  ⟨by decide +kernel, ⟨_, rfl, by decide +kernel⟩, ⟨_, rfl, by decide +kernel⟩, ⟨_, rfl, by decide +kernel⟩,
    ⟨_, rfl, by decide +kernel⟩, ⟨_, rfl, by decide +kernel⟩⟩

/-- Record 5 controls 3107 at station 9 (link of the freed record 6) and 3290 at station 12. -/
def memberNine : Member := { station := 9, tag := ⟨0x02, 0x1F⟩, slot := 144, link := ⟨5, 12⟩ }
def memberTwelve : Member := { station := 12, tag := ⟨0x08, 0x21⟩, slot := 192, link := ⟨6, 5⟩ }

def conferenceOfThree : State :=
  ((withFive { callFive with confRole := .controller, farStation := none, farTag := Tag.absent, farSlot := none
                             farNonce := none, farExt := none, listenLanes := [0, 1] } (user 2 id live)).setListen 1
    { listenOne with owner := 5, ownerTag := ⟨5, 12⟩ }).setConf 0
      (some { controller := 5, members := [memberNine, memberTwelve] })

/-- Station 12's member hangs up: the conference ends, and station 9 is told with a CONF-SET of two places. -/
theorem witness_CallClearsFreeAndStrayCellsAreRecorded_member :
    let s := holding { peerCell 12 (.callClear .normal) with sender := ⟨0x08, 0x21⟩, receiver := ⟨6, 5⟩ }
      conferenceOfThree
    s.recordOf ⟨6, 5⟩ = none ∧
    Completes .callClear s fun t => t.calls.confs.get 0 = none ∧
      (t.call? 5).map (fun k => (k.confRole, k.state, k.farStation, k.listenLanes)) =
        some (.none, .connected, some 9, [0]) ∧
      t.highway.queue.map (fun q => (q.cell.dest, q.cell.sender, q.cell.receiver)) =
        [(.one 9, ⟨5, 12⟩, ⟨0x02, 0x1F⟩)] :=
  ⟨by decide +kernel, _, rfl, by decide +kernel⟩

/-- R86: a MEMBER record under link tag 06h/05h, whose controller at station 12 is listed as 08h/21h, ends with the GONE
about that tag; one about a fellow member is a stray cell. -/
theorem witness_CallClearsFreeAndStrayCellsAreRecorded_gone :
    let gone (asked : Tag) : State := holding { forFive (.callClear .gone) with source := 12, sender := asked }
      (withFive { callFive with
        confRole := .member, farStation := some 12, farTag := ⟨6, 5⟩, controllerTag := ⟨8, 33⟩ } (user 2 id live))
    ((gone ⟨8, 33⟩).callTag 5 = ⟨5, 12⟩ ∧ (gone ⟨8, 33⟩).calls.confs = live.calls.confs) ∧
    Completes .callClear (gone ⟨8, 33⟩) (fun t => t.call? 5 = none ∧ (t.port 6).tone = .busy ∧ t.listen? 0 = none ∧
      bodies t = [.slot (.free 64)]) ∧
    Completes .callClear (gone ⟨2, 9⟩) (fun t => t.call? 5 = (gone ⟨2, 9⟩).call? 5 ∧
      t.highway.counters.get FaultKind.strayCell.index = 1) :=
  ⟨by decide +kernel, ⟨_, rfl, by decide +kernel⟩, ⟨_, rfl, by decide +kernel⟩⟩

/-- What stands above is checked. -/
inductive GoneSection where
  | checked

/-- R65 and R85: REFUSE at a record OFFERING, ALERTING and PROVING, in another state, and at a conference of four. -/
theorem witness_RefuseReachesTheOwnerOfItsKind_calls :
    let four : State := conferenceOfThree.setConf 0 (some { controller := 5, members := [memberNine,
      { station := 2, tag := ⟨3, 3⟩, slot := 32, link := ⟨7, 9⟩ }, memberTwelve] })
    (four.callTag 5 = ⟨5, 12⟩ ∧ (early .offering).talk? 0 = some { talkZero with activeKey := none, partner := none }) ∧
    Completes .refuse (refused 0x20 ⟨5, 12⟩ (early .offering)) (fun t => t.call? 5 = none ∧ t.talk? 0 = none ∧
      bodies t = [.slot (.free 64)]) ∧
    Completes .refuse (refused 0x21 ⟨5, 12⟩ (withCall 5 12 ringing (seated id live))) (fun t =>
      clearingWith t .congestion 9 ⟨2, 0x1F⟩ = true) ∧
    Completes .refuse (refused 0x22 ⟨5, 12⟩ (withFive { callFive with state := .proving } (user 2 id live))) (fun t =>
      clearingWith t .congestion 9 ⟨2, 0x1F⟩ = true) ∧
    Completes .refuse (refused 0x21 ⟨5, 12⟩ (early .offering)) (fun t => t = early .offering) ∧
    Completes .refuse (refused 0x25 ⟨7, 9⟩ four) (fun t =>
      (t.calls.confs.get 0).map (·.members) = some [memberNine, memberTwelve] ∧
      t.highway.queue.map (fun q => (q.cell.dest, q.cell.sender, q.cell.receiver, q.cell.body.kind)) = [
        (.one 2, ⟨7, 9⟩, ⟨3, 3⟩, 0x23), (.one 9, ⟨5, 12⟩, ⟨2, 0x1F⟩, 0x25), (.one 12, ⟨6, 5⟩, ⟨8, 33⟩, 0x25)]) :=
  ⟨by decide +kernel, ⟨_, rfl, by decide +kernel⟩, ⟨_, rfl, by decide +kernel⟩, ⟨_, rfl, by decide +kernel⟩,
    ⟨_, rfl, by decide +kernel⟩, ⟨_, rfl, by decide +kernel⟩⟩

/-- The section above is checked. -/
inductive SetupSection where
  | checked

theorem witness_CallTimersExpire :
    let out (st : CallState) : State := withFive { callFive with state := st, timer := some 0 } (user 2 id live)
    let onward (ds : List Digit) : Call :=
      { dialing [] with farExt := some 907, divert := true, onward := ds, timer := some 0 }
    (((outside live).calls.diverts.get 0).covers 907 = true ∧ (out .offering).call? 5 =
      some { callFive with state := .offering, timer := some 0 }) ∧
    Completes (.digitTimerExpiry 5) (withCall 5 12 { dialing [4] with timer := some 0 } (user 2 id live)) (fun t =>
      t.call? 5 = none ∧ (t.port 6).tone = .reorder) ∧
    Completes (.digitTimerExpiry 5) (withCall 5 12 { dialing [4] with timer := some 1 } (user 2 id live)) (fun t =>
      (t.call? 5).isSome = true) ∧
    Completes (.onwardPauseExpiry 5) (withCall 5 12 (onward []) (user 3 id (outside live))) (fun t =>
      t.call? 5 = none ∧ (t.port 6).tone = .reorder) ∧
    Completes (.onwardPauseExpiry 5) (withCall 5 12 (onward [3]) { user 3 id (outside live) with
        calls := { (user 3 id (outside live)).calls with plan := upd live.calls.plan 7 (.present ⟨7000, 100⟩) } })
      (fun t => (t.call? 5).map (fun k => (k.state, k.farStation, k.talkLane)) = some (.routing, some 7, some 0)) ∧
    Completes (.answerTimerExpiry 5) (out .offering) (fun t => clearingWith t .congestion 9 ⟨2, 0x1F⟩ = true) ∧
    Completes (.ringingTimerExpiry 5) (out .ringback) (fun t => clearingWith t .noAnswer 9 ⟨2, 0x1F⟩ = true) ∧
    Completes (.alertingTimerExpiry 5) (withCall 5 12 { ringing with timer := some 0 } (seated lifting live)) (fun t =>
      clearingWith t .noAnswer 9 ⟨2, 0x1F⟩ = true ∧ (t.port 6).ring = false) ∧
    Completes (.recallTimerExpiry 5) (stackOf [6, 5] false (out .held)) (fun t =>
      clearingWith t .noAnswer 9 ⟨2, 0x1F⟩ = true ∧ (t.callPort 6).stack = [6]) :=
  ⟨by decide +kernel, ⟨_, rfl, by decide +kernel⟩, ⟨_, rfl, by decide +kernel⟩, ⟨_, rfl, by decide +kernel⟩,
    ⟨_, rfl, by decide +kernel⟩, ⟨_, rfl, by decide +kernel⟩, ⟨_, rfl, by decide +kernel⟩, ⟨_, rfl, by decide +kernel⟩,
    ⟨_, rfl, by decide +kernel⟩⟩

/-! ### Feature keys (spec 05, worked example) -/

def pressed (k : FeatureKey) (u : PortUnit) : PortUnit := { u with keys := [k] }

theorem witness_HeldCallsChangePlaces :
    let holdAt (s : State) : State := withFive callFive (user 2 (pressed .holdKey) s)
    ((holdAt live).dueEvent 6 = some (.key .holdKey) ∧ (holdAt live).front 6 = some 5 ∧
      (twoCalls (pressed .swapKey)).front 6 = some 6) ∧
    Completes (.hold 6) (holdAt live) (fun t => (t.callPort 6).stack = [5] ∧
      t.call? 5 = some { callFive with state := .held } ∧ t.call? 0 = some (dialing []) ∧
      (t.talk? 0).map (·.mode) = some .silence) ∧
    Completes (.hold 6) (holdAt (noFreeRecord live)) (fun t => (t.callPort 6).stack = [5] ∧
      (t.port 6).tone = .reorder) ∧
    Completes (.swap 6) (twoCalls (pressed .swapKey)) (fun t => (t.callPort 6).stack = [6] ∧
      t.call? 5 = some callFive ∧ t.call? 6 = some { callSix with state := .held } ∧ t.highway.queue = []) ∧
    Completes (.returnCall 6) (stackOf [5] false (withFive { callFive with state := .held, timer := some 9 }
      (user 2 (pressed .returnKey) live))) (fun t => (t.callPort 6).stack = [] ∧ t.call? 5 = some callFive) ∧
    Completes (.returnCall 6) (stackOf [5] false (withCall 0 1 (dialing [3]) (withFive { callFive with state := .held }
      (user 2 (pressed .returnKey) live)))) (fun t => (t.callPort 6).stack = [] ∧ t.call? 0 = none ∧
        t.call? 5 = some callFive) :=
  ⟨by decide +kernel, ⟨_, rfl, by decide +kernel⟩, ⟨_, rfl, by decide +kernel⟩, ⟨_, rfl, by decide +kernel⟩,
    ⟨_, rfl, by decide +kernel⟩, ⟨_, rfl, by decide +kernel⟩⟩

def bursting (n : Option Nat) : State := (user 2 id live).modCallPort 6 fun c => { c with burst := n }

/-- A fourth hold, a transfer of class 1, a conference of a member, keys without a stack or a front record; a key with
the set on-hook; the burst timer. -/
theorem witness_RefusedKeysGiveABurst :
    let refusedAt (i : Instr) (s : State) : Prop := Completes i s fun t =>
      (t.callPort 6).burst = some 25 ∧ (t.port 6).tone = .reorder ∧ t.calls.records = s.calls.records
    ((user 2 (pressed .swapKey) live).front 6 = none ∧
      ((twoCalls (pressed .transferKey)).modLogin 6 fun l => { l with entry := some {
        body := .admitted 4021 1 43 .none, timer := none } }).rightsAt 6 = 1) ∧
    refusedAt (.swap 6) (user 2 (pressed .swapKey) live) ∧
    refusedAt (.returnCall 6) (withFive callFive (user 2 (pressed .returnKey) live)) ∧
    refusedAt (.hold 6) (stackOf [7, 8, 9] false (withFive callFive (user 2 (pressed .holdKey) live))) ∧
    refusedAt (.transfer 6) (withLogin 6 (.admitted 4021 1 43 .none) none (twoCalls (pressed .transferKey))) ∧
    refusedAt (.transfer 6) ((twoCalls (pressed .transferKey)).modCall 6 fun k => { k with confRole := .controller }) ∧
    refusedAt (.conference 6) ((twoCalls (pressed .conferenceKey)).modCall 6 fun k => { k with confRole := .member }) ∧
    Completes (.hold 6) (withFive callFive (seated (pressed .holdKey) live)) (fun t =>
      t.call? 5 = some callFive ∧ (t.port 6).keys = [] ∧ (t.port 6).tone = .none) ∧
    Completes (.burstTimerExpiry 6) (bursting (some 0)) (fun t => (t.callPort 6).burst = none) ∧
    Completes (.burstTimerExpiry 6) (bursting (some 1)) (fun t => (t.callPort 6).burst = some 1) :=
  ⟨by decide +kernel, ⟨_, rfl, by decide +kernel⟩, ⟨_, rfl, by decide +kernel⟩, ⟨_, rfl, by decide +kernel⟩,
    ⟨_, rfl, by decide +kernel⟩, ⟨_, rfl, by decide +kernel⟩, ⟨_, rfl, by decide +kernel⟩, ⟨_, rfl, by decide +kernel⟩,
    ⟨_, rfl, by decide +kernel⟩, ⟨_, rfl, by decide +kernel⟩⟩

/-- What stands above is checked. -/
inductive KeySection where
  | checked

/-- Spec 05: record 6 is front, record 5 the top; each far end is redirected to the other. -/
theorem witness_TransferRedirectsBothFarEnds :
    let s := twoCalls (pressed .transferKey)
    (s.dueEvent 6 = some (.key .transferKey) ∧ s.front 6 = some 6 ∧ s.call? 6 = some callSix ∧
      (s.callPort 6).stack = [5] ∧ s.rightsAt 6 = 2 ∧ s.listen? 1 = some listenOne ∧ s.talk? 1 = some talkOne ∧
      s.listen? 0 = some listenZero ∧ s.talk? 0 = some talkZero) ∧
    Completes (.transfer 6) s (fun t =>
      t.highway.queue.map (fun q => (q.cell.dest, q.cell.sender, q.cell.receiver)) = [
        (.one 12, ⟨6, 5⟩, ⟨0x08, 0x21⟩), (.one 9, ⟨5, 12⟩, ⟨0x02, 0x1F⟩), (.all, Tag.absent, Tag.absent),
        (.all, Tag.absent, Tag.absent)] ∧
      (t.call? 5).map (·.state) = some .clearing ∧ (t.call? 6).map (·.cause) = some .transferred ∧
      t.talk? 0 = none ∧ t.slots.map.get 64 = none ∧ (t.callPort 6).stack = [] ∧ (t.port 6).tone = .busy) ∧
    Completes (.transfer 6) (withQueue 20 s) (fun t => t.call? 6 = some callSix ∧ (t.callPort 6).burst = some 25) :=
  ⟨by decide +kernel, ⟨_, rfl, by decide +kernel⟩, ⟨_, rfl, by decide +kernel⟩⟩

/-- With 19 cells queued the second CALL-REDIRECT is refused: record 5, the top, ends with CONGESTION. -/
theorem witness_TransferRedirectsBothFarEnds_second :
    let s := withQueue 19 (twoCalls (pressed .transferKey))
    let waits (t : State) (r : RecordId) : Option (CallState × Cause × Nat) :=
      (t.call? r).map fun k => (k.state, k.cause, k.clears)
    s.highway.queue.length = 19 ∧
    Completes (.transfer 6) s fun t =>
      (t.highway.queue.drop 19).map (fun q => (q.cell.dest, q.cell.body.kind)) =
        [(.one 12, 0x24), (.all, 3), (.all, 3), (.one 9, 0x23)] ∧
      t.highway.queue.getLast?.map (·.cell) = some (cellFrom live 9 ⟨5, 12⟩ ⟨0x02, 0x1F⟩ (.callClear .congestion)) ∧
      waits t 6 = some (.clearing, .transferred, 1) ∧ waits t 5 = some (.clearing, .congestion, 1) ∧
      t.listen? 0 = none ∧ t.talk? 1 = none ∧ t.slots.map.get 64 = none ∧ (t.callPort 6).stack = [] ∧
      (t.port 6).tone = .busy ∧ t.highway.counters.get FaultKind.queueFull.index = 1 :=
  ⟨by decide +kernel, _, rfl, by decide +kernel⟩

theorem witness_ConferenceJoinsFrontAndTop :
    let s := twoCalls (pressed .conferenceKey)
    (s.dueEvent 6 = some (.key .conferenceKey) ∧ s.front 6 = some 6 ∧ s.calls.confs.get 0 = none) ∧
    Completes (.conference 6) s (fun t =>
      t.calls.confs.get 0 = some { controller := 6, members := [
        { station := 12, tag := ⟨0x08, 0x21⟩, slot := 192, link := ⟨6, 5⟩ },
        { station := 9, tag := ⟨0x02, 0x1F⟩, slot := 144, link := ⟨5, 12⟩ }] } ∧
      t.highway.queue.map (fun q => (q.cell.dest, q.cell.sender, q.cell.receiver)) = [
        (.all, Tag.absent, Tag.absent), (.one 12, ⟨6, 5⟩, ⟨0x08, 0x21⟩), (.one 9, ⟨5, 12⟩, ⟨0x02, 0x1F⟩)] ∧
      t.call? 5 = none ∧ (t.call? 6).map (fun k => (k.confRole, k.listenLanes)) = some (.controller, [1, 0])) ∧
    Completes (.conference 6) { s with calls := { s.calls with
        confs := Vector.replicate 6 (some { controller := 63, members := [] }) } } (fun t =>
      (t.callPort 6).burst = some 25 ∧ t.call? 6 = some callSix) :=
  ⟨by decide +kernel, ⟨_, rfl, by decide +kernel⟩, ⟨_, rfl, by decide +kernel⟩⟩

/-- Three places: station 12's controller, station 9's member, record 5. -/
def placesOfThree : List MemberPlace := [⟨12, ⟨8, 33⟩, 192⟩, ⟨9, ⟨2, 0x1F⟩, 144⟩, ⟨4, ⟨5, 12⟩, 64⟩]

theorem witness_RedirectsAndConfSetsChangeTheFarEnd :
    let redirect := forFive (.callRedirect 12 ⟨8, 33⟩ 192 5)
    let conf (ms : List MemberPlace) := forFive (.confSet 5 ms)
    let proving (c : Cell) := holding c (withFive { callFive with state := .proving } (user 2 id live))
    (oneCall.self = 4 ∧ oneCall.callTag 5 = ⟨5, 12⟩ ∧ oneCall.listen? 0 = some listenZero) ∧
    Completes .callRedirect (holding redirect oneCall) (fun t =>
      (t.call? 5).map (fun k => (k.state, k.farStation, k.farTag, k.listenLanes)) =
        some (.connected, some 12, ⟨8, 33⟩, [0]) ∧
      (t.listen? 0).map (fun l => (l.state, l.purpose, l.talker, l.slot)) = some (.waitkey, .join, 12, 192) ∧
      (t.talk? 0).map (·.request) = some (.next 1 5)) ∧
    Completes .callRedirect (proving redirect) (fun t => clearingWith t .congestion 9 ⟨2, 0x1F⟩ = true) ∧
    Completes .callRedirect (holding redirect (early .ringback)) (fun t => t.call? 5 = (early .ringback).call? 5) ∧
    Completes .confSet (holding (conf placesOfThree) oneCall) (fun t =>
      (t.call? 5).map (fun k => (k.confRole, k.farSlot, k.listenLanes)) = some (.member, some 192, [0, 1]) ∧
      (t.call? 5).map (·.controllerTag) = some ⟨8, 33⟩ ∧
      (t.listen? 1).map (fun l => (l.talker, l.slot)) = some (12, 192)) ∧
    Completes .confSet (holding (conf [⟨9, ⟨2, 0x1F⟩, 145⟩, ⟨4, ⟨5, 12⟩, 64⟩]) oneCall) (fun t =>
      (t.call? 5).map (fun k => (k.confRole, k.farSlot)) = some (.none, some 145)) ∧
    Completes .confSet (holding (conf (placesOfThree.take 2)) oneCall) (fun t => t.call? 5 = some callFive) ∧
    Completes .confSet (proving (conf placesOfThree)) (fun t => clearingWith t .congestion 9 ⟨2, 0x1F⟩ = true) :=
  ⟨by decide +kernel, ⟨_, rfl, by decide +kernel⟩, ⟨_, rfl, by decide +kernel⟩, ⟨_, rfl, by decide +kernel⟩,
    ⟨_, rfl, by decide +kernel⟩, ⟨_, rfl, by decide +kernel⟩, ⟨_, rfl, by decide +kernel⟩, ⟨_, rfl, by decide +kernel⟩⟩

/-- What stands above is checked. -/
inductive RedirectSection where
  | checked

/-- R79, R84: no listen lane is FREE. A redirected record without a lane clears to its new far end, also one that is HELD;
one lane is missing for a CONF-SET of three, and for one of two, which clears under the controller's listed tag. -/
theorem witness_RedirectsAndConfSetsChangeTheFarEnd_lanes :
    let bare (st : CallState) (c : Cell) : State := holding c (allListenLanesUsed
      ((withCall 5 12 { callFive with state := st, listenLanes := [] } (user 2 id live)).setTalk 0 talkZero))
    let one (c : Cell) : State := holding c ((withFive callFive (allListenLanesUsed (user 2 id live))).setListen 0 listenZero)
    let redirect := forFive (.callRedirect 12 ⟨8, 33⟩ 192 5)
    let two := forFive (.confSet 5 [⟨9, ⟨7, 7⟩, 145⟩, ⟨4, ⟨5, 12⟩, 64⟩])
    let three := forFive (.confSet 5 placesOfThree)
    ((∀ m, ((bare .held redirect).listen? m).isSome = true) ∧ (one three).listen? 0 = some listenZero) ∧
    Completes .callRedirect (bare .connected redirect) (fun t => clearingWith t .congestion 12 ⟨8, 33⟩ = true) ∧
    Completes .callRedirect (stackOf [5] false (bare .held redirect)) (fun t =>
      clearingWith t .congestion 12 ⟨8, 33⟩ = true ∧ (t.callPort 6).stack = []) ∧
    Completes .confSet (one three) (fun t => clearingWith t .congestion 9 ⟨2, 0x1F⟩ = true) ∧
    Completes .confSet (bare .connected two) (fun t => clearingWith t .congestion 9 ⟨7, 7⟩ = true) :=
  ⟨by decide +kernel, ⟨_, rfl, by decide +kernel⟩, ⟨_, rfl, by decide +kernel⟩, ⟨_, rfl, by decide +kernel⟩,
    ⟨_, rfl, by decide +kernel⟩⟩

/-- With 20 cells queued both CONF-SETs are refused, and the conference ends as it began. -/
theorem witness_ConferenceJoinsFrontAndTop_full :
    let s := withQueue 20 (twoCalls (pressed .conferenceKey))
    s.highway.queue.length = 20 ∧
    Completes (.conference 6) s fun t => t.calls.confs.get 0 = none ∧ t.call? 6 = none ∧ t.call? 5 = none ∧
      (t.highway.queue.drop 20).map (·.cell.body) =
        [.slot (.free 64), .callClear .congestion, .callClear .congestion, .slot (.free 65)] :=
  ⟨by decide +kernel, _, rfl, by decide +kernel⟩

/-- Record 5 controls the members at 9 and 12; record 7 talks to 2020 at station 7 through lanes 2. -/
def callSeven : Call := {
  state := .connected, port := 6, ownExt := 4021, role := .caller, farExt := some 2020, farStation := some 7
  farTag := ⟨3, 40⟩, farSlot := some 112, farNonce := some 7, talkLane := some 2, listenLanes := [2] }

def controllerAnd (ofFive ofSeven : CallState) (members : List Member) : State :=
  let s := ((withCall 7 9 { callSeven with state := ofSeven } (user 2 (pressed .conferenceKey)
    (conferenceOfThree.setConf 0 (some { controller := 5, members := members })))).modCall 5
      fun k => { k with state := ofFive })
  ((s.setTalk 2 { talkOne with owner := 7, ownerTag := ⟨7, 9⟩, slot := some 66, mode := .voice }).setListen 2
    { listenOne with owner := 7, ownerTag := ⟨7, 9⟩, talker := 7, talkerTag := ⟨3, 40⟩, slot := 112 }).setSlot 66
      (some 4) |>.modCallPort 6 fun c => { c with stack := if ofFive = .held then [5] else [7] }

def memberSeven : Member := { station := 7, tag := ⟨3, 40⟩, slot := 112, link := ⟨7, 9⟩ }

/-- R83: a third remote member, with the controller at the front and on top; a fourth is refused. -/
theorem witness_ConferenceJoinsFrontAndTop_adds :
    let front := controllerAnd .connected .held [memberNine, memberTwelve]
    let top := controllerAnd .held .connected [memberNine, memberTwelve]
    let four := controllerAnd .connected .held [memberNine, memberTwelve, memberSeven]
    let added (t : State) : Prop :=
      (t.calls.confs.get 0).map (·.members) = some [memberNine, memberTwelve, memberSeven] ∧
      t.call? 7 = none ∧ t.talk? 2 = none ∧ t.slots.map.get 66 = none ∧ (t.callPort 6).stack = [] ∧
      (t.call? 5).map (fun k => (k.state, k.confRole, k.listenLanes)) = some (.connected, .controller, [0, 1, 2]) ∧
      (t.listen? 2).map (fun l => (l.owner, l.ownerTag)) = some (5, ⟨5, 12⟩)
    (front.front 6 = some 5 ∧ top.front 6 = some 7 ∧ front.dueEvent 6 = some (.key .conferenceKey) ∧
      front.callTag 7 = ⟨7, 9⟩) ∧
    Completes (.conference 6) front (fun t => added t ∧
      t.highway.queue.map (fun q => (q.cell.dest, q.cell.sender, q.cell.receiver)) = [(.all, Tag.absent, Tag.absent),
        (.one 9, ⟨5, 12⟩, ⟨2, 0x1F⟩), (.one 12, ⟨6, 5⟩, ⟨8, 33⟩), (.one 7, ⟨7, 9⟩, ⟨3, 40⟩)]) ∧
    Completes (.conference 6) top added ∧
    Completes (.conference 6) four (fun t => t.calls.records = four.calls.records ∧ (t.callPort 6).burst = some 25) :=
  ⟨by decide +kernel, ⟨_, rfl, by decide +kernel⟩, ⟨_, rfl, by decide +kernel⟩, ⟨_, rfl, by decide +kernel⟩⟩

/-- A conference of four, and its end for a MEMBER with two lanes, whose one place is at the far station (log 48). -/
theorem witness_RedirectsAndConfSetsChangeTheFarEnd_members :
    let cell (ms : List MemberPlace) := { peerCell 12 (.confSet 5 ms) with sender := ⟨8, 33⟩, receiver := ⟨5, 12⟩ }
    let member : State := (withFive { callFive with
        confRole := .member, farStation := some 12, farTag := ⟨8, 33⟩, listenLanes := [0, 1] } (user 2 id live)).setListen 1
      { listenOne with owner := 5, ownerTag := ⟨5, 12⟩, talkerTag := ⟨8, 33⟩ }
    (member.self = 4 ∧ (member.listen? 1).map (·.owner) = some 5 ∧ member.listen? 2 = none) ∧
    Completes .confSet (holding (cell (placesOfThree ++ [⟨7, ⟨3, 40⟩, 112⟩])) member) (fun t =>
      (t.call? 5).map (fun k => (k.confRole, k.farSlot, k.listenLanes)) = some (.member, some 192, [0, 1, 2]) ∧
      (t.listen? 2).map (fun l => (l.talker, l.talkerTag, l.slot)) = some (7, ⟨3, 40⟩, 112) ∧
      (t.talk? 0).map (·.request) = some (.next 1 5)) ∧
    Completes .confSet (holding (cell [⟨12, ⟨8, 33⟩, 193⟩, ⟨4, ⟨5, 12⟩, 64⟩]) member) (fun t =>
      (t.call? 5).map (fun k => (k.confRole, k.farTag, k.farSlot, k.listenLanes)) =
        some (.none, ⟨8, 33⟩, some 193, [1]) ∧
      (t.listen? 1).map (fun l => (l.talker, l.slot)) = some (12, 193) ∧ t.listen? 0 = none ∧
      (t.talk? 0).map (·.request) = some (.next 1 5)) :=
  ⟨by decide +kernel, ⟨_, rfl, by decide +kernel⟩, ⟨_, rfl, by decide +kernel⟩⟩

/-- The section above is checked. -/
inductive CallSection where
  | checked

/-- What the places of the frame bring, each in a state that has something for it. -/
theorem witness_IdleStepGoesThroughTheFrame_places :
    let cell := forFive (.callClear .busy)
    Brings (placed 5 .frameStart 0 live) [.sendWindow] ∧ Brings (placed 5 .sendSets 6 oneCall) [.setFrameSent 6] ∧
    Brings (placed 5 .missing 6 oneCall) [.setFrameNotReceived 6] ∧
    Brings (placed 5 .mixer 0 live) [] ∧ Brings (placed 5 .judge 0 live) [.slotJudgment] ∧
    Brings (placed 0 .judge 0 { live with highway := { live.highway with
      presence := upd live.highway.presence 9 { state := .present, missed := 3 } } }) [.missedCensusLimit 9, .census] ∧
    Brings (placed 63 .talkBoundary 0 oneCall) [.talkLaneBoundary 0] ∧
    Brings (placed 62 .talkBoundary 0 oneCall) [] ∧
    Brings (placed 63 .listenBoundary 0 oneCall) [.listenLaneBoundary 0] ∧
    Brings (placed 5 .refuse 0 (refused 0x20 ⟨5, 12⟩ live)) [.refuse] ∧
    Brings (placed 63 .training 6 (user 2 (fun u => { u with bad := 7 }) live)) [.badCountLimit 6] ∧
    Brings (placed 63 .renewals 0 (withLogin 6 (.admitted 3107 2 43 .pending) none live)) [.renewalOffer] ∧
    Brings (placed 5 .take 1 (holding cell oneCall)) [.callClear] ∧ Brings (placed 5 .take 0 (holding cell oneCall)) [] ∧
    Brings (placed 5 .offers 6 (seated lifting live)) [.offHook 6] ∧
    Brings (placed 5 .refusalList 0 oneRefusal) [.refusalListOffer] ∧
    Brings (placed 5 .notice 0 (noticeWaits 0)) [.noticeOffer] ∧
    Brings (placed 5 .choice 0 live) [.transmitChoice] ∧ Brings (placed 63 .choice 0 live) [] :=
  ⟨⟨_, rfl, by decide +kernel⟩, ⟨_, rfl, by decide +kernel⟩, ⟨_, rfl, by decide +kernel⟩, ⟨_, rfl, by decide +kernel⟩,
    ⟨_, rfl, by decide +kernel⟩, ⟨_, rfl, by decide +kernel⟩, ⟨_, rfl, by decide +kernel⟩, ⟨_, rfl, by decide +kernel⟩,
    ⟨_, rfl, by decide +kernel⟩, ⟨_, rfl, by decide +kernel⟩, ⟨_, rfl, by decide +kernel⟩, ⟨_, rfl, by decide +kernel⟩,
    ⟨_, rfl, by decide +kernel⟩, ⟨_, rfl, by decide +kernel⟩, ⟨_, rfl, by decide +kernel⟩, ⟨_, rfl, by decide +kernel⟩,
    ⟨_, rfl, by decide +kernel⟩, ⟨_, rfl, by decide +kernel⟩, ⟨_, rfl, by decide +kernel⟩⟩

/-! ### Maintenance (spec 11; station 1 is the maintenance station) -/

/-- A request of a station under sender tag 02h/07h. -/
def requestFrom (st : Station) (code : Byte) (arg : List Byte) : Cell :=
  { peerCell st (.maintReq code (padTo 8 arg)) with sender := ⟨2, 7⟩ }

/-- The reply, or the refusal, to such a request. -/
def answers (t : State) (st : Station) (b : Body) : Bool :=
  decide (t.highway.queue.map (·.cell) = [cellFrom live st Tag.absent ⟨2, 7⟩ b])

def reply (code : Byte) (st : ReplyStatus) (data : List Byte) : Body := .maintReply code st (padTo 28 data)

/-- What stands above is checked. -/
inductive PlaceSection where
  | checked

theorem witness_RequestsAreJudgedByCodeAndPrivilege :
    ((holding (requestFrom 1 0x7F []) live).nextCell .maintC = some (stored (requestFrom 1 0x7F [])) ∧
      Request.ofCode 0x7F = none ∧ (Request.ofCode 0x0B).isSome = true ∧ Request.ofCode 0x88 = none) ∧
    Completes .maintReq (holding (requestFrom 1 0x7F []) live) (fun t =>
      answers t 1 (.refuse 0x40 ⟨2, 7⟩ .badCode) = true) ∧
    Completes .maintReq (holding (requestFrom 2 0x0B []) live) (fun t =>
      answers t 2 (.refuse 0x40 ⟨2, 7⟩ .notAllowed) = true) ∧
    Completes .maintReq (holding { requestFrom 1 0x0B [] with dest := .all } live) (fun t =>
      t.highway.queue = [] ∧ t.highway.store = [] ∧ t.maint = {}) ∧
    Completes .maintReply (holding (peerCell 2 (.maintReply 1 .ok [])) live) (fun t => t.highway.store = []) ∧
    Completes .notice (holding (peerCell 2 (.notice .badKind .minor true)) live) (fun t => t.highway.store = []) :=
  ⟨by decide +kernel, ⟨_, rfl, by decide +kernel⟩, ⟨_, rfl, by decide +kernel⟩, ⟨_, rfl, by decide +kernel⟩,
    ⟨_, rfl, by decide +kernel⟩, ⟨_, rfl, by decide +kernel⟩⟩

/-- A request of any code does what the command of its own code does (R179): READ-PORT 6 and PORT-ENABLE 6. -/
theorem witness_RequestsAreJudgedByCodeAndPrivilege_goodCode :
    let ask (code : Byte) : State := holding (requestFrom 1 code [6]) live
    ((ask 0x80).station.image.bind (·.maintenance) = some 1 ∧ Request.ofCode 0x80 = some .readPort ∧
      Request.ofCode 1 = some .portEnable ∧ Request.readPort.command = .readPort) ∧
    Completes .maintReq (ask 0x80) (fun t => exec Request.readPort.command (ask 0x80) = .next t ∧
      t.highway.queue.length = 1) ∧
    Completes .maintReq (ask 1) (fun t => exec Request.portEnable.command (ask 1) = .next t ∧
      (t.port 6).enable = true) :=
  ⟨by decide +kernel, ⟨_, rfl, rfl, by decide +kernel⟩, ⟨_, rfl, rfl, by decide +kernel⟩⟩

/-- Expected bytes from the reply table of spec 12; the numbering of states is that of log 14. -/
theorem witness_InquiriesAnswerAndChangeNothing :
    let ask (code : Byte) (arg : List Byte) := holding (requestFrom 2 code arg) oneCall
    ((ask 0x80 [6]).nextCell .maintC = some (stored (requestFrom 2 0x80 [6])) ∧
      Request.readPort.isControl = false ∧ Request.readPort.code = 0x80) ∧
    Completes .readPort (ask 0x80 [24]) (fun t => answers t 2 (reply 0x80 .badArg []) = true) ∧
    Completes .readPort (ask 0x80 [6]) (fun t =>
      answers t 2 (reply 0x80 .ok ([3, 0, 0, 0] ++ List.replicate 16 0 ++ [0, 0, 0, 1, 0, 0, 0, 0])) = true) ∧
    Completes .readLogin (ask 0x81 [7]) (fun t => answers t 2 (reply 0x81 .absent [0]) = true) ∧
    Completes .readLogin (ask 0x81 [6]) (fun t => answers t 2
      (reply 0x81 .ok [2, 0, 0x0F, 0xB5, 0xFF, 2, 0, 43, 0, 0xFF, 0xFF]) = true) ∧
    Completes .readHome (ask 0x82 [0x0F, 0xB5]) (fun t => answers t 2
      (reply 0x82 .ok [0xFF, 0xFF, 2, 0, 0, 7]) = true) ∧
    Completes .readCall (ask 0x83 [63]) (fun t => answers t 2 (reply 0x83 .absent [0]) = true) ∧
    Completes .readCall (ask 0x83 [5]) (fun t => answers t 2 (reply 0x83 .ok
      [6, 12, 6, 0x0F, 0xB5, 0, 0, 9, 0x0C, 0x23, 2, 0x1F, 0, 0, 0xFF, 0xFF, 0xFF, 0xFF, 0, 0, 0, 0]) = true) ∧
    Completes .readLane (ask 0x84 [0, 0]) (fun t => answers t 2 (reply 0x84 .ok
      [2, 5, 5, 12, 64, 0, 0, 0, 0, 0, 0, 1, 0, 0xFF]) = true) ∧
    Completes .readLane (ask 0x84 [1, 48]) (fun t => answers t 2 (reply 0x84 .badArg []) = true) ∧
    Completes .readCounts (ask 0x85 [255]) (fun t => answers t 2 (reply 0x85 .ok []) = true) ∧
    Completes .readFault (ask 0x86 []) (fun t => answers t 2
      (reply 0x86 .ok (List.replicate 12 0xFF ++ [0])) = true) ∧
    Completes .readPlan (ask 0x87 [0, 4]) (fun t => answers t 2
      (reply 0x87 .ok [1, 0x0F, 0xA0, 0, 100]) = true) ∧
    Completes .readPlan (ask 0x87 [0, 5]) (fun t => answers t 2 (reply 0x87 .absent []) = true) :=
  ⟨by decide +kernel, ⟨_, rfl, by decide +kernel⟩, ⟨_, rfl, by decide +kernel⟩, ⟨_, rfl, by decide +kernel⟩,
    ⟨_, rfl, by decide +kernel⟩, ⟨_, rfl, by decide +kernel⟩, ⟨_, rfl, by decide +kernel⟩, ⟨_, rfl, by decide +kernel⟩,
    ⟨_, rfl, by decide +kernel⟩, ⟨_, rfl, by decide +kernel⟩, ⟨_, rfl, by decide +kernel⟩, ⟨_, rfl, by decide +kernel⟩,
    ⟨_, rfl, by decide +kernel⟩, ⟨_, rfl, by decide +kernel⟩⟩

/-- READ-LANE of a listen lane, READ-COUNTS of one, READ-PLAN of a divert entry, an ABSENT home entry and a third kind,
and READ-HOME of a number homed elsewhere and of one above 9999. -/
theorem witness_InquiriesAnswerAndChangeNothing_rows :
    let s : State := outside { oneCall.setListen 0 { listenZero with counters := ⟨5, 1, 0, 0⟩, frozen := true } with
      calls := { oneCall.calls with plan := upd oneCall.calls.plan 2 (.absent ⟨3000, 200⟩) } }
    let ask (code : Byte) (arg : List Byte) := holding (requestFrom 2 code arg) s
    ((ask 0x85 [0]).listen? 0 = some { listenZero with counters := ⟨5, 1, 0, 0⟩, frozen := true } ∧
      s.homedHere 3107 = false ∧ s.listen? 47 = none) ∧
    Completes .readLane (ask 0x84 [1, 47]) (fun t => answers t 2 (reply 0x84 .absent []) = true) ∧
    Completes .readLane (ask 0x84 [2, 0]) (fun t => answers t 2 (reply 0x84 .badArg []) = true) ∧
    Completes .readCounts (ask 0x85 [0]) (fun t =>
      answers t 2 (reply 0x85 .ok [0, 0, 0, 5, 0, 1, 0, 0, 0, 0, 1]) = true) ∧
    Completes .readCounts (ask 0x85 [47]) (fun t => answers t 2 (reply 0x85 .absent []) = true) ∧
    Completes .readCounts (ask 0x85 [48]) (fun t => answers t 2 (reply 0x85 .badArg []) = true) ∧
    Completes .readPlan (ask 0x87 [1, 0]) (fun t =>
      answers t 2 (reply 0x87 .ok [0x03, 0x84, 0x03, 0x8D, 7, 1, 1]) = true) ∧
    Completes .readPlan (ask 0x87 [1, 8]) (fun t => answers t 2 (reply 0x87 .badArg []) = true) ∧
    Completes .readPlan (ask 0x87 [0, 2]) (fun t =>
      answers t 2 (reply 0x87 .ok [2, 0x0B, 0xB8, 0, 200]) = true) ∧
    Completes .readPlan (ask 0x87 [2, 0]) (fun t => answers t 2 (reply 0x87 .badArg []) = true) ∧
    Completes .readHome (ask 0x82 [0x0C, 0x23]) (fun t => answers t 2 (reply 0x82 .absent []) = true) ∧
    Completes .readHome (ask 0x82 [0x27, 0x10]) (fun t => answers t 2 (reply 0x82 .badArg []) = true) ∧
    Completes .readCall (ask 0x83 [64]) (fun t => answers t 2 (reply 0x83 .badArg []) = true) ∧
    Completes .readLogin (ask 0x81 [24]) (fun t => answers t 2 (reply 0x81 .badArg []) = true) :=
  ⟨by decide +kernel, ⟨_, rfl, by decide +kernel⟩, ⟨_, rfl, by decide +kernel⟩, ⟨_, rfl, by decide +kernel⟩,
    ⟨_, rfl, by decide +kernel⟩, ⟨_, rfl, by decide +kernel⟩, ⟨_, rfl, by decide +kernel⟩, ⟨_, rfl, by decide +kernel⟩,
    ⟨_, rfl, by decide +kernel⟩, ⟨_, rfl, by decide +kernel⟩, ⟨_, rfl, by decide +kernel⟩, ⟨_, rfl, by decide +kernel⟩,
    ⟨_, rfl, by decide +kernel⟩, ⟨_, rfl, by decide +kernel⟩⟩

/-- What stands above is checked. -/
inductive InquirySection where
  | checked

theorem witness_CounterRequestsActOnListenLanes :
    let counted : State := oneCall.setListen 0 { listenZero with counters := ⟨5, 1, 0, 0⟩ }
    let ask (code a : Byte) := holding (requestFrom 1 code [a]) counted
    ((ask 0x07 0).listen? 0 = some { listenZero with counters := ⟨5, 1, 0, 0⟩ } ∧ (ask 0x07 0).listen? 47 = none) ∧
    Completes .freezeCounts (ask 0x07 0) (fun t => (t.listen? 0).map (·.frozen) = some true ∧
      answers t 1 (reply 0x07 .ok [0, 0, 0, 5, 0, 1, 0, 0, 0, 0, 1]) = true) ∧
    Completes .thawCounts (ask 0x08 255) (fun t => (t.listen? 0).map (·.frozen) = some false ∧
      answers t 1 (reply 0x08 .ok [1]) = true) ∧
    Completes .clearCounts (ask 0x09 0) (fun t => (t.listen? 0).map (·.counters) = some {}) ∧
    Completes .clearCounts (ask 0x09 47) (fun t => answers t 1 (reply 0x09 .absent []) = true) ∧
    Completes .clearCounts (ask 0x09 48) (fun t => answers t 1 (reply 0x09 .badArg []) = true) ∧
    Completes .clearCounts (ask 0x09 254) (fun t => answers t 1 (reply 0x09 .badArg []) = true) :=
  ⟨by decide +kernel, ⟨_, rfl, by decide +kernel⟩, ⟨_, rfl, by decide +kernel⟩, ⟨_, rfl, by decide +kernel⟩,
    ⟨_, rfl, by decide +kernel⟩, ⟨_, rfl, by decide +kernel⟩, ⟨_, rfl, by decide +kernel⟩⟩

theorem witness_PortRequestsEnableAndDisable :
    let enable (a : Byte) (s : State) := holding (requestFrom 1 0x01 [a]) s
    let disable (a : Byte) (s : State) := holding (requestFrom 1 0x02 [a]) s
    let off : State := live.modPort 23 fun u => { u with state := .disabled }
    ((off.port 23).state = .disabled ∧ ((user 2 id live).port 6).state = .up ∧ (live.port 0).state = .down) ∧
    Completes .portEnable (enable 23 off) (fun t => (t.port 23).state = .down ∧
      answers t 1 (reply 0x01 .ok [1, 1]) = true) ∧
    Completes .portEnable (enable 24 live) (fun t => answers t 1 (reply 0x01 .badArg []) = true) ∧
    Completes .portDisable (disable 6 (user 2 (fun u => { u with digits := [1] }) live)) (fun t =>
      (t.port 6).state = .disabled ∧ (t.port 6).digits = [] ∧ (t.login 6).entry = none ∧
      (t.callPort 6).hookView = .on) ∧
    Completes .portDisable (disable 0 live) (fun t => answers t 1 (reply 0x02 .ok [0, 0]) = true) :=
  ⟨by decide +kernel, ⟨_, rfl, by decide +kernel⟩, ⟨_, rfl, by decide +kernel⟩, ⟨_, rfl, by decide +kernel⟩,
    ⟨_, rfl, by decide +kernel⟩⟩

/-- R146: what PORT-DISABLE empties at a port in UP, in TRAINING and in DOWN with its LINE-LOSS latch set. -/
theorem witness_PortRequestsEnableAndDisable_emptied :
    let laden (st : PortState) : State := (user 2 (fun u => { u with
      lineLoss := st == .down, admission := some .logout, hook := some .off, keys := [.holdKey], digits := [3]
      outbound := [.loginResult .ok], tone := .dial, ring := true }) live).modPort 6 fun u => { u with state := st }
    let off (st : PortState) : State := holding (requestFrom 1 0x02 [6]) (laden st)
    let empty (t : State) : Prop := (t.port 6).state = .disabled ∧ (t.port 6).latched = [] ∧ (t.port 6).keys = [] ∧
      (t.port 6).outbound = []
    Completes .portDisable (off .up) (fun t => empty t ∧ (t.port 6).tone = .none ∧ (t.port 6).ring = false) ∧
    Completes .portDisable (off .training) empty ∧
    Completes .portDisable (off .down) empty ∧
    Completes .portEnable (holding (requestFrom 1 0x01 [6]) (laden .training)) (fun t =>
      answers t 1 (reply 0x01 .ok [2, 1]) = true) :=
  ⟨⟨_, rfl, by decide +kernel⟩, ⟨_, rfl, by decide +kernel⟩, ⟨_, rfl, by decide +kernel⟩, ⟨_, rfl, by decide +kernel⟩⟩

/-- What stands above is checked. -/
inductive EmptiedSection where
  | checked

/-- Number 4021 is 0FB5h; 4100 is not homed here; 10000 is 2710h. -/
theorem witness_HomeRequestsChangeTheRecord :
    let ask (code : Byte) (arg : List Byte) (s : State) := holding (requestFrom 1 code arg) s
    let located : State := withHome 4021 (fun h => { h with location := some (9, 11) }) live
    let barred : State := withHome 4021 (fun h => { h with barred := true }) live
    (live.homedHere 4021 = true ∧ (live.homeRecord 4021).isSome = true ∧ live.homedHere 4100 = false) ∧
    Completes .setRights (ask 0x03 [0x0F, 0xB5, 3] located) (fun t =>
      t.homeRecord 4021 = some { location := some (9, 11), rights := 3, barred := false, epoch := 8 }) ∧
    Completes .bar (ask 0x04 [0x0F, 0xB5] located) (fun t =>
      t.homeRecord 4021 = some { location := none, rights := 2, barred := true, epoch := 8 } ∧
      bodies t = [.admitChange 4021 .barred (some (9, 11)) 2 8,
        reply 0x04 .ok [0xFF, 0xFF, 2, 1, 0, 8]]) ∧
    Completes .bar (ask 0x04 [0x0F, 0xB5] barred) (fun t => t.adm = barred.adm) ∧
    Completes .unbar (ask 0x05 [0x0F, 0xB5] barred) (fun t =>
      t.homeRecord 4021 = some { location := none, rights := 2, barred := false, epoch := 8 } ∧
      bodies t = [reply 0x05 .ok [0xFF, 0xFF, 2, 0, 0, 8]]) ∧
    Completes .forceLogout (ask 0x06 [0x0F, 0xB5] located) (fun t =>
      t.homeRecord 4021 = some { location := none, rights := 2, barred := false, epoch := 8 }) ∧
    Completes .forceLogout (ask 0x06 [0x0F, 0xB5] live) (fun t => t.adm = live.adm) ∧
    Completes .unbar (ask 0x05 [0x10, 0x04] live) (fun t => bodies t = [reply 0x05 .absent []]) ∧
    Completes .unbar (ask 0x05 [0x27, 0x10] live) (fun t => bodies t = [reply 0x05 .badArg []]) :=
  ⟨by decide +kernel, ⟨_, rfl, by decide +kernel⟩, ⟨_, rfl, by decide +kernel⟩, ⟨_, rfl, by decide +kernel⟩,
    ⟨_, rfl, by decide +kernel⟩, ⟨_, rfl, by decide +kernel⟩, ⟨_, rfl, by decide +kernel⟩, ⟨_, rfl, by decide +kernel⟩,
    ⟨_, rfl, by decide +kernel⟩⟩

/-- R17, R18, R181: the broadcasts and replies, a login here refreshed, BAR of an unlocated record, class 4. -/
theorem witness_HomeRequestsChangeTheRecord_announced :
    let ask (code : Byte) (arg : List Byte) (s : State) := holding (requestFrom 1 code arg) s
    let located (loc : Station × Port) : State := withHome 4021 (fun h => { h with location := some loc }) (user 2 id live)
    Completes .setRights (ask 0x03 [0x0F, 0xB5, 3] (located (9, 11))) (fun t =>
      bodies t = [.admitChange 4021 .rights (some (9, 11)) 3 8, reply 0x03 .ok [9, 11, 3, 0, 0, 8]] ∧
      t.adm.logins = (located (9, 11)).adm.logins) ∧
    Completes .setRights (ask 0x03 [0x0F, 0xB5, 3] (located (4, 6))) (fun t =>
      t.loginBody 6 = some (.admitted 4021 3 8 .none) ∧ (bodies t).head? =
        some (.admitChange 4021 .rights (some (4, 6)) 3 8)) ∧
    Completes .bar (ask 0x04 [0x0F, 0xB5] (withHome 4021 id live)) (fun t =>
      t.homeRecord 4021 = some { location := none, rights := 2, barred := true, epoch := 7 } ∧
      bodies t = [reply 0x04 .ok [0xFF, 0xFF, 2, 1, 0, 7]]) ∧
    Completes .forceLogout (ask 0x06 [0x0F, 0xB5] (located (4, 6))) (fun t => t.loginBody 6 = none ∧
      bodies t = [.admitChange 4021 .forced (some (4, 6)) 2 8, reply 0x06 .ok [0xFF, 0xFF, 2, 0, 0, 8]]) ∧
    Completes .setRights (ask 0x03 [0x0F, 0xB5, 4] live) (fun t => bodies t = [reply 0x03 .badArg []] ∧
      t.adm = live.adm) :=
  ⟨⟨_, rfl, by decide +kernel⟩, ⟨_, rfl, by decide +kernel⟩, ⟨_, rfl, by decide +kernel⟩, ⟨_, rfl, by decide +kernel⟩,
    ⟨_, rfl, by decide +kernel⟩⟩

/-- What stands above is checked. -/
inductive AnnouncedSection where
  | checked

/-- A captured STRAY-CELL with its header, in frame 17, window 9. -/
def faulty : State := (atFrame 17 live).recordFault .strayCell 9 (some [0x22, 9, 4, 0, 2, 31, 5, 13])

theorem witness_FaultClearAndRestart :
    (faulty.highway.fault.content.isSome = true ∧ faulty.maint.pending = true) ∧
    Completes .readFaultClear (holding (requestFrom 1 0x0A []) faulty) (fun t => t.highway.fault = {} ∧
      t.maint.pending = false ∧ t.highway.counters.get 7 = 1 ∧
      answers t 1 (reply 0x0A .ok [8, 1, 17, 9, 0x22, 9, 4, 0, 2, 31, 5, 13, 1]) = true) ∧
    Completes .readFaultClear (holding (requestFrom 1 0x0A []) (withQueue 20 faulty)) (fun t =>
      t.highway.fault.content.map (·.kind) = some .queueFull) ∧
    Completes .restart (holding (requestFrom 1 0x0B []) live) (fun t => t.maint.restartDue = true ∧
      answers t 1 (reply 0x0B .ok []) = true) ∧
    Completes .restart (holding (requestFrom 1 0x0B []) (withQueue 20 live)) (fun t => t.maint.restartDue = false) :=
  ⟨by decide +kernel, ⟨_, rfl, by decide +kernel⟩, ⟨_, rfl, by decide +kernel⟩, ⟨_, rfl, by decide +kernel⟩,
    ⟨_, rfl, by decide +kernel⟩⟩

/-- What stands above is checked. -/
inductive RequestSection where
  | checked

/-! ### Line ports (spec 09) -/

theorem witness_SetMessagesAndDigitsAreLatched :
    let full : State := withPort 6 (fun u => { u with digits := List.replicate 16 4 }) live
    let locked : State := (withPort 6 id live).modLogin 6 fun l => { l with lockedOut := true }
    (((withPort 6 id live).port 6).state = .up ∧ (live.port 6).state ≠ .up ∧ (full.port 6).digits.length = 16) ∧
    Completes (.hookMessageArrival 6 true) (withPort 6 id live) (fun t => (t.port 6).hook = some .off) ∧
    Completes (.hookMessageArrival 6 false) (withPort 6 lifting live) (fun t => (t.port 6).hook = none) ∧
    Completes (.hookMessageArrival 6 true) live (fun t => (t.port 6).hook = none) ∧
    Completes (.admissionMessageArrival 6 (.loginReq 9999)) (withPort 6 id live) (fun t =>
      (t.port 6).admission = some (.loginReq 9999)) ∧
    Completes (.admissionMessageArrival 6 (.loginReq 10000)) (withPort 6 id live) (fun t =>
      (t.port 6).admission = none) ∧
    Completes (.admissionMessageArrival 6 (.loginReq 3107)) locked (fun t =>
      (t.port 6).outbound = [.loginResult .locked] ∧ (t.port 6).admission = some (.loginReq 3107)) ∧
    Completes (.featureKeyArrival 6 .swapKey) (withPort 6 (fun u => { u with keys := [.swapKey, .holdKey] }) live)
      (fun t => (t.port 6).keys = [.swapKey, .holdKey]) ∧
    Completes (.featureKeyArrival 6 .swapKey) (withPort 6 (pressed .holdKey) live)
      (fun t => (t.port 6).keys = [.holdKey, .swapKey]) ∧
    Completes (.digitArrival 6 5) (withPort 6 (fun u => { u with digits := List.replicate 15 4 }) live) (fun t =>
      (t.port 6).digits = List.replicate 15 4 ++ [5]) ∧
    Completes (.digitArrival 6 5) full (fun t => (t.port 6).digits = List.replicate 16 4 ∧
      t.highway.counters.get 11 = 1) :=
  ⟨by decide +kernel, ⟨_, rfl, by decide +kernel⟩, ⟨_, rfl, by decide +kernel⟩, ⟨_, rfl, by decide +kernel⟩,
    ⟨_, rfl, by decide +kernel⟩, ⟨_, rfl, by decide +kernel⟩, ⟨_, rfl, by decide +kernel⟩, ⟨_, rfl, by decide +kernel⟩,
    ⟨_, rfl, by decide +kernel⟩, ⟨_, rfl, by decide +kernel⟩, ⟨_, rfl, by decide +kernel⟩⟩

/-- R149: a digit at a port in DOWN. -/
theorem witness_SetMessagesAndDigitsAreLatched_down : Completes (.digitArrival 6 5) live (fun t => t = live) :=
  ⟨_, rfl, by decide +kernel⟩

/-- A set frame of a sample and an octet with its check. -/
def frameOf (sample octet : Byte) : Instr := .setFrameReceived 6 sample octet (check8 [sample, octet])

theorem witness_SetFramesAreHeardAndRead :
    let opened (octets : List Byte) := withPort 6 (fun u => { u with openMessage := some ⟨0x40, octets⟩ }) live
    let down (loss : Bool) := live.modPort 6 fun u => { u with lineLoss := loss }
    (live.hearing = true ∧ check8 [0x55, 0x30] ≠ check8 [0x55, 0x30] ^^^ 1 ∧ (live.port 6).state = .down) ∧
    Completes (frameOf 0x55 0) (down false) (fun t => (t.port 6).state = .training ∧ (t.port 6).setFrames = 1) ∧
    Completes (frameOf 0x55 0) (down true) (fun t => (t.port 6).state = .down ∧ (t.port 6).setFrames = 1) ∧
    Completes (.setFrameReceived 6 0x55 0x30 (check8 [0x55, 0x30] ^^^ 1)) (opened [1]) (fun t =>
      (t.port 6).talkSample = 0 ∧ (t.port 6).openMessage = none ∧ (t.port 6).setFrames = 0) ∧
    Completes (.setFrameNotReceived 6) (opened [1]) (fun t => (t.port 6).openMessage = none) ∧
    Completes (frameOf 0x55 0x40) (withPort 6 id live) (fun t => (t.port 6).openMessage = some ⟨0x40, []⟩ ∧
      (t.port 6).talkSample = 0x55) ∧
    Completes (frameOf 0x55 0x0C) (opened []) (fun t => (t.port 6).openMessage = some ⟨0x40, [0x0C]⟩) ∧
    Completes (frameOf 0x55 0x23) (opened [0x0C]) (fun t => (t.port 6).openMessage = none ∧
      (t.port 6).admission = some (.loginReq 3107) ∧ (t.port 6).keys = []) ∧
    Completes (frameOf 0x55 0x10) (opened [0x27]) (fun t => (t.port 6).admission = none) ∧
    Completes (frameOf 0x55 0x31) (withPort 6 (fun u => { u with reportedHook := .off }) live) (fun t =>
      (t.port 6).hook = some .on) ∧
    Completes (frameOf 0x55 0x31) (live.modPort 6 fun u => { u with state := .disabled }) (fun t =>
      (t.port 6).setFrames = 0) :=
  ⟨by decide +kernel, ⟨_, rfl, by decide +kernel⟩, ⟨_, rfl, by decide +kernel⟩, ⟨_, rfl, by decide +kernel⟩,
    ⟨_, rfl, by decide +kernel⟩, ⟨_, rfl, by decide +kernel⟩, ⟨_, rfl, by decide +kernel⟩, ⟨_, rfl, by decide +kernel⟩,
    ⟨_, rfl, by decide +kernel⟩, ⟨_, rfl, by decide +kernel⟩, ⟨_, rfl, by decide +kernel⟩⟩

/-- R144: a set frame in TRAINING. -/
theorem witness_SetFramesAreHeardAndRead_training :
    let training : State := live.modPort 6 fun u => { u with state := .training, good := 2, setFrames := 62 }
    Completes (frameOf 0x55 0x40) training (fun t =>
      t.port 6 = { training.port 6 with setFrames := 63, heard := true }) :=
  ⟨_, rfl, by decide +kernel⟩

/-- Tone BUSY is code 3, ring bit 3, LOGIN-RESULT LOCKED 51h 06h (spec 12, set frames). -/
theorem witness_SetFrameIsSent :
    let up : State := withPort 6 (fun u => { u with
      listenSample := 0x21, tone := .busy, ring := true, outbound := [.loginResult .locked, .loginResult .ok] }) live
    Completes (.setFrameSent 6) up (fun t => (t.port 6).frameOut.map (·.take 5) = some [0x21, 0x0B, 0x51, 6, 0] ∧
      (t.port 6).outbound = [.loginResult .ok]) ∧
    Completes (.setFrameSent 6) live (fun t => ((t.port 6).frameOut.map (·.take 11)) = some (List.replicate 11 0)) ∧
    Completes (.setFrameSent 6) (live.modPort 6 fun u => { u with state := .disabled }) (fun t =>
      (t.port 6).frameOut = none) :=
  ⟨⟨_, rfl, by decide +kernel⟩, ⟨_, rfl, by decide +kernel⟩, ⟨_, rfl, by decide +kernel⟩⟩

/-- A port at a superframe boundary. -/
def atBoundary (st : PortState) (good bad frames : Nat) : State := atFrame 63 ((user 2 (fun u => { u with
    good := good, bad := bad, setFrames := frames, digits := [3] }) live).modPort 6 fun u => { u with state := st })

theorem witness_TrainingIsJudgedAtTheBoundary :
    (AtBoundary (atBoundary .up 0 0 63) ∧ (atBoundary .up 0 0 63).hearing = true ∧
      ((atBoundary .training 3 0 65).port 6).good = 3) ∧
    Completes (.portTrainingJudgment 6) (atBoundary .training 2 0 63) (fun t => (t.port 6).good = 3) ∧
    Completes (.portTrainingJudgment 6) (atBoundary .training 2 0 62) (fun t => (t.port 6).good = 0) ∧
    Completes (.portTrainingJudgment 6) (atBoundary .training 2 0 0) (fun t => (t.port 6).state = .down) ∧
    Completes (.portTrainingJudgment 6) (atBoundary .up 4 7 65) (fun t => (t.port 6).bad = 0) ∧
    Completes (.portTrainingJudgment 6) (atBoundary .up 4 6 66) (fun t => (t.port 6).bad = 7) ∧
    Completes (.goodCountLimit 6) (atBoundary .training 3 0 64) (fun t => (t.port 6).state = .up ∧
      (t.port 6).digits = []) ∧
    Completes (.badCountLimit 6) (atBoundary .up 4 7 62) (fun t => (t.port 6).state = .down ∧
      (t.port 6).lineLoss = true ∧ (t.login 6).entry = none ∧ (t.callPort 6).hookView = .on) :=
  ⟨by unfold AtBoundary; decide +kernel, ⟨_, rfl, by decide +kernel⟩, ⟨_, rfl, by decide +kernel⟩,
    ⟨_, rfl, by decide +kernel⟩, ⟨_, rfl, by decide +kernel⟩, ⟨_, rfl, by decide +kernel⟩, ⟨_, rfl, by decide +kernel⟩,
    ⟨_, rfl, by decide +kernel⟩⟩

theorem witness_PortOffersHighestEventAboveItsLevel :
    let full (s : State) : State := withPort 6 (fun u => { u with
      lineLoss := true, admission := some .logout, hook := some .off, keys := [.holdKey], digits := [1] }) s
    let noLoss (s : State) : State := withPort 6 (fun u => { u with
      admission := some .logout, hook := some .off, keys := [.holdKey], digits := [1] }) s
    ((full live).dueEvent 6 = some .lineLoss ∧ (full (inState .listening live)).dueEvent 6 = none ∧
      (full (live.modLogin 6 fun l => { l with lockedOut := true })).dueEvent 6 = some .lineLoss ∧
      (noLoss (live.modLogin 6 fun l => { l with lockedOut := true })).dueEvent 6 = none ∧
      (noLoss (challenged .none 1 live)).dueEvent 6 = some (.admission .logout) ∧
      (noLoss live).level 6 = 1) ∧
    Completes (.lineLoss 6) (full live) (fun t => (t.port 6).lineLossCount = 1 ∧ (t.port 6).lineLoss = false) :=
  ⟨by decide +kernel, _, rfl, by decide +kernel⟩

/-- R151's last two rows: levels 2 and 1 by the state of the front record. -/
theorem witness_PortOffersHighestEventAboveItsLevel_front :
    let front (st : CallState) (lane : TalkState) : State := (oneCall.modCall 5 fun k => { k with state := st }).setTalk 0
      { talkZero with state := lane }
    ((front .routing .claiming).front 6 = some 5 ∧ (∀ b, (front .routing .claiming).loginBody 6 = some b →
      b.isAdmitted = true)) ∧
    (front .routing .claiming).level 6 = 2 ∧ (front .offering .active).level 6 = 2 ∧
    (front .alerting .claiming).level 6 = 2 ∧ (front .dialing .claiming).level 6 = 1 ∧
    (front .connected .active).level 6 = 1 ∧
    ((front .alerting .claiming).modCall 5 fun k => { k with talkLane := none }).level 6 = 1 :=
  ⟨⟨by decide +kernel, fun b h => by cases Option.some.inj h; rfl⟩, by decide +kernel⟩

/-- The section above is checked. -/
inductive PortSection where
  | checked

/-! ### Talk lanes and the key mixer (spec 07) -/

/-- Lane 0 of record 5 with a change, at a superframe boundary. -/
def laneZero (f : TalkLane → TalkLane) : State := atFrame 63 (oneCall.setTalk 0 (f talkZero))

def stagedNext : TalkStaged := { key := 99, count := 3, partner := 9, isFirst := false, countdown := some 0 }

theorem witness_TalkLanesPassTheBoundary :
    (AtBoundary (laneZero id) ∧ (laneZero id).talk? 0 = some talkZero) ∧
    Completes (.talkLaneBoundary 0) (laneZero fun t => { t with position := 65535, age := 65535 }) (fun t =>
      (t.talk? 0).map (fun l => (l.position, l.age)) = some (0, 65535)) ∧
    Completes (.talkLaneBoundary 0) (laneZero fun t => { t with activeKey := none, age := 3 }) (fun t =>
      (t.talk? 0).map (fun l => (l.position, l.age)) = some (0, 3)) ∧
    Completes (.talkKeySwap 0) (laneZero fun t => { t with staged := some stagedNext, age := 8000 }) (fun t =>
      (t.talk? 0).map (fun l => (l.activeKey, l.keyCount, l.age)) = some (some 99, 3, 0)) ∧
    Completes (.talkKeySwap 0) (laneZero fun t => { t with staged := some stagedNext, wanted := .set (some 12) })
      (fun t => (t.talk? 0).map (·.request) = some (.next 4 12) ∧ t.scr.mixer.map (·.count) = [4]) ∧
    Completes (.firstKeyInstall 0) (laneZero fun t => { t with
        activeKey := none, staged := some { stagedNext with isFirst := true, countdown := some (-2) } }) (fun t =>
      (t.talk? 0).map (fun l => (l.activeKey, l.position)) = some (some 99, 2)) ∧
    Completes (.talkKeySwap 0) (laneZero fun t => { t with staged := some { stagedNext with countdown := none } })
      (fun t => (t.talk? 0).map (·.activeKey) = some (some 77)) :=
  ⟨⟨rfl, by decide +kernel⟩, ⟨_, rfl, by decide +kernel⟩, ⟨_, rfl, by decide +kernel⟩, ⟨_, rfl, by decide +kernel⟩,
    ⟨_, rfl, by decide +kernel⟩, ⟨_, rfl, by decide +kernel⟩, ⟨_, rfl, by decide +kernel⟩⟩

/-- Rekey-wanted without a nonce: the rekey after the swap takes the partner nonce of the key just installed. -/
theorem witness_TalkLanesPassTheBoundary_wanted :
    let s := laneZero fun t => { t with staged := some { stagedNext with partner := 13 }, wanted := .set none }
    (s.talk? 0).map (·.wanted) = some (.set none) ∧
    Completes (.talkKeySwap 0) s fun t => (t.talk? 0).map (fun l => (l.activeKey, l.partner, l.request, l.wanted)) =
      some (some 99, some 13, .next 4 13, .clear) :=
  ⟨by decide +kernel, _, rfl, by decide +kernel⟩

theorem witness_LanesAskForKeysAndAnnounceThem_requests :
    let aged : State := laneZero fun t => { t with age := 7500, keyCount := 65534 }
    let keyless : State := laneZero fun t => { t with activeKey := none }
    ((aged.talk? 0).map (·.partner) = some (some 9) ∧ (mixing 15 false aged).scr.mixer.length = 15) ∧
    Completes (.keyAgeLimit 0) (mixing 15 false aged) (fun t => (t.talk? 0).map (·.request) = some (.next 0 9) ∧
      t.scr.mixer.length = 16) ∧
    Completes (.keyAgeLimit 0) (mixing 16 false aged) (fun t => (t.talk? 0).map (·.wanted) = some (.set none) ∧
      t.highway.counters.get FaultKind.mixerFull.index = 1) ∧
    Completes (.rekeyWantedRetry 0) (laneZero fun t => { t with wanted := .set (some 12) }) (fun t =>
      (t.talk? 0).map (·.request) = some (.next 1 12)) ∧
    Completes (.talkFirstKeyRetry 0) keyless (fun t => (t.talk? 0).map (·.request) = some .first ∧
      t.scr.mixer.map (fun q => (q.nonceA, q.nonceB, q.count)) = [(4, 9, 0)]) ∧
    Completes (.talkFirstKeyRetry 0) (mixing 16 false keyless) (fun t => (t.talk? 0).map (·.request) = some .none) :=
  ⟨by decide +kernel, ⟨_, rfl, by decide +kernel⟩, ⟨_, rfl, by decide +kernel⟩, ⟨_, rfl, by decide +kernel⟩,
    ⟨_, rfl, by decide +kernel⟩, ⟨_, rfl, by decide +kernel⟩⟩

/-- Spec 12: KEY-NEXT is kind 30h; slot 64, the talker's nonce 4, the partner nonce 9, count 3, lead 2. -/
theorem witness_LanesAskForKeysAndAnnounceThem_keyNext :
    let unsent (st : TalkState) : State := laneZero fun t => { t with
      state := st, staged := some { stagedNext with countdown := none } }
    let keyless : State := atFrame 63 (oneCall.setListen 0 { listenZero with state := .waitkey, active := none })
    ((keyless.listen? 0).map (·.firstAsked) = some false ∧ (withQueue 23 (unsent .active)).station.state = .active) ∧
    Completes (.keyNextReoffer 0) (withQueue 23 (unsent .active)) (fun t =>
      t.highway.queue.getLast?.map (·.cell.body) = some (.keyNext 64 4 9 3 2)) ∧
    Completes (.keyNextReoffer 0) (withQueue 24 (unsent .active)) (fun t =>
      ((t.talk? 0).bind (·.staged)).map (·.queued) = some false) ∧
    Completes (.keyNextReoffer 0) (unsent .moving) (fun t => t.highway.queue = []) ∧
    Completes (.listenFirstKeyRetry 0) keyless (fun t => (t.listen? 0).map (·.firstAsked) = some true ∧
      t.scr.mixer.map (fun q => (q.nonceA, q.nonceB, q.count)) = [(9, 4, 0)]) ∧
    Completes (.listenFirstKeyRetry 0) (mixing 16 false keyless) (fun t =>
      (t.listen? 0).map (·.firstAsked) = some false) :=
  ⟨by decide +kernel, ⟨_, rfl, by decide +kernel⟩, ⟨_, rfl, by decide +kernel⟩, ⟨_, rfl, by decide +kernel⟩,
    ⟨_, rfl, by decide +kernel⟩, ⟨_, rfl, by decide +kernel⟩⟩

/-- R118, R119: rekey-wanted without a nonce, a full mixer, and a KEY-NEXT refused in the present frame. -/
theorem witness_LanesAskForKeysAndAnnounceThem_wanted :
    let wanting (w : RekeyWanted) : State := laneZero fun t => { t with wanted := w }
    let refused : State := laneZero fun t => { t with staged := some { stagedNext with countdown := none, fresh := true } }
    Completes (.rekeyWantedRetry 0) (wanting (.set none)) (fun t =>
      (t.talk? 0).map (fun l => (l.request, l.wanted)) = some (.next 1 9, .clear)) ∧
    Completes (.rekeyWantedRetry 0) (mixing 16 false (wanting (.set (some 12)))) (fun t =>
      (t.talk? 0).map (fun l => (l.request, l.wanted)) = some (.none, .set (some 12)) ∧
      t.highway.counters.get FaultKind.mixerFull.index = 1) ∧
    Completes (.keyNextReoffer 0) refused (fun t => t.highway.queue = [] ∧
      ((t.talk? 0).bind (·.staged)).map (·.queued) = some false) ∧
    Instr.keyNextReoffer 0 ∉ refused.talkCommands 0 ∧
    ∃ t, step refused = .next t ∧ ((t.talk? 0).bind (·.staged)).map (·.fresh) = some false ∧
      Instr.keyNextReoffer 0 ∈ t.talkCommands 0 :=
  ⟨⟨_, rfl, by decide +kernel⟩, ⟨_, rfl, by decide +kernel⟩, ⟨_, rfl, by decide +kernel⟩, by decide +kernel,
    _, rfl, by decide +kernel⟩

/-- A mixer with one request that joined before this frame end. -/
def mixingOne (who : Requester) (s : State) : State :=
  { s with scr := { s.scr with mixer := [{ requester := who, key := 5, nonceA := 4, nonceB := 9, count := 3
                                           fresh := false }] } }

/-- What stands above is checked. -/
inductive KeyRequestSection where
  | checked

/-- The result itself is a free value: only who receives it, and what is asked next, is shown. -/
theorem witness_MixerCompletesItsOldestRequest :
    let login (step : CheckStep) : State := mixingOne (.login 6 0 step) (withPort 6 id
      (withLogin 6 (.challenging 3107 77 (some 88) step) (some 100) live))
    let moving : State := mixingOne (.talk 0 0) (laneZero fun t => { t with
      state := .moving, slot := none, request := .next 3 9 })
    ((login .setKey).scr.mixerDone = false ∧ (moving.talk? 0).map (·.request) = some (.next 3 9) ∧
      oneCall.talkOpening 0 = 0) ∧
    Completes .mixerCompletion (mixing 2 true live) (fun t => t.scr.mixer.length = 2) ∧
    Completes .mixerCompletion (mixing 2 false live) (fun t => t.scr.mixer.length = 1 ∧ t.scr.mixerDone = true) ∧
    Completes .mixerCompletion moving (fun t => ((t.talk? 0).bind (·.staged)).map (fun g => (g.count, g.partner)) =
      some (3, 9)) ∧
    Completes .mixerCompletion (login .setKey) (fun t =>
      t.scr.mixer.map (fun q => (q.requester, q.nonceA, q.nonceB, q.count)) = [(.login 6 0 .expected, 77, 0, 65535)]) :=
  ⟨by decide +kernel, ⟨_, rfl, by decide +kernel⟩, ⟨_, rfl, by decide +kernel⟩, ⟨_, rfl, by decide +kernel⟩,
    ⟨_, rfl, by decide +kernel⟩⟩

/-- R112, R113, R119: a FIRST result before and after its boundary, and a NEXT result of an ACTIVE lane. -/
theorem witness_MixerCompletesItsOldestRequest_talk :
    let first (b : Option Int) : State := mixingOne (.talk 0 0) (laneZero fun t => { t with
      activeKey := none, request := .first, firstBoundary := b })
    let next : State := mixingOne (.talk 0 0) (laneZero fun t => { t with request := .next 3 9 })
    ((first none).talk? 0).map (·.partner) = some (some 9) ∧
    Completes .mixerCompletion (first (some 1)) (fun t => t.highway.queue = [] ∧
      ((t.talk? 0).bind (·.staged)).map (fun g => (g.count, g.isFirst, g.countdown)) = some (0, true, some 1)) ∧
    Completes .mixerCompletion (first (some (-2))) (fun t =>
      (t.talk? 0).map (fun l => (l.staged.isSome, l.activeKey.isSome, l.position, l.age)) = some (false, true, 2, 0)) ∧
    Completes .mixerCompletion next (fun t =>
      t.highway.queue.map (·.cell.body) = [.keyNext 64 4 9 3 2] ∧
      ((t.talk? 0).bind (·.staged)).map (fun g => (g.queued, g.fresh)) = some (true, false)) ∧
    Completes .mixerCompletion (withQueue 24 next) (fun t => t.highway.queue.length = 24 ∧
      ((t.talk? 0).bind (·.staged)).map (fun g => (g.queued, g.fresh)) = some (false, true) ∧
      t.highway.counters.get FaultKind.queueFull.index = 1) :=
  ⟨by decide +kernel, ⟨_, rfl, by decide +kernel⟩, ⟨_, rfl, by decide +kernel⟩, ⟨_, rfl, by decide +kernel⟩,
    ⟨_, rfl, by decide +kernel⟩⟩

/-- A challenge for a number whose expected value is on its way, with a response, over a state; and the state as the mixer
delivers that result. -/
def respondedIn (s : State) (e : Ext) (v : Nonce) : State := mixingOne (.login 6 0 .expected) (withPort 6 id
  (withLogin 6 (.challenging e 77 (some v) .expected) (some 100) s))

def deliveredIn (s : State) (e : Ext) (v : Nonce) : State :=
  { respondedIn s e v with scr := { (respondedIn s e v).scr with mixer := [], mixerDone := true } }

def responded (v : Nonce) : State := respondedIn live 3107 v

def delivered (v : Nonce) : State := deliveredIn live 3107 v

/-- The expected value is free: the failing response is the one after it. -/
theorem witness_MixerCompletesItsOldestRequest_fails :
    let value : Nonce := (Config.mixer 5 4 9 3).extractLsb' 64 64
    (value ≠ value + 1 ∧ (responded (value + 1)).scr.mixerDone = false ∧ ((responded (value + 1)).port 6).state = .up) ∧
    Completes .mixerCompletion (responded (value + 1)) fun t => t.scr.mixer = [] ∧
      t.login 6 = { failures := 1 } ∧ (t.port 6).outbound = [.loginResult .denied] := by
  intro value
  have differs : value ≠ value + 1 := by intro h; bv_omega
  refine ⟨⟨differs, rfl, rfl⟩, (delivered (value + 1)).challengeFails 6, ?_, by decide +kernel⟩
  have runs : exec .mixerCompletion (responded (value + 1)) = .next (if value = value + 1
      then ((delivered (value + 1)).modLogin 6 fun l => { l with failures := 0 }).confirm 6 3107
      else (delivered (value + 1)).challengeFails 6) := rfl
  rw [runs, if_neg differs]

/-- The expected value, a free value: the response that matches is this one. -/
def expectedValue : Nonce := (Config.mixer 5 4 9 3).extractLsb' 64 64

theorem completes_on_match (s : State) (e : Ext) (P : State → Prop)
    (runs : exec .mixerCompletion (respondedIn s e expectedValue) = .next (if expectedValue = expectedValue
      then ((deliveredIn s e expectedValue).modLogin 6 fun l => { l with failures := 0 }).confirm 6 e
      else (deliveredIn s e expectedValue).challengeFails 6))
    (after : P (((deliveredIn s e expectedValue).modLogin 6 fun l => { l with failures := 0 }).confirm 6 e)) :
    Completes .mixerCompletion (respondedIn s e expectedValue) P := ⟨_, by rw [runs, if_pos rfl], after⟩

/-- R10: the response matches, and the number's home is a peer. -/
theorem witness_MixerCompletesItsOldestRequest_confirmsAtPeer :
    let s : State := ((homeTwo live).modLogin 6 fun l => { l with failures := 2 }).modCallPort 6
      fun c => { c with burst := some 25 }
    let gone : State := { s with calls := { s.calls with plan := upd s.calls.plan 2 (.absent ⟨3100, 100⟩) } }
    (s.homeOf 3107 = some 2 ∧ gone.homeOf 3107 = some 2) ∧
    Completes .mixerCompletion (respondedIn s 3107 expectedValue) (fun t =>
      t.login 6 = { entry := some { body := .confirming 3107, timer := some 16 } } ∧ (t.port 6).tone = .confirm ∧
      (t.callPort 6).burst = none ∧
      t.highway.queue.map (·.cell) = [cellFrom live 2 (live.loginTag 6) Tag.absent (.admitMove 3107 6)]) ∧
    Completes .mixerCompletion (respondedIn gone 3107 expectedValue) (fun t => t.login 6 = {} ∧
      (t.port 6).outbound.getLast? = some (.loginResult .noHome)) ∧
    Completes .mixerCompletion (respondedIn (withQueue 20 s) 3107 expectedValue) (fun t => t.login 6 = {} ∧
      t.highway.queue.length = 20 ∧ (t.port 6).outbound.getLast? = some (.loginResult .busy)) :=
  ⟨by decide +kernel, completes_on_match _ _ _ rfl (by decide +kernel), completes_on_match _ _ _ rfl (by decide +kernel),
    completes_on_match _ _ _ rfl (by decide +kernel)⟩

/-- R10: the response matches, and the number's home is this station. -/
theorem witness_MixerCompletesItsOldestRequest_confirmsHere :
    let at_ (loc : Option (Station × Port)) : State := withHome 4021 (fun h => { h with location := loc }) live
    let ok (t : State) : Prop := (t.login 6).entry = some { body := .admitted 4021 2 8 .none, timer := none } ∧
      (t.homeRecord 4021).map (fun h => (h.location, h.epoch)) = some (some (4, 6), 8) ∧
      (t.port 6).outbound.getLast? = some (.loginResult .ok)
    live.homeOf 4021 = some 4 ∧
    Completes .mixerCompletion (respondedIn (at_ none) 4021 expectedValue) ok ∧
    Completes .mixerCompletion (respondedIn (withLogin 7 (.admitted 4021 2 7 .none) none (at_ (some (4, 7)))) 4021
      expectedValue) (fun t => ok t ∧ (t.login 7).entry = none ∧ t.highway.queue = []) ∧
    Completes .mixerCompletion (respondedIn (at_ (some (12, 3))) 4021 expectedValue) (fun t => ok t ∧
      t.highway.queue.map (·.cell) = [broadcast live (.admitChange 4021 .moved (some (4, 6)) 2 8)]) ∧
    Completes .mixerCompletion (respondedIn (withQueue 20 (at_ (some (12, 3)))) 4021 expectedValue) (fun t =>
      (t.login 6).entry = none ∧ (t.homeRecord 4021).map (·.location) = some (some (12, 3)) ∧
      (t.port 6).outbound.getLast? = some (.loginResult .busy)) ∧
    Completes .mixerCompletion (respondedIn (withHome 4021 (fun h => { h with barred := true }) live) 4021 expectedValue)
      (fun t => (t.login 6).entry = none ∧ (t.port 6).outbound.getLast? = some (.loginResult .barred)) :=
  ⟨by decide +kernel, completes_on_match _ _ _ rfl (by decide +kernel), completes_on_match _ _ _ rfl (by decide +kernel),
    completes_on_match _ _ _ rfl (by decide +kernel), completes_on_match _ _ _ rfl (by decide +kernel),
    completes_on_match _ _ _ rfl (by decide +kernel)⟩

/-- R4: the third failed challenge; the lockout time of the image is 3750. -/
theorem witness_MixerCompletesItsOldestRequest_locks :
    let s : State := live.modLogin 6 fun l => { l with failures := 2 }
    (expectedValue ≠ expectedValue + 1 ∧ (respondedIn s 3107 (expectedValue + 1)).scr.mixerDone = false) ∧
    Completes .mixerCompletion (respondedIn s 3107 (expectedValue + 1)) fun t =>
      t.login 6 = { failures := 3, lockedOut := true, lockoutTimer := some 3750 } ∧
      (t.port 6).outbound = [.loginResult .locked] := by
  intro s
  have differs : expectedValue ≠ expectedValue + 1 := by intro h; bv_omega
  refine ⟨⟨differs, rfl⟩, (deliveredIn s 3107 (expectedValue + 1)).challengeFails 6, ?_, by decide +kernel⟩
  have runs : exec .mixerCompletion (respondedIn s 3107 (expectedValue + 1)) = .next
      (if expectedValue = expectedValue + 1
        then ((deliveredIn s 3107 (expectedValue + 1)).modLogin 6 fun l => { l with failures := 0 }).confirm 6 3107
        else (deliveredIn s 3107 (expectedValue + 1)).challengeFails 6) := rfl
  rw [runs, if_neg differs]

def syncAskCell (tag : Tag) : Cell := { peerCell 9 (.syncAsk 70) with sender := ⟨2, 0x1F⟩, receiver := tag }

/-- What stands above is checked. -/
inductive MixerSection where
  | checked

theorem witness_SyncAskDrawsRekeyOrGone :
    ((holding (syncAskCell ⟨5, 12⟩) oneCall).nextCell .keyC = some (stored (syncAskCell ⟨5, 12⟩)) ∧
      oneCall.recordOf ⟨5, 12⟩ = some 5 ∧ oneCall.recordOf ⟨64, 12⟩ = none) ∧
    Completes .syncAskAtTalker (holding (syncAskCell Tag.absent) oneCall) (fun t => t.highway.queue = []) ∧
    Completes .syncAskAtTalker (holding (syncAskCell ⟨64, 12⟩) oneCall) (fun t => t.highway.queue.map (·.cell) =
      [cellFrom live 9 ⟨64, 12⟩ ⟨2, 0x1F⟩ (.callClear .gone)]) ∧
    Completes .syncAskAtTalker (holding (syncAskCell ⟨5, 12⟩) oneCall) (fun t =>
      (t.talk? 0).map (fun l => (l.lastAsked, l.request)) = some (some 70, .next 1 9)) ∧
    Completes .syncAskAtTalker (holding (syncAskCell ⟨5, 12⟩) (oneCall.setTalk 0 { talkZero with
        request := .next 1 9, wanted := .set (some 12) })) (fun t =>
      (t.talk? 0).map (fun l => (l.lastAsked, l.wanted)) = some (some 70, .set (some 12))) ∧
    Completes .syncAskAtTalker (holding (syncAskCell ⟨5, 12⟩) (oneCall.setTalk 0 { talkZero with
        state := .claiming })) (fun t => (t.talk? 0).map (·.lastAsked) = some none) ∧
    Completes .syncAskAtTalker (holding (syncAskCell ⟨5, 12⟩) (oneCall.modCall 5 fun k => { k with
        state := .clearing })) (fun t => (t.talk? 0).map (·.lastAsked) = some none) :=
  ⟨by decide +kernel, ⟨_, rfl, by decide +kernel⟩, ⟨_, rfl, by decide +kernel⟩, ⟨_, rfl, by decide +kernel⟩,
    ⟨_, rfl, by decide +kernel⟩, ⟨_, rfl, by decide +kernel⟩, ⟨_, rfl, by decide +kernel⟩⟩

/-- A full mixer, and a rekey in progress by a request, by a staged key alone, and without an active key (R118). -/
theorem witness_SyncAskDrawsRekeyOrGone_inProgress :
    let ask (f : TalkLane → TalkLane) : State := holding (syncAskCell ⟨5, 12⟩) (oneCall.setTalk 0 (f talkZero))
    let wants (t : State) (w : RekeyWanted) : Prop :=
      (t.talk? 0).map (fun l => (l.lastAsked, l.wanted)) = some (some 70, w) ∧ t.scr.mixer.length ≤ 16
    Completes .syncAskAtTalker (mixing 16 false (ask id)) (fun t => wants t (.set none) ∧
      t.highway.counters.get FaultKind.mixerFull.index = 1) ∧
    Completes .syncAskAtTalker (ask fun t => { t with request := .next 1 9 }) (fun t => wants t (.set none)) ∧
    Completes .syncAskAtTalker (ask fun t => { t with staged := some stagedNext }) (fun t => wants t (.set none)) ∧
    Completes .syncAskAtTalker (ask fun t => { t with activeKey := none, wanted := .set (some 12) }) (fun t =>
      wants t (.set (some 12)) ∧ t.scr.mixer = []) :=
  ⟨⟨_, rfl, by decide +kernel⟩, ⟨_, rfl, by decide +kernel⟩, ⟨_, rfl, by decide +kernel⟩, ⟨_, rfl, by decide +kernel⟩⟩

/-- The section above is checked. -/
inductive TalkSection where
  | checked

/-! ### Listen lanes and voice (spec 08) -/

def keyNextOf (a b : Nonce) (n : Nat) : Cell := { peerCell 9 (.keyNext 145 a b n 2) with sender := ⟨2, 0x1F⟩ }

theorem witness_KeyNextBringsTheListenersKey :
    let full : State := mixing 16 false (oneCall.setListen 0 { listenZero with state := .waitkey, active := none })
    (listenZero.holdsInputs 9 4 0 = true ∧ listenZero.holdsInputs 9 4 1 = false ∧ live.listen? 0 = none) ∧
    Completes .keyNext (holding (keyNextOf 9 4 0) oneCall) (fun t => (t.listen? 0).map (·.slot) = some 145 ∧
      t.scr.mixer = []) ∧
    Completes .keyNext (holding (keyNextOf 9 4 1) oneCall) (fun t =>
      (t.listen? 0).map (fun l => (l.slot, l.state)) = some (145, .locked) ∧
      ((t.listen? 0).bind (·.request)).map (fun q => (q.count, q.countdown)) = some (1, some 2) ∧
      t.scr.mixer.map (fun q => (q.nonceA, q.nonceB, q.count)) = [(9, 4, 1)]) ∧
    Completes .keyNext (holding (keyNextOf 9 4 1) full) (fun t =>
      (t.listen? 0).map (fun l => (l.request, l.timer)) = some (none, some 8)) ∧
    Completes .keyNext (holding (keyNextOf 9 4 1) live) (fun t => t.scr = live.scr) :=
  ⟨by decide +kernel, ⟨_, rfl, by decide +kernel⟩, ⟨_, rfl, by decide +kernel⟩, ⟨_, rfl, by decide +kernel⟩,
    ⟨_, rfl, by decide +kernel⟩⟩

/-- R130 step 1: a lane in SEARCH resets its cursor, with room at the mixer and without. -/
theorem witness_KeyNextBringsTheListenersKey_search :
    let searches : State := oneCall.setListen 0 { listenZero with
      state := .search, search := some ⟨2, 150, false, some 150, false⟩ }
    let reset (t : State) : Prop := (t.listen? 0).map (fun l => (l.state, l.slot, l.search)) =
      some (.search, 145, some ⟨2, 150, false, some 150, true⟩)
    Completes .keyNext (holding (keyNextOf 9 4 0) searches) reset ∧
    Completes .keyNext (holding (keyNextOf 9 4 1) searches) reset ∧
    Completes .keyNext (holding (keyNextOf 9 4 1) (mixing 16 false searches)) reset :=
  ⟨⟨_, rfl, by decide +kernel⟩, ⟨_, rfl, by decide +kernel⟩, ⟨_, rfl, by decide +kernel⟩⟩

/-- Lane 0 with a change, at a superframe boundary. -/
def listening0 (f : ListenLane → ListenLane) : State := atFrame 63 (oneCall.setListen 0 (f listenZero))

def heardMarks (frames agreed low : Nat) (t : ListenLane) : ListenLane :=
  { t with framesRead := frames, marksAgreed := agreed, lowCount := low }

/-- R127, R130, R132: a listen lane's result staged, installed at once, and discarded. -/
theorem witness_MixerCompletesItsOldestRequest_listen :
    let asked (b : Int) (f : ListenLane → ListenLane) : State := mixingOne (.listen 0 0) (listening0 fun t => f { t with
      request := some { isFirst := false, talker := 4, partner := 9, count := 3, countdown := some b } })
    let lane (t : State) (st : ListenState) (position : Word16) : Prop := (t.listen? 0).map (·.state) = some st ∧
      ((t.listen? 0).bind (·.active)).map (fun k => (k.count, k.position)) = some (3, position) ∧
      (t.listen? 0).map (fun l => (l.request, l.staged)) = some (none, none)
    oneCall.listenOpening 0 = 0 ∧
    Completes .mixerCompletion (asked 1 id) (fun t =>
      ((t.listen? 0).bind (·.staged)).map (fun g => (g.talker, g.partner, g.count, g.countdown)) =
        some (4, 9, 3, some 1) ∧ ((t.listen? 0).bind (·.active)).map (·.key) = some 79) ∧
    Completes .mixerCompletion (asked (-1) id) (fun t => lane t .locked 1 ∧
      ((t.listen? 0).bind (·.previous)).map (·.key) = some 79) ∧
    Completes .mixerCompletion (asked 0 fun t => { t with state := .waitkey, active := none, timer := some 5 }) (fun t =>
      lane t .proving 0 ∧ (t.listen? 0).map (fun l => (l.timer, l.previous)) = some (none, none)) ∧
    Completes .mixerCompletion (asked 0 fun t => { t with state := .lost, timer := some 5 }) (fun t =>
      lane t .lost 0 ∧ (t.listen? 0).map (fun l => (l.timer, l.awaiting)) = some (none, true)) ∧
    Completes .mixerCompletion (asked 0 fun t => { t with state := .search, search := some ⟨2, 145, false, none, true⟩ })
      (fun t => lane t .search 0 ∧ (t.listen? 0).map (·.search) = some (some ⟨1, 144, false, none, false⟩)) ∧
    Completes .mixerCompletion (mixingOne (.listen 0 0) (listening0 id)) (fun t =>
      t.listen? 0 = some listenZero ∧ t.scr.mixer = []) :=
  ⟨by decide +kernel, ⟨_, rfl, by decide +kernel⟩, ⟨_, rfl, by decide +kernel⟩, ⟨_, rfl, by decide +kernel⟩,
    ⟨_, rfl, by decide +kernel⟩, ⟨_, rfl, by decide +kernel⟩, ⟨_, rfl, by decide +kernel⟩⟩

theorem witness_LockedLaneIsJudgedAtTheBoundary :
    (AtBoundary (listening0 id) ∧ (listening0 id).listen? 0 = some listenZero ∧ imageFour.lossThreshold = 48) ∧
    Completes (.listenLaneBoundary 0) (listening0 (heardMarks 64 48 2)) (fun t =>
      (t.listen? 0).map (fun l => (l.state, l.lowCount, l.lastFigure)) = some (.locked, 0, some 48) ∧
      ((t.listen? 0).bind (·.active)).map (·.position) = some 1) ∧
    Completes (.listenLaneBoundary 0) (listening0 (heardMarks 64 47 1)) (fun t =>
      (t.listen? 0).map (fun l => (l.state, l.lowCount)) = some (.locked, 2)) ∧
    Completes (.lowFigureLimit 0) (listening0 (heardMarks 64 47 2)) (fun t =>
      (t.listen? 0).map (fun l => (l.state, l.lowCount)) = some (.search, 3)) ∧
    Completes (.listenLaneBoundary 0) (listening0 (heardMarks 63 0 2)) (fun t =>
      (t.listen? 0).map (fun l => (l.state, l.lowCount, l.lastFigure)) = some (.locked, 2, none)) ∧
    Completes (.listenKeySwap 0) (listening0 fun t => { t with staged := some ⟨81, 9, 4, 1, some 1⟩ }) (fun t =>
      ((t.listen? 0).bind (·.active)).map (fun k => (k.key, k.count, k.position)) = some (81, 1, 0) ∧
      ((t.listen? 0).bind (·.previous)).map (·.key) = some 79) :=
  ⟨⟨rfl, by decide +kernel⟩, ⟨_, rfl, by decide +kernel⟩, ⟨_, rfl, by decide +kernel⟩, ⟨_, rfl, by decide +kernel⟩,
    ⟨_, rfl, by decide +kernel⟩, ⟨_, rfl, by decide +kernel⟩⟩

/-- The first figure of a lane in WAITKEY (R133): at the lock threshold of 60, and below it. -/
theorem witness_LockedLaneIsJudgedAtTheBoundary_firstFigure :
    let s (n : Nat) : State := listening0 fun t => { heardMarks 64 n 0 t with state := .waitkey, recovery := 0 }
    imageFour.lockThreshold = 60 ∧
    Completes (.listenLaneBoundary 0) (s 60) (fun t =>
      (t.listen? 0).map (fun l => (l.state, l.recovery, l.lastFigure)) = some (.locked, 0, some 60)) ∧
    Completes (.listenLaneBoundary 0) (s 59) (fun t =>
      (t.listen? 0).map (fun l => (l.state, l.lastFigure, l.search)) =
        some (.search, some 59, some { phase := 1, slot := 144, previous := false, cursor := none })) :=
  ⟨rfl, ⟨_, rfl, by decide +kernel⟩, ⟨_, rfl, by decide +kernel⟩⟩

/-- Record 5 in PROVING with lane 0 in its proving superframes; the proving limit is 8. -/
def provingLane (clock : Int) (marks errors : Nat) : State :=
  (listening0 fun t => { heardMarks 64 marks 0 t with
    state := .proving, provingClock := some clock, provingErrors := errors }).modCall 5 fun k => { k with state := .proving }

theorem witness_LockedLaneIsJudgedAtTheBoundary_proving :
    ((provingLane 0 60 0).listen? 0).map (·.provingClock) = some (some 0) ∧
    Completes (.listenLaneBoundary 0) (provingLane 0 60 0) (fun t =>
      (t.listen? 0).map (fun l => (l.state, l.provingClock, l.lastFigure)) = some (.proving, some (-1), some 60) ∧
      (t.call? 5).map (·.state) = some .proving) ∧
    Completes (.listenLaneBoundary 0) (provingLane 0 59 0) (fun t =>
      clearingWith t .pathFailed 9 ⟨2, 0x1F⟩ = true ∧ t.listen? 0 = none) ∧
    Completes (.listenLaneBoundary 0) (provingLane (-1) 0 8) (fun t =>
      (t.listen? 0).map (fun l => (l.state, l.recovery, l.provingClock)) = some (.locked, 0, none) ∧
      t.call? 5 = some callFive ∧ t.talk? 0 = some { talkZero with mode := .voice } ∧ t.highway.queue = []) ∧
    Completes (.listenLaneBoundary 0) (provingLane (-1) 0 9) (fun t =>
      clearingWith t .pathFailed 9 ⟨2, 0x1F⟩ = true ∧ t.listen? 0 = none) :=
  ⟨by decide +kernel, ⟨_, rfl, by decide +kernel⟩, ⟨_, rfl, by decide +kernel⟩, ⟨_, rfl, by decide +kernel⟩,
    ⟨_, rfl, by decide +kernel⟩⟩

/-- What stands above is checked. -/
inductive LockedSection where
  | checked

theorem witness_LostLanesAskAndAtLastReport :
    let join : State := listening0 fun t => { t with
      state := .waitkey, purpose := .join, timer := some 1, active := none }
    let lost : State := listening0 fun t => { t with state := .lost, timer := some 1 }
    let ask : Cell := cellFrom live 9 ⟨5, 12⟩ ⟨2, 0x1F⟩ (.syncAsk 144)
    ((join.listen? 0).map (fun t => (t.framesRead, t.staged, t.request)) = some (0, none, none) ∧
      join.callTag 5 = ⟨5, 12⟩) ∧
    Completes (.waitkeyTimerExpiry 0) join (fun t => (t.listen? 0).map (fun l => (l.state, l.timer)) =
      some (.lost, some 8) ∧ t.highway.queue.map (·.cell) = [ask]) ∧
    Completes (.syncAskTimerExpiry 0) lost (fun t => (t.listen? 0).map (·.timer) = some (some 8) ∧
      t.highway.queue.map (·.cell) = [ask]) ∧
    Completes (.syncAskTimerExpiry 0) (withQueue 24 lost) (fun t => (t.listen? 0).map (·.timer) = some (some 8) ∧
      t.highway.queue.length = 24) :=
  ⟨by decide +kernel, ⟨_, rfl, by decide +kernel⟩, ⟨_, rfl, by decide +kernel⟩, ⟨_, rfl, by decide +kernel⟩⟩

/-- Lane 0 in SEARCH of station 9, which the map shows on slots 144 and 145; a previous key 70 is kept. -/
def searching (c : Search) (marks : Nat) : State :=
  (listening0 fun t => { heardMarks 64 marks 3 t with
    state := .search, search := some c, previous := some { key := 70, talker := 9, partner := 4, count := 0 } }).setSlot
      145 (some 9)

/-- R135, R136: the own slot, then the held slot 145, then the previous key, then LOST with SYNC-ASK. -/
theorem witness_LostLanesAskAndAtLastReport_search :
    let candidate (t : State) (c : Search) : Prop := (t.listen? 0).map (fun l => (l.state, l.search)) =
      some (.search, some c)
    ((searching ⟨1, 144, false, none, false⟩ 59).slots.map.get 145 = some 9 ∧
      (searching ⟨1, 144, false, none, false⟩ 59).slots.map.get 146 = none) ∧
    Completes (.listenLaneBoundary 0) (searching ⟨1, 144, false, none, false⟩ 59) (fun t =>
      candidate t ⟨2, 145, false, some 145, false⟩) ∧
    Completes (.listenLaneBoundary 0) (searching ⟨2, 145, false, some 145, false⟩ 59) (fun t =>
      candidate t ⟨3, 144, true, none, false⟩) ∧
    Completes (.listenLaneBoundary 0) (searching ⟨3, 144, true, none, false⟩ 59) (fun t =>
      (t.listen? 0).map (fun l => (l.state, l.search)) = some (.lost, none) ∧
      t.highway.queue.map (·.cell) = [cellFrom live 9 ⟨5, 12⟩ ⟨2, 0x1F⟩ (.syncAsk 144)]) ∧
    Completes (.listenLaneBoundary 0) (searching ⟨2, 145, false, some 145, false⟩ 60) (fun t =>
      (t.listen? 0).map (fun l => (l.state, l.slot, l.recovery)) = some (.locked, 145, 0)) ∧
    Completes (.listenLaneBoundary 0) (searching ⟨3, 144, true, none, false⟩ 60) (fun t =>
      (t.listen? 0).map (fun l => (l.active.map (·.key), l.previous.map (·.key))) = some (some 70, some 79)) :=
  ⟨by decide +kernel, ⟨_, rfl, by decide +kernel⟩, ⟨_, rfl, by decide +kernel⟩, ⟨_, rfl, by decide +kernel⟩,
    ⟨_, rfl, by decide +kernel⟩, ⟨_, rfl, by decide +kernel⟩⟩

/-- R136: a reset cursor, after a failed figure of phase 3 and after a superframe without a figure. -/
theorem witness_LostLanesAskAndAtLastReport_restart :
    let again (t : State) : Prop := (t.listen? 0).map (fun l => (l.state, l.search)) =
      some (.search, some ⟨1, 144, false, none, false⟩)
    let reset : State := searching ⟨3, 150, true, none, true⟩ 59
    Completes (.listenLaneBoundary 0) reset again ∧
    Completes (.listenLaneBoundary 0) (reset.modListen 0 fun t => { t with framesRead := 30 }) again :=
  ⟨⟨_, rfl, by decide +kernel⟩, ⟨_, rfl, by decide +kernel⟩⟩

/-- Lane 0 in LOST, its first figure after a swap in. -/
def recovering (n marks : Nat) (lost : Bool) : State := listening0 fun t => { heardMarks 64 marks 0 t with
  state := .lost, awaiting := true, recovery := n, syncLost := lost }

/-- R138, R137: a recovery that succeeds, one that fails for the second time, and a lane after SYNC-LOST. -/
theorem witness_LostLanesAskAndAtLastReport_recovery :
    let judged (t : State) : Option (ListenState × Nat) := (t.listen? 0).map fun l => (l.state, l.recovery)
    AtBoundary (recovering 1 60 false) ∧
    Completes (.listenLaneBoundary 0) (recovering 1 60 false) (fun t => judged t = some (.locked, 0)) ∧
    Completes (.listenLaneBoundary 0) (recovering 1 59 false) (fun t => judged t = some (.search, 2)) ∧
    Completes (.listenLaneBoundary 0) (recovering 3 60 true) (fun t => judged t = some (.lost, 3) ∧
      t.call? 5 = some callFive ∧ t.highway.queue = []) :=
  ⟨rfl, ⟨_, rfl, by decide +kernel⟩, ⟨_, rfl, by decide +kernel⟩, ⟨_, rfl, by decide +kernel⟩⟩

/-- R138, R60: the third failed recovery clears record 5 with SYNC-LOST; slot 64 is given up first. -/
theorem witness_LostLanesAskAndAtLastReport_syncLost :
    let third := recovering 2 59 false
    let ended (t : State) : Prop := t.listen? 0 = none ∧ t.talk? 0 = none ∧ t.slots.map.get 64 = none
    (third.talk? 0 = some talkZero ∧ third.callTag 5 = ⟨5, 12⟩ ∧ third.slots.claims = [] ∧
      third.call? 5 = some callFive) ∧
    Completes (.recoveryLimit 0) (withQueue 22 third) (fun t => ended t ∧
      clearingWith t .syncLost 9 ⟨2, 0x1F⟩ = true ∧
      (t.highway.queue.drop 22).map (·.cell.body) = [.slot (.free 64), .callClear .syncLost]) ∧
    Completes (.recoveryLimit 0) (withQueue 23 third) (fun t => ended t ∧ t.call? 5 = none ∧
      (t.highway.queue.drop 23).map (·.cell.body) = [.slot (.free 64)]) ∧
    Completes (.recoveryLimit 0) (withQueue 24 third) (fun t => ended t ∧ t.call? 5 = none ∧
      t.highway.queue.length = 24 ∧
      t.slots.claims = [{ kind := .release, slot := 64, refused := true, fresh := true }]) :=
  ⟨by decide +kernel, ⟨_, rfl, by decide +kernel⟩, ⟨_, rfl, by decide +kernel⟩, ⟨_, rfl, by decide +kernel⟩⟩

/-- The section above is checked. -/
inductive LaneSection where
  | checked

/-- Keystream and sync words are free values: what does not rest on them is evaluated. Two samples of 100 would sum to
200, which the coding cannot carry (R139). -/
theorem witness_VoiceIsWrittenReadAndSummed :
    let bus : List (Byte × Bool) := List.replicate 256 (0x2A, true)
    (bus.length = 256 ∧ oneCall.front 6 = some 5 ∧ oneCall.listen? 0 = some listenZero ∧
      clampSample (100 + 100) = 127 ∧ clampSample (-100 + -100) = -128 ∧ clampSample (100 + -30) = 70) ∧
    Completes (.readingTheSlot bus) (oneCall.setTalk 0 { talkZero with activeKey := none }) (fun t =>
      t.scr.slotsOut = [(64, 0, false)] ∧ (t.listen? 0).map (·.framesRead) = some 1 ∧ (t.port 5).listenSample = 0) ∧
    Completes (.readingTheSlot bus) (oneCall.setTalk 0 { talkZero with state := .moving }) (fun t =>
      t.scr.slotsOut = []) :=
  ⟨by decide +kernel, ⟨_, rfl, by decide +kernel⟩, ⟨_, rfl, by decide +kernel⟩⟩

/-! ### Logins and the calls of their ports (R3, R67) -/

/-- Both records of port 6, the HELD one too, wait for their CALL-CLEARs of a cause, and the stack is empty. -/
def bothCleared (c : Cause) (t : State) : Bool :=
  decide ((t.call? 5).map (fun k => (k.state, k.cause, k.clears)) = some (.clearing, c, 1)) &&
    decide ((t.call? 6).map (fun k => (k.state, k.cause, k.clears)) = some (.clearing, c, 1)) &&
    decide ((t.callPort 6).stack = [])

/-- The cells of that clearing. -/
def clearsOf (c : Cause) : List Body :=
  [.slot (.free 64), .callClear c, .slot (.free 65), .callClear c]

/-- Port 6 with its two calls, its login of 3107, which is homed at station 2, in a renewal state. -/
def twoCallsAway (n : Renewal) (tm : Option Nat) : State :=
  withLogin 6 (.admitted 3107 2 43 n) tm (homeTwo (twoCalls id))

theorem witness_LogoutEndsTheLogin_calls :
    let here := asks .logout (withHome 4021 (fun h => { h with location := some (4, 6) }) (twoCalls id))
    let away := asks .logout (twoCallsAway .none none)
    (here.dueEvent 6 = some (.admission .logout) ∧ here.loginBody 6 = some (.admitted 4021 2 43 .none) ∧
      here.homeOf 4021 = some here.self ∧ away.homeOf 3107 = some 2 ∧ (here.callPort 6).hookView = .off ∧
      here.front 6 = some 6 ∧ RoomToClear here 6 ∧ RoomToClear away 6) ∧
    Completes (.logout 6) here (fun t => bothCleared .admission t = true ∧ (t.port 6).tone = .reorder ∧
      bodies t = clearsOf .admission ++ [.admitChange 4021 .left (some (4, 6)) 2 8]) ∧
    Completes (.logout 6) away (fun t => bothCleared .admission t = true ∧ (t.port 6).tone = .reorder ∧
      bodies t = clearsOf .admission ++ [.admitLeave 3107 43]) ∧
    Completes (.logout 6) (asks .logout (withCall 5 12 { dialing [] with state := .routing } (user 2 id live)))
      (fun t => t.call? 5 = none) := by
  have room : ∀ s : State, s.station.state = .active → s.highway.queue = [] → (∀ e, s.calls.confs.get e = none) →
      (∀ r, r ∈ [5, 6] ↔ ∃ k, s.call? r = some k ∧ k.port = 6 ∧ k.state ≠ .clearing) → RoomToClear s 6 :=
    fun s h1 h2 h3 h4 => ⟨⟨[5, 6], ⟨by decide, h4⟩, h1, by simp [h2]⟩, fun e cf h => by rw [h3] at h; cases h⟩
  exact ⟨⟨by decide +kernel, by decide +kernel, by decide +kernel, by decide +kernel, by decide +kernel,
    by decide +kernel, room _ (by decide +kernel) (by decide +kernel) (by decide +kernel)
      (fun r => by revert r; decide +kernel),
    room _ (by decide +kernel) (by decide +kernel) (by decide +kernel) (fun r => by revert r; decide +kernel)⟩,
    ⟨_, rfl, by decide +kernel⟩, ⟨_, rfl, by decide +kernel⟩, ⟨_, rfl, by decide +kernel⟩⟩

/-- A renewal that expires, that is refused, and that is answered BARRED and NOT-HOME ends the calls. -/
theorem witness_AdmitTellSettlesMovesAndQueries_calls :
    let answer (st : TellStatus) : State :=
      holding { tellCell st ⟨6, 0⟩ true with renew := true } (twoCallsAway .sent (some 9))
    ((answer .barred).loginBody 6 = some (.admitted 3107 2 43 .sent) ∧ (answer .barred).loginTag 6 = ⟨6, 0⟩ ∧
      ((answer .barred).port 6).state = .up) ∧
    Completes (.renewalTimerExpiry 6) (twoCallsAway .sent (some 0)) (fun t => bothCleared .homeLost t = true ∧
      (t.port 6).tone = .reorder ∧ bodies t = clearsOf .homeLost) ∧
    Completes .refuse (refused 0x12 ⟨6, 0⟩ (twoCallsAway .sent (some 9))) (fun t =>
      bothCleared .homeLost t = true ∧ (t.port 6).tone = .reorder) ∧
    Completes .admitTell (answer .barred) (fun t => bothCleared .admission t = true ∧ (t.port 6).tone = .reorder ∧
      (t.port 6).outbound = [.loginResult .barred]) ∧
    Completes .admitTell (answer .notHome) (fun t => bothCleared .homeLost t = true ∧ (t.port 6).tone = .reorder) :=
  ⟨by decide +kernel, ⟨_, rfl, by decide +kernel⟩, ⟨_, rfl, by decide +kernel⟩, ⟨_, rfl, by decide +kernel⟩,
    ⟨_, rfl, by decide +kernel⟩⟩

/-- R13: answers under the tag of an older incarnation, of an empty place, for an entry with another extension, one in
CHALLENGING, and an ADMITTED one whose renewal is not SENT. -/
theorem witness_AdmitTellSettlesMovesAndQueries_orphans :
    let told (st : TellStatus) (s : State) : State := holding (tellCell st ⟨6, 0⟩ true) s
    let renewal (s : State) : State := holding { tellCell .admitted ⟨6, 0⟩ true with renew := true } s
    let leaves (s : State) : Prop := Completes .admitTell s fun t => bodies t = [.admitLeave 3107 44] ∧
      t.adm.logins = s.adm.logins
    let older : State := (homeTwo confirming).modLogin 6 fun l => { l with incarnation := 1 }
    (older.loginTag 6 ≠ ⟨6, 0⟩ ∧ (homeTwo live).loginTag 6 = ⟨6, 0⟩ ∧ (homeTwo live).loginBody 6 = none) ∧
    leaves (told .admitted older) ∧ leaves (told .admitted (homeTwo live)) ∧
    leaves (told .admitted (withLogin 6 (.confirming 3108) (some 30) (homeTwo live))) ∧
    leaves (told .admitted (homeTwo (challenged .none 100 live))) ∧
    leaves (renewal (homeTwo confirming)) ∧ leaves (renewal (twoCallsAway .pending none)) ∧
    leaves (told .admitted (twoCallsAway .sent (some 9))) ∧
    Completes .admitTell (told .barred older) (fun t => t.adm.logins = older.adm.logins ∧ t.highway.queue = []) ∧
    Completes .admitTell (told .notIn (homeTwo live)) (fun t => t.adm.logins = live.adm.logins ∧
      t.highway.queue = []) :=
  ⟨by decide +kernel, ⟨_, rfl, by decide +kernel⟩, ⟨_, rfl, by decide +kernel⟩, ⟨_, rfl, by decide +kernel⟩,
    ⟨_, rfl, by decide +kernel⟩, ⟨_, rfl, by decide +kernel⟩, ⟨_, rfl, by decide +kernel⟩, ⟨_, rfl, by decide +kernel⟩,
    ⟨_, rfl, by decide +kernel⟩, ⟨_, rfl, by decide +kernel⟩⟩

/-- R16 with two calls at the port: MOVED elsewhere, MOVED here, BARRED here. -/
theorem witness_AdmitChangeReachesTheLogin_calls :
    let at_ (why : ChangeReason) (loc : Option (Station × Port)) : State :=
      holding (changeCell why loc) (twoCallsAway .none none)
    ((at_ .moved none).admittedPort 3107 = some 6 ∧ (at_ .moved none).self = 4) ∧
    Completes .admitChange (at_ .moved (some (12, 3))) (fun t => bothCleared .admission t = true ∧
      (t.port 6).tone = .reorder ∧ (t.port 6).outbound = [] ∧ bodies t = clearsOf .admission) ∧
    Completes .admitChange (at_ .moved (some (4, 9))) (fun t => t.adm.logins = (at_ .moved none).adm.logins ∧
      t.calls = (at_ .moved none).calls) ∧
    Completes .admitChange (at_ .barred (some (4, 6))) (fun t => bothCleared .admission t = true ∧
      (t.port 6).outbound = [.loginResult .barred]) :=
  ⟨by decide +kernel, ⟨_, rfl, by decide +kernel⟩, ⟨_, rfl, by decide +kernel⟩, ⟨_, rfl, by decide +kernel⟩⟩

/-- What stands above is checked. -/
inductive LogoutSection where
  | checked

/-- PORT-DISABLE and the eighth bad superframe log the user out; ADMIT-MOVE, BAR and FORCE-LOGOUT drop a login here. -/
theorem witness_LoginsThatEndClearTheCalls :
    let located : State := withHome 4021 (fun h => { h with location := some (4, 6) }) (twoCalls id)
    let asked (code : Byte) (arg : List Byte) (s : State) : State := holding (requestFrom 1 code arg) s
    let failing : State := atFrame 63 (twoCalls fun u => { u with good := 4, bad := 7, setFrames := 62 })
    (AtBoundary failing ∧ (failing.port 6).state = .up ∧ (failing.port 6).bad = 7 ∧
      (twoCalls id).loginBody 6 = some (.admitted 4021 2 43 .none) ∧ located.admittedPort 4021 = some 6) ∧
    Completes .portDisable (asked 0x02 [6] (twoCalls id)) (fun t => bothCleared .admission t = true ∧
      (t.port 6).state = .disabled) ∧
    Completes (.badCountLimit 6) failing (fun t => bothCleared .admission t = true ∧ (t.port 6).state = .down) ∧
    Completes .admitMove (holding (moveCell 4021) located) (fun t => bothCleared .admission t = true ∧
      (t.login 6).entry = none ∧ (t.homeRecord 4021).map (·.location) = some (some (12, 3)) ∧
      (bodies t).head? = some (.admitChange 4021 .moved (some (12, 3)) 2 8)) ∧
    Completes .bar (asked 0x04 [0x0F, 0xB5] located) (fun t => bothCleared .admission t = true ∧
      (t.port 6).outbound = [.loginResult .barred] ∧ (t.login 6).entry = none) ∧
    Completes .forceLogout (asked 0x06 [0x0F, 0xB5] located) (fun t => bothCleared .admission t = true ∧
      (t.login 6).entry = none) :=
  ⟨by unfold AtBoundary; decide +kernel, ⟨_, rfl, by decide +kernel⟩, ⟨_, rfl, by decide +kernel⟩,
    ⟨_, rfl, by decide +kernel⟩, ⟨_, rfl, by decide +kernel⟩, ⟨_, rfl, by decide +kernel⟩⟩
/-- R86: the controller hangs up, with 0, 22, 23 and 24 cells queued. -/
theorem witness_HookEventsStartAndEndCalls_controller :
    let s (n : Nat) : State := withQueue n (conferenceOfThree.modPort 6 hangingUp)
    let ended (t : State) : Option (CallState × Cause × ConfRole × Nat) :=
      (t.call? 5).map fun k => (k.state, k.cause, k.confRole, k.clears)
    ((s 0).dueEvent 6 = some (.hook .on) ∧ (s 0).front 6 = some 5 ∧ (s 0).talk? 0 = some talkZero ∧
      (s 0).calls.confs.get 0 = some { controller := 5, members := [memberNine, memberTwelve] }) ∧
    Completes (.onHook 6) (s 0) (fun t => ended t = some (.clearing, .normal, .none, 2) ∧
      t.calls.confs.get 0 = none ∧ t.highway.queue.map (·.cell) = [broadcast live (.slot (.free 64)),
        cellFrom live 9 ⟨5, 12⟩ ⟨0x02, 0x1F⟩ (.callClear .confEnded),
        cellFrom live 12 ⟨6, 5⟩ ⟨0x08, 0x21⟩ (.callClear .confEnded)] ∧
      t.highway.queue.map (·.name) = [.slotCell (.free 64), .clearing 5 12, .clearing 5 12]) ∧
    Completes (.onHook 6) (s 22) (fun t => ended t = some (.clearing, .normal, .none, 1) ∧
      t.highway.queue.length = 24) ∧
    Completes (.onHook 6) (s 23) (fun t => t.call? 5 = none ∧ t.highway.queue.length = 24 ∧
      t.calls.confs.get 0 = none) ∧
    Completes (.onHook 6) (s 24) (fun t => t.call? 5 = none ∧ t.highway.queue.length = 24) :=
  ⟨by decide +kernel, ⟨_, rfl, by decide +kernel⟩, ⟨_, rfl, by decide +kernel⟩, ⟨_, rfl, by decide +kernel⟩,
    ⟨_, rfl, by decide +kernel⟩⟩

/-- R94: the claim of 64 carried in frame 20 is lost to station 3; 65 goes to station 7 in the same frame, and 66 is
freed in it by station 9. -/
def lostClaim (e : Claim) (s : State) : State :=
  let map := upd live.slots.map 66 (some 9)
  let t := atFrame 20 (routing e (s.setHighway { s.highway with
    slotCells := [(3, .claim 64), (4, .claim 64), (7, .claim 65), (9, .free 66)] }))
  { t with slots := { t.slots with map := map, atFrameStart := map } }

theorem witness_ClaimsAreRetriedAndWon_lost :
    let e (n : Nat) : Claim := claimOf64 n false (some 20)
    let alerting (s : State) : State := s.modCall 5 fun k => { k with state := .alerting }
    ((lostClaim (e 1) live).slots.claims = [e 1] ∧ (lostClaim (e 1) live).hearing = true ∧
      (lostClaim (e 1) live).talk? 0 = some { talkZero with state := .claiming, slot := none, activeKey := none }) ∧
    Completes .slotJudgment (lostClaim (e 1) live) (fun t =>
      t.slots.claims = [{ kind := .claim, slot := 66, lane := some 0, attempt := 2 }] ∧
      t.calls = (lostClaim (e 1) live).calls ∧ t.slots.map.get 64 = some 3 ∧ t.slots.map.get 65 = some 7 ∧
      t.slots.map.get 66 = none ∧ t.highway.queue.map (·.cell) = [broadcast live (.slot (.claim 66))]) ∧
    Completes .slotJudgment (lostClaim (e 2) (withQueue 24 live)) (fun t => t.slots.claims = [
      { kind := .claim, slot := 66, lane := some 0, attempt := 3, refused := true, fresh := true }] ∧
      t.highway.queue.length = 24) ∧
    Completes .slotJudgment (lostClaim (e 3) live) (fun t => t.slots.claims = [] ∧ t.call? 5 = none ∧
      t.talk? 0 = none ∧ t.highway.queue = [] ∧ t.slots.map.get 64 = some 3) ∧
    Completes .slotJudgment (alerting (lostClaim (e 3) live)) (fun t => t.slots.claims = [] ∧
      clearingWith t .noSlot 9 ⟨2, 0x1F⟩ = true) ∧
    Completes .slotJudgment (lostClaim { e 1 with lane := none } live) (fun t => t.slots.claims = [] ∧
      t.calls = (lostClaim (e 1) live).calls ∧ t.highway.queue = []) :=
  ⟨by decide +kernel, ⟨_, rfl, by decide +kernel⟩, ⟨_, rfl, by decide +kernel⟩, ⟨_, rfl, by decide +kernel⟩,
    ⟨_, rfl, by decide +kernel⟩, ⟨_, rfl, by decide +kernel⟩⟩

/-- R94: a claim for a slot that was held as the frame began is void, and a lost SLOT-MOVE is offered again for 66, its old
slot 80 and its lost slot 64 passed over. R96: a slot won for a closed lane is given up. R90: the report of a SLOT-MOVE. -/
theorem witness_ClaimsAreRetriedAndWon_void :
    let void : State := { routing (claimOf64 1 false (some 20)) (atFrame 20 live) with slots := {
      map := upd live.slots.map 64 (some 9), atFrameStart := upd live.slots.map 64 (some 9)
      claims := [claimOf64 1 false (some 20)] } }
    let move : Claim := { claimOf64 1 false (some 20) with kind := .move, oldSlot := some 80 }
    let orphan : State := (wonClaim.setHighway { wonClaim.highway with slotCells := [(7, .claim 64), (4, .claim 64)]
      }).setClaims [{ claimOf64 1 false (some 20) with lane := none }]
    let carried : State := atFrame 20 (sent { freeCell 9 with name := .slotCell (.move 80 64) }
      (live.setClaims [{ move with carried := none }, { kind := .move, slot := 64, oldSlot := some 81 }]))
    Completes .slotJudgment void (fun t => t.slots.claims = [
      { kind := .claim, slot := 65, lane := some 0, attempt := 2 }] ∧ t.slots.map.get 64 = some 9) ∧
    Completes .slotJudgment (lostClaim move live) (fun t => t.slots.claims = [
      { kind := .move, slot := 66, oldSlot := some 80, lane := some 0, attempt := 2 }] ∧
      t.highway.queue.map (·.name) = [.slotCell (.move 80 66)]) ∧
    Completes .slotJudgment orphan (fun t => t.slots.map.get 64 = none ∧
      t.slots.claims = [{ kind := .release, slot := 64 }] ∧ t.calls = orphan.calls ∧
      t.highway.queue.map (·.cell) = [broadcast live (.slot (.free 64))]) ∧
    Completes .cellCarried carried (fun t => t.slots.claims.map (·.carried) = [some 20, none] ∧
      t.highway.sent = none) :=
  ⟨⟨_, rfl, by decide +kernel⟩, ⟨_, rfl, by decide +kernel⟩, ⟨_, rfl, by decide +kernel⟩, ⟨_, rfl, by decide +kernel⟩⟩
/-- The section above is checked. -/
inductive ClaimSection where
  | checked

/-- Station 9 lost: 4021 and 4030 were located at it, 3100 is CONFIRMING at it from port 7, and 3107, homed at it, is
ADMITTED at port 6 with its renewal SENT. -/
def losingNine (s : State) : State :=
  { s with
    highway := { s.highway with
      presence := upd s.highway.presence 9 { state := .present, startTag := 3, missed := 3 } }
    calls := { s.calls with plan := upd s.calls.plan 9 (.present ⟨3000, 200⟩) } }

theorem witness_CensusesSetThePresenceTable_records :
    let at_ (n : Ext) (st : Station) (s : State) : State := withHome n (fun h => { h with location := some (st, 11) }) s
    let s : State := losingNine (at_ 4021 9 (at_ 4030 9 (at_ 4031 12 (withLogin 6 (.admitted 3107 2 43 .sent) (some 9)
      (withLogin 7 (.confirming 3100) (some 30) (withPort 7 id (withLogin 8 (.confirming 4050) (some 30) live)))))))
    (s.homeOf 3107 = some 9 ∧ s.homeOf 4050 = some 4 ∧ (s.homeRecord 4030).map (·.location) = some (some (9, 11)) ∧
      (s.highway.presence.get 9).missed = 3 ∧ s.censusOf 9 = none ∧ s.calls.plan.get 9 = .present ⟨3000, 200⟩) ∧
    Completes (.missedCensusLimit 9) s fun t =>
      t.homeRecord 4021 = some { location := none, rights := 2, barred := false, epoch := 8 } ∧
      (t.homeRecord 4031).map (fun h => (h.location, h.epoch)) = some (some (12, 11), 7) ∧
      t.highway.queue.map (·.cell) = [broadcast live (.admitChange 4021 .lost (some (9, 11)) 2 8),
        broadcast live (.admitChange 4030 .lost (some (9, 11)) 2 8)] ∧
      (t.login 6).entry = some { body := .admitted 3107 2 43 .none, timer := none } ∧
      (t.login 7).entry = none ∧ (t.port 7).outbound = [.loginResult .noHome] ∧ t.login 8 = s.login 8 :=
  ⟨by decide +kernel, _, rfl, by decide +kernel⟩

/-- R87: record 5 controls members at station 9 and others; all of them, all but one, and all but two stay. -/
theorem witness_CensusesSetThePresenceTable_conference :
    let with_ (ms : List Member) : State := losingNine
      (conferenceOfThree.setConf 0 (some { controller := 5, members := ms }))
    let atNine : Member := { memberTwelve with station := 9 }
    let alone : State := (with_ [memberNine, atNine]).setListen 1
      { listenOne with owner := 5, ownerTag := ⟨5, 12⟩, talker := 9 }
    ((∀ q : RecordId, ((with_ [memberNine]).call? q).bind (·.farStation) = none) ∧
      (with_ [memberNine]).talk? 0 = some talkZero ∧ (with_ [memberNine]).listen? 0 = some listenZero ∧
      (with_ [memberNine]).listen? 1 = some { listenOne with owner := 5, ownerTag := ⟨5, 12⟩ } ∧
      (∀ l : ListenId, l ≠ 0 → l ≠ 1 → (with_ [memberNine]).listen? l = none) ∧
      (∀ i : QueryId, ((with_ [memberNine]).adm.queries.get i).query = none) ∧
      (with_ [memberNine]).highway.queue = []) ∧
    Completes (.missedCensusLimit 9) alone (fun t => t.calls.confs.get 0 = none ∧ t.call? 5 = none ∧
      t.talk? 0 = none ∧ t.listen? 1 = none ∧ t.highway.queue.map (·.cell) = [broadcast live (.slot (.free 64))]) ∧
    Completes (.missedCensusLimit 9) (with_ [memberNine, memberTwelve]) (fun t => t.calls.confs.get 0 = none ∧
      (t.call? 5).map (fun k => (k.confRole, k.state, k.farStation, k.listenLanes)) =
        some (.none, .connected, some 12, [1]) ∧
      t.highway.queue.map (fun q => (q.cell.dest, q.cell.sender, q.cell.receiver, q.cell.body.kind)) =
        [(.one 12, ⟨6, 5⟩, ⟨8, 33⟩, 0x25)]) ∧
    Completes (.missedCensusLimit 9) (with_ [memberSeven, memberNine, memberTwelve]) (fun t =>
      t.calls.confs.get 0 = some { controller := 5, members := [memberSeven, memberTwelve] } ∧
      (t.call? 5).map (fun k => (k.confRole, k.state)) = some (.controller, .connected) ∧
      t.highway.queue.map (fun q => (q.cell.dest, q.cell.sender, q.cell.receiver, q.cell.body.kind)) =
        [(.one 7, ⟨7, 9⟩, ⟨3, 40⟩, 0x25), (.one 12, ⟨6, 5⟩, ⟨8, 33⟩, 0x25)]) :=
  ⟨by decide +kernel, ⟨_, rfl, by decide +kernel⟩, ⟨_, rfl, by decide +kernel⟩, ⟨_, rfl, by decide +kernel⟩⟩

/-- R141: a MEMBER of a conference whose controller is at 9 loses its lane on station 12. -/
theorem witness_CensusesSetThePresenceTable_member :
    let s : State := { losingNine ((withFive { callFive with confRole := .member, listenLanes := [0, 1] }
      (user 2 id live)).setListen 1 { listenOne with owner := 5, ownerTag := ⟨5, 12⟩ }) with
        highway := { live.highway with
          presence := upd live.highway.presence 12 { state := .present, startTag := 3, missed := 3 } }
        calls := { (withFive { callFive with confRole := .member, listenLanes := [0, 1] } (user 2 id live)).calls with
          plan := upd live.calls.plan 12 (.present ⟨3200, 100⟩) } }
    (s.censusOf 12 = none ∧ s.calls.plan.get 12 = .present ⟨3200, 100⟩) ∧
    Completes (.missedCensusLimit 12) s fun t => t.listen? 1 = none ∧
      (t.call? 5).map (fun k => (k.confRole, k.state, k.listenLanes)) = some (.member, .connected, [0]) :=
  ⟨by decide +kernel, _, rfl, by decide +kernel⟩

/-- R78, R82, R83: TRANSFER with a conference on top; CONFERENCE with a member on top, without the right, without a FREE
entry, with a controller of three members at the front and on top, and with two controllers. -/
theorem witness_RefusedKeysGiveABurst_conference :
    let refusedAt (i : Instr) (s : State) : Prop := Completes i s fun t =>
      (t.callPort 6).burst = some 25 ∧ (t.port 6).tone = .reorder ∧ t.calls.records = s.calls.records ∧
      t.calls.confs = s.calls.confs ∧ t.highway = s.highway
    let top (role : ConfRole) (k : FeatureKey) : State :=
      (twoCalls (pressed k)).modCall 5 fun c => { c with confRole := role }
    let three := [memberNine, memberTwelve, memberSeven]
    let two : State := (controllerAnd .held .connected [memberNine, memberTwelve]).modCall 7
      fun k => { k with confRole := .controller }
    ((top .controller .transferKey).front 6 = some 6 ∧ ((top .controller .transferKey).callPort 6).stack = [5] ∧
      (controllerAnd .held .connected three).front 6 = some 7 ∧
      (controllerAnd .connected .held three).front 6 = some 5) ∧
    refusedAt (.transfer 6) (top .controller .transferKey) ∧ refusedAt (.transfer 6) (top .member .transferKey) ∧
    refusedAt (.conference 6) (top .member .conferenceKey) ∧
    refusedAt (.conference 6) (withLogin 6 (.admitted 4021 1 43 .none) none (twoCalls (pressed .conferenceKey))) ∧
    refusedAt (.conference 6) ({ twoCalls (pressed .conferenceKey) with
      calls := { (twoCalls (pressed .conferenceKey)).calls with
        confs := Vector.replicate 6 (some { controller := 63, members := [] }) } }) ∧
    refusedAt (.conference 6) (controllerAnd .held .connected three) ∧
    refusedAt (.conference 6) (controllerAnd .connected .held three) ∧ refusedAt (.conference 6) two :=
  ⟨by decide +kernel, ⟨_, rfl, by decide +kernel⟩, ⟨_, rfl, by decide +kernel⟩, ⟨_, rfl, by decide +kernel⟩,
    ⟨_, rfl, by decide +kernel⟩, ⟨_, rfl, by decide +kernel⟩, ⟨_, rfl, by decide +kernel⟩, ⟨_, rfl, by decide +kernel⟩,
    ⟨_, rfl, by decide +kernel⟩⟩

/-- R140: what does not rest on the free values. The counters of a LOCKED lane at their
largest and of a frozen one; of a PROVING one; and of one under an overdue key. R139: three lanes that pass. -/
theorem witness_VoiceIsWrittenReadAndSummed_counters :
    let bus : List (Byte × Bool) := List.replicate 256 (0x2A, true)
    let lane (f : ListenLane → ListenLane) : State := oneCall.setListen 0 (f listenZero)
    let full : Counters := { frames := 4294967295, markErrors := 65535, provingBits := 65535, provingErrors := 65535 }
    let overdue : ListenRequest :=
      { isFirst := false, talker := 9, partner := 4, count := 1, countdown := some 0 }
    let three : State := ((oneCall.modCall 5 fun k => { k with listenLanes := [0, 1, 2] }).setListen 1
      { listenOne with owner := 5 }).setListen 2 { listenOne with owner := 5, slot := 193 }
    (listenZero.overdue = false ∧ (three.call? 5).map (·.listenLanes) = some [0, 1, 2]) ∧
    Completes (.readingTheSlot bus) (lane fun t => { t with counters := full }) (fun t =>
      (t.listen? 0).map (fun l => (l.counters.frames, l.counters.provingBits)) = some (4294967295, 65535)) ∧
    Completes (.readingTheSlot bus) (lane fun t => { t with frozen := true }) (fun t =>
      (t.listen? 0).map (fun l => (l.framesRead, l.counters)) = some (1, {})) ∧
    Completes (.readingTheSlot bus) (lane fun t => { t with state := .proving }) (fun t =>
      (t.listen? 0).map (fun l => (l.framesRead, l.counters.frames, l.counters.provingBits)) = some (1, 1, 8)) ∧
    Completes (.readingTheSlot bus) (lane fun t => { t with request := some overdue }) (fun t =>
      (t.listen? 0).map (fun l => (l.framesRead, l.counters)) = some (0, {})) ∧
    Completes (.readingTheSlot bus) three (fun t => (t.port 5).listenSample = 0) ∧
    clampSample (50 + 60 + 70) = 127 ∧ clampSample (-50 + -60 + -70) = -128 ∧ clampSample (50 + -60 + 70) = 60 :=
  ⟨by decide +kernel, ⟨_, rfl, by decide +kernel⟩, ⟨_, rfl, by decide +kernel⟩, ⟨_, rfl, by decide +kernel⟩,
    ⟨_, rfl, by decide +kernel⟩, ⟨_, rfl, by decide +kernel⟩, by decide, by decide, by decide⟩

/-- The section above is checked. -/
inductive ClearingSection where
  | checked

/-! ### Cells (spec 12), written out by the kind and field tables -/

def offerBody : Body := .callOffer 4021 907 0 64 0x0102030405060708 [3, 1, 0]

theorem test_callOffer_bytes :
    (cellFrom live 7 ⟨5, 12⟩ Tag.absent offerBody).encode.take 28 = [0x20, 4, 7, 0, 5, 12, 0xFF, 0xFF,
      0x0F, 0xB5, 0x03, 0x8B, 0, 0, 0, 64, 1, 2, 3, 4, 5, 6, 7, 8, 3, 0x31, 0x00, 0] := by decide +kernel

theorem test_confSet_bytes :
    (cellFrom live 9 ⟨5, 12⟩ ⟨2, 0x1F⟩ (.confSet 1 placesOfThree)).encode.take 29 = [0x25, 4, 9, 0, 5, 12, 2, 0x1F,
      0, 0, 0, 0, 0, 0, 0, 1, 3, 12, 8, 33, 192, 9, 2, 0x1F, 144, 4, 5, 12, 64] := by decide +kernel

theorem test_keyNext_bytes :
    ({ broadcast live (.keyNext 64 4 9 3 2) with sender := ⟨5, 12⟩ } : Cell).encode.take 28 =
      [0x30, 4, 0xFF, 0, 5, 12, 0xFF, 0xFF, 64, 0, 0, 0, 0, 0, 0, 0, 4, 0, 0, 0, 0, 0, 0, 0, 9, 0, 3, 2] := by
  decide +kernel

/-- RENEW is bit 1 and MOVE bit 2 of the flags. -/
theorem test_admitTell_bytes :
    ({ cellFrom live 12 Tag.absent ⟨3, 9⟩ (.admitTell 4021 .admitted (some (12, 3)) 2 8) with
        move := true, renew := true } : Cell).encode.take 16 =
      [0x11, 4, 12, 6, 0xFF, 0xFF, 3, 9, 0x0F, 0xB5, 1, 12, 3, 2, 0, 8] := by decide +kernel

/-- Kind codes without a row, and field values out of range, are refused (R187). -/
theorem test_decode_refusals :
    decodeBody [0x05] = none ∧ decodeBody [0x43] = none ∧ decodeDest 16 = none ∧ decodeDest 254 = none ∧
    decodeBody [0x10, 0, 0, 0, 0, 0, 0, 0, 0x27, 0x10] = none ∧ decodeBody [0x23, 0, 0, 0, 0, 0, 0, 0, 0x14] = none ∧
    decodeBody ([0x25] ++ List.replicate 15 0 ++ [5]) = none ∧ decodeBody ([0x30] ++ List.replicate 26 0 ++ [3]) = none ∧
    (decodeBody [0x10, 0, 0, 0, 0, 0, 0, 0, 0x27, 0x0F]).isSome = true := by decide +kernel

theorem witness_DecodeOfEncodeIsTheCell :
    (cellFrom live 7 ⟨5, 12⟩ Tag.absent offerBody).Fits ∧
    decodeCell 4 (cellFrom live 7 ⟨5, 12⟩ Tag.absent offerBody).encode =
      some (cellFrom live 7 ⟨5, 12⟩ Tag.absent offerBody) :=
  ⟨⟨⟨by decide, by decide, by decide⟩, by decide, by decide, by decide, by decide⟩, by decide +kernel⟩

/-- What the spec gives the capacities at reset: queue, FIFO and cache empty, counters 0 (R21, R123, R156, R172). -/
theorem witness_EveryStepKeepsTheCapacities :
    State.reset.highway.queue = [] ∧ (State.reset.port 23).digits = [] ∧ State.reset.adm.cache = [] ∧
    (∀ k : Fin 12, State.reset.highway.counters.get k = 0) ∧ step State.reset = .next State.reset.idle :=
  ⟨rfl, by decide +kernel, rfl, by decide +kernel, rfl⟩

/-- The capacities hold with two calls, one of them HELD. -/
theorem witness_EveryStepKeepsTheCapacities_twoCalls : Capacities (twoCalls id) := by
  have calls : ∀ r : RecordId, (twoCalls id).call? r =
      if r = 5 then some { callFive with state := .held } else if r = 6 then some callSix else none := by decide +kernel
  have noConf : ∀ e : ConfId, (twoCalls id).calls.confs.get e = none := by decide +kernel
  have image : ∀ im, (twoCalls id).station.image = some im → im = imageFour := fun im h => (Option.some.inj h).symm
  have empty : (twoCalls id).highway.store = [] := rfl
  refine ⟨⟨by decide +kernel, by decide +kernel, by decide +kernel, by decide +kernel, by decide +kernel⟩,
    ⟨by decide +kernel, by simp [empty], ?_, ?_, ?_, by simp [empty], fun _ => empty⟩,
    fun p => ⟨?_, ?_, ?_, ?_, ?_, ?_, ?_⟩, ⟨by decide +kernel, by decide +kernel, by decide +kernel⟩,
    ⟨by decide +kernel, fun _ => by decide +kernel⟩, ⟨by decide +kernel, by decide +kernel, ?_⟩,
    ⟨?_, ?_, ?_⟩, ?_, ⟨by decide +kernel, by decide +kernel⟩, by decide +kernel⟩
  · intro im h c; rw [image im h]; cases c <;> decide
  · intro im h c; rw [image im h]; cases c <;> decide +kernel
  · intro im h; rw [image im h]; decide +kernel
  · revert p; decide +kernel
  · revert p; decide +kernel
  · revert p; decide +kernel
  · revert p; decide +kernel
  · revert p; decide +kernel
  · revert p; decide +kernel
  · revert p; decide +kernel
  · intro p r
    rw [calls]
    have stack : ((twoCalls id).callPort p).stack = if p = 6 then [5] else [] := by revert p; decide +kernel
    rw [stack]
    clear stack calls noConf image empty
    split
    · by_cases h5 : r = 5
      · simp [callFive, *]
      · by_cases h6 : r = 6 <;> simp [h5, h6, callSix]
    · by_cases h5 : r = 5
      · simp [callFive, eq_comm, *]
      · by_cases h6 : r = 6 <;> simp [h5, h6, callSix]
  · intro e c h; simp [noConf] at h
  · intro e c h; simp [noConf] at h
  · intro e e' c c' h; simp [noConf] at h
  · intro r k h
    rw [calls] at h
    split at h
    · cases h; subst r
      exact ⟨by decide, by decide, by decide +kernel, by decide, fun _ => by decide +kernel, by decide, by decide,
        by decide, by decide, by decide⟩
    · split at h
      · cases h; subst r
        exact ⟨by decide, by decide, by decide +kernel, by decide, fun _ => by decide +kernel, by decide, by decide,
          by decide, by decide, by decide⟩
      · cases h

/-- The section above is checked. -/
inductive CellSection where
  | checked

end Sys2Proof.Tests
end

