-- ==== Sys2Proof/Proofs/Capacities.lean ====
section
/-! PROOF. The capacities are not kept by every step: a CONTROLLER record that waits in CLEARING (R81, R86). -/

namespace Sys2Proof.Machine

open Sys2Proof

/-- A call that is CLEARING, waits for one more cell, and is still of conference role CONTROLLER. -/
def clearingControllerCall : Call :=
  { state := .clearing, port := 0, ownExt := 4000, role := .caller, confRole := .controller, clears := 1 }

/-- The conference of two members that record 0 controls. -/
def conferenceOfTwo : Conf :=
  { controller := 0
    members := [{ station := 1, tag := ⟨0, 0⟩, slot := 0, link := ⟨0, 0⟩ },
      { station := 2, tag := ⟨0, 0⟩, slot := 1, link := ⟨0, 0⟩ }] }

/-- The state after reset, but for one CLEARING record that controls a conference and whose last CALL-CLEAR the own
window has just carried. -/
def clearingController : State :=
  { State.reset with
    calls := { State.reset.calls with
      records := upd State.reset.calls.records 0 { call := some clearingControllerCall }
      confs := upd State.reset.calls.confs 0 (some conferenceOfTwo) }
    highway := { State.reset.highway with
      sent := some { cell := { source := 0, dest := .one 1, body := .callClear .confEnded }, name := .clearing 0 0 } }
    pending := [.cellCarried] }

theorem call_clearingController (r : RecordId) :
    clearingController.call? r = if r = 0 then some clearingControllerCall else none := by
  simp only [State.call?, State.record, clearingController, upd_get]
  split <;> simp [State.reset, Vector.get_eq_getElem]

theorem conf_clearingController (e : ConfId) :
    clearingController.calls.confs.get e = if e = 0 then some conferenceOfTwo else none := by
  simp only [clearingController, upd_get]
  split <;> simp [State.reset, Vector.get_eq_getElem]

/-- Nothing in the capacities binds the state of a CONTROLLER record, so this state meets them. -/
theorem clearingController_capacities : Capacities clearingController where
  highway := ⟨by decide, by decide, by decide, fun k => by simp [clearingController, State.reset, Vector.get_eq_getElem],
    fun st => by simp [clearingController, State.reset, Vector.get_eq_getElem]⟩
  store := ⟨by decide, by simp [clearingController, State.reset], nofun, nofun, nofun,
    by simp [clearingController, State.reset], fun _ => rfl⟩
  ports := fun p => by
    have port : clearingController.port p = {} := by
      simp [State.port, clearingController, State.reset, Vector.get_eq_getElem]
    rw [port]
    exact ⟨by decide, by decide, by decide, by decide, by decide, by decide, by decide⟩
  admission := ⟨fun p => by simp [State.login, clearingController, State.reset, Vector.get_eq_getElem], by decide,
    by decide⟩
  scrambler := ⟨by decide, fun _ => List.nodup_nil⟩
  held := by
    have stack (p : Port) : (clearingController.callPort p).stack = [] := by
      simp [State.callPort, clearingController, State.reset, Vector.get_eq_getElem]
    refine ⟨fun p => by simp [stack], fun p => by simp [stack], fun p r => ?_⟩
    rw [stack, call_clearingController]
    by_cases h : r = 0 <;> simp [h, clearingControllerCall]
  conferences := by
    refine ⟨fun e c h => ?_, fun e c h => ?_, fun e e' c c' h h' _ => ?_⟩ <;> rw [conf_clearingController] at h
    · obtain ⟨-, rfl⟩ : e = 0 ∧ conferenceOfTwo = c := by simpa using h
      decide
    · obtain ⟨-, rfl⟩ : e = 0 ∧ conferenceOfTwo = c := by simpa using h
      exact ⟨clearingControllerCall, by rw [call_clearingController]; rfl, rfl⟩
    · rw [conf_clearingController] at h'
      have he : e = 0 ∧ conferenceOfTwo = c := by simpa using h
      have he' : e' = 0 ∧ conferenceOfTwo = c' := by simpa using h'
      rw [he.1, he'.1]
  records := fun r k h => by
    rw [call_clearingController] at h
    obtain ⟨rfl, rfl⟩ : r = 0 ∧ clearingControllerCall = k := by simpa using h
    refine ⟨by decide, by decide, by simp [clearingControllerCall], by simp [clearingControllerCall], nofun, nofun,
      fun _ => ⟨0, conferenceOfTwo, by rw [conf_clearingController]; rfl, rfl, ?_⟩, nofun, by decide, nofun⟩
    simp [heardBy, clearingControllerCall, List.nil_subperm]
  slots := by
    have free (x : Slot) : clearingController.slots.map.get x = none := by
      simp [clearingController, State.reset, Vector.get_eq_getElem]
    exact ⟨fun x h => by simp [free] at h, fun _ => free⟩
  loaded := ⟨fun _ => .inl rfl, fun _ => rfl⟩

/-- The carried report frees the record, and its conference stays behind with a FREE controller. -/
theorem step_clearingController :
    step clearingController = .next ({ clearingController with
      pending := [], highway := { clearingController.highway with sent := none } }.freeRecord 0) := by
  rfl

/-- Refutes O59: nothing in the capacities binds the state of a CONTROLLER record. One that waits in CLEARING for its
last carried cell becomes FREE with CELL_CARRIED, and its conference keeps a FREE controller. -/
theorem not_everyStepKeepsTheCapacities : ¬ Obligations.EveryStepKeepsTheCapacities := by
  unfold Obligations.EveryStepKeepsTheCapacities
  intro keeps
  have after := keeps _ _ clearingController_capacities step_clearingController
  obtain ⟨k, hk, -⟩ := after.conferences.controlled 0 conferenceOfTwo (conf_clearingController 0)
  have free : State.call? _ 0 = none := State.call_freeRecord_same 0 { clearingController with
      pending := [], highway := { clearingController.highway with sent := none } }
  rw [show conferenceOfTwo.controller = 0 from rfl, free] at hk
  cases hk

end Sys2Proof.Machine
end

