-- ==== Sys2Proof/Proofs/Resets.lean ====
section
/-! PROOF. Logins, home records, cache and queries after the resets (R21, R34). -/

namespace Sys2Proof.Machine

open Sys2Proof

/-- Faults of a load touch no table of the Admission Unit. -/
theorem overlapFaults_adm (n : Nat) (s : State) : (s.overlapFaults n).adm = s.adm := by
  induction n generalizing s with
  | zero => rfl
  | succ n ih => exact ih _

/-- The image's distribution gives every number of the own range a home record of the image's class. -/
theorem distribute_homes (im : Image) (s : State) :
    (s.distribute im).adm.homes = List.replicate im.range.length
      { location := none, rights := im.defaultRights, barred := false, epoch := 0 } := by
  simp only [State.distribute, State.drawNonce_eq, overlapFaults_adm]

/-- The carried reply of a RESTART that is due brings the warm reset (R178, R184). -/
theorem cellCarried_restart {s : State} {q : Queued} {im : Image} (sent : s.highway.sent = some q)
    (name : q.name = .restartReply) (active : s.station.state = .active) (due : s.maint.restartDue = true)
    (image : s.station.image = some im) :
    s.cellCarried = (s.setHighway { s.highway with sent := none }).warmValues im := by
  simp [State.cellCarried, sent, State.carriedReport, name, State.active, active, due, State.warmReset, image]

/-- Settles O4, by the values that each kind of reset writes. -/
theorem admissionResetValues : Obligations.AdmissionResetValues := by
  unfold Obligations.AdmissionResetValues
  intro s q im bytes
  refine ⟨⟨_, rfl, ?_⟩, fun loading image => ⟨_, rfl, ?_⟩, fun sent name active due image => ⟨_, rfl, ?_⟩⟩
  · refine ⟨fun p => ?_, rfl, rfl, fun i => ?_, rfl⟩ <;>
      simp [State.coldReset, State.reset, State.login, Vector.get_eq_getElem]
  · have run : s.readCompletion bytes = s.distribute im := by simp [State.readCompletion, loading, image]
    dsimp only
    rw [run, distribute_homes]
    refine ⟨List.length_replicate, fun h mem => ?_⟩
    obtain rfl := List.eq_of_mem_replicate mem
    exact ⟨rfl, rfl, rfl, rfl⟩
  · dsimp only
    rw [cellCarried_restart sent name active due image]
    refine ⟨fun p => ?_, by simp [State.warmValues], fun i h home => ?_, rfl, fun i => ?_, rfl, rfl⟩
    · simp [State.warmValues, State.login, Vector.get_eq_getElem]
    · simp [State.warmValues, home, HomeRecord.afterWarm]
    · simp [State.warmValues, Vector.get_eq_getElem]

end Sys2Proof.Machine
end

