-- ==== Sys2Proof/Proofs/Sequencer.lean ====
section
/-! PROOF. An idle step is one place of the frame sequencer (log 1, log 8): one lemma for each place that brings more
than one command. -/

namespace Sys2Proof.Machine

open Sys2Proof

/-! ### The expiries of a boundary come once each (log 63) -/

theorem loginExpiry_sub {s : State} {p : Port} {c : Instr} (h : c ∈ s.loginExpiry p) :
    c ∈ [.challengingTimerExpiry p, .confirmingTimerExpiry p, .renewalTimerExpiry p, .lockoutTimerExpiry p] := by
  unfold State.loginExpiry at h
  rw [List.mem_append, mem_when] at h
  rcases h with h | h
  · split at h <;> simp_all
  · simp [h.2]

theorem queryExpiry_sub {s : State} {i : QueryId} {c : Instr} (h : c ∈ s.queryExpiry i) : c = .queryTimerExpiry i := by
  unfold State.queryExpiry at h
  split at h <;> simp_all

theorem recordExpiry_sub {s : State} {r : RecordId} {c : Instr} (h : c ∈ s.recordExpiry r) :
    c ∈ [.digitTimerExpiry r, .onwardPauseExpiry r, .answerTimerExpiry r, .ringingTimerExpiry r,
      .alertingTimerExpiry r, .recallTimerExpiry r] := by
  unfold State.recordExpiry at h
  split at h
  · split at h
    · split at h
      · split at h <;> simp_all
      all_goals simp_all
    · simp at h
  · simp at h

theorem when_nodup (due : Bool) (i : Instr) : (when_ due i).Nodup := by
  cases due <;> simp [when_]

theorem loginExpiry_nodup (s : State) (p : Port) : (s.loginExpiry p).Nodup := by
  unfold State.loginExpiry
  refine List.nodup_append.2 ⟨by split <;> simp, when_nodup _ _, fun a ha b hb => ?_⟩
  obtain ⟨-, rfl⟩ := (mem_when _ _ _).1 hb
  split at ha <;> simp_all

theorem queryExpiry_nodup (s : State) (i : QueryId) : (s.queryExpiry i).Nodup := by
  unfold State.queryExpiry
  split <;> simp

theorem recordExpiry_nodup (s : State) (r : RecordId) : (s.recordExpiry r).Nodup := by
  unfold State.recordExpiry
  split
  · split
    · split <;> simp
    · simp
  · simp

/-- Lists that name their index stay free of repetitions when they are joined over all indexes. -/
theorem nodup_flatMap_finRange {n : Nat} (f : Fin n → List Instr) (each : ∀ i, (f i).Nodup)
    (apart : ∀ i j c, c ∈ f i → c ∈ f j → i = j) : ((List.finRange n).flatMap f).Nodup := by
  refine List.nodup_flatMap.2 ⟨fun i _ => each i, ?_⟩
  refine (List.nodup_finRange n).imp fun {i j} ne c hi hj => ne (apart i j c hi hj)

theorem expiries_nodup (s : State) : s.expiries.Nodup := by
  have logins : ((List.finRange 24).flatMap s.loginExpiry).Nodup :=
    nodup_flatMap_finRange _ (loginExpiry_nodup s) fun i j c hi hj => by
      have := loginExpiry_sub hi
      have := loginExpiry_sub hj
      aesop
  have queries : ((List.finRange 4).flatMap s.queryExpiry).Nodup :=
    nodup_flatMap_finRange _ (queryExpiry_nodup s) fun i j c hi hj => by
      have := (queryExpiry_sub hi).symm.trans (queryExpiry_sub hj)
      simpa using this
  have records : ((List.finRange 64).flatMap s.recordExpiry).Nodup :=
    nodup_flatMap_finRange _ (recordExpiry_nodup s) fun i j c hi hj => by
      have := recordExpiry_sub hi
      have := recordExpiry_sub hj
      aesop
  have bursts : ((List.finRange 24).flatMap fun p =>
      when_ ((s.callPort p).burst == some 0) (.burstTimerExpiry p)).Nodup :=
    nodup_flatMap_finRange _ (fun p => when_nodup _ _) fun i j c hi hj => by
      have := ((mem_when _ _ _).1 hi).2.symm.trans ((mem_when _ _ _).1 hj).2
      simpa using this
  unfold State.expiries
  simp only [List.nodup_append, List.mem_append, List.mem_flatMap, List.mem_finRange, true_and]
  refine ⟨⟨⟨logins, queries, ?_⟩, records, ?_⟩, bursts, ?_⟩
  · rintro a ⟨p, hp⟩ b ⟨i, hi⟩ rfl
    have := loginExpiry_sub hp
    have := queryExpiry_sub hi
    aesop
  · rintro a (⟨p, hp⟩ | ⟨i, hi⟩) b ⟨r, hr⟩ rfl
    · have := loginExpiry_sub hp
      have := recordExpiry_sub hr
      aesop
    · have := queryExpiry_sub hi
      have := recordExpiry_sub hr
      aesop
  · rintro a ((⟨p, hp⟩ | ⟨i, hi⟩) | ⟨r, hr⟩) b ⟨q, hq⟩ rfl
    · have := loginExpiry_sub hp
      aesop
    · have := queryExpiry_sub hi
      aesop
    · have := recordExpiry_sub hr
      aesop

/-! ### Lanes at a boundary (R112 to R138) -/

/-- A talk lane in use passes the boundary, and then what the boundary makes due at it. -/
theorem talkCommands_spec {s : State} {l : TalkId} {t : TalkLane} (lane : s.talk? l = some t) :
    ∃ due, s.talkCommands l = .talkLaneBoundary l :: due ∧ ∀ c, c ∈ due ↔ TalkLaneDue s l t c := by
  simp only [State.talkCommands, lane, List.cons_append, List.nil_append, List.append_assoc]
  refine ⟨_, rfl, fun c => ?_⟩
  simp only [List.mem_append, mem_when, TalkLaneDue]
  rw [← or_assoc]
  refine or_congr ?_ (or_congr ?_ (or_congr ?_ (or_congr ?_ ?_)))
  · rcases t.staged with - | g
    · simp
    · rcases hc : g.countdown with - | b <;> simp [hc]
      tauto
  · simp [and_assoc]
  · rcases s.station.image with - | im <;> simp [saturate]
    tauto
  · simp [Option.isSome_iff_ne_none, and_assoc]
  · rcases t.staged with - | g <;> simp
    tauto

/-- A listen lane in use passes the boundary under the name of the limit it meets, and then may ask for its first key. -/
theorem listenCommands_spec {s : State} {l : ListenId} {t : ListenLane} (lane : s.listen? l = some t) :
    ∃ c ∈ [Instr.lowFigureLimit l, .recoveryLimit l, .waitkeyTimerExpiry l, .syncAskTimerExpiry l, .listenKeySwap l,
        .listenLaneBoundary l],
      s.listenCommands l = c :: (if t.awaitsFirstRequest = true then [.listenFirstKeyRetry l] else []) ∧
      (c = .lowFigureLimit l → s.lowFigureDue t = true) ∧ (c = .recoveryLimit l → s.recoveryDue t = true) ∧
      (c = .waitkeyTimerExpiry l → s.waitkeyDue t = true) ∧ (c = .syncAskTimerExpiry l → s.syncAskDue t = true) ∧
      (c = .listenKeySwap l → s.listenSwapDue t = true) ∧
      (c = .listenLaneBoundary l → s.lowFigureDue t = false ∧ s.recoveryDue t = false ∧ s.waitkeyDue t = false ∧
        s.syncAskDue t = false ∧ s.listenSwapDue t = false) := by
  simp only [State.listenCommands, lane, when_]
  split
  · exact ⟨.lowFigureLimit l, by simp, rfl, by simp_all⟩
  split
  · exact ⟨.recoveryLimit l, by simp, rfl, by simp_all⟩
  split
  · exact ⟨.waitkeyTimerExpiry l, by simp, rfl, by simp_all⟩
  split
  · exact ⟨.syncAskTimerExpiry l, by simp, rfl, by simp_all⟩
  split
  · exact ⟨.listenKeySwap l, by simp, rfl, by simp_all⟩
  · exact ⟨.listenLaneBoundary l, by simp, rfl, by simp_all⟩

/-! ### The judgment of frame 0 (R167, R168) -/

theorem mem_peers {s : State} {st : Station} : st ∈ s.peers ↔ st ≠ s.self := by
  simp [State.peers]

theorem pairwise_lt_filter_finRange {n : Nat} (p : Fin n → Bool) : ((List.finRange n).filter p).Pairwise (· < ·) :=
  (List.pairwise_lt_finRange n).filter p

/-- A station is below the first of an ascending list exactly when it is below every one in it. -/
theorem below_head_iff (st : Station) (l : List Station) : l.Pairwise (· < ·) → ((match l with
      | c :: _ => decide (st < c)
      | [] => true) = true ↔ ∀ c ∈ l, st < c) := by
  intro ascending
  cases l with
  | nil => simp
  | cons c rest =>
    have later := (List.pairwise_cons.1 ascending).1
    simp only [decide_eq_true_eq, List.mem_cons, forall_eq_or_imp]
    exact ⟨fun h => ⟨h, fun d hd => h.trans (later d hd)⟩, And.left⟩

/-- A peer from which no census came is lost exactly when it is PRESENT and this is the fourth miss (R167). -/
theorem finding_lost_of_missed {s : State} {st : Station} (h : s.censusOf st = none) :
    (s.finding st).lost = true ↔
      (s.highway.presence.get st).state = .present ∧ 3 ≤ (s.highway.presence.get st).missed := by
  unfold State.finding presenceFinding
  rw [h]
  cases hs : (s.highway.presence.get st).state with
  | present =>
    dsimp only
    split
    · simp; omega
    · simp; omega
  | unknown => simp
  | absent => simp

theorem missedPeers_ascending (s : State) : s.missedPeers.Pairwise (· < ·) :=
  (pairwise_lt_filter_finRange _).filter _

theorem mem_missedPeers {s : State} {st : Station} : st ∈ s.missedPeers ↔ st ≠ s.self ∧ s.censusOf st = none ∧
    (s.highway.presence.get st).state = .present ∧ 3 ≤ (s.highway.presence.get st).missed ∧
    ∀ st', st' ≠ s.self → s.censusOf st' ≠ none → (s.finding st').lost = true → st < st' := by
  have ascending : (s.peers.filter fun st => (s.censusOf st).isSome && (s.finding st).lost).Pairwise (· < ·) :=
    (pairwise_lt_filter_finRange _).filter _
  have mem {c : Station} : c ∈ s.peers.filter (fun st => (s.censusOf st).isSome && (s.finding st).lost) ↔
      c ≠ s.self ∧ s.censusOf c ≠ none ∧ (s.finding c).lost = true := by
    simp [mem_peers, Option.isSome_iff_ne_none]
  simp only [State.missedPeers, List.mem_filter, mem_peers, Bool.and_eq_true, Option.isNone_iff_eq_none]
  generalize s.peers.filter (fun st => (s.censusOf st).isSome && (s.finding st).lost) = changed at ascending mem
  constructor
  · rintro ⟨peer, ⟨missed, lost⟩, first⟩
    obtain ⟨present, third⟩ := (finding_lost_of_missed missed).1 lost
    exact ⟨peer, missed, present, third, fun c hc heard hl => (below_head_iff st _ ascending).1 first c (mem.2 ⟨hc, heard, hl⟩)⟩
  · rintro ⟨peer, missed, present, third, first⟩
    exact ⟨peer, ⟨missed, (finding_lost_of_missed missed).2 ⟨present, third⟩⟩, (below_head_iff st _ ascending).2 fun c h =>
      first c (mem.1 h).1 (mem.1 h).2.1 (mem.1 h).2.2⟩

/-! ### The places of the frame -/

/-- What a stage does by itself makes no difference to what it makes due. -/
theorem stageCommands_stageEffect (s : State) : s.stageEffect.stageCommands = s.stageCommands := by
  by_cases start : s.clock.stage = .frameStart
  · have same : s.beginFrame.clock = s.clock := rfl
    rw [stageEffect_frameStart start]
    simp only [State.stageCommands, same, start]
    rfl
  · by_cases tick : s.clock.stage = .tick
    · simp [State.stageCommands, stageEffect_clock, tick]
    · rw [stageEffect_eq_self s start (.inl tick)]

theorem when_decide (due : Prop) [Decidable due] (i : Instr) : when_ (decide due) i = if due then [i] else [] := by
  simp [when_]

theorem placeBrings (s : State) : PlaceBrings s s.stageCommands where
  frameStart h := by simp [State.stageCommands, h, State.active, when_decide]
  sendSets h p hp := by simp [State.stageCommands, h, atIndex_eq s _ hp, when_]
  missing h p hp := by simp [State.stageCommands, h, atIndex_eq s _ hp, when_]
  tick h := by simp [State.stageCommands, h]
  expiries h := by
    simp only [State.stageCommands, h, decide_eq_true_eq]
    refine ⟨fun boundary => ?_, fun other => by simp [other]⟩
    rw [if_pos boundary]
    exact ⟨expiries_nodup s, mem_expiries s⟩
  carried h := by cases hs : s.highway.sent <;> simp [State.stageCommands, h, hs, when_]
  mixer h := by cases hs : s.scr.mixer <;> simp [State.stageCommands, h, hs, when_]
  talkBoundary h l hl := by
    simp only [State.stageCommands, h, decide_eq_true_eq, atIndex_eq s _ hl]
    refine ⟨?_, fun t boundary lane => ?_⟩
    · rintro (other | free)
      · simp [other]
      · simp [State.talkCommands, free]
    · rw [if_pos boundary]
      exact talkCommands_spec lane
  listenBoundary h l hl := by
    simp only [State.stageCommands, h, decide_eq_true_eq, atIndex_eq s _ hl]
    refine ⟨?_, fun t boundary lane => ?_⟩
    · rintro (other | free)
      · simp [other]
      · simp [State.listenCommands, free]
    · rw [if_pos boundary]
      exact listenCommands_spec lane
  judge h := by
    simp only [State.stageCommands, h, State.judgeCommands]
    refine ⟨fun deaf => by simp [deaf], fun hears other => by simp [hears, other], fun hears first => ?_⟩
    exact ⟨s.missedPeers, by simp [hears, first], missedPeers_ascending s, fun _ => mem_missedPeers⟩
  claims h l hl := by
    simp only [State.stageCommands, h, atIndex_eq s _ hl]
    refine ⟨?_, fun none_ => ?_⟩
    · rintro ⟨e, he, refused, fresh⟩
      simp [he, refused, fresh, when_]
    · cases he : s.claimOf l with
      | none => simp [when_]
      | some e => rcases none_ e he with h | h <;> simp [h, when_]
  refuse h := by simp [State.stageCommands, h, List.map_const']
  training h p hp := by
    simp only [State.stageCommands, h, atIndex_eq s _ hp, decide_eq_true_eq, State.trainingCommand, State.goodLimitDue,
      State.badLimitDue, goodSuperframe, Bool.and_eq_true]
    refine ⟨fun other => ?_, fun ⟨boundary, hears⟩ rises => ?_, fun ⟨boundary, hears⟩ falls => ?_,
      fun ⟨boundary, hears⟩ rises falls => ?_⟩
    · by_cases boundary : s.clock.frame = 63
      · have deaf : s.hearing = false := by simpa [boundary] using other
        simp [deaf]
      · simp [boundary]
    · simp [boundary, hears, rises]
    · simp [boundary, hears, falls]
    · rw [if_pos boundary, if_pos hears]
      simp only [Bool.not_eq_true', decide_eq_false_iff_not, and_assoc]
      rw [if_neg rises, if_neg falls]
  renewals h := by
    have any : ((List.finRange 24).any fun p => match s.loginBody p with
        | some (.admitted _ _ _ .pending) => true
        | _ => false) = true ↔ ∃ p e r x, s.loginBody p = some (.admitted e r x .pending) := by
      simp only [List.any_eq_true, List.mem_finRange, true_and]
      refine exists_congr fun p => ?_
      split <;> simp_all
    simp only [State.stageCommands, h, when_, Bool.and_eq_true, decide_eq_true_eq]
    exact ⟨fun boundary pending => if_pos ⟨boundary, any.2 pending⟩,
      fun none_ => if_neg fun ⟨boundary, pending⟩ => none_.elim (· boundary) (· (any.1 pending))⟩
  listening h := by
    simp [State.stageCommands, h, when_]
  take h cls hc := by
    have place : s.clock.index < 4 := by
      by_contra far
      rw [List.getElem?_eq_none (by simpa using far)] at hc
      cases hc
    simp only [State.stageCommands, h, atIndex_eq s s.takeCommand (i := ⟨s.clock.index, place⟩) rfl, State.takeCommand,
      StoreClass.all, hc]
    exact ⟨fun none_ => by simp [none_], fun x hx => by simp [hx]⟩
  offers h p hp := by
    simp only [State.stageCommands, h, atIndex_eq s _ hp]
    exact ⟨fun none_ => by simp [none_], fun e he => by simp [he]⟩
  refusalList h := by simp [State.stageCommands, h, State.active, when_]
  notice h := by cases hs : s.noticeDue <;> simp [State.stageCommands, h, hs, when_]
  choice h := by simp [State.stageCommands, h, State.active, when_]
  frameEnd h := by simp [State.stageCommands, h]


/-! ### One place of the frame -/

theorem beginFrame_frameBegins (s : State) (cmds : List Instr) (c : Clock) :
    FrameBegins s { s.beginFrame with pending := cmds, clock := c } where
  station := rfl
  highway := rfl
  slots := rfl
  ports p := by simp [State.port, State.beginFrame, Vector.get_eq_getElem]
  talk l := by simp [State.talk?, State.talkPlace, State.beginFrame, Vector.get_eq_getElem]
  talkOpenings l := by simp [State.talkOpening, State.talkPlace, State.beginFrame, Vector.get_eq_getElem]
  scr := rfl
  rest := rfl

theorem passBoundary_boundaryPasses (s : State) (cmds : List Instr) (c : Clock) :
    BoundaryPasses s { s.passBoundary with pending := cmds, clock := c } where
  logins p := by simp [State.login, State.passBoundary, State.tickLogin, lessTimer, Vector.get_eq_getElem]
  queries i := by simp [State.passBoundary, State.tickQuery, lessTimer, Vector.get_eq_getElem]
  records r := by simp [State.record, State.passBoundary, State.tickRecord, lessTimer, Vector.get_eq_getElem]
  bursts p := by simp [State.callPort, State.passBoundary, lessTimer, Vector.get_eq_getElem]
  stamps := rfl
  notice := rfl
  listening := rfl
  rest := rfl

/-- The last place of a frame ends it: the frame number goes on, and 63 is followed by 0. -/
theorem advance_frameEnd {c : Clock} (h : c.stage = .frameEnd) : c.advance.stage = .frameStart ∧ c.advance.index = 0 ∧
    c.advance.frame.val = (c.frame.val + 1) % 64 := by
  simp [Clock.advance, h, Stage.count, Stage.next, Fin.val_add]

theorem advance_frame {c : Clock} (h : c.stage ≠ .frameEnd) : c.advance.frame = c.frame := by
  unfold Clock.advance
  rw [if_neg h]
  split <;> rfl

/-- Settles O2: the clock goes one place on, the place acts by itself, and it brings what `placeBrings` says. -/
theorem idleStepGoesThroughTheFrame : Obligations.IdleStepGoesThroughTheFrame := by
  unfold Obligations.IdleStepGoesThroughTheFrame
  intro s idle
  have clock : s.idle.clock = s.clock.advance := by rw [idle_eq, stageEffect_clock]
  refine ⟨s.idle, by simp [step, idle], clock, fun last => ?_, fun other => ?_, fun first => ?_,
    fun tick boundary => ?_, fun notStart notTick => ?_, ?_⟩
  · rw [clock]; exact advance_frameEnd last
  · rw [clock]; exact advance_frame other
  · rw [idle_eq, stageEffect_frameStart first]; exact beginFrame_frameBegins s _ _
  · rw [idle_eq, stageEffect_boundary tick boundary]; exact passBoundary_boundaryPasses s _ _
  · rw [idle_eq, stageEffect_eq_self s notStart notTick]
  · rw [idle_eq]
    dsimp only
    rw [stageCommands_stageEffect]
    exact placeBrings s

end Sys2Proof.Machine
end

