-- ==== Sys2Proof/Proofs/Readers.lean ====
section
/-! PROOF. What the readers of the Admission Unit (`self`, `homeOf`, `homeRecord`, `login`) return after each operation
that does not concern them, and what a set's messages and tones leave alone (R153). -/

namespace Sys2Proof.Machine.State

open Sys2Proof

/-! ### The part of the state that a reader reads -/

theorem self_of_station {s t : State} (h : t.station = s.station) : t.self = s.self := by simp [self, h]

theorem homeOf_of_plan {s t : State} (h : t.calls.plan = s.calls.plan) (e : Ext) : t.homeOf e = s.homeOf e := by
  simp [homeOf, h]

theorem login_of_logins {s t : State} (h : t.adm.logins = s.adm.logins) (p : Port) : t.login p = s.login p := by
  simp [login, h]

theorem loginTag_of_logins {s t : State} (h : t.adm.logins = s.adm.logins) (p : Port) :
    t.loginTag p = s.loginTag p := by
  simp [loginTag, login, h]

theorem loginBody_of_login {s t : State} {p : Port} (h : t.login p = s.login p) : t.loginBody p = s.loginBody p := by
  simp [loginBody, h]

theorem homeRecord_of_homes {s t : State} (hs : t.station = s.station) (hh : t.adm.homes = s.adm.homes) (e : Ext) :
    t.homeRecord e = s.homeRecord e := by
  simp [homeRecord, homeIndex, hs, hh]

theorem homedHere_of_plan {s t : State} (hs : t.station = s.station) (hp : t.calls.plan = s.calls.plan) (e : Ext) :
    t.homedHere e = s.homedHere e := by
  simp [homedHere, homeOf_of_plan hp, self_of_station hs]

theorem port_of_ports {s t : State} (h : t.ports = s.ports) (p : Port) : t.port p = s.port p := by
  simp [port, h]

theorem callPort_of_calls {s t : State} (h : t.calls.ports = s.calls.ports) (p : Port) :
    t.callPort p = s.callPort p := by
  simp [callPort, h]

theorem loginBody_some {s : State} {p : Port} {b : LoginBody} (h : s.loginBody p = some b) :
    ∃ tm, (s.login p).entry = some { body := b, timer := tm } := by
  obtain ⟨x, hx, rfl⟩ := Option.map_eq_some_iff.1 h
  exact ⟨x.timer, hx⟩

/-- Every port has the place of its number, so equal logins are an equal table. -/
theorem logins_ext {s t : State} (h : ∀ p, t.login p = s.login p) : t.adm.logins = s.adm.logins := by
  ext i hi
  exact h ⟨i, hi⟩

/-! ### Entries -/

@[simp] theorem login_setEntry_same (p : Port) (x : Option LoginEntry) (s : State) :
    (s.setEntry p x).login p = { s.login p with entry := x } := login_modLogin_same p _ s

theorem login_setEntry_ne {p q : Port} (x : Option LoginEntry) (s : State) (h : q ≠ p) :
    (s.setEntry p x).login q = s.login q := login_modLogin_ne _ s h

@[simp] theorem setEntry_station (p : Port) (x : Option LoginEntry) (s : State) :
    (s.setEntry p x).station = s.station := rfl
@[simp] theorem setEntry_highway (p : Port) (x : Option LoginEntry) (s : State) :
    (s.setEntry p x).highway = s.highway := rfl
@[simp] theorem setEntry_ports (p : Port) (x : Option LoginEntry) (s : State) : (s.setEntry p x).ports = s.ports := rfl
@[simp] theorem setEntry_calls (p : Port) (x : Option LoginEntry) (s : State) : (s.setEntry p x).calls = s.calls := rfl
@[simp] theorem setEntry_scr (p : Port) (x : Option LoginEntry) (s : State) : (s.setEntry p x).scr = s.scr := rfl
@[simp] theorem setEntry_slots (p : Port) (x : Option LoginEntry) (s : State) : (s.setEntry p x).slots = s.slots := rfl
@[simp] theorem setEntry_homes (p : Port) (x : Option LoginEntry) (s : State) :
    (s.setEntry p x).adm.homes = s.adm.homes := rfl
@[simp] theorem setEntry_cache (p : Port) (x : Option LoginEntry) (s : State) :
    (s.setEntry p x).adm.cache = s.adm.cache := rfl
@[simp] theorem setEntry_queries (p : Port) (x : Option LoginEntry) (s : State) :
    (s.setEntry p x).adm.queries = s.adm.queries := rfl

/-! ### Messages and tones (R153) -/

/-- A message changes the ports and nothing else. -/
theorem sendMessage_eq (p : Port) (m : SetMessage) (s : State) :
    s.sendMessage p m = { s with ports := (s.sendMessage p m).ports } := by
  unfold sendMessage
  split <;> rfl

@[simp] theorem sendMessage_station (p : Port) (m : SetMessage) (s : State) :
    (s.sendMessage p m).station = s.station := by rw [sendMessage_eq]
@[simp] theorem sendMessage_clock (p : Port) (m : SetMessage) (s : State) :
    (s.sendMessage p m).clock = s.clock := by rw [sendMessage_eq]
@[simp] theorem sendMessage_highway (p : Port) (m : SetMessage) (s : State) :
    (s.sendMessage p m).highway = s.highway := by rw [sendMessage_eq]
@[simp] theorem sendMessage_slots (p : Port) (m : SetMessage) (s : State) :
    (s.sendMessage p m).slots = s.slots := by rw [sendMessage_eq]
@[simp] theorem sendMessage_adm (p : Port) (m : SetMessage) (s : State) :
    (s.sendMessage p m).adm = s.adm := by rw [sendMessage_eq]
@[simp] theorem sendMessage_calls (p : Port) (m : SetMessage) (s : State) :
    (s.sendMessage p m).calls = s.calls := by rw [sendMessage_eq]
@[simp] theorem sendMessage_scr (p : Port) (m : SetMessage) (s : State) :
    (s.sendMessage p m).scr = s.scr := by rw [sendMessage_eq]
@[simp] theorem sendMessage_maint (p : Port) (m : SetMessage) (s : State) :
    (s.sendMessage p m).maint = s.maint := by rw [sendMessage_eq]

@[simp] theorem login_sendMessage (p q : Port) (m : SetMessage) (s : State) :
    (s.sendMessage p m).login q = s.login q := login_of_logins (by rw [sendMessage_adm]) q

theorem port_sendMessage_ne {p q : Port} (m : SetMessage) (s : State) (h : q ≠ p) :
    (s.sendMessage p m).port q = s.port q := by
  unfold sendMessage
  split
  · exact port_modPort_ne _ s h
  · rfl

/-- Of the port itself a message changes the outbound list alone. -/
theorem port_sendMessage_same (p : Port) (m : SetMessage) (s : State) :
    (s.sendMessage p m).port p = { s.port p with outbound := ((s.sendMessage p m).port p).outbound } := by
  unfold sendMessage
  split
  · simp
  · rfl

@[simp] theorem callPort_sendMessage (p q : Port) (m : SetMessage) (s : State) :
    (s.sendMessage p m).callPort q = s.callPort q := callPort_of_calls (by rw [sendMessage_calls]) q

@[simp] theorem sendResult_eq (p : Port) (r : LoginResult) (s : State) :
    s.sendResult p r = s.sendMessage p (.loginResult r) := rfl

/-- A tone changes the ports and the burst timers, and nothing else. -/
theorem setTone_eq (p : Port) (x : Tone) (s : State) : s.setTone p x = { s with
    ports := (s.setTone p x).ports, calls := { s.calls with ports := (s.setTone p x).calls.ports } } := by
  unfold setTone
  split <;> rfl

@[simp] theorem setTone_station (p : Port) (x : Tone) (s : State) : (s.setTone p x).station = s.station := by
  rw [setTone_eq]
@[simp] theorem setTone_clock (p : Port) (x : Tone) (s : State) : (s.setTone p x).clock = s.clock := by rw [setTone_eq]
@[simp] theorem setTone_highway (p : Port) (x : Tone) (s : State) : (s.setTone p x).highway = s.highway := by
  rw [setTone_eq]
@[simp] theorem setTone_slots (p : Port) (x : Tone) (s : State) : (s.setTone p x).slots = s.slots := by rw [setTone_eq]
@[simp] theorem setTone_adm (p : Port) (x : Tone) (s : State) : (s.setTone p x).adm = s.adm := by rw [setTone_eq]
@[simp] theorem setTone_scr (p : Port) (x : Tone) (s : State) : (s.setTone p x).scr = s.scr := by rw [setTone_eq]
@[simp] theorem setTone_maint (p : Port) (x : Tone) (s : State) : (s.setTone p x).maint = s.maint := by rw [setTone_eq]
@[simp] theorem setTone_pending (p : Port) (x : Tone) (s : State) : (s.setTone p x).pending = s.pending := by
  rw [setTone_eq]
@[simp] theorem setTone_records (p : Port) (x : Tone) (s : State) :
    (s.setTone p x).calls.records = s.calls.records := by rw [setTone_eq]
@[simp] theorem setTone_confs (p : Port) (x : Tone) (s : State) : (s.setTone p x).calls.confs = s.calls.confs := by
  rw [setTone_eq]
@[simp] theorem setTone_waitList (p : Port) (x : Tone) (s : State) :
    (s.setTone p x).calls.waitList = s.calls.waitList := by rw [setTone_eq]
@[simp] theorem setTone_plan (p : Port) (x : Tone) (s : State) : (s.setTone p x).calls.plan = s.calls.plan := by
  rw [setTone_eq]

@[simp] theorem login_setTone (p q : Port) (x : Tone) (s : State) : (s.setTone p x).login q = s.login q :=
  login_of_logins (by rw [setTone_adm]) q

/-- At a port that is UP the tone is set and the burst timer stops (R72). -/
theorem setTone_of_up {p : Port} {s : State} (x : Tone) (h : (s.port p).state = .up) : s.setTone p x =
    (s.modPort p fun u => { u with tone := x }).modCallPort p fun c => { c with burst := none } := by
  simp [setTone, h]

theorem port_setTone_same {p : Port} {s : State} (x : Tone) (h : (s.port p).state = .up) :
    (s.setTone p x).port p = { s.port p with tone := x } := by
  rw [setTone_of_up x h]
  exact port_modPort_same p (fun u => { u with tone := x }) s

theorem port_setTone_ne {p q : Port} (x : Tone) (s : State) (h : q ≠ p) : (s.setTone p x).port q = s.port q := by
  unfold setTone
  split
  · exact port_modPort_ne (fun u => { u with tone := x }) s h
  · rfl

theorem callPort_setTone_ne {p q : Port} (x : Tone) (s : State) (h : q ≠ p) :
    (s.setTone p x).callPort q = s.callPort q := by
  unfold setTone
  split
  · exact callPort_modCallPort_ne _ _ h
  · rfl

theorem callPort_setTone_same {p : Port} {s : State} (x : Tone) (h : (s.port p).state = .up) :
    (s.setTone p x).callPort p = { s.callPort p with burst := none } := by
  rw [setTone_of_up x h]
  exact callPort_modCallPort_same p _ _

/-! ### What the readers return after each operation -/

@[simp] theorem self_setEntry (p : Port) (x : Option LoginEntry) (s : State) : (s.setEntry p x).self = s.self := rfl
@[simp] theorem self_modPort (p : Port) (f : PortUnit → PortUnit) (s : State) : (s.modPort p f).self = s.self := rfl
@[simp] theorem self_enqueue (q : Queued) (s : State) : (s.enqueue q).self = s.self := rfl
@[simp] theorem self_takeCell (c : StoreClass) (s : State) : (s.takeCell c).self = s.self := rfl
@[simp] theorem self_sendMessage (p : Port) (m : SetMessage) (s : State) : (s.sendMessage p m).self = s.self :=
  self_of_station (sendMessage_station p m s)
@[simp] theorem self_setTone (p : Port) (x : Tone) (s : State) : (s.setTone p x).self = s.self :=
  self_of_station (setTone_station p x s)

@[simp] theorem homeOf_setEntry (p : Port) (x : Option LoginEntry) (e : Ext) (s : State) :
    (s.setEntry p x).homeOf e = s.homeOf e := rfl
@[simp] theorem homeOf_modPort (p : Port) (f : PortUnit → PortUnit) (e : Ext) (s : State) :
    (s.modPort p f).homeOf e = s.homeOf e := rfl
@[simp] theorem homeOf_enqueue (q : Queued) (e : Ext) (s : State) : (s.enqueue q).homeOf e = s.homeOf e := rfl
@[simp] theorem homeOf_takeCell (c : StoreClass) (e : Ext) (s : State) : (s.takeCell c).homeOf e = s.homeOf e := rfl

@[simp] theorem homedHere_takeCell (c : StoreClass) (e : Ext) (s : State) :
    (s.takeCell c).homedHere e = s.homedHere e := rfl

@[simp] theorem homeRecord_setEntry (p : Port) (x : Option LoginEntry) (e : Ext) (s : State) :
    (s.setEntry p x).homeRecord e = s.homeRecord e := rfl
@[simp] theorem homeRecord_modPort (p : Port) (f : PortUnit → PortUnit) (e : Ext) (s : State) :
    (s.modPort p f).homeRecord e = s.homeRecord e := rfl
@[simp] theorem homeRecord_enqueue (q : Queued) (e : Ext) (s : State) : (s.enqueue q).homeRecord e = s.homeRecord e :=
  rfl
@[simp] theorem homeRecord_takeCell (c : StoreClass) (e : Ext) (s : State) :
    (s.takeCell c).homeRecord e = s.homeRecord e := rfl
@[simp] theorem homeRecord_sendMessage (p : Port) (m : SetMessage) (e : Ext) (s : State) :
    (s.sendMessage p m).homeRecord e = s.homeRecord e := homeRecord_of_homes (by simp) (by simp) e
@[simp] theorem homeRecord_setTone (p : Port) (x : Tone) (e : Ext) (s : State) :
    (s.setTone p x).homeRecord e = s.homeRecord e := homeRecord_of_homes (by simp) (by simp) e

@[simp] theorem login_modPort (p q : Port) (f : PortUnit → PortUnit) (s : State) :
    (s.modPort p f).login q = s.login q := rfl
@[simp] theorem login_enqueue (q : Queued) (p : Port) (s : State) : (s.enqueue q).login p = s.login p := rfl
@[simp] theorem login_takeCell (c : StoreClass) (p : Port) (s : State) : (s.takeCell c).login p = s.login p := rfl

@[simp] theorem port_setEntry (p q : Port) (x : Option LoginEntry) (s : State) : (s.setEntry p x).port q = s.port q :=
  rfl
@[simp] theorem port_takeCell (c : StoreClass) (p : Port) (s : State) : (s.takeCell c).port p = s.port p := rfl
@[simp] theorem port_enqueue (q : Queued) (p : Port) (s : State) : (s.enqueue q).port p = s.port p := rfl

/-- The cell a consumer takes next leaves the state as the statements write it (R162). -/
theorem takeCell_eq_taken {s : State} {c : StoreClass} {x : Stored} (h : s.nextCell c = some x) :
    s.takeCell c = taken s c x := takeCell_of_next h

/-! ### Offers -/

@[simp] theorem offer_station (c : Cell) (n : OfferName) (s : State) : (s.offer c n).1.station = s.station :=
  (offer_frame c n s).1
@[simp] theorem offer_ports (c : Cell) (n : OfferName) (s : State) : (s.offer c n).1.ports = s.ports :=
  (offer_frame c n s).2.2.2.1
@[simp] theorem offer_adm (c : Cell) (n : OfferName) (s : State) : (s.offer c n).1.adm = s.adm :=
  (offer_frame c n s).2.2.2.2.1
@[simp] theorem offer_calls_eq (c : Cell) (n : OfferName) (s : State) : (s.offer c n).1.calls = s.calls :=
  offer_calls c n s
@[simp] theorem offer_scr (c : Cell) (n : OfferName) (s : State) : (s.offer c n).1.scr = s.scr :=
  (offer_frame c n s).2.2.2.2.2.2.1
@[simp] theorem offer_slots (c : Cell) (n : OfferName) (s : State) : (s.offer c n).1.slots = s.slots :=
  (offer_frame c n s).2.2.1

@[simp] theorem homeRecord_offer (c : Cell) (n : OfferName) (e : Ext) (s : State) :
    (s.offer c n).1.homeRecord e = s.homeRecord e := homeRecord_of_homes (by simp) (by simp) e

/-- With room the cell of an offer is the newest of the queue, and nothing else changes. -/
theorem offerSkip_of_room {n : Nat} {s : State} (h : QueueRoom (n + 1) s) (c : Cell) (x : OfferName) :
    s.offerSkip c x = s.enqueue ⟨c, x⟩ := congrArg Prod.fst (QueueRoom.offer h c x).1

/-- A queue of 20 cells, or a station that is not ACTIVE, takes no cell outside the reserve (R159). -/
theorem offer_refused {s : State} {c : Cell} (n : OfferName) (plain : c.body.reserve = false)
    (full : s.station.state ≠ .active ∨ 20 ≤ s.highway.queue.length) :
    (s.offer c n).2 = false ∧ (s.offer c n).1.highway.queue = s.highway.queue := by
  have no : s.accepts c.body = false := by
    rcases full with h | h
    · simp [accepts, active, h]
    · simp [accepts, plain, Nat.not_lt.2 h]
  rcases offer_cases c n s with ⟨yes, -⟩ | ⟨-, -, h⟩ | ⟨-, -, h⟩
  · rw [no] at yes; cases yes
  · simp [h]
  · simp [h]

end Sys2Proof.Machine.State
end

