-- ==== Sys2Proof/Proofs/ClearingFrame.lean ====
section
/-! PROOF. What the ending of call records leaves as it was, whoever orders it (R62, R67): the frame of every clearing,
proved part by part in the order of the definitions in Clearing. -/

namespace Sys2Proof.Machine

open Sys2Proof

/-- A query place without the list of its waiters, which a clearing shortens (R30). -/
def QueryPlace.bare (q : QueryPlace) : QueryPlace := { q with query := q.query.map fun y => { y with waiters := [] } }

theorem queries_bare_get {v w : Vector QueryPlace 4} (h : w.map QueryPlace.bare = v.map QueryPlace.bare) (i : QueryId) :
    (w.get i).bare = (v.get i).bare := by
  have := congrArg (fun v => v.get i) h
  simpa [Vector.get_eq_getElem] using this

/-- An empty place is known by what it shows without its waiters. -/
theorem QueryPlace.eq_of_bare {q q' : QueryPlace} (h : q'.bare = q.bare) (hq : q.query = none) : q' = q := by
  obtain ⟨inc, query⟩ := q
  obtain ⟨inc', query'⟩ := q'
  obtain rfl : query = none := hq
  simp only [QueryPlace.bare, Option.map_none, QueryPlace.mk.injEq, Option.map_eq_none_iff] at h
  rw [h.1, h.2]

/-- A lane that stays or closes is ACTIVE on no slot but the one it was ACTIVE on. -/
theorem State.activeSlot_of_talk_or_none {s t : State} {l : TalkId} {x : Slot}
    (h : t.talk? l = s.talk? l ∨ t.talk? l = none) (hx : t.activeSlot l = some x) : s.activeSlot l = some x := by
  rcases h with h | h
  · simpa only [State.activeSlot, h] using hx
  · simp [State.activeSlot, h] at hx

/-- Another fault's counter stays. -/
theorem FaultKind.index_ne_queueFull {k : FaultKind} (h : k ≠ .queueFull) : k.index ≠ FaultKind.queueFull.index := by
  cases k <;> first | exact absurd rfl h | decide

/-- What an operation that ends call records leaves as it was, whoever orders it. A default says that the part is
untouched. -/
structure CallsEnd (s t : State) : Prop where
  station : t.station = s.station := by rfl
  clock : t.clock = s.clock := by rfl
  pending : t.pending = s.pending := by rfl
  maint : t.maint = { s.maint with pending := t.maint.pending } := by rfl
  /-- Of the highway the queue grows and refused offers are counted. -/
  highway : t.highway = { s.highway with
    queue := t.highway.queue, counters := t.highway.counters, fault := t.highway.fault } := by rfl
  queue : s.highway.queue <+: t.highway.queue := by exact List.prefix_refl _
  counters : ∀ k : FaultKind, k ≠ .queueFull →
    t.highway.counters.get k.index = s.highway.counters.get k.index := by exact fun _ _ => rfl
  homes : t.adm.homes = s.adm.homes := by rfl
  cache : t.adm.cache = s.adm.cache := by rfl
  queries : t.adm.queries.map QueryPlace.bare = s.adm.queries.map QueryPlace.bare := by rfl
  plan : t.calls.plan = s.calls.plan := by rfl
  diverts : t.calls.diverts = s.calls.diverts := by rfl
  waitList : t.calls.waitList.Sublist s.calls.waitList := by exact List.Sublist.refl _
  hookView : ∀ p, (t.callPort p).hookView = (s.callPort p).hookView := by exact fun _ => rfl
  mixer : t.scr.mixer = s.scr.mixer := by rfl
  mixerDone : t.scr.mixerDone = s.scr.mixerDone := by rfl
  nonces : t.scr.noncesGiven = s.scr.noncesGiven := by rfl
  nonceSeed : t.scr.nonceSeed = s.scr.nonceSeed := by rfl
  talk : ∀ l, t.talk? l = s.talk? l ∨ t.talk? l = none := by exact fun _ => .inl rfl
  listen : ∀ l, t.listen? l = s.listen? l ∨ t.listen? l = none := by exact fun _ => .inl rfl
  /-- A slot is given up where a talk lane was ACTIVE on it, and none is taken. -/
  map : ∀ x, t.slots.map.get x = s.slots.map.get x ∨
    (t.slots.map.get x = none ∧ ∃ l, s.activeSlot l = some x) := by exact fun _ => .inl rfl
  confs : ∀ e, t.calls.confs.get e = s.calls.confs.get e ∨ t.calls.confs.get e = none := by exact fun _ => .inl rfl
  /-- No record is allocated, and none changes its port or its far station. -/
  calls : ∀ r k, t.call? r = some k → ∃ k', s.call? r = some k' ∧ k.port = k'.port ∧ k.farStation = k'.farStation := by
    exact fun _ k h => ⟨k, h, rfl, rfl⟩

/-- What a clearing leaves as it was. -/
structure ClearFrame (s t : State) : Prop extends CallsEnd s t where
  logins : t.adm.logins = s.adm.logins := by rfl
  /-- Of a set's port the tone and the ring change, and nothing of a port that is not UP. -/
  ports : ∀ p, t.port p = { s.port p with tone := (t.port p).tone, ring := (t.port p).ring } := by exact fun _ => rfl
  quiet : ∀ p, (s.port p).state ≠ .up → t.port p = s.port p := by exact fun _ _ => rfl

/-- A part that stays or goes, and then stays or goes again. -/
theorem eq_or_none_trans {α : Type} {a b c : Option α} (h : b = a ∨ b = none) (h' : c = b ∨ c = none) :
    c = a ∨ c = none := by
  rcases h' with rfl | h'
  · exact h
  · exact .inr h'

namespace CallsEnd

theorem refl (s : State) : CallsEnd s s := {}

theorem trans {s t u : State} (a : CallsEnd s t) (b : CallsEnd t u) : CallsEnd s u where
  station := b.station.trans a.station
  clock := b.clock.trans a.clock
  pending := b.pending.trans a.pending
  maint := by rw [b.maint, a.maint]
  highway := by rw [b.highway, a.highway]
  queue := a.queue.trans b.queue
  counters k hk := (b.counters k hk).trans (a.counters k hk)
  homes := b.homes.trans a.homes
  cache := b.cache.trans a.cache
  queries := b.queries.trans a.queries
  plan := b.plan.trans a.plan
  diverts := b.diverts.trans a.diverts
  waitList := b.waitList.trans a.waitList
  hookView p := (b.hookView p).trans (a.hookView p)
  mixer := b.mixer.trans a.mixer
  mixerDone := b.mixerDone.trans a.mixerDone
  nonces := b.nonces.trans a.nonces
  nonceSeed := b.nonceSeed.trans a.nonceSeed
  talk l := eq_or_none_trans (a.talk l) (b.talk l)
  listen l := eq_or_none_trans (a.listen l) (b.listen l)
  map x := by
    rcases b.map x with h | ⟨h, l, hl⟩
    · rcases a.map x with h' | h'
      · exact .inl (h.trans h')
      · exact .inr ⟨h.trans h'.1, h'.2⟩
    · exact .inr ⟨h, l, State.activeSlot_of_talk_or_none (a.talk l) hl⟩
  confs e := eq_or_none_trans (a.confs e) (b.confs e)
  calls r k h := by
    obtain ⟨k1, h1, p1, f1⟩ := b.calls r k h
    obtain ⟨k2, h2, p2, f2⟩ := a.calls r k1 h1
    exact ⟨k2, h2, p1.trans p2, f1.trans f2⟩

section
variable {s t : State} (h : CallsEnd s t)
include h

theorem self : t.self = s.self := State.self_of_station h.station

theorem homeOf (e : Ext) : t.homeOf e = s.homeOf e := State.homeOf_of_plan h.plan e

theorem homeRecord (e : Ext) : t.homeRecord e = s.homeRecord e := State.homeRecord_of_homes h.station h.homes e

theorem homedHere (e : Ext) : t.homedHere e = s.homedHere e := State.homedHere_of_plan h.station h.plan e

theorem presence : t.highway.presence = s.highway.presence := by rw [h.highway]

theorem refusesHeard : t.highway.refusesHeard = s.highway.refusesHeard := by rw [h.highway]

theorem query_bare (i : QueryId) : (t.adm.queries.get i).bare = (s.adm.queries.get i).bare :=
  queries_bare_get h.queries i

/-- A query place that is empty stays as it is. -/
theorem query_none {i : QueryId} (hi : (s.adm.queries.get i).query = none) :
    t.adm.queries.get i = s.adm.queries.get i := QueryPlace.eq_of_bare (h.query_bare i) hi

/-- No query changes its extension. -/
theorem query_ext (i : QueryId) :
    (t.adm.queries.get i).query.map (·.ext) = (s.adm.queries.get i).query.map (·.ext) := by
  have := congrArg (fun q => q.query.map (·.ext)) (h.query_bare i)
  simpa [QueryPlace.bare, Function.comp_def] using this

/-- A FREE record stays FREE. -/
theorem call_none {r : RecordId} (hr : s.call? r = none) : t.call? r = none := by
  cases hk : t.call? r with
  | none => rfl
  | some k =>
    obtain ⟨k', h', -⟩ := h.calls r k hk
    rw [hr] at h'
    cases h'

end

end CallsEnd

namespace ClearFrame

theorem refl (s : State) : ClearFrame s s := {}

theorem trans {s t u : State} (a : ClearFrame s t) (b : ClearFrame t u) : ClearFrame s u where
  toCallsEnd := a.toCallsEnd.trans b.toCallsEnd
  logins := b.logins.trans a.logins
  ports p := by rw [b.ports p, a.ports p]
  quiet p h := by
    have ha := a.quiet p h
    rw [b.quiet p (by rwa [ha]), ha]

/-- A list of operations of which each keeps the frame. -/
theorem foldl {α : Type} {f : State → α → State} (h : ∀ s x, ClearFrame s (f s x)) (xs : List α) (s : State) :
    ClearFrame s (xs.foldl f s) := by
  induction xs generalizing s with
  | nil => exact refl s
  | cons x xs ih => exact (h s x).trans (ih _)

/-! ### The parts of a clearing -/

theorem modCall (r : RecordId) (f : Call → Call) (s : State) (hp : ∀ k, (f k).port = k.port)
    (hf : ∀ k, (f k).farStation = k.farStation) : ClearFrame s (s.modCall r f) := by
  have calls : ∀ q k, (s.modCall r f).call? q = some k →
      ∃ k', s.call? q = some k' ∧ k.port = k'.port ∧ k.farStation = k'.farStation := by
    intro q k h
    by_cases hq : q = r
    · subst hq
      rw [State.call_modCall_same] at h
      obtain ⟨k', hk', rfl⟩ := Option.map_eq_some_iff.1 h
      exact ⟨k', hk', hp k', hf k'⟩
    · rw [State.call_modCall_ne f s hq] at h
      exact ⟨k, h, rfl, rfl⟩
  revert calls
  unfold State.modCall
  cases s.call? r with
  | none => exact fun _ => refl s
  | some k => exact fun calls => { calls := calls }

theorem freeRecord (r : RecordId) (s : State) : ClearFrame s (s.freeRecord r) where
  calls q k h := by
    by_cases hq : q = r
    · subst hq; simp at h
    · rw [State.call_freeRecord_ne s hq] at h
      exact ⟨k, h, rfl, rfl⟩

theorem setTone (p : Port) (x : Tone) (s : State) : ClearFrame s (s.setTone p x) := by
  rcases State.setTone_cases p x s with ⟨up, -⟩ | ⟨-, h⟩
  · have port : ∀ q, (s.setTone p x).port q = { s.port q with
        tone := ((s.setTone p x).port q).tone, ring := ((s.setTone p x).port q).ring } := by
      intro q
      by_cases hq : q = p
      · subst hq; rw [State.port_setTone_same x up]
      · rw [State.port_setTone_ne x s hq]
    have call : ∀ q, ((s.setTone p x).callPort q).hookView = (s.callPort q).hookView := by
      intro q
      by_cases hq : q = p
      · subst hq; rw [State.callPort_setTone_same x up]
      · rw [State.callPort_setTone_ne x s hq]
    have quiet : ∀ q, (s.port q).state ≠ .up → (s.setTone p x).port q = s.port q := fun q hq =>
      State.port_setTone_ne x s fun e => hq (e ▸ up)
    rw [State.setTone_eq] at port call quiet ⊢
    exact { ports := port, hookView := call, quiet := quiet }
  · rw [h]
    exact refl s

theorem setRing (p : Port) (on : Bool) (s : State) : ClearFrame s (s.setRing p on) := by
  rcases State.setRing_cases p on s with ⟨up, h⟩ | ⟨-, h⟩ <;> rw [h]
  · have ne : ∀ q, q ≠ p → (s.modPort p fun u => { u with ring := on }).port q = s.port q := fun q hq =>
      State.port_modPort_ne _ s hq
    refine { ports := fun q => ?_, quiet := fun q hq => ne q fun e => hq (e ▸ up) }
    by_cases hq : q = p
    · subst hq; simp
    · rw [ne q hq]
  · exact refl s

theorem modCallPort (p : Port) (f : CallPort → CallPort) (s : State) (hf : ∀ c, (f c).hookView = c.hookView) :
    ClearFrame s (s.modCallPort p f) where
  hookView q := by
    by_cases hq : q = p
    · subst hq; simp [hf]
    · rw [State.callPort_modCallPort_ne _ _ hq]

theorem offer (c : Cell) (n : OfferName) (s : State) : ClearFrame s (s.offer c n).1 := by
  rcases State.offer_cases c n s with ⟨-, h⟩ | ⟨-, -, h⟩ | ⟨-, -, h⟩ <;> rw [h]
  · exact { queue := List.prefix_append _ _ }
  · exact { counters := fun k hk => State.recordFault_counter_ne _ _ s (FaultKind.index_ne_queueFull hk) }
  · exact refl s

theorem setClaims (cs : List Claim) (s : State) : ClearFrame s (s.setClaims cs) := {}

theorem addClaim (e : Claim) (s : State) : ClearFrame s (s.addClaim e) :=
  (offer _ _ s).trans (setClaims _ _)

theorem setConf_none (e : ConfId) (s : State) : ClearFrame s (s.setConf e none) where
  confs d := by
    by_cases hd : d = e
    · subst hd; exact .inr (State.conf_setConf_same ..)
    · exact .inl (State.conf_setConf_ne _ _ hd)

theorem closeTalk (l : TalkId) (s : State) : ClearFrame s (s.closeTalk l) := by
  unfold State.closeTalk
  cases ht : s.talk? l with
  | none => exact refl s
  | some t =>
    have lanes : ∀ j, (s.setTalkPlace l { s.talkPlace l with lane := none }).talk? j = s.talk? j ∨
        (s.setTalkPlace l { s.talkPlace l with lane := none }).talk? j = none := fun j => by
      by_cases hj : j = l
      · subst hj; exact .inr (by simp [State.talk?])
      · exact .inl (by simp [State.talk?, State.talkPlace_setTalkPlace_ne _ _ hj])
    have first : ClearFrame s (s.setTalkPlace l { s.talkPlace l with lane := none }) := { talk := lanes }
    dsimp only
    split
    · rename_i x hs hx
      have freed : ClearFrame s ((s.setTalkPlace l { s.talkPlace l with lane := none }).setSlot x none) :=
        { talk := lanes
          map := fun y => by
            by_cases hy : y = x
            · subst hy
              exact .inr ⟨State.map_setSlot_same .., l, by simp [State.activeSlot, ht, hs, hx]⟩
            · exact .inl (State.map_setSlot_ne _ _ hy) }
      exact freed.trans (addClaim _ _)
    · exact first
    · exact first.trans (setClaims _ _)
    · exact first.trans (setClaims _ _)

theorem closeListen (l : ListenId) (s : State) : ClearFrame s (s.closeListen l) := by
  unfold State.closeListen
  cases s.listen? l with
  | none => exact refl s
  | some t =>
    have first : ClearFrame s (s.setListenPlace l { s.listenPlace l with lane := none }) :=
      { listen := fun j => by
          by_cases hj : j = l
          · subst hj; exact .inr (by simp [State.listen?])
          · exact .inl (by simp [State.listen?, State.listenPlace_setListenPlace_ne _ _ hj]) }
    exact first.trans (modCall _ _ _ (fun _ => rfl) fun _ => rfl)

theorem closeListens (ls : List ListenId) (s : State) : ClearFrame s (s.closeListens ls) :=
  foldl (fun s l => closeListen l s) ls s

theorem detach (r : RecordId) (s : State) : ClearFrame s (s.detach r) where
  waitList := List.filter_sublist
  queries := by
    simp only [State.detach, Vector.map_map]
    congr 1
    funext q
    simp [QueryPlace.bare, Function.comp_def]

theorem leaveStack (p : Port) (r : RecordId) (s : State) : ClearFrame s (s.leaveStack p r) := by
  unfold State.leaveStack
  have first : ClearFrame s (s.modCallPort p fun c => { c with stack := (s.callPort p).stack.erase r }) :=
    modCallPort p _ s fun _ => rfl
  dsimp only
  split
  · split
    · exact (first.trans (setRing _ _ _)).trans (modCallPort _ _ _ fun _ => rfl)
    · exact first.trans (modCall _ _ _ (fun _ => rfl) fun _ => rfl)
  · exact first

/-! ### Clearing a record and a port (R62, R67) -/

theorem endRecord (r : RecordId) (c : Cause) (tone : Option Tone) (s : State) :
    ClearFrame s (s.endRecord r c tone) := by
  unfold State.endRecord
  cases s.call? r with
  | none => exact refl s
  | some k =>
    dsimp only
    refine trans ?_ (modCall _ _ _ (fun _ => rfl) fun _ => rfl)
    have last : ∀ u : State, ClearFrame u (if k.state = .held then u.leaveStack k.port r else u) := fun u => by
      split
      · exact leaveStack _ _ u
      · exact refl u
    refine trans ?_ (last _)
    refine trans (trans ?_ (closeListens _ _)) (detach _ _)
    have lane : ∀ u : State, ClearFrame u (match k.talkLane with | some l => u.closeTalk l | none => u) := fun u => by
      cases k.talkLane with
      | none => exact refl u
      | some l => exact closeTalk l u
    refine trans ?_ (lane _)
    have heard : ∀ u : State, ClearFrame u (match tone with
        | some t => if k.isFront && decide ((s.callPort k.port).hookView = Hook.off) then u.setTone k.port t else u
        | none => u) := fun u => by
      cases tone with
      | none => exact refl u
      | some t =>
        dsimp only
        split
        · exact setTone _ _ u
        · exact refl u
    refine trans ?_ (heard _)
    have cause := modCall r (fun k => { k with cause := c }) s (fun _ => rfl) fun _ => rfl
    split
    · exact cause.trans (setRing _ _ _)
    · exact cause

theorem awaitClears (r : RecordId) (n : Nat) (s : State) : ClearFrame s (s.awaitClears r n) := by
  rcases State.awaitClears_cases r n s with ⟨-, h⟩ | ⟨-, h⟩ <;> rw [h]
  · exact freeRecord r s
  · exact modCall _ _ _ (fun _ => rfl) fun _ => rfl

theorem freeConfOf (r : RecordId) (s : State) : ClearFrame s (s.freeConfOf r) := by
  unfold State.freeConfOf
  split
  · exact setConf_none _ _
  · exact refl s

theorem clearQuiet (r : RecordId) (c : Cause) (tone : Option Tone) (s : State) :
    ClearFrame s (s.clearQuiet r c tone) :=
  ((endRecord r c tone s).trans (freeConfOf r _)).trans (freeRecord r _)

theorem endConference (r : RecordId) (s : State) : ClearFrame s (s.endConference r) := by
  unfold State.endConference
  split
  · exact freeRecord r s
  · rename_i e c _
    have offers : ∀ (ms : List Member) (a : State × Nat), ClearFrame a.1 (ms.foldl (fun (a : State × Nat) m =>
        let o := a.1.offer (a.1.memberClear m .confEnded) (a.1.clearingName r)
        (o.1, if o.2 then a.2 + 1 else a.2)) a).1 := by
      intro ms
      induction ms with
      | nil => exact fun a => refl a.1
      | cons m ms ih =>
        intro a
        have one := offer (a.1.memberClear m .confEnded) (a.1.clearingName r) a.1
        exact one.trans (ih ((a.1.offer (a.1.memberClear m .confEnded) (a.1.clearingName r)).1, _))
    dsimp only
    refine trans (trans ?_ (modCall r (fun k => { k with confRole := .none }) _ (fun _ => rfl) fun _ => rfl))
      (awaitClears _ _ _)
    exact (offers c.members (s, 0)).trans (setConf_none e _)

theorem offerCallClear (r : RecordId) (c : Cause) (far : Station) (farTag : Tag) (s : State) :
    ClearFrame s (s.offerCallClear r c far farTag) :=
  (offer _ _ s).trans (awaitClears _ _ _)

theorem clearRecordTone (r : RecordId) (c : Cause) (tone : Option Tone) (s : State) :
    ClearFrame s (s.clearRecordTone r c tone) := by
  rcases State.clearRecordTone_cases r c tone s with h | ⟨k, -, -, ⟨-, h⟩ | ⟨-, far, -, -, h⟩ | ⟨-, h⟩⟩ <;> rw [h]
  · exact refl s
  · exact (endRecord r c tone s).trans (endConference r _)
  · exact (endRecord r c tone s).trans (offerCallClear r c far _ _)
  · exact (endRecord r c tone s).trans (freeRecord r _)

theorem clearRecord (r : RecordId) (c : Cause) (s : State) : ClearFrame s (s.clearRecord r c) :=
  clearRecordTone r c c.tone s

theorem clearPort (p : Port) (c : Cause) (s : State) : ClearFrame s (s.clearPort p c) :=
  foldl (fun s r => clearRecord r c s) _ s

/-! ### What follows from the frame -/

section
variable {s t : State} (h : ClearFrame s t)
include h

theorem login (p : Port) : t.login p = s.login p := State.login_of_logins h.logins p

theorem loginBody (p : Port) : t.loginBody p = s.loginBody p := State.loginBody_of_login (h.login p)

theorem portState (p : Port) : (t.port p).state = (s.port p).state := by rw [h.ports p]

theorem outbound (p : Port) : (t.port p).outbound = (s.port p).outbound := by rw [h.ports p]

end

end ClearFrame

end Sys2Proof.Machine
end

