-- ==== Sys2Proof/Proofs/LoginEnds.lean ====
section
/-! PROOF. What the end of a login leaves as it was (R3, R11, R14), and how a home record is read after an update (R5). -/

namespace Sys2Proof.Machine

open Sys2Proof

/-! ### A port's calls are cleared, whatever stands around the clearing -/

/-- What a clearing leaves of a port's calls is read from the calls, the queue and the station alone. -/
theorem PortCleared.of_left {s s' t : State} {p : Port} {c : Cause} (h : PortCleared s' t p c)
    (hst : s'.station = s.station) (hc : s'.calls = s.calls) (hq : s'.highway.queue = s.highway.queue) :
    PortCleared s t p c := by
  obtain ⟨h1, h2, h3, h4, h5⟩ := h
  simp only [RoomToClear, QueueRoom, StandOn, clearingCell, cellFrom, State.callTag, State.call_of_calls hc,
    State.record_of_calls hc, hst, hq, hc, State.self_of_station hst, State.callPort_of_calls (congrArg (·.ports) hc)]
    at h1 h2 h3 h4 h5
  exact ⟨h1, h2, h3, h4, h5⟩

/-- Cells that join the queue, and whatever leaves the records, stacks and conferences, keep a port cleared. -/
theorem PortCleared.of_right {s t u : State} {p : Port} {c : Cause} (h : PortCleared s t p c)
    (hr : u.calls.records = t.calls.records) (hcf : u.calls.confs = t.calls.confs)
    (hs : ∀ q, (u.callPort q).stack = (t.callPort q).stack) (hm : ∀ q ∈ t.highway.queue, q ∈ u.highway.queue) :
    PortCleared s u p c := by
  have call : ∀ r, u.call? r = t.call? r := fun r => by simp [State.call?, State.record, hr]
  obtain ⟨h1, h2, h3, h4, h5⟩ := h
  refine ⟨fun r => by rw [call]; exact h1 r, fun r => by rw [call]; exact h2 r, fun room r k a b d => ?_,
    fun r => by rw [call]; exact h4 r, fun r k a b d e => by rw [hs]; exact h5 r k a b d e⟩
  obtain ⟨g1, g2⟩ := h3 room r k a b d
  rw [call, hcf]
  exact ⟨fun far i j l m => ⟨(g1 far i j l m).1, hm _ (g1 far i j l m).2⟩, fun e cf i j l m n =>
    ⟨(g2 e cf i j l m n).1, (g2 e cf i j l m n).2.1, fun x hx => hm _ ((g2 e cf i j l m n).2.2 x hx)⟩⟩

theorem PortCleared.of_calls {s t u : State} {p : Port} {c : Cause} (h : PortCleared s t p c)
    (hc : u.calls = t.calls) (hm : ∀ q ∈ t.highway.queue, q ∈ u.highway.queue) : PortCleared s u p c :=
  h.of_right (by rw [hc]) (by rw [hc]) (fun q => by rw [State.callPort_of_calls (congrArg (·.ports) hc)]) hm

theorem FrontHearsReorder.of_left {s s' t : State} {p : Port} (h : FrontHearsReorder s' t p)
    (hp : (s'.port p).state = (s.port p).state) (hc : s'.calls = s.calls) : FrontHearsReorder s t p := by
  intro up off r k hf
  refine h (hp ▸ up) ?_ r k ?_
  · rwa [State.callPort_of_calls (congrArg (·.ports) hc)]
  · simpa only [FrontIs, State.front, State.call_of_calls hc] using hf

theorem FrontHearsReorder.of_right {s t u : State} {p : Port} (h : FrontHearsReorder s t p)
    (hp : (u.port p).tone = (t.port p).tone) : FrontHearsReorder s u p := fun up off r k hf =>
  hp.trans (h up off r k hf)

/-! ### Home records (R5) -/

namespace State

theorem homeRecord_isIndex {s : State} {e : Ext} {h : HomeRecord} (hr : s.homeRecord e = some h) :
    ∃ i, s.homeIndex e = some i ∧ s.adm.homes[i]? = some h := Option.bind_eq_some_iff.1 hr

theorem homeIndex_spec {s : State} {e : Ext} {i : Nat} (h : s.homeIndex e = some i) :
    ∃ im, s.station.image = some im ∧ im.range.low + i = e := by
  unfold homeIndex at h
  cases him : s.station.image with
  | none => simp [him] at h
  | some im =>
    simp only [him, Range.covers, decide_eq_true_eq, Option.ite_none_right_eq_some, Option.some.injEq] at h
    exact ⟨im, rfl, by omega⟩

/-- An update of a home record changes the list of records and nothing else. -/
theorem setHomeRecord_eq (e : Ext) (h : HomeRecord) (s : State) :
    s.setHomeRecord e h = { s with adm := { s.adm with homes := (s.setHomeRecord e h).adm.homes } } := by
  unfold setHomeRecord
  split <;> rfl

@[simp] theorem setHomeRecord_station (e : Ext) (h : HomeRecord) (s : State) :
    (s.setHomeRecord e h).station = s.station := by rw [setHomeRecord_eq]
@[simp] theorem setHomeRecord_clock (e : Ext) (h : HomeRecord) (s : State) :
    (s.setHomeRecord e h).clock = s.clock := by rw [setHomeRecord_eq]
@[simp] theorem setHomeRecord_highway (e : Ext) (h : HomeRecord) (s : State) :
    (s.setHomeRecord e h).highway = s.highway := by rw [setHomeRecord_eq]
@[simp] theorem setHomeRecord_slots (e : Ext) (h : HomeRecord) (s : State) :
    (s.setHomeRecord e h).slots = s.slots := by rw [setHomeRecord_eq]
@[simp] theorem setHomeRecord_ports (e : Ext) (h : HomeRecord) (s : State) :
    (s.setHomeRecord e h).ports = s.ports := by rw [setHomeRecord_eq]
@[simp] theorem setHomeRecord_calls (e : Ext) (h : HomeRecord) (s : State) :
    (s.setHomeRecord e h).calls = s.calls := by rw [setHomeRecord_eq]
@[simp] theorem setHomeRecord_scr (e : Ext) (h : HomeRecord) (s : State) :
    (s.setHomeRecord e h).scr = s.scr := by rw [setHomeRecord_eq]
@[simp] theorem setHomeRecord_logins (e : Ext) (h : HomeRecord) (s : State) :
    (s.setHomeRecord e h).adm.logins = s.adm.logins := by rw [setHomeRecord_eq]
@[simp] theorem setHomeRecord_cache (e : Ext) (h : HomeRecord) (s : State) :
    (s.setHomeRecord e h).adm.cache = s.adm.cache := by rw [setHomeRecord_eq]
@[simp] theorem setHomeRecord_queries (e : Ext) (h : HomeRecord) (s : State) :
    (s.setHomeRecord e h).adm.queries = s.adm.queries := by rw [setHomeRecord_eq]

@[simp] theorem login_setHomeRecord (e : Ext) (h : HomeRecord) (p : Port) (s : State) :
    (s.setHomeRecord e h).login p = s.login p := login_of_logins (setHomeRecord_logins e h s) p
@[simp] theorem port_setHomeRecord (e : Ext) (h : HomeRecord) (p : Port) (s : State) :
    (s.setHomeRecord e h).port p = s.port p := port_of_ports (setHomeRecord_ports e h s) p
@[simp] theorem self_setHomeRecord (e : Ext) (h : HomeRecord) (s : State) : (s.setHomeRecord e h).self = s.self :=
  self_of_station (setHomeRecord_station e h s)

/-- A record that is updated is read as it was written. -/
theorem homeRecord_setHomeRecord_same {s : State} {e : Ext} {h : HomeRecord} (h' : HomeRecord)
    (hr : s.homeRecord e = some h) : (s.setHomeRecord e h').homeRecord e = some h' := by
  obtain ⟨i, hi, hg⟩ := homeRecord_isIndex hr
  have hlt : i < s.adm.homes.length := (List.getElem?_eq_some_iff.1 hg).1
  have hi' : (s.setHomeRecord e h').homeIndex e = some i := by rw [← hi]; simp [homeIndex]
  simp only [homeRecord, hi', Option.bind_some]
  simp [setHomeRecord, hi, hlt]

/-- Two numbers of the own range have records of their own. -/
theorem homeRecord_setHomeRecord_ne {s : State} {e n : Ext} (h' : HomeRecord) (ne : n ≠ e) :
    (s.setHomeRecord e h').homeRecord n = s.homeRecord n := by
  have hi : (s.setHomeRecord e h').homeIndex n = s.homeIndex n := by simp [homeIndex]
  simp only [homeRecord, hi]
  cases hn : s.homeIndex n with
  | none => rfl
  | some j =>
    simp only [Option.bind_some, setHomeRecord]
    split
    · rename_i i he
      have : i ≠ j := by
        obtain ⟨im, him, hj⟩ := homeIndex_spec hn
        obtain ⟨im', him', hi⟩ := homeIndex_spec he
        obtain rfl : im = im' := Option.some.inj (him.symm.trans him')
        rintro rfl
        exact ne (hj.symm.trans hi)
      simp [this]
    · rfl

/-! ### A location is cleared (R15, R18, R19) -/

/-- The state after a cleared location, whether or not the change could be announced. -/
theorem clearLocation_of_located {s : State} {e : Ext} {h : HomeRecord} {loc : Station × Port} (why : ChangeReason)
    (hr : s.homeRecord e = some h) (hl : h.location = some loc) :
    s.clearLocation e why = (s.setHomeRecord e { h with location := none, epoch := h.epoch + 1 }).offerSkip
      (broadcast s (.admitChange e why (some loc) h.rights (h.epoch + 1))) .plain := by
  simp [clearLocation, hr, hl, changeCell, cellToAll, broadcast]

theorem clearLocation_of_unlocated {s : State} {e : Ext} {h : HomeRecord} (why : ChangeReason)
    (hr : s.homeRecord e = some h) (hl : h.location = none) : s.clearLocation e why = s := by
  simp [clearLocation, hr, hl]

theorem clearLocation_of_none {s : State} {e : Ext} (why : ChangeReason) (hr : s.homeRecord e = none) :
    s.clearLocation e why = s := by
  simp [clearLocation, hr]

/-! ### Leaving CONFIRMING, dropping a login, logging out -/

/-- A tone, a message and the port's own entry: what the end of a login adds to the clearing of its calls. -/
structure DropFrame (s t : State) (p : Port) : Prop extends CallsEnd s t where
  logins : ∀ q, q ≠ p → t.login q = s.login q := by exact fun _ _ => rfl
  own : t.login p = { s.login p with entry := (t.login p).entry } := by rfl
  portState : ∀ q, (t.port q).state = (s.port q).state := by exact fun _ => rfl
  outbound : ∀ q, q ≠ p → (t.port q).outbound = (s.port q).outbound := by exact fun _ _ => rfl

namespace DropFrame

theorem refl (s : State) (p : Port) : DropFrame s s p := {}

theorem trans {s t u : State} {p : Port} (a : DropFrame s t p) (b : DropFrame t u p) : DropFrame s u p where
  toCallsEnd := a.toCallsEnd.trans b.toCallsEnd
  logins q hq := (b.logins q hq).trans (a.logins q hq)
  own := by rw [b.own, a.own]
  portState q := (b.portState q).trans (a.portState q)
  outbound q hq := (b.outbound q hq).trans (a.outbound q hq)

theorem of_clearFrame {s t : State} (h : ClearFrame s t) (p : Port) : DropFrame s t p where
  toCallsEnd := h.toCallsEnd
  logins q _ := h.login q
  own := by rw [h.login p]
  portState q := h.portState q
  outbound q _ := h.outbound q

theorem setEntry (p : Port) (x : Option LoginEntry) (s : State) : DropFrame s (s.setEntry p x) p where
  logins q hq := login_setEntry_ne x s hq
  own := by simp

theorem sendMessage (p : Port) (m : SetMessage) (s : State) : DropFrame s (s.sendMessage p m) p := by
  have port : ∀ q, ((s.sendMessage p m).port q).state = (s.port q).state := fun q => by
    by_cases hq : q = p
    · subst hq; rw [port_sendMessage_same]
    · rw [port_sendMessage_ne m s hq]
  have out : ∀ q, q ≠ p → ((s.sendMessage p m).port q).outbound = (s.port q).outbound := fun q hq => by
    rw [port_sendMessage_ne m s hq]
  rw [sendMessage_eq] at port out ⊢
  exact { portState := port, outbound := out }

theorem leaveConfirming (p : Port) (x : LoginResult) (s : State) : DropFrame s (s.leaveConfirming p x) p :=
  ((setEntry p none s).trans (of_clearFrame (ClearFrame.setTone _ _ _) p)).trans (sendMessage p _ _)

theorem dropLogin (p : Port) (why : DropReason) (s : State) : DropFrame s (s.dropLogin p why) p := by
  unfold State.dropLogin
  have clear := (setEntry p none s).trans (of_clearFrame (ClearFrame.clearPort p why.cause _) p)
  split
  · dsimp only
    split
    · exact clear.trans (sendMessage p _ _)
    · exact clear
  · exact leaveConfirming p _ s
  · exact refl s p
  · exact refl s p

end DropFrame

theorem login_leaveConfirming (p : Port) (x : LoginResult) (s : State) :
    (s.leaveConfirming p x).login p = { s.login p with entry := none } := by
  simp [leaveConfirming]

/-- The set of a port that leaves CONFIRMING receives the result. -/
theorem leaveConfirming_tells {p : Port} {s : State} (x : LoginResult) (h : (s.port p).state = .up) :
    Tells (s.leaveConfirming p x) p (.loginResult x) :=
  sendMessage_last _ (by rw [(ClearFrame.setTone p .none (s.setEntry p none)).portState]; exact h)

section
variable {s : State} {p : Port} {e : Ext} {r : Rights} {x : Epoch} {n : Renewal}
  (h : s.loginBody p = some (.admitted e r x n))
include h

/-- The drop of an ADMITTED login removes its entry. -/
theorem login_dropLogin_of_admitted (why : DropReason) :
    (s.dropLogin p why).login p = { s.login p with entry := none } := by
  have clear := (ClearFrame.clearPort p why.cause (s.setEntry p none)).login p
  unfold dropLogin
  rw [h]
  dsimp only
  split <;> simp [clear]

/-- The set is told the result that R3 names. -/
theorem dropLogin_tells {why : DropReason} {m : LoginResult} (hm : why.result = some m)
    (up : (s.port p).state = .up) : Tells (s.dropLogin p why) p (.loginResult m) := by
  unfold dropLogin
  rw [h]
  simp only [hm]
  exact sendMessage_last _ (by rw [(ClearFrame.clearPort p why.cause _).portState]; exact up)

/-- A plain drop tells the set nothing (R3). -/
theorem dropLogin_plain : s.dropLogin p .plain = (s.setEntry p none).clearPort p .admission := by
  unfold dropLogin
  rw [h]
  rfl

theorem outbound_dropLogin_plain : ((s.dropLogin p .plain).port p).outbound = (s.port p).outbound := by
  rw [dropLogin_plain h]
  exact (ClearFrame.clearPort p _ _).outbound p

end

theorem admitted_eq_some {s : State} {p : Port} {e : Ext} {r : Rights} {x : Epoch} :
    s.admitted p = some (e, r, x) ↔ ∃ n, s.loginBody p = some (.admitted e r x n) := by
  unfold admitted loginBody
  constructor
  · intro h
    split at h
    · rename_i hb
      cases h
      exact ⟨_, by rw [hb]; rfl⟩
    · cases h
  · rintro ⟨n, h⟩
    obtain ⟨y, hy, hb⟩ := Option.map_eq_some_iff.1 h
    obtain ⟨body, timer⟩ := y
    subst hb
    rw [hy]

/-- The port that R17 and R16 mean holds the ADMITTED login of the extension. -/
theorem admittedPort_spec {s : State} {e : Ext} {p : Port} (h : s.admittedPort e = some p) :
    ∃ r x n, s.loginBody p = some (.admitted e r x n) := by
  have := List.find?_some h
  split at this
  · rename_i e' r x ha
    obtain rfl := eq_of_beq this
    obtain ⟨n, hn⟩ := admitted_eq_some.1 ha
    exact ⟨r, x, n, hn⟩
  · cases this

theorem admittedPort_of_logins {s t : State} (h : t.adm.logins = s.adm.logins) (e : Ext) :
    t.admittedPort e = s.admittedPort e := by
  simp only [admittedPort, admitted, login_of_logins h]

end State

/-! ### The events and cells that reach a login -/

namespace State

/-- A due admission message that the command names is taken and acted on (R148, R150). -/
theorem takeAdmission_of_due {s : State} {p : Port} {m : AdmissionMessage} {f : State → State}
    {act : AdmissionMessage → Option (State → State)} (due : s.dueEvent p = some (.admission m))
    (h : act m = some f) : s.takeAdmission p act = f (s.modPort p fun u => u.release (.admission m)) := by
  simp [takeAdmission, takeOffer, due, h]

end State

end Sys2Proof.Machine
end

