-- ==== Sys2Proof/Proofs/AdmitCells.lean ====
section
/-! PROOF. The home's handling of the ADMIT cells (R12, R15, R27): one equation for each case of a taken cell. -/

namespace Sys2Proof.Machine

open Sys2Proof

/-! ### A cell is taken, and cells join the queue -/

namespace State

@[simp] theorem taken_station (s : State) (c : StoreClass) (x : Stored) : (taken s c x).station = s.station := rfl
@[simp] theorem taken_queue (s : State) (c : StoreClass) (x : Stored) :
    (taken s c x).highway.queue = s.highway.queue := rfl
@[simp] theorem taken_presence (s : State) (c : StoreClass) (x : Stored) :
    (taken s c x).highway.presence = s.highway.presence := rfl
@[simp] theorem taken_adm (s : State) (c : StoreClass) (x : Stored) : (taken s c x).adm = s.adm := rfl
@[simp] theorem taken_calls (s : State) (c : StoreClass) (x : Stored) : (taken s c x).calls = s.calls := rfl
@[simp] theorem taken_ports (s : State) (c : StoreClass) (x : Stored) : (taken s c x).ports = s.ports := rfl
@[simp] theorem taken_self (s : State) (c : StoreClass) (x : Stored) : (taken s c x).self = s.self := rfl
@[simp] theorem taken_homeOf (s : State) (c : StoreClass) (x : Stored) (e : Ext) :
    (taken s c x).homeOf e = s.homeOf e := rfl
@[simp] theorem taken_homedHere (s : State) (c : StoreClass) (x : Stored) (e : Ext) :
    (taken s c x).homedHere e = s.homedHere e := rfl
@[simp] theorem taken_homeRecord (s : State) (c : StoreClass) (x : Stored) (e : Ext) :
    (taken s c x).homeRecord e = s.homeRecord e := rfl
@[simp] theorem taken_login (s : State) (c : StoreClass) (x : Stored) (p : Port) :
    (taken s c x).login p = s.login p := rfl
@[simp] theorem taken_loginBody (s : State) (c : StoreClass) (x : Stored) (p : Port) :
    (taken s c x).loginBody p = s.loginBody p := rfl
@[simp] theorem taken_loginTag (s : State) (c : StoreClass) (x : Stored) (p : Port) :
    (taken s c x).loginTag p = s.loginTag p := rfl
@[simp] theorem taken_admittedPort (s : State) (c : StoreClass) (x : Stored) (e : Ext) :
    (taken s c x).admittedPort e = s.admittedPort e := rfl
@[simp] theorem taken_port (s : State) (c : StoreClass) (x : Stored) (p : Port) :
    (taken s c x).port p = s.port p := rfl

theorem homedHere_eq_true {s : State} {e : Ext} : s.homedHere e = true ↔ s.homeOf e = some s.self := by
  simp [homedHere]

end State

/-- A command that takes the next cell of a class leaves what the consumer makes of the state without it (R162). -/
theorem completes_of_consume {i : Instr} {s : State} {c : StoreClass} {kind : Body → Bool}
    {act : Stored → State → State} {x : Stored} {P : State → Prop}
    (hi : exec i s = .next (s.consume c kind act)) (hx : s.nextCell c = some x) (hk : kind x.cell.body = true)
    (h : P (act x (taken s c x))) : Completes i s P :=
  ⟨_, by rw [hi, State.consume_of_next hx hk, State.takeCell_eq_taken hx], h⟩

theorem Queues.of_eq {s t : State} (h : t.highway.queue = s.highway.queue) : Queues s t [] := by
  simp [Queues, h]

theorem Queues.trans {s t u : State} {xs ys : List Cell} (a : Queues s t xs) (b : Queues t u ys) :
    Queues s u (xs ++ ys) := by
  unfold Queues at *
  rw [b, a, List.append_assoc]

/-- After the cells for which there was room there is room for the rest. -/
theorem Queues.room {s t : State} {xs : List Cell} {n : Nat} (h : Queues s t xs) (hst : t.station = s.station)
    (room : QueueRoom (xs.length + n) s) : QueueRoom n t := by
  refine ⟨by rw [hst]; exact room.1, ?_⟩
  have := congrArg List.length h
  have := room.2
  simp only [List.length_map, List.length_append] at *
  omega

/-- A cell for which there is room joins the end of the queue. -/
theorem Queues.offerSkip {n : Nat} {s : State} (room : QueueRoom (n + 1) s) (c : Cell) (x : OfferName) :
    Queues s (s.offerSkip c x) [c] := by
  rw [State.offerSkip_of_room room]
  simp [Queues]

namespace State

@[simp] theorem offerSkip_station (c : Cell) (n : OfferName) (s : State) : (s.offerSkip c n).station = s.station :=
  offer_station c n s
@[simp] theorem offerSkip_adm (c : Cell) (n : OfferName) (s : State) : (s.offerSkip c n).adm = s.adm :=
  offer_adm c n s
@[simp] theorem offerSkip_calls (c : Cell) (n : OfferName) (s : State) : (s.offerSkip c n).calls = s.calls :=
  offer_calls c n s
@[simp] theorem offerSkip_ports (c : Cell) (n : OfferName) (s : State) : (s.offerSkip c n).ports = s.ports :=
  offer_ports c n s
@[simp] theorem offerSkip_scr (c : Cell) (n : OfferName) (s : State) : (s.offerSkip c n).scr = s.scr :=
  offer_scr c n s
@[simp] theorem homeRecord_offerSkip (c : Cell) (n : OfferName) (e : Ext) (s : State) :
    (s.offerSkip c n).homeRecord e = s.homeRecord e := homeRecord_offer c n e s
@[simp] theorem login_offerSkip (c : Cell) (n : OfferName) (p : Port) (s : State) :
    (s.offerSkip c n).login p = s.login p := login_of_logins (by simp) p

@[simp] theorem port_offerSkip (c : Cell) (n : OfferName) (p : Port) (s : State) :
    (s.offerSkip c n).port p = s.port p := port_of_ports (by simp) p

theorem mem_queue_offerSkip (c : Cell) (n : OfferName) {s : State} {q : Queued} (h : q ∈ s.highway.queue) :
    q ∈ (s.offerSkip c n).highway.queue := (Sends.offer c n s).mem h

/-! ### The cleared location (R15) -/

section
variable {s : State} {e : Ext} {h : HomeRecord} {loc : Station × Port} (why : ChangeReason)
  (hr : s.homeRecord e = some h) (hl : h.location = some loc)
include hr hl

theorem homeRecord_clearLocation : (s.clearLocation e why).homeRecord e =
    some { h with location := none, epoch := h.epoch + 1 } := by
  rw [clearLocation_of_located why hr hl]
  simp [homeRecord_setHomeRecord_same _ hr]

/-- With room in the queue the change is announced, naming the cleared location. -/
theorem queues_clearLocation {n : Nat} (room : QueueRoom (n + 1) s) : Queues s (s.clearLocation e why)
    [broadcast s (.admitChange e why (some loc) h.rights (h.epoch + 1))] := by
  rw [clearLocation_of_located why hr hl]
  have set : Queues s (s.setHomeRecord e { h with location := none, epoch := h.epoch + 1 }) [] :=
    Queues.of_eq (by simp)
  have room' : QueueRoom (n + 1) (s.setHomeRecord e { h with location := none, epoch := h.epoch + 1 }) :=
    set.room (by simp) (by simpa using room)
  exact set.trans (Queues.offerSkip room' _ _)

/-- Without room it is skipped. -/
theorem queue_clearLocation_of_full (full : s.station.state ≠ .active ∨ 20 ≤ s.highway.queue.length) :
    (s.clearLocation e why).highway.queue = s.highway.queue := by
  rw [clearLocation_of_located why hr hl]
  exact (offer_refused .plain rfl (by simpa using full)).2.trans (by simp)

end

/-! ### ADMIT-LEAVE (R15) -/

section
variable {s : State} {x : Stored} {e : Ext} {ep : Epoch} (hb : x.cell.body = .admitLeave e ep)
include hb

theorem actAdmitLeave_of_match {h : HomeRecord} {p : Port} (here : s.homedHere e = true)
    (hr : s.homeRecord e = some h) (hs : x.cell.source ≠ s.self) (hl : h.location = some (x.cell.source, p))
    (hep : h.epoch = ep) : s.actAdmitLeave x = s.clearLocation e .left := by
  simp [actAdmitLeave, hb, here, hr, hl, hs, hep]

theorem actAdmitLeave_of_own (hs : x.cell.source = s.self) : s.actAdmitLeave x = s := by
  simp only [actAdmitLeave, hb, hs]
  split
  · split
    · rename_i st q _
      exact if_neg fun ⟨h1, h2, _⟩ => h2 h1
    · rfl
  · rfl

theorem actAdmitLeave_of_other (no : s.homedHere e = false ∨
    ∀ h, s.homeRecord e = some h → h.epoch ≠ ep ∨ h.location.map (·.1) ≠ some x.cell.source) :
    s.actAdmitLeave x = s := by
  rcases no with no | no
  · simp [actAdmitLeave, hb, no]
  · simp only [actAdmitLeave, hb]
    split
    · rename_i h _ hr
      split
      · rename_i st q hl
        refine if_neg fun ⟨h1, _, h3⟩ => ?_
        rcases no h hr with h' | h'
        · exact h' h3
        · exact h' (by simp [hl, h1])
      · rfl
    · rfl

end

end State

/-- Settles O24: ADMIT-LEAVE clears the location it names at the epoch it carries, and nothing else. -/
theorem admitLeaveClearsMatchingLocation : Obligations.AdmitLeaveClearsMatchingLocation := by
  intro s x e ep hx hb
  refine ⟨fun h p here hr hs hl hep => ?_, fun no => ?_⟩
  · refine completes_of_consume rfl hx (by simp [hb, Body.kind]) ?_
    rw [State.actAdmitLeave_of_match hb (s := taken s .admitC x) here hr hs hl hep]
    have hr' : (taken s .admitC x).homeRecord e = some h := hr
    refine ⟨State.homeRecord_clearLocation .left hr' hl, fun room => ?_, fun full => ?_⟩
    · exact State.queues_clearLocation (n := 0) .left hr' hl room
    · exact State.queue_clearLocation_of_full .left hr' hl full
  · refine completes_of_consume rfl hx (by simp [hb, Body.kind]) ?_
    exact State.actAdmitLeave_of_other hb (s := taken s .admitC x) no

end Sys2Proof.Machine
end

