-- ==== Sys2Proof/Proofs/AdmitChange.lean ====
section
/-! PROOF. ADMIT-CHANGE at the login it concerns (R16, R31). -/

namespace Sys2Proof.Machine

open Sys2Proof

namespace State

@[simp] theorem cacheRemove_logins (e : Ext) (s : State) : (s.cacheRemove e).adm.logins = s.adm.logins := rfl
@[simp] theorem cacheRemove_homes (e : Ext) (s : State) : (s.cacheRemove e).adm.homes = s.adm.homes := rfl
@[simp] theorem cacheRemove_calls (e : Ext) (s : State) : (s.cacheRemove e).calls = s.calls := rfl
@[simp] theorem cacheRemove_ports (e : Ext) (s : State) : (s.cacheRemove e).ports = s.ports := rfl
@[simp] theorem cacheRemove_highway (e : Ext) (s : State) : (s.cacheRemove e).highway = s.highway := rfl
@[simp] theorem cacheRemove_self (e : Ext) (s : State) : (s.cacheRemove e).self = s.self := rfl
@[simp] theorem cacheRemove_login (e : Ext) (p : Port) (s : State) : (s.cacheRemove e).login p = s.login p := rfl
@[simp] theorem cacheRemove_loginBody (e : Ext) (p : Port) (s : State) :
    (s.cacheRemove e).loginBody p = s.loginBody p := rfl
@[simp] theorem cacheRemove_port (e : Ext) (p : Port) (s : State) : (s.cacheRemove e).port p = s.port p := rfl
@[simp] theorem cacheRemove_admittedPort (e n : Ext) (s : State) :
    (s.cacheRemove e).admittedPort n = s.admittedPort n := rfl

theorem mem_cache_cacheRemove {s : State} {e : Ext} {y : CacheEntry} :
    y ∈ (s.cacheRemove e).adm.cache ↔ y ∈ s.adm.cache ∧ y.ext ≠ e := by
  simp [cacheRemove, cacheFilter]

section
variable {s : State} {x : Stored} {e : Ext} {why : ChangeReason} {loc : Option (Station × Port)} {r : Rights}
  {ep : Epoch} (hb : x.cell.body = .admitChange e why loc r ep)
include hb

theorem actAdmitChange_of_homedHere (h : s.homedHere e = true) : s.actAdmitChange x = s.cacheRemove e := by
  simp [actAdmitChange, hb, h]

theorem actAdmitChange_of_noLogin (h : s.admittedPort e = none) : s.actAdmitChange x = s.cacheRemove e := by
  simp [actAdmitChange, hb, h]

/-- Whatever becomes of the login, the cache loses the entries of the extension and no other. -/
theorem cache_actAdmitChange : (s.actAdmitChange x).adm.cache = (s.cacheRemove e).adm.cache := by
  have drop : ∀ (here : Prop) [Decidable here] (p : Port) (w : DropReason),
      (if here then (s.cacheRemove e).dropLogin p w else s.cacheRemove e).adm.cache = (s.cacheRemove e).adm.cache := by
    intro here _ p w
    split
    · exact (DropFrame.dropLogin p w _).cache
    · rfl
  cases h : s.homedHere e with
  | true => rw [actAdmitChange_of_homedHere hb h]
  | false =>
    cases hp : s.admittedPort e with
    | none => rw [actAdmitChange_of_noLogin hb hp]
    | some p =>
      simp only [actAdmitChange, hb, h, cacheRemove_admittedPort, hp, Bool.false_eq_true, if_false]
      cases why
      case moved =>
        dsimp only
        split
        · rfl
        · exact (DropFrame.dropLogin p .plain _).cache
      case rights =>
        dsimp only
        split
        · split <;> rfl
        · rfl
      all_goals exact drop _ p _

section
variable {p : Port} (away : s.homedHere e = false) (hp : s.admittedPort e = some p)
include away hp

/-- A move to another station drops the login here. -/
theorem actAdmitChange_moved (hw : why = .moved) (hl : loc.map (·.1) ≠ some s.self) :
    s.actAdmitChange x = (s.cacheRemove e).dropLogin p .plain := by
  subst hw
  simp [actAdmitChange, hb, away, hp, hl]

theorem actAdmitChange_movedHere (hw : why = .moved) (hl : loc.map (·.1) = some s.self) :
    s.actAdmitChange x = s.cacheRemove e := by
  subst hw
  simp [actAdmitChange, hb, away, hp, hl]

/-- A loss of the login's own location drops it. -/
theorem actAdmitChange_ended (hw : why = .left ∨ why = .forced ∨ why = .lost ∨ why = .barred)
    (hl : loc = some (s.self, p)) : s.actAdmitChange x =
      (s.cacheRemove e).dropLogin p (if why = .barred then .barring else .plain) := by
  rcases hw with rfl | rfl | rfl | rfl <;> simp [actAdmitChange, hb, away, hp, hl]

theorem actAdmitChange_rights {r' : Rights} {x' : Epoch} {n : Renewal} {tm : Option Nat} (hw : why = .rights)
    (hl : loc = some (s.self, p)) (he : (s.login p).entry = some { body := .admitted e r' x' n, timer := tm }) :
    s.actAdmitChange x =
      (s.cacheRemove e).setEntry p (some { body := .admitted e r ep n, timer := tm }) := by
  subst hw
  simp [actAdmitChange, hb, away, hp, hl, he]

/-- A change at a location that is not the login's own leaves it. -/
theorem actAdmitChange_elsewhere (hw : why ≠ .moved) (hl : loc ≠ some (s.self, p)) :
    s.actAdmitChange x = s.cacheRemove e := by
  cases why
  case moved => exact absurd rfl hw
  all_goals simp [actAdmitChange, hb, away, hp, hl]

end
end

/-- The drop of the login that an ADMIT-CHANGE ends, as the statements say it (R3, R67). -/
theorem dropLogin_of_change {s u : State} {p : Port} {e : Ext} {r : Rights} {x : Epoch} {n : Renewal} {w : DropReason}
    (h : u.loginBody p = some (.admitted e r x n)) (hw : w ≠ .homeLost) (hst : u.station = s.station)
    (hc : u.calls = s.calls) (hq : u.highway.queue = s.highway.queue) (hl : u.adm.logins = s.adm.logins)
    (hp : u.ports = s.ports) :
    let t := u.dropLogin p w
    (t.login p).entry = none ∧ (∀ q, q ≠ p → t.login q = s.login q) ∧ PortCleared s t p .admission ∧
      FrontHearsReorder s t p := by
  have frame := DropFrame.dropLogin p w u
  obtain ⟨cleared, heard⟩ := dropLogin_cleared w h
  have cause : w.cause = .admission := by cases w <;> first | rfl | exact absurd rfl hw
  rw [cause] at cleared
  refine ⟨by rw [login_dropLogin_of_admitted h], fun q hq => (frame.logins q hq).trans (login_of_logins hl q),
    cleared.of_left hst hc hq, heard.of_left (by rw [port_of_ports hp]) hc⟩

end State

/-- Settles O25: ADMIT-CHANGE reaches the login it names and no other. -/
theorem admitChangeReachesTheLogin : Obligations.AdmitChangeReachesTheLogin := by
  intro s x e why loc r ep hx hb
  have run : ∀ P : State → Prop, P ((taken s .admitC x).actAdmitChange x) → Completes .admitChange s P :=
    fun P h => completes_of_consume rfl hx (by simp [hb, Body.kind]) h
  refine ⟨run _ fun y hy => ?_, fun p r' x' n tm he hp away => ?_, fun here => ?_, fun none => ?_⟩
  · rw [State.cache_actAdmitChange hb] at hy
    exact (State.mem_cache_cacheRemove.1 hy).symm
  · have body : s.loginBody p = some (.admitted e r' x' n) := by simp [State.loginBody, he]
    have leaves : ∀ t, t = (taken s .admitC x).cacheRemove e → t.adm.logins = s.adm.logins ∧ t.calls = s.calls ∧
        t.ports = s.ports ∧ t.highway.queue = s.highway.queue := by
      rintro t rfl
      exact ⟨rfl, rfl, rfl, rfl⟩
    have drops : ∀ w : DropReason, w ≠ .homeLost → (why = .barred → w = .barring) → (why ≠ .barred → w = .plain) →
        (taken s .admitC x).actAdmitChange x = ((taken s .admitC x).cacheRemove e).dropLogin p w →
        Completes .admitChange s fun t => (t.login p).entry = Option.none ∧
          (∀ q, q ≠ p → t.login q = s.login q) ∧ PortCleared s t p .admission ∧ FrontHearsReorder s t p ∧
          (why = .barred → (s.port p).state = .up → Tells t p (.loginResult .barred)) ∧
          (why ≠ .barred → (t.port p).outbound = (s.port p).outbound) := by
      intro w hw bar plain eq
      refine run _ ?_
      rw [eq]
      obtain ⟨h1, h2, h3, h4⟩ := State.dropLogin_of_change (s := s) (u := (taken s .admitC x).cacheRemove e) (p := p)
        body hw rfl rfl rfl rfl rfl
      refine ⟨h1, h2, h3, h4, fun hy up => ?_, fun hy => ?_⟩
      · rw [bar hy]
        exact State.dropLogin_tells (s := (taken s .admitC x).cacheRemove e) body rfl up
      · rw [plain hy]
        exact State.outbound_dropLogin_plain (s := (taken s .admitC x).cacheRemove e) body
    refine ⟨fun hw hl => ?_, fun hw hl => ?_, fun hw hl => ?_, fun hw hl => ?_, fun hw hl => ?_⟩
    · exact drops .plain (by simp) (by simp [hw]) (fun _ => rfl) (State.actAdmitChange_moved hb away hp hw hl)
    · exact run _ (leaves _ (State.actAdmitChange_movedHere hb away hp hw hl))
    · exact drops (if why = .barred then .barring else .plain) (by split <;> simp) (fun h => if_pos h)
        (fun h => if_neg h) (State.actAdmitChange_ended hb away hp hw hl)
    · refine run _ ?_
      rw [State.actAdmitChange_rights hb (s := taken s .admitC x) away hp hw hl he]
      exact ⟨by simp, rfl⟩
    · exact run _ (leaves _ (State.actAdmitChange_elsewhere hb away hp hw hl))
  · refine run _ ?_
    rw [State.actAdmitChange_of_homedHere hb (s := taken s .admitC x) here]
    exact ⟨rfl, rfl, rfl, rfl, rfl⟩
  · refine run _ ?_
    rw [State.actAdmitChange_of_noLogin hb (s := taken s .admitC x) none]
    rfl

end Sys2Proof.Machine
end

