-- ==== Sys2Proof/Proofs/HomeMoves.lean ====
section
/-! PROOF. The home's answers to ADMIT-ASK and ADMIT-MOVE (R12, R27). -/

namespace Sys2Proof.Machine

open Sys2Proof

namespace State

/-! ### A home record moves (R12 steps 3 and 4) -/

/-- The record of a number after its move. -/
def movedRecord (h : HomeRecord) (m : Station) (q : Port) : HomeRecord :=
  { h with location := some (m, q), epoch := h.epoch + 1 }

/-- The announcement that a record located at a third station draws. -/
def movedCell (s : State) (e : Ext) (h : HomeRecord) (m : Station) (q : Port) : Cell :=
  broadcast s (.admitChange e .moved (some (m, q)) h.rights (h.epoch + 1))

section
variable {s : State} {e : Ext} {h : HomeRecord} {m : Station} {q : Port}

/-- A record that is unlocated or located at the mover is located there, without a cell. -/
theorem moveHome_of_free (hl : h.location = none ∨ ∃ p, h.location = some (m, p)) :
    s.moveHome e h m q = (s.setHomeRecord e (movedRecord h m q), true) := by
  rcases hl with hl | ⟨p, hl⟩ <;> simp [moveHome, hl, movedRecord]

section
variable {o : Station} {p : Port} (hl : h.location = some (o, p)) (hm : o ≠ m)
include hl hm

/-- A record at another station moves where its announcement is accepted, the login here dropped before. -/
theorem moveHome_of_other : s.moveHome e h m q =
    if (s.offer (movedCell s e h m q) .plain).2 = true then
      ((if o = s.self then match (s.offer (movedCell s e h m q) .plain).1.admittedPort e with
          | some p => (s.offer (movedCell s e h m q) .plain).1.dropLogin p .plain
          | none => (s.offer (movedCell s e h m q) .plain).1
        else (s.offer (movedCell s e h m q) .plain).1).setHomeRecord e (movedRecord h m q), true)
    else ((s.offer (movedCell s e h m q) .plain).1, false) := by
  unfold moveHome
  rw [hl]
  dsimp only
  rw [if_neg hm]
  rfl

/-- Refused, the announcement leaves the record where it was. -/
theorem moveHome_of_full (full : s.station.state ≠ .active ∨ 20 ≤ s.highway.queue.length) :
    s.moveHome e h m q = (s.offerSkip (movedCell s e h m q) .plain, false) := by
  have no := (offer_refused (s := s) (c := movedCell s e h m q) .plain rfl full).1
  rw [moveHome_of_other hl hm, if_neg (by simp [no])]
  rfl

section
variable (room : QueueRoom 1 s)
include room

/-- A record at a third station is announced MOVED first. -/
theorem moveHome_of_third (ho : o ≠ s.self) : s.moveHome e h m q =
    ((s.offerSkip (movedCell s e h m q) .plain).setHomeRecord e (movedRecord h m q), true) := by
  have ok := (offer_of_queueRoom (n := 0) room (movedCell s e h m q) .plain).1
  rw [moveHome_of_other hl hm, if_pos ok, if_neg ho]
  rfl

/-- A record located here drops the login here. -/
theorem moveHome_of_here (ho : o = s.self) {p' : Port} (hp : s.admittedPort e = some p') : s.moveHome e h m q =
    (((s.offerSkip (movedCell s e h m q) .plain).dropLogin p' .plain).setHomeRecord e (movedRecord h m q), true) := by
  have ok := (offer_of_queueRoom (n := 0) room (movedCell s e h m q) .plain).1
  have hp' := (admittedPort_of_logins (congrArg (·.logins) (offer_adm (movedCell s e h m q) .plain s)) e).trans hp
  rw [moveHome_of_other hl hm, if_pos ok, if_pos ho, hp']
  rfl

end
end
end

/-- A login that is dropped after one announcement at most ends the calls of its port, as R67 says of the state before
the announcement. -/
theorem dropLogin_cleared_after {s u : State} {p : Port} {e : Ext} {r : Rights} {x : Epoch} {n : Renewal}
    (why : DropReason) (h : u.loginBody p = some (.admitted e r x n)) (hst : u.station = s.station)
    (hc : u.calls = s.calls) (hp : u.ports = s.ports) (hq : u.highway.queue.length ≤ s.highway.queue.length + 1) :
    PortCleared s (u.dropLogin p why) p why.cause ∧ FrontHearsReorder s (u.dropLogin p why) p := by
  refine ⟨?_, (dropLogin_cleared why h).2.of_left (by rw [port_of_ports hp]) hc⟩
  have base : PortCleared s ((u.setEntry p none).clearPort p why.cause) p why.cause :=
    portCleared_of_same (s' := u.setEntry p none) hst hc hq (fun _ => rfl) rfl (fun _ => rfl) fun _ h => h
  unfold dropLogin
  rw [h]
  dsimp only
  split
  · exact base.of_right (by simp) (by simp) (by simp) (by simp)
  · exact base

theorem offerSkip_length_le (c : Cell) (n : OfferName) (s : State) :
    (s.offerSkip c n).highway.queue.length ≤ s.highway.queue.length + 1 := by
  obtain ⟨-, new, h, hl⟩ := Sends.offer c n s
  rw [offerSkip, h, List.length_append]
  omega

/-! ### ADMIT-ASK (R27) -/

section
variable {s : State} {x : Stored} {e : Ext} (hb : x.cell.body = .admitAsk e)
include hb

theorem actAdmitAsk_of_away (h : s.homedHere e = false) :
    s.actAdmitAsk x = s.offerSkip (answerTo s x (.admitTell e .notHome none 0 0)) .plain := by
  simp only [actAdmitAsk, hb, h]
  rfl

section
variable {h : HomeRecord} (here : s.homedHere e = true) (hr : s.homeRecord e = some h)
include here hr

theorem actAdmitAsk_of_barred (hbar : h.barred = true) :
    s.actAdmitAsk x = s.offerSkip (answerTo s x (.admitTell e .barred none h.rights h.epoch)) .plain := by
  simp only [actAdmitAsk, hb, here, hr, hbar]
  rfl

theorem actAdmitAsk_of_unlocated (hbar : h.barred = false) (hl : h.location = none) :
    s.actAdmitAsk x = s.offerSkip (answerTo s x (.admitTell e .notIn none h.rights h.epoch)) .plain := by
  simp only [actAdmitAsk, hb, here, hr, hbar, hl]
  rfl

theorem actAdmitAsk_of_located {loc : Station × Port} (hbar : h.barred = false) (hl : h.location = some loc) :
    s.actAdmitAsk x = s.offerSkip (answerTo s x (.admitTell e .admitted (some loc) h.rights h.epoch)) .plain := by
  simp only [actAdmitAsk, hb, here, hr, hbar, hl]
  rfl

end

/-- An answer never changes the Admission Unit's tables. -/
theorem adm_actAdmitAsk : (s.actAdmitAsk x).adm = s.adm := by
  simp [actAdmitAsk, hb]

end

/-! ### ADMIT-MOVE (R12) -/

/-- The answer to a move, under the flags of the cell it answers. -/
def moveAnswerTo (s : State) (x : Stored) (b : Body) : Cell :=
  { answerTo s x b with move := true, renew := x.cell.renew }

section
variable {s : State} {x : Stored} {e : Ext} {q : Port} (hb : x.cell.body = .admitMove e q)
include hb

theorem actAdmitMove_of_away (h : s.homedHere e = false) :
    s.actAdmitMove x = s.offerSkip (moveAnswerTo s x (.admitTell e .notHome none 0 0)) .plain := by
  simp only [actAdmitMove, hb, h]
  rfl

section
variable {h : HomeRecord} (here : s.homedHere e = true) (hr : s.homeRecord e = some h)
include here hr

theorem actAdmitMove_of_barred (hbar : h.barred = true) :
    s.actAdmitMove x = s.offerSkip (moveAnswerTo s x (.admitTell e .barred none h.rights h.epoch)) .plain := by
  simp only [actAdmitMove, hb, here, hr, hbar]
  rfl

theorem actAdmitMove_of_own (hbar : h.barred = false) (hm : x.cell.source = s.self) : s.actAdmitMove x = s := by
  simp [actAdmitMove, hb, here, hr, hbar, hm]

/-- A move of an unbarred number from a peer runs `moveHome` and answers where that was applied. -/
theorem actAdmitMove_of_moved (hbar : h.barred = false) (hm : x.cell.source ≠ s.self) {t : State}
    (ht : s.moveHome e h x.cell.source q = (t, true)) (hst : t.station = s.station) :
    s.actAdmitMove x = t.offerSkip (moveAnswerTo s x
      (.admitTell e .admitted (some (x.cell.source, q)) h.rights (h.epoch + 1))) .plain := by
  simp only [actAdmitMove, hb, here, hr, hbar, hm, ht, Bool.false_eq_true, if_false, if_true, moveAnswerTo, answerTo,
    tellCell, cellTo, self_of_station hst, Bool.true_and]

theorem actAdmitMove_of_refused (hbar : h.barred = false) (hm : x.cell.source ≠ s.self)
    (ht : (s.moveHome e h x.cell.source q).2 = false) :
    s.actAdmitMove x = (s.moveHome e h x.cell.source q).1 := by
  simp [actAdmitMove, hb, here, hr, hbar, hm, ht]

end
end

end State

/-- A refused plain cell leaves the queue and the Admission Unit as they were. -/
theorem State.offerSkip_of_full {s : State} {c : Cell} (n : OfferName) (plain : c.body.reserve = false)
    (full : s.station.state ≠ .active ∨ 20 ≤ s.highway.queue.length) :
    (s.offerSkip c n).adm = s.adm ∧ (s.offerSkip c n).highway.queue = s.highway.queue :=
  ⟨State.offerSkip_adm c n s, (State.offer_refused n plain full).2⟩

/-- Settles O22: the home answers each ADMIT-ASK and ADMIT-MOVE by its record. -/
theorem homeAnswersAsksAndMoves : Obligations.HomeAnswersAsksAndMoves := by
  refine ⟨fun s x e hx hb room => ?_, fun s x e q hx hb => ?_, fun s x e ep hx hb own => ?_⟩
  · have run : ∀ P : State → Prop, P ((taken s .admitC x).actAdmitAsk x) → Completes .admitAsk s P :=
      fun P h => completes_of_consume rfl hx (by simp [hb, Body.kind]) h
    have room' : QueueRoom 1 (taken s .admitC x) := room
    have adm := State.adm_actAdmitAsk hb (s := taken s .admitC x)
    refine ⟨fun away => run _ ⟨?_, adm⟩, fun h here hr => run _ ⟨adm, fun bar => ?_, fun bar hl => ?_,
      fun loc bar hl => ?_⟩⟩
    · rw [State.actAdmitAsk_of_away hb (s := taken s .admitC x) away]
      exact Queues.offerSkip (n := 0) room' _ _
    · rw [State.actAdmitAsk_of_barred hb (s := taken s .admitC x) here hr bar]
      exact Queues.offerSkip (n := 0) room' _ _
    · rw [State.actAdmitAsk_of_unlocated hb (s := taken s .admitC x) here hr bar hl]
      exact Queues.offerSkip (n := 0) room' _ _
    · rw [State.actAdmitAsk_of_located hb (s := taken s .admitC x) here hr bar hl]
      exact Queues.offerSkip (n := 0) room' _ _
  · have run : ∀ P : State → Prop, P ((taken s .admitC x).actAdmitMove x) → Completes .admitMove s P :=
      fun P h => completes_of_consume rfl hx (by simp [hb, Body.kind]) h
    refine ⟨fun away room => run _ ?_, fun h here hr => ⟨fun bar room => run _ ?_, fun bar hm => run _ ?_,
      fun bar hm hl room => run _ ?_, fun o p bar hm hl ho ho' room => run _ ?_,
      fun p p' bar hl hm hp room => run _ ?_, fun o p bar hl ho full => run _ ?_⟩⟩
    · rw [State.actAdmitMove_of_away hb (s := taken s .admitC x) away]
      exact ⟨Queues.offerSkip (n := 0) (s := taken s .admitC x) room _ _, State.offerSkip_adm _ _ _⟩
    · rw [State.actAdmitMove_of_barred hb (s := taken s .admitC x) here hr bar]
      exact ⟨Queues.offerSkip (n := 0) (s := taken s .admitC x) room _ _, State.offerSkip_adm _ _ _⟩
    · exact State.actAdmitMove_of_own hb (s := taken s .admitC x) here hr bar hm
    · rw [State.actAdmitMove_of_moved hb (s := taken s .admitC x) here hr bar hm
        (State.moveHome_of_free (q := q) hl) (by simp)]
      have set : Queues s ((taken s .admitC x).setHomeRecord e (State.movedRecord h x.cell.source q)) [] :=
        Queues.of_eq (by simp)
      refine ⟨?_, set.trans (Queues.offerSkip (n := 0) (set.room (by simp) (by simpa using room)) _ _), by simp⟩
      rw [State.homeRecord_offerSkip]
      exact State.homeRecord_setHomeRecord_same (s := taken s .admitC x) _ hr
    · have room1 : QueueRoom 1 (taken s .admitC x) := ⟨room.1, by have := room.2; simp; omega⟩
      rw [State.actAdmitMove_of_moved hb (s := taken s .admitC x) here hr bar hm
        (State.moveHome_of_third (q := q) hl ho room1 ho') (by simp)]
      have first := Queues.offerSkip (n := 1) (s := taken s .admitC x) room
        (State.movedCell s e h x.cell.source q) .plain
      have set := first.trans (Queues.of_eq (by simp) : Queues _
        (((taken s .admitC x).offerSkip (State.movedCell s e h x.cell.source q) .plain).setHomeRecord e
          (State.movedRecord h x.cell.source q)) [])
      refine ⟨?_, set.trans (Queues.offerSkip (n := 0) (set.room (by simp) room) _ _)⟩
      rw [State.homeRecord_offerSkip]
      exact State.homeRecord_setHomeRecord_same _ (by simpa using hr)
    · rw [State.actAdmitMove_of_moved hb (s := taken s .admitC x) here hr bar hm.symm
        (State.moveHome_of_here (s := taken s .admitC x) (q := q) hl hm room rfl hp)
        (by simp [(State.DropFrame.dropLogin p' .plain _).station])]
      obtain ⟨r, y, n, body⟩ := State.admittedPort_spec hp
      set u := (taken s .admitC x).offerSkip (State.movedCell (taken s .admitC x) e h x.cell.source q) .plain with hu
      have body' : u.loginBody p' = some (.admitted e r y n) :=
        (State.loginBody_of_login (s := s) (by simp [hu])).trans body
      have frame := State.DropFrame.dropLogin p' .plain u
      obtain ⟨cleared, heard⟩ := State.dropLogin_cleared_after (s := s) .plain body' (by simp [hu]) (by simp [hu])
        (by simp [hu]) (State.offerSkip_length_le _ _ _)
      refine ⟨?_, ?_, ?_, ?_⟩
      · rw [State.homeRecord_offerSkip]
        refine State.homeRecord_setHomeRecord_same _ (h := h) ?_
        rw [frame.homeRecord]
        simpa [hu] using hr
      · rw [State.login_offerSkip, State.login_setHomeRecord, State.login_dropLogin_of_admitted body']
      · exact cleared.of_calls (by simp) fun c hc => State.mem_queue_offerSkip _ _ (by simpa using hc)
      · exact heard.of_right (by simp)
    · by_cases hm : x.cell.source = s.self
      · rw [State.actAdmitMove_of_own hb (s := taken s .admitC x) here hr bar hm]
        exact ⟨rfl, rfl⟩
      · have moved := State.moveHome_of_full (s := taken s .admitC x) (e := e) (q := q) hl ho (.inr full)
        rw [State.actAdmitMove_of_refused hb (s := taken s .admitC x) here hr bar hm (by rw [moved]), moved]
        exact State.offerSkip_of_full (s := taken s .admitC x) .plain rfl (.inr full)
  · refine completes_of_consume rfl hx (by simp [hb, Body.kind]) ?_
    exact State.actAdmitLeave_of_own hb (s := taken s .admitC x) own

end Sys2Proof.Machine
end

