-- ==== Sys2Proof/Proofs/LoginProcedure.lean ====
section
/-! PROOF. The login procedure at a port: LOGIN-REQ, RESPONSE and LOGOUT (R8, R9, R14). -/

namespace Sys2Proof.Machine

open Sys2Proof

namespace State

/-! ### LOGIN-REQ (R8) -/

section
variable {s : State} {p : Port} {e : Ext}

theorem takeLoginReq_of_entry (h : (s.login p).entry ≠ none) : s.takeLoginReq p e = s.sendResult p .busy := by
  simp [takeLoginReq, Option.isSome_iff_ne_none, h]

theorem takeLoginReq_of_noHome (h : (s.login p).entry = none) (hh : s.homeOf e = none) :
    s.takeLoginReq p e = s.sendResult p .noHome := by
  simp [takeLoginReq, h, hh]

/-- The login place of a port under a new challenge. -/
def challenged (l : LoginPlace) (e : Ext) (n : Nonce) : LoginPlace :=
  { l with incarnation := l.incarnation + 1, entry := some { body := .challenging e n none .none, timer := some 250 } }

theorem takeLoginReq_of_home (h : (s.login p).entry = none) (hh : s.homeOf e ≠ none) : s.takeLoginReq p e =
    ((s.drawNonce.1.modLogin p fun l => challenged l e s.drawNonce.2).sendMessage p (.challenge s.drawNonce.2)) := by
  simp only [takeLoginReq, h, Option.isSome_none, Bool.false_eq_true, if_false, Option.isNone_iff_eq_none, hh]
  rfl

end

/-! ### RESPONSE (R9) -/

section
variable {s : State} {p : Port} {v : Nonce}

theorem takeResponse_of_challenging {e : Ext} {n : Nonce} {r : Option Nonce} {tm : Option Nat}
    (h : (s.login p).entry = some { body := .challenging e n r .none, timer := tm }) :
    s.takeResponse p v = s.askCheck p .setKey e n v tm s.secret (BitVec.ofNat 64 e) := by
  simp only [takeResponse, h]
  rfl

theorem takeResponse_of_other (h : ∀ (e : Ext) (n : Nonce) (r : Option Nonce) (tm : Option Nat),
    (s.login p).entry ≠ some { body := .challenging e n r .none, timer := tm }) : s.takeResponse p v = s := by
  unfold takeResponse
  split
  · rename_i e n r tm he
    exact absurd he (h e n r tm)
  · rfl

end

/-- The request of a login check (R9, R107). -/
def checkRequest (s : State) (p : Port) (step : CheckStep) (key : Key) (a : Nonce) : MixRequest :=
  { requester := .login p (s.login p).incarnation step, key := key, nonceA := a, nonceB := 0, count := 65535 }

section
variable {s : State} {p : Port} (step : CheckStep) (e : Ext) (n v : Nonce) (tm : Option Nat) (key : Key) (a : Nonce)

/-- With room in the mixer the check is asked for and the entry takes the step. -/
theorem askCheck_of_room (h : s.scr.mixer.length < 16) : s.askCheck p step e n v tm key a =
    ({ s with scr := { s.scr with mixer := s.scr.mixer ++ [s.checkRequest p step key a] } } : State).setEntry p
      (some { body := .challenging e n (some v) step, timer := tm }) := by
  simp [askCheck, mixRequest, h, checkRequest]

/-- A full mixer removes the entry with BUSY. -/
theorem askCheck_of_full (h : 16 ≤ s.scr.mixer.length) : s.askCheck p step e n v tm key a =
    ((s.recordFault .mixerFull s.self none).setEntry p none).sendResult p .busy := by
  simp [askCheck, mixRequest, Nat.not_lt.2 h]

end

/-! ### LOGOUT (R14) -/

section
variable {s : State} {p : Port}

theorem logOut_of_none (h : s.loginBody p = none) : s.logOut p = s := by simp [logOut, h]

theorem logOut_of_challenging {e : Ext} {n : Nonce} {r : Option Nonce} {c : CheckStep}
    (h : s.loginBody p = some (.challenging e n r c)) : s.logOut p = s.setEntry p none := by simp [logOut, h]

theorem logOut_of_confirming {e : Ext} (h : s.loginBody p = some (.confirming e)) :
    s.logOut p = (s.setEntry p none).setTone p .none := by simp [logOut, h]

section
variable {e : Ext} {r : Rights} {x : Epoch} {n : Renewal} (h : s.loginBody p = some (.admitted e r x n))
include h

theorem logOut_of_noHome (hh : s.homeOf e = none) : s.logOut p = (s.setEntry p none).clearPort p .admission := by
  have hh' := ((ClearFrame.clearPort p .admission (s.setEntry p none)).homeOf e).trans hh
  simp [logOut, h, hh']

theorem logOut_of_homeHere (hh : s.homeOf e = some s.self) :
    s.logOut p = ((s.setEntry p none).clearPort p .admission).clearLocation e .left := by
  have frame := ClearFrame.clearPort p .admission (s.setEntry p none)
  have hh' := (frame.homeOf e).trans hh
  have self : ((s.setEntry p none).clearPort p .admission).self = s.self := frame.self
  simp [logOut, h, hh', self]

theorem logOut_of_homeAtPeer {home : Station} (hh : s.homeOf e = some home) (hn : home ≠ s.self) :
    s.logOut p = ((s.setEntry p none).clearPort p .admission).offerSkip
      (cellFrom s home (s.loginTag p) Tag.absent (.admitLeave e x)) .plain := by
  have frame := ClearFrame.clearPort p .admission (s.setEntry p none)
  have hh' := (frame.homeOf e).trans hh
  have self : ((s.setEntry p none).clearPort p .admission).self = s.self := frame.self
  have tag : ((s.setEntry p none).clearPort p .admission).loginTag p = s.loginTag p := by
    simp [loginTag, frame.login]
  simp [logOut, h, hh', self, hn, cellTo, cellFrom, tag]

end

theorem login_clearLocation (e : Ext) (why : ChangeReason) (q : Port) (s : State) :
    (s.clearLocation e why).login q = s.login q := by
  cases hr : s.homeRecord e with
  | none => rw [clearLocation_of_none why hr]
  | some h =>
    cases hl : h.location with
    | none => rw [clearLocation_of_unlocated why hr hl]
    | some loc => rw [clearLocation_of_located why hr hl]; simp

/-- Whatever the entry was, it is gone after a logout, and nothing else of the port's login changes. -/
theorem login_logOut_same (s : State) (p : Port) : (s.logOut p).login p = { s.login p with entry := none } := by
  cases hb : s.loginBody p with
  | none =>
    have he : (s.login p).entry = none := by simpa [loginBody] using hb
    rw [logOut_of_none hb]
    cases hl : s.login p
    simp_all
  | some b =>
    cases b with
    | challenging e n r c => rw [logOut_of_challenging hb]; simp
    | confirming e => rw [logOut_of_confirming hb]; simp
    | admitted e r x n =>
      have frame := ClearFrame.clearPort p .admission (s.setEntry p none)
      cases hh : s.homeOf e with
      | none => rw [logOut_of_noHome hb hh, frame.login]; simp
      | some home =>
        by_cases hs : home = s.self
        · rw [logOut_of_homeHere hb (hh.trans (congrArg some hs)), login_clearLocation, frame.login]; simp
        · rw [logOut_of_homeAtPeer hb hh hs, login_offerSkip, frame.login]; simp

theorem login_logOut_ne {s : State} {p q : Port} (hq : q ≠ p) : (s.logOut p).login q = s.login q := by
  cases hb : s.loginBody p with
  | none => rw [logOut_of_none hb]
  | some b =>
    cases b with
    | challenging e n r c => rw [logOut_of_challenging hb, login_setEntry_ne _ s hq]
    | confirming e => rw [logOut_of_confirming hb, login_setTone, login_setEntry_ne _ s hq]
    | admitted e r x n =>
      have frame := ClearFrame.clearPort p .admission (s.setEntry p none)
      cases hh : s.homeOf e with
      | none => rw [logOut_of_noHome hb hh, frame.login, login_setEntry_ne _ s hq]
      | some home =>
        by_cases hs : home = s.self
        · rw [logOut_of_homeHere hb (hh.trans (congrArg some hs)), login_clearLocation, frame.login,
            login_setEntry_ne _ s hq]
        · rw [logOut_of_homeAtPeer hb hh hs, login_offerSkip, frame.login, login_setEntry_ne _ s hq]

/-- The room that R67 asks for is left for one cell more. -/
theorem room_after_clearPort {c : Cause} (room : RoomToClear s p) :
    QueueRoom 1 ((s.setEntry p none).clearPort p c) := by
  obtain ⟨⟨rs, stand, room⟩, conf⟩ := room
  exact (clearPort_sends p c (s := s.setEntry p none) stand conf).room room

end

/-- A port without calls is cleared by nothing. -/
theorem clearPort_of_noCalls {s : State} {p : Port} (c : Cause)
    (h : ∀ (q : RecordId) (k : Call), s.call? q = some k → k.port ≠ p) : s.clearPort p c = s := by
  have : s.portRecords p = [] := by
    refine List.eq_nil_iff_forall_not_mem.2 fun q hq => ?_
    obtain ⟨k, hk, hp, -⟩ := portRecords_mem.1 hq
    exact h q k hk hp
  unfold portRecords at this
  rw [clearPort, this]
  rfl

theorem lastQueued_offerSkip {s : State} (room : QueueRoom 1 s) (c : Cell) : LastQueued (s.offerSkip c .plain) c := by
  rw [offerSkip_of_room (n := 0) room]
  simp [LastQueued]

end State

/-- Settles O19: LOGIN-REQ opens a challenge at a port without an entry, and RESPONSE asks for its set key. -/
theorem loginReqAndResponseOpenAChallenge : Obligations.LoginReqAndResponseOpenAChallenge := by
  refine ⟨fun s p e due up => ?_, fun s p v due up => ?_⟩
  · set u := s.modPort p fun u => u.release (.admission (.loginReq e)) with hu
    have run : ∀ P : State → Prop, P (u.takeLoginReq p e) → Completes (.loginReq p) s P := fun P h =>
      ⟨_, congrArg Host.Outcome.next (State.takeAdmission_of_due due rfl), h⟩
    have up' : (u.port p).state = .up := by simpa [hu, PortUnit.release] using up
    have latch : ∀ (t : State) (m : SetMessage), t.ports = u.ports →
        ((t.sendMessage p m).port p).admission = none := by
      intro t m h
      rw [State.port_sendMessage_same, State.port_of_ports h]
      simp [hu, PortUnit.release]
    have last : ∀ (t : State) (m : SetMessage), t.ports = u.ports → Tells (t.sendMessage p m) p m := fun t m h =>
      State.sendMessage_last m (by rw [State.port_of_ports h]; exact up')
    refine ⟨fun he => run _ ?_, fun he hh => run _ ?_, fun he hh => run _ ?_⟩
    · rw [State.takeLoginReq_of_entry (s := u) he]
      exact ⟨by simp [hu], last u _ rfl, latch u _ rfl⟩
    · rw [State.takeLoginReq_of_noHome (s := u) he hh]
      exact ⟨by simp [hu], last u _ rfl, latch u _ rfl⟩
    · rw [State.takeLoginReq_of_home (s := u) he hh]
      refine ⟨u.drawNonce.2, by simp [State.drawNonce_eq, hu], fun few => drawNonce_fresh u few, ?_, fun q hq => ?_,
        last _ _ rfl, latch _ _ rfl, by simp [State.drawNonce_eq, hu], by simp [State.drawNonce_eq, hu],
        by simp [State.drawNonce_eq, hu]⟩
      · rw [State.login_sendMessage, State.login_modLogin_same]
        rfl
      · rw [State.login_sendMessage, State.login_modLogin_ne _ _ hq]
        rfl
  · set u := s.modPort p fun u => u.release (.admission (.response v)) with hu
    have run : ∀ P : State → Prop, P (u.takeResponse p v) → Completes (.response p) s P := fun P h =>
      ⟨_, congrArg Host.Outcome.next (State.takeAdmission_of_due due rfl), h⟩
    have up' : (u.port p).state = .up := by simpa [hu, PortUnit.release] using up
    refine ⟨fun e n r tm he => ⟨fun room => run _ ?_, fun full => run _ ?_⟩, fun other => run _ ?_⟩
    · rw [State.takeResponse_of_challenging (s := u) he, State.askCheck_of_room (s := u) _ _ _ _ _ _ _ room]
      refine ⟨rfl, ?_⟩
      rw [State.login_setEntry_same]
      rfl
    · rw [State.takeResponse_of_challenging (s := u) he, State.askCheck_of_full (s := u) _ _ _ _ _ _ _ full.ge]
      refine ⟨by simp [hu], ?_, State.sendMessage_last _ up', by simp [hu]; rfl⟩
      rw [State.sendResult_eq, State.login_sendMessage, State.login_setEntry_same]
      rfl
    · rw [State.takeResponse_of_other (s := u) other]
      exact ⟨rfl, rfl, rfl⟩

/-- Settles O20: LOGOUT ends the login, clears the calls of its port and tells the home. -/
theorem logoutEndsTheLogin : Obligations.LogoutEndsTheLogin := by
  intro s p due
  set u := s.modPort p fun u => u.release (.admission .logout) with hu
  have run : ∀ P : State → Prop, P (u.logOut p) → Completes (.logout p) s P := fun P h =>
    ⟨_, congrArg Host.Outcome.next (State.takeAdmission_of_due due rfl), h⟩
  refine ⟨run _ ⟨State.login_logOut_same u p, fun q hq => State.login_logOut_ne hq⟩, fun e r x n body => ?_⟩
  have body' : u.loginBody p = some (.admitted e r x n) := body
  refine ⟨run _ ?_, fun h loc hh hr hl => run _ ?_, fun home hh hn => ⟨fun room => run _ ?_, fun none room => run _ ?_⟩⟩
  · obtain ⟨cleared, heard⟩ := State.logOut_cleared body'
    exact ⟨cleared.of_left rfl rfl rfl, heard.of_left (by simp [hu, PortUnit.release]) rfl⟩
  · rw [State.logOut_of_homeHere body' hh]
    have frame := ClearFrame.clearPort p .admission (u.setEntry p none)
    have hr' := (frame.homeRecord e).trans hr
    refine ⟨State.homeRecord_clearLocation .left hr' hl, fun room => ?_⟩
    rw [State.clearLocation_of_located .left hr' hl]
    have room' := State.room_after_clearPort (s := u) (c := .admission) room
    have self : ((u.setEntry p none).clearPort p .admission).self = s.self := frame.self
    have last := State.lastQueued_offerSkip (s := (((u.setEntry p none).clearPort p .admission).setHomeRecord e
      { h with location := none, epoch := h.epoch + 1 })) ⟨by simpa using room'.1, by simpa using room'.2⟩
      (broadcast ((u.setEntry p none).clearPort p .admission)
        (.admitChange e .left (some loc) h.rights (h.epoch + 1)))
    simpa [broadcast, self] using last
  · rw [State.logOut_of_homeAtPeer body' hh hn]
    exact State.lastQueued_offerSkip (State.room_after_clearPort (s := u) room) _
  · rw [State.logOut_of_homeAtPeer body' hh hn, State.clearPort_of_noCalls (s := u.setEntry p _) _ none]
    exact Queues.offerSkip (n := 0) (s := u.setEntry p _) room _ _

end Sys2Proof.Machine
end

