-- ==== Sys2Proof/Proofs/AdmissionTimers.lean ====
section
/-! PROOF. Queries that end without a location, and the timers of the Admission Unit (R4, R9, R11, R20, R24 to R29). -/

namespace Sys2Proof.Machine

open Sys2Proof

/-- A lookup result that locates nobody: the caller that receives it is cleared (R51). -/
def LookupResult.isRefusal : LookupResult → Bool
  | .located _ _ => false
  | .unreachable | .congestion | .homeAbsent | .noNumber => true

namespace State

/-! ### A refusal reaches the waiters of a query (R29, R51) -/

theorem giveResult_of_notRouting {s : State} {r : RecordId} (x : LookupResult)
    (h : ∀ k, s.call? r = some k → k.state ≠ .routing) : s.giveResult r x = s := by
  unfold giveResult
  cases hk : s.call? r with
  | none => rfl
  | some k => exact if_neg (h k hk)

theorem giveResult_of_refusal {s : State} {r : RecordId} {k : Call} {x : LookupResult} (hx : x.isRefusal = true)
    (hk : s.call? r = some k) (hs : k.state = .routing) : ∃ c, s.giveResult r x = s.clearRecord r c := by
  unfold giveResult
  simp only [hk, hs, if_true]
  cases x with
  | located st ep => cases hx
  | unreachable => exact ⟨_, rfl⟩
  | congestion => exact ⟨_, rfl⟩
  | homeAbsent => exact ⟨_, rfl⟩
  | noNumber => exact ⟨_, rfl⟩

/-- A refusal clears a record in ROUTING, and changes nothing at any other. -/
theorem giveResult_cases (s : State) (r : RecordId) {x : LookupResult} (hx : x.isRefusal = true) :
    s.giveResult r x = s ∨
      ∃ k c, s.call? r = some k ∧ k.state = .routing ∧ s.giveResult r x = s.clearRecord r c := by
  by_cases h : ∀ k, s.call? r = some k → k.state ≠ .routing
  · exact .inl (giveResult_of_notRouting x h)
  · push Not at h
    obtain ⟨k, hk, hs⟩ := h
    obtain ⟨c, hc⟩ := giveResult_of_refusal hx hk hs
    exact .inr ⟨k, c, hk, hs, hc⟩

/-- The waiters of a query receive its result in order (R24). -/
def giveAll (rs : List RecordId) (x : LookupResult) (s : State) : State := rs.foldl (fun s r => s.giveResult r x) s

theorem giveAll_cons (r : RecordId) (rs : List RecordId) (x : LookupResult) (s : State) :
    s.giveAll (r :: rs) x = (s.giveResult r x).giveAll rs x := rfl

end State

theorem ClearFrame.giveResult {x : LookupResult} (hx : x.isRefusal = true) (r : RecordId) (s : State) :
    ClearFrame s (s.giveResult r x) := by
  rcases State.giveResult_cases s r hx with h | ⟨k, c, -, -, h⟩ <;> rw [h]
  · exact .refl s
  · exact .clearRecord r c s

theorem ClearFrame.giveAll {x : LookupResult} (hx : x.isRefusal = true) (rs : List RecordId) (s : State) :
    ClearFrame s (s.giveAll rs x) :=
  .foldl (fun s r => .giveResult hx r s) rs s

namespace State

section
variable {x : LookupResult} (hx : x.isRefusal = true)
include hx

theorem keeps_giveResult {r q : RecordId} (s : State) (hq : q ≠ r) : Keeps s (s.giveResult r x) q := by
  rcases giveResult_cases s r hx with h | ⟨k, c, hk, hs, h⟩ <;> rw [h]
  · exact .refl s q
  · exact (clearRecord_cleared r c s hk (by simp [hs])).others q hq

/-- A plain record in ROUTING that receives a refusal is FREE, since no far record exists (R62). -/
theorem call_giveResult {s : State} {r : RecordId} {k : Call} (hk : s.call? r = some k) (hs : k.state = .routing)
    (hr : k.confRole ≠ .controller) : (s.giveResult r x).call? r = none := by
  obtain ⟨c, h⟩ := giveResult_of_refusal hx hk hs
  rw [h]
  exact (clearRecord_cleared r c s hk (by simp [hs])).quiet hr (.inr hs)

/-- Each waiter in ROUTING is FREE after a refusal, whatever the others were. -/
theorem call_giveAll {rs : List RecordId} {r : RecordId} {s : State} {k : Call} (hm : r ∈ rs)
    (hk : s.call? r = some k) (hs : k.state = .routing) (hr : k.confRole ≠ .controller) :
    (s.giveAll rs x).call? r = none := by
  induction rs generalizing s k with
  | nil => cases hm
  | cons q rs ih =>
    rw [giveAll_cons]
    by_cases hq : r = q
    · subst hq
      exact (ClearFrame.giveAll hx rs _).call_none (call_giveResult hx hk hs hr)
    · obtain ⟨tm, ls, -, hk'⟩ := (keeps_giveResult hx s hq).2.2 k hk
      exact ih ((List.mem_cons.1 hm).resolve_left hq) hk' hs hr

end

theorem drain_of_nil {s : State} (h : s.calls.waitList = []) : s.drain = s := by
  simp [drain, drainWith, h]

@[simp] theorem endQuery_waitList (i : QueryId) (s : State) :
    (s.endQuery i).calls.waitList = s.calls.waitList := rfl
@[simp] theorem call_endQuery (i : QueryId) (r : RecordId) (s : State) : (s.endQuery i).call? r = s.call? r := rfl
@[simp] theorem query_endQuery_same (i : QueryId) (s : State) :
    (s.endQuery i).adm.queries.get i = { incarnation := (s.adm.queries.get i).incarnation } := by
  simp [endQuery]
theorem query_endQuery_ne {i j : QueryId} (s : State) (h : j ≠ i) :
    (s.endQuery i).adm.queries.get j = s.adm.queries.get j := by
  simp [endQuery, query_setQuery_ne _ _ h]

/-- What the end of a query that locates nobody leaves, with nobody on the wait list. -/
structure QueryEnded (s t : State) (i : QueryId) (y : Query) : Prop where
  frame : ClearFrame (s.endQuery i) t
  place : t.adm.queries.get i = { incarnation := (s.adm.queries.get i).incarnation }
  waiters : ∀ (r : RecordId) (k : Call), r ∈ y.waiters → s.call? r = some k → k.state = .routing →
    k.confRole ≠ .controller → t.call? r = none
  others : ∀ j, j ≠ i → (t.adm.queries.get j).query.map (·.ext) = (s.adm.queries.get j).query.map (·.ext)

theorem settleQuery_ended {s : State} {i : QueryId} {y : Query} {x : LookupResult} (hx : x.isRefusal = true)
    (hq : (s.adm.queries.get i).query = some y) (hw : s.calls.waitList = []) :
    QueryEnded s (s.settleQuery i x) i y := by
  have frame := ClearFrame.giveAll hx y.waiters (s.endQuery i)
  have settle : s.settleQuery i x = (s.endQuery i).giveAll y.waiters x := by
    have nil : ((s.endQuery i).giveAll y.waiters x).calls.waitList = [] :=
      List.sublist_nil.1 (by simpa [hw] using frame.waitList)
    rw [← drain_of_nil nil]
    simp [settleQuery, hq, giveAll]
  rw [settle]
  refine ⟨frame, ?_, fun r k hm hk hs hr => ?_, fun j hj => ?_⟩
  · rw [frame.query_none (by simp), query_endQuery_same]
  · exact call_giveAll hx hm (by simpa using hk) hs hr
  · rw [frame.query_ext, query_endQuery_ne s hj]

/-! ### A record on the wait list takes the emptied place (R24, R25, R28) -/

theorem lookupHome_of_present {s : State} {e : Ext} {home : Station} {rg : Range} (hh : s.homeOf e = some home)
    (hp : s.calls.plan.get home = .present rg) : s.lookupHome e = .home home := by
  simp [lookupHome, hh, hp]

/-- With every other place in use for another number, a lookup at a peer starts its query in the one empty place. -/
theorem startQuery_of_place {s : State} {e : Ext} {home : Station} {r : RecordId} {i : QueryId}
    (hi : (s.adm.queries.get i).query = none)
    (others : ∀ j, j ≠ i → ∃ z, (s.adm.queries.get j).query = some z ∧ z.ext ≠ e) (room : QueueRoom 1 s) :
    (s.startQuery e home r).2 = .later ∧
    (s.startQuery e home r).1.adm.queries.get i = {
      incarnation := (s.adm.queries.get i).incarnation + 1
      query := some { ext := e, home := home, timer := some 8, waiters := [r] } } ∧
    (∀ j, j ≠ i → (s.startQuery e home r).1.adm.queries.get j = s.adm.queries.get j) ∧
    (s.startQuery e home r).1.calls = s.calls ∧
    Queues s (s.startQuery e home r).1
      [cellFrom s home ⟨byteOf i.val, (s.adm.queries.get i).incarnation + 1⟩ Tag.absent (.admitAsk e)] := by
  have noQuery : s.queryFor e = none := by
    refine List.find?_eq_none.2 fun j _ => ?_
    by_cases hj : j = i
    · subst hj; simp [hi]
    · obtain ⟨z, hz, hne⟩ := others j hj
      simp [hz, hne]
  have place : s.emptyQueryPlace = some i := by
    cases he : s.emptyQueryPlace with
    | none => simpa [hi] using List.find?_eq_none.1 he i (List.mem_finRange i)
    | some j =>
      by_cases hj : j = i
      · rw [hj]
      · obtain ⟨z, hz, -⟩ := others j hj
        simpa [hz] using List.find?_some (p := fun q => (s.adm.queries.get q).query.isNone) he
  set u := s.setQuery i {
    incarnation := (s.adm.queries.get i).incarnation + 1
    query := some { ext := e, home := home, timer := none, waiters := [r] } } with hu
  have tag : u.queryTag i = ⟨byteOf i.val, (s.adm.queries.get i).incarnation + 1⟩ := by simp [queryTag, hu]
  have ok := (QueueRoom.offer (n := 0) (s := u) room
    (u.cellTo home (u.queryTag i) Tag.absent (.admitAsk e)) .plain).1
  simp only [startQuery, noQuery, place, ← hu, ok, if_true]
  refine ⟨trivial, by simp [hu], fun j hj => by simp [hu, query_setQuery_ne _ _ hj], rfl, ?_⟩
  rw [Queues, tag, setQuery_highway, enqueue_queue, List.map_append]
  rfl

/-- The wait list of one record is drained into the place that is empty. -/
theorem drain_of_place {s : State} {i : QueryId} {r : RecordId} {k : Call} {e : Ext} {home : Station} {rg : Range}
    (hw : s.calls.waitList = [r]) (hk : s.call? r = some k) (he : k.farExt = some e) (hh : s.homeOf e = some home)
    (hn : home ≠ s.self) (hp : s.calls.plan.get home = .present rg) (hc : s.cacheEntry e = none)
    (hi : (s.adm.queries.get i).query = none)
    (others : ∀ j, j ≠ i → ∃ z, (s.adm.queries.get j).query = some z ∧ z.ext ≠ e) (room : QueueRoom 1 s) :
    s.drain = ((s.setWaitList []).startQuery e home r).1 := by
  obtain ⟨later, -, -, calls, -⟩ := startQuery_of_place (s := s.setWaitList []) (home := home) (r := r) hi others room
  have look : (s.setWaitList []).lookupAgain r = (s.setWaitList []).startQuery e home r := by
    have hk' : (s.setWaitList []).call? r = some k := hk
    have home' := lookupHome_of_present (s := s.setWaitList []) hh hp
    have hc' : (s.setWaitList []).cacheEntry e = none := hc
    have hn' : home ≠ (s.setWaitList []).self := hn
    have hp' : (s.setWaitList []).calls.plan.get home = .present rg := hp
    simp only [lookupAgain, hk', Option.bind_some, he, home', hn', if_false, lookupAtPeer, hp', hc']
  have nil : ((s.setWaitList []).startQuery e home r).1.calls.waitList = [] := by rw [calls]; rfl
  simp [drain, drainWith, hw, look, later, nil]

/-! ### The timers of a login (R4, R9) -/

section
variable {s : State} {p : Port}

/-- The first two failures are told DENIED. -/
theorem challengeFails_of_few (h : (s.login p).failures < 2) : s.challengeFails p =
    ((s.setEntry p none).modLogin p fun l => { l with failures := (s.login p).failures + 1 }).sendResult p .denied := by
  have lt : (s.login p).failures + 1 < 3 := by omega
  have min : min ((s.login p).failures + 1) 3 = (s.login p).failures + 1 := by omega
  simp only [challengeFails, min, lt, if_true]

/-- The third locks the port out for the time of the image. -/
theorem challengeFails_of_third {im : Image} (h : (s.login p).failures = 2) (him : s.station.image = some im) :
    s.challengeFails p = (((s.setEntry p none).modLogin p fun l => { l with failures := 3 }).modLogin p fun l =>
      { l with lockedOut := true, lockoutTimer := some im.lockoutTime }).sendResult p .locked := by
  simp [challengeFails, h, him]

end

end State

/-- Settles O21: each timer of the Admission Unit ends what it timed, and a query that ends lets a waiting record in. -/
theorem admissionTimersExpire : Obligations.AdmissionTimersExpire := by
  refine ⟨fun s p im up him => ⟨fun e n r c he => ⟨fun few => ?_, fun third => ?_⟩, fun e he => ?_, fun e r x he => ?_,
    fun locked => ?_⟩, fun s i y hq ht hw => ?_, fun s i y r k e home rg hq ht hy hw hk he hh hn hp hc others room => ?_⟩
  · refine ⟨s.challengeFails p, ?_, ?_⟩
    · exact congrArg Host.Outcome.next (by simp [State.challengingTimerExpiry, he])
    · rw [State.challengeFails_of_few few]
      exact ⟨by simp, State.sendMessage_last _ up⟩
  · refine ⟨s.challengeFails p, ?_, ?_⟩
    · exact congrArg Host.Outcome.next (by simp [State.challengingTimerExpiry, he])
    · rw [State.challengeFails_of_third third him]
      exact ⟨by simp, State.sendMessage_last _ up⟩
  · refine ⟨s.leaveConfirming p .noHome, ?_, State.login_leaveConfirming p _ s, State.leaveConfirming_tells _ up⟩
    exact congrArg Host.Outcome.next (by simp [State.confirmingTimerExpiry, he])
  · have body : s.loginBody p = some (.admitted e r x .sent) := by simp [State.loginBody, he]
    obtain ⟨cleared, heard⟩ := State.dropLogin_cleared .homeLost body
    refine ⟨s.dropLogin p .homeLost, ?_, State.login_dropLogin_of_admitted body _, State.dropLogin_tells body rfl up,
      cleared, heard⟩
    exact congrArg Host.Outcome.next (by simp [State.renewalTimerExpiry, he])
  · refine ⟨_, congrArg Host.Outcome.next (if_pos locked), State.login_modLogin_same p _ s, fun q hq => ?_⟩
    exact State.login_modLogin_ne _ s hq
  · have ended := State.settleQuery_ended (x := .congestion) rfl hq hw
    refine ⟨s.settleQuery i .congestion, ?_, ended.place, ended.waiters, ended.others⟩
    obtain ⟨ext, h, timer, ws⟩ := y
    obtain rfl : timer = some 0 := ht
    exact congrArg Host.Outcome.next (by simp [State.queryTimerExpiry, hq])
  · obtain ⟨ext, h, timer, ws⟩ := y
    obtain rfl : timer = some 0 := ht
    obtain rfl : ws = [] := hy
    have emptied : ((s.endQuery i).adm.queries.get i).query = none := by simp
    have others' : ∀ j, j ≠ i → ∃ z, ((s.endQuery i).adm.queries.get j).query = some z ∧ z.ext ≠ e := fun j hj => by
      rw [State.query_endQuery_ne s hj]
      exact others j hj
    obtain ⟨-, place, rest, calls, cells⟩ := State.startQuery_of_place (s := (s.endQuery i).setWaitList [])
      (home := home) (r := r) emptied others' room
    have inc : (((s.endQuery i).setWaitList []).adm.queries.get i).incarnation = (s.adm.queries.get i).incarnation :=
      congrArg (·.incarnation) (State.query_endQuery_same i s)
    refine ⟨(((s.endQuery i).setWaitList []).startQuery e home r).1, ?_, by rw [calls]; rfl, ?_, fun j hj => ?_,
      by rw [calls]; rfl, ?_⟩
    · have drained := State.drain_of_place (s := s.endQuery i) hw hk he hh hn hp hc emptied others' room
      rw [← drained]
      exact congrArg Host.Outcome.next (by simp [State.queryTimerExpiry, hq, State.settleQuery])
    · rw [place, inc]
    · rw [rest j hj]
      exact State.query_endQuery_ne s hj
    · rw [inc] at cells
      exact cells

end Sys2Proof.Machine
end

