-- ==== Sys2Proof/Proofs/Renewals.lean ====
section
/-! PROOF. The renewals of the PENDING logins, offered in ascending port order (R20). -/

namespace Sys2Proof.Machine

open Sys2Proof

namespace State

/-- A port whose login waits for its renewal to be offered (R20). -/
def renews (s : State) (p : Port) : Bool :=
  match s.loginBody p with
  | some (.admitted _ _ _ .pending) => true
  | some (.admitted _ _ _ .none) | some (.admitted _ _ _ .sent) | some (.confirming _) | some (.challenging ..) | none =>
    false

theorem renews_iff {s : State} {p : Port} :
    s.renews p = true ↔ ∃ e r x, s.loginBody p = some (.admitted e r x .pending) := by
  unfold renews
  constructor
  · intro h
    split at h
    · rename_i e r x hb
      exact ⟨e, r, x, hb⟩
    all_goals cases h
  · rintro ⟨e, r, x, hb⟩
    rw [hb]

/-- What offering the renewal of one port does, with room in the queue. -/
theorem offerRenewal_of_pending {s : State} {p : Port} {e : Ext} {r : Rights} {x : Epoch} {home : Station}
    (hb : s.loginBody p = some (.admitted e r x .pending)) (hh : s.homeOf e = some home) (room : QueueRoom 1 s) :
    s.offerRenewal p = (s.enqueue ⟨s.moveCell p e home true, .plain⟩).setEntry p
      (some { body := .admitted e r x .sent, timer := some 16 }) := by
  have ok := (QueueRoom.offer (n := 0) room (s.moveCell p e home true) .plain).1
  simp [offerRenewal, hb, hh, ok]

theorem offerRenewal_of_other {s : State} {p : Port} (h : s.renews p = false) : s.offerRenewal p = s := by
  unfold offerRenewal
  split
  · rename_i e r x hb
    rw [renews_iff.2 ⟨e, r, x, hb⟩] at h
    cases h
  · rfl

/-- The cell that offers the renewal of a port. -/
def Renewed (s : State) (p : Port) (c : Cell) : Prop :=
  ∃ e r x home, s.loginBody p = some (.admitted e r x .pending) ∧ s.homeOf e = some home ∧
    c = s.moveCell p e home true

/-- What the offers of the renewals of several ports leave. -/
structure RenewalsOffered (s t : State) (ps : List Port) : Prop where
  station : t.station = s.station
  calls : t.calls = s.calls
  scr : t.scr = s.scr
  cache : t.adm.cache = s.adm.cache
  cells : ∃ cells, Queues s t cells ∧ List.Forall₂ s.Renewed (ps.filter s.renews) cells
  sent : ∀ p ∈ ps, ∀ e r x, s.loginBody p = some (.admitted e r x .pending) →
    (t.login p).entry = some { body := .admitted e r x .sent, timer := some 16 }
  others : ∀ p, p ∉ ps ∨ s.renews p = false → t.login p = s.login p

theorem renews_of_login {s t : State} {p : Port} (h : t.login p = s.login p) : t.renews p = s.renews p := by
  simp [renews, loginBody_of_login h]

theorem offerRenewals_offered : ∀ (ps : List Port) (s : State), ps.Nodup →
    (∀ p ∈ ps, ∀ e r x, s.loginBody p = some (.admitted e r x .pending) → s.homeOf e ≠ none) →
    QueueRoom (ps.filter s.renews).length s → RenewalsOffered s (ps.foldl (fun s p => s.offerRenewal p) s) ps
  | [], s, _, _, _ => ⟨rfl, rfl, rfl, rfl, ⟨[], Queues.of_eq rfl, .nil⟩, by simp, fun _ _ => rfl⟩
  | p :: ps, s, nodup, homes, room => by
    obtain ⟨hp, nodup'⟩ := List.nodup_cons.1 nodup
    have ne : ∀ q ∈ ps, q ≠ p := fun q hq e => hp (e ▸ hq)
    rw [List.foldl_cons]
    cases hr : s.renews p with
    | false =>
      rw [offerRenewal_of_other hr]
      have ih := offerRenewals_offered ps s nodup' (fun q hq => homes q (List.mem_cons_of_mem _ hq))
        (by simpa [List.filter_cons, hr] using room)
      refine ⟨ih.station, ih.calls, ih.scr, ih.cache, by simpa [List.filter_cons, hr] using ih.cells,
        fun q hq e r x hb => ?_, fun q hq => ?_⟩
      · rcases List.mem_cons.1 hq with rfl | hq
        · rw [renews_iff.2 ⟨e, r, x, hb⟩] at hr
          cases hr
        · exact ih.sent q hq e r x hb
      · by_cases hq' : q = p
        · subst hq'
          exact ih.others q (.inr hr)
        · exact ih.others q (hq.imp_left fun h h' => h (List.mem_cons_of_mem _ h'))
    | true =>
      obtain ⟨e, r, x, hb⟩ := renews_iff.1 hr
      obtain ⟨home, hh⟩ := Option.ne_none_iff_exists'.1 (homes p (List.mem_cons_self ..) e r x hb)
      have room' : QueueRoom ((ps.filter s.renews).length + 1) s := by simpa [List.filter_cons, hr] using room
      rw [offerRenewal_of_pending hb hh ⟨room'.1, by have := room'.2; omega⟩]
      set u := (s.enqueue ⟨s.moveCell p e home true, .plain⟩).setEntry p
        (some { body := .admitted e r x .sent, timer := some 16 }) with hu
      have login : ∀ q, q ≠ p → u.login q = s.login q := fun q hq => login_setEntry_ne _ _ hq
      have tag : ∀ q, u.loginTag q = s.loginTag q := fun q => by
        by_cases hq : q = p
        · subst hq; simp [loginTag, hu]
        · simp [loginTag, login q hq]
      have same : ∀ q c, u.Renewed q c → s.Renewed q c := by
        rintro q c ⟨e', r', x', h', b, hm, rfl⟩
        have hq : q ≠ p := by
          rintro rfl
          simp [hu, loginBody] at b
        refine ⟨e', r', x', h', (loginBody_of_login (login q hq)).symm.trans b, hm, ?_⟩
        simp only [moveCell, tag]
        rfl
      have filter : ps.filter u.renews = ps.filter s.renews :=
        List.filter_congr fun q hq => renews_of_login (login q (ne q hq))
      have ih := offerRenewals_offered ps u nodup' (fun q hq e' r' x' b =>
        homes q (List.mem_cons_of_mem _ hq) e' r' x' ((loginBody_of_login (login q (ne q hq))).symm.trans b))
        (by rw [filter]; exact ⟨room'.1, by have := room'.2; simp [hu]; omega⟩)
      obtain ⟨cells, queue, each⟩ := ih.cells
      refine ⟨ih.station, ih.calls, ih.scr, ih.cache, ⟨s.moveCell p e home true :: cells, ?_, ?_⟩,
        fun q hq e' r' x' b => ?_, fun q hq => ?_⟩
      · have one : Queues s u [s.moveCell p e home true] := by simp [Queues, hu]
        exact one.trans queue
      · rw [List.filter_cons, if_pos hr]
        exact .cons ⟨e, r, x, home, hb, hh, rfl⟩ (filter ▸ each.imp same)
      · by_cases hq' : q = p
        · subst hq'
          rw [ih.others q (.inl hp), hu, login_setEntry_same]
          rw [hb] at b
          cases b
          rfl
        · exact ih.sent q ((List.mem_cons.1 hq).resolve_left hq') e' r' x'
            ((loginBody_of_login (login q hq')).trans b)
      · have hq' : q ≠ p := by
          rintro rfl
          rcases hq with hq | hq
          · exact hq (List.mem_cons_self ..)
          · rw [hr] at hq
            cases hq
        rw [ih.others q (hq.imp (fun h h' => h (List.mem_cons_of_mem _ h')) fun h =>
          (renews_of_login (login q hq')).trans h)]
        exact login q hq'

/-- Each cell offers the renewal of one of the ports. -/
theorem renewed_of_mem {s : State} {ps : List Port} {cells : List Cell} (h : List.Forall₂ s.Renewed ps cells) :
    ∀ c ∈ cells, ∃ p ∈ ps, s.Renewed p c := by
  induction h with
  | nil => simp
  | cons hc _ ih =>
    intro c hm
    rcases List.mem_cons.1 hm with rfl | hm
    · exact ⟨_, List.mem_cons_self .., hc⟩
    · obtain ⟨p, hp, h⟩ := ih c hm
      exact ⟨p, List.mem_cons_of_mem _ hp, h⟩

/-- The cells stand under the login tags of the ports. -/
theorem renewed_senders {s : State} {ps : List Port} {cells : List Cell} (h : List.Forall₂ s.Renewed ps cells) :
    cells.map (·.sender) = ps.map s.loginTag := by
  induction h with
  | nil => rfl
  | cons hc _ ih =>
    obtain ⟨e, r, x, home, -, -, rfl⟩ := hc
    simp [ih, moveCell, cellTo]

end State

/-- Settles O26: at a superframe boundary each PENDING renewal is offered, in ascending port order. -/
theorem pendingRenewalsAreOffered : Obligations.PendingRenewalsAreOffered := by
  intro s boundary pending homes ps ascending mem room
  have ports : ps = (List.finRange 24).filter s.renews :=
    ascending.eq_of_mem_iff (pairwise_lt_filter_finRange _) fun p => by
      simp [mem, pending, State.renews_iff]
  subst ports
  have offered := State.offerRenewals_offered (List.finRange 24) s (List.nodup_finRange 24)
    (fun p _ => homes p) room
  obtain ⟨cells, queue, each⟩ := offered.cells
  refine ⟨s.offerRenewals, congrArg Host.Outcome.next (if_pos boundary), cells, queue, State.renewed_senders each,
    fun c hc => ?_, fun p e r x hb => offered.sent p (List.mem_finRange p) e r x hb, fun p hp => ?_⟩
  · obtain ⟨p, hp, e, r, x, home, hb, hh, rfl⟩ := State.renewed_of_mem each c hc
    exact ⟨rfl, p, hp, e, r, x, hb, rfl, home, hh, rfl⟩
  · exact offered.others p (.inr (by simpa using hp))

end Sys2Proof.Machine
end

