-- ==== Sys2Proof/Proofs/PortTraining.lean ====
section
/-! PROOF. A port that leaves UP, and the judgment of a superframe at a port (R144, R145). -/

namespace Sys2Proof.Machine

open Sys2Proof

namespace State

@[simp] theorem port_modCallPort (p q : Port) (f : CallPort → CallPort) (s : State) :
    (s.modCallPort p f).port q = s.port q := rfl
@[simp] theorem login_modCallPort (p q : Port) (f : CallPort → CallPort) (s : State) :
    (s.modCallPort p f).login q = s.login q := rfl

/-! ### Leaving UP (R145) -/

theorem ports_clearLocation (e : Ext) (why : ChangeReason) (s : State) : (s.clearLocation e why).ports = s.ports := by
  cases hr : s.homeRecord e with
  | none => rw [clearLocation_of_none why hr]
  | some h =>
    cases hl : h.location with
    | none => rw [clearLocation_of_unlocated why hr hl]
    | some loc => rw [clearLocation_of_located why hr hl]; simp

/-- A port that is not UP is not touched by the logout of its user: tones are discarded there. -/
theorem port_logOut_of_notUp {s : State} {p : Port} (h : (s.port p).state ≠ .up) : (s.logOut p).port p = s.port p := by
  cases hb : s.loginBody p with
  | none => rw [logOut_of_none hb]
  | some b =>
    cases b with
    | challenging e n r c => rw [logOut_of_challenging hb, port_setEntry]
    | confirming e =>
      rw [logOut_of_confirming hb]
      exact (ClearFrame.setTone p .none (s.setEntry p none)).quiet p h
    | admitted e r x n =>
      have quiet := (ClearFrame.clearPort p .admission (s.setEntry p none)).quiet p h
      cases hh : s.homeOf e with
      | none => rw [logOut_of_noHome hb hh, quiet, port_setEntry]
      | some home =>
        by_cases hs : home = s.self
        · rw [logOut_of_homeHere hb (hh.trans (congrArg some hs)), port_of_ports (ports_clearLocation ..), quiet,
            port_setEntry]
        · rw [logOut_of_homeAtPeer hb hh hs, port_offerSkip, quiet, port_setEntry]

end State

/-- A port that has left UP, its latches empty and its set at rest (R145). -/
def PortUnit.left (u : PortUnit) (st : PortState) (loss : Bool) : PortUnit :=
  { u.emptied with
    state := st, good := if loss then 0 else u.good, lineLoss := loss, reportedHook := .on, tone := .none,
    ring := false, talkSample := 0 }

namespace State

section
variable (s : State) (p : Port) (st : PortState) (loss : Bool)

theorem leaveUp_eq : s.leaveUp p st loss =
    ((s.modPort p fun u => u.left st loss).logOut p).modCallPort p fun c => { c with hookView := .on } := rfl

theorem port_leaveUp (h : st ≠ .up) : (s.leaveUp p st loss).port p = (s.port p).left st loss := by
  have left : (s.modPort p fun u => u.left st loss).port p = (s.port p).left st loss := port_modPort_same p _ s
  rw [leaveUp_eq, port_modCallPort, port_logOut_of_notUp (by rw [left]; exact h), left]

theorem login_leaveUp : (s.leaveUp p st loss).login p = { s.login p with entry := none } := by
  rw [leaveUp_eq, login_modCallPort, login_logOut_same]
  rfl

theorem hookView_leaveUp : ((s.leaveUp p st loss).callPort p).hookView = .on := by
  rw [leaveUp_eq, callPort_modCallPort_same]

end

/-- The user of a port that leaves UP is logged out, which clears the port's calls (R67). -/
theorem leaveUp_cleared {s : State} {p : Port} {e : Ext} {r : Rights} {x : Epoch} {n : Renewal} (st : PortState)
    (loss : Bool) (h : s.loginBody p = some (.admitted e r x n)) :
    PortCleared s (s.leaveUp p st loss) p .admission := by
  have body : (s.modPort p fun u => u.left st loss).loginBody p = some (.admitted e r x n) := h
  have cleared : PortCleared s ((s.modPort p fun u => u.left st loss).logOut p) p .admission :=
    (logOut_cleared body).1.of_left rfl rfl rfl
  rw [leaveUp_eq]
  refine cleared.of_right rfl rfl (fun q => ?_) fun _ h => h
  by_cases hq : q = p
  · subst hq; simp
  · rw [callPort_modCallPort_ne _ _ hq]

/-! ### The judgment of a superframe (R144) -/

theorem goodSuperframe_iff {n : Nat} : goodSuperframe n = true ↔ 63 ≤ n ∧ n ≤ 65 := by simp [goodSuperframe]

section
variable {s : State} {p : Port}

theorem port_judgeTraining_of_trained (st : (s.port p).state = .training)
    (good : goodSuperframe (s.port p).setFrames = true) (h : (s.port p).good < 3) :
    (s.judgeTraining p).port p = { s.port p with setFrames := 0, good := (s.port p).good + 1 } := by
  have lt : (s.port p).good + 1 < 4 := by omega
  simp [judgeTraining, st, good, lt]

/-- The fourth good superframe takes the port to UP. -/
theorem port_judgeTraining_of_up (st : (s.port p).state = .training)
    (good : goodSuperframe (s.port p).setFrames = true) (h : (s.port p).good = 3) :
    (s.judgeTraining p).port p = { s.port p with setFrames := 0 }.enterUp := by
  simp [judgeTraining, st, good, h]

theorem port_judgeTraining_of_lost (st : (s.port p).state = .training) (none : (s.port p).setFrames = 0) :
    (s.judgeTraining p).port p = { s.port p with state := .down } := by
  simp [judgeTraining, st, none, goodSuperframe]

theorem port_judgeTraining_of_bad (st : (s.port p).state = .training)
    (bad : goodSuperframe (s.port p).setFrames = false) (some : 0 < (s.port p).setFrames) :
    (s.judgeTraining p).port p = { s.port p with setFrames := 0, good := 0 } := by
  simp [judgeTraining, st, bad, some.ne']

theorem port_judgeTraining_of_upGood (st : (s.port p).state = .up)
    (good : goodSuperframe (s.port p).setFrames = true) :
    (s.judgeTraining p).port p = { s.port p with setFrames := 0, bad := 0 } := by
  simp [judgeTraining, st, good]

theorem port_judgeTraining_of_upBad (st : (s.port p).state = .up)
    (bad : goodSuperframe (s.port p).setFrames = false) (h : (s.port p).bad < 7) :
    (s.judgeTraining p).port p = { s.port p with setFrames := 0, bad := (s.port p).bad + 1 } := by
  have lt : (s.port p).bad + 1 < 8 := by omega
  simp [judgeTraining, st, bad, lt]

/-- The eighth bad superframe takes the port from UP. -/
theorem judgeTraining_of_loss (st : (s.port p).state = .up) (bad : goodSuperframe (s.port p).setFrames = false)
    (h : (s.port p).bad = 7) : s.judgeTraining p =
      ((s.modPort p fun u => { u with setFrames := 0 }).modPort p fun u => { u with bad := 8 }).leaveUp p .down true := by
  simp [judgeTraining, st, bad, h]

end

end State

/-- Settles O47: a superframe boundary judges the set frames of a port by its state. -/
theorem trainingIsJudgedAtTheBoundary : Obligations.TrainingIsJudgedAtTheBoundary := by
  intro s p boundary hear u good
  have isGood : good → goodSuperframe u.setFrames = true := State.goodSuperframe_iff.2
  have isBad : ¬ good → goodSuperframe u.setFrames = false := fun h =>
    Bool.eq_false_iff.2 fun h' => h (State.goodSuperframe_iff.1 h')
  have judged : ∀ P : State → Prop, P (s.judgeTraining p) → Completes (.portTrainingJudgment p) s P := fun P h =>
    ⟨_, congrArg Host.Outcome.next (if_pos ⟨boundary, hear, rfl⟩), h⟩
  refine ⟨fun st hg few => judged _ (State.port_judgeTraining_of_trained st (isGood hg) few),
    fun st hg some => judged _ (State.port_judgeTraining_of_bad st (isBad hg) some),
    fun st none => judged _ (State.port_judgeTraining_of_lost st none),
    fun st hg => judged _ (State.port_judgeTraining_of_upGood st (isGood hg)),
    fun st hg few => judged _ (State.port_judgeTraining_of_upBad st (isBad hg) few), fun st hg third => ?_,
    fun st hg last => ?_⟩
  · have due : State.goodLimitDue u = true := by simp [State.goodLimitDue, st, third, isGood hg]
    refine ⟨s.judgeTraining p, congrArg Host.Outcome.next (if_pos ⟨boundary, hear, due⟩), ?_⟩
    dsimp only
    rw [State.port_judgeTraining_of_up st (isGood hg) third]
    exact ⟨rfl, rfl, rfl, rfl, rfl, rfl, rfl, rfl⟩
  · have due : State.badLimitDue u = true := by simp [State.badLimitDue, st, last, isBad hg]
    refine ⟨s.judgeTraining p, congrArg Host.Outcome.next (if_pos ⟨boundary, hear, due⟩), ?_⟩
    dsimp only
    rw [State.judgeTraining_of_loss st (isBad hg) last, State.port_leaveUp _ _ _ _ (by simp)]
    refine ⟨rfl, rfl, rfl, rfl, rfl, rfl, rfl, State.login_leaveUp _ _ _ _, State.hookView_leaveUp _ _ _ _,
      fun e r x n body => ?_⟩
    exact (State.leaveUp_cleared (s := (s.modPort p _).modPort p _) .down true body).of_left rfl rfl rfl

end Sys2Proof.Machine
end

