-- ==== Sys2Proof/Proofs/PortRequests.lean ====
section
/-! PROOF. A maintenance request that passes code and privilege, and the port requests (R146, R179, R180). -/

namespace Sys2Proof.Machine

open Sys2Proof

/-! ### A request is taken, judged and answered (R179) -/

theorem exec_request (q : Request) (s : State) : exec q.command s = .next (s.takeRequest q) := by
  cases q <;> rfl

theorem ofCode_code (q : Request) : Request.ofCode q.code = some q := by
  cases q <;> rfl

theorem indexOf_of_val {n : Nat} {b : Byte} {i : Fin n} (h : b.toNat = i.val) : indexOf n b = some i := by
  have lt : b.toNat < n := h ▸ i.isLt
  simp only [indexOf, lt, dif_pos]
  exact congrArg some (Fin.ext h)

theorem indexOf_of_ge {n : Nat} {b : Byte} (h : n ≤ b.toNat) : indexOf n b = none := by
  simp [indexOf, Nat.not_lt.2 h]

/-- A request of the maintenance station is performed, and its answer offered to the requester. -/
theorem completes_of_request {s : State} {im : Image} {x : Stored} {q : Request} {arg : List Byte} {a : Answered}
    {P : State → Prop} (hx : s.nextCell .maintC = some x) (hb : x.cell.body = .maintReq q.code arg)
    (one : x.cell.dest ≠ .all) (active : s.station.state = .active) (him : s.station.image = some im)
    (hm : im.maintenance = some x.cell.source) (hq : q ≠ .restart) (ha : (taken s .maintC x).perform q arg = a)
    (hst : a.1.station = s.station) (h : P (a.1.offerSkip (replyTo s x q a.2.1 a.2.2) .plain)) :
    Completes q.command s P := by
  refine completes_of_consume (exec_request q s) hx (by simp [hb]) ?_
  have station : (taken s .maintC x).maintenanceStation = some x.cell.source := by
    simp [State.maintenanceStation, him, hm]
  have reply : a.1.replyCell x.cell q a.2.1 a.2.2 = replyTo s x q a.2.1 a.2.2 := by
    simp [State.replyCell, State.cellTo, replyTo, answerTo, State.self_of_station hst]
  have run : (taken s .maintC x).actMaintReq x = a.1.offerSkip (replyTo s x q a.2.1 a.2.2) .plain := by
    rw [← reply, ← ha]
    simp [State.actMaintReq, hb, State.active, active, one, State.judgeRequest, ofCode_code, station,
      State.answerRequest, hq]
  rw [run]
  exact h

/-- The reply is the one cell of a request that queues none of its own. -/
theorem queues_reply {s u : State} (room : QueueRoom 1 s) (hst : u.station = s.station)
    (hq : u.highway.queue = s.highway.queue) (c : Cell) : Queues s (u.offerSkip c .plain) [c] := by
  have same : Queues s u [] := Queues.of_eq hq
  exact same.trans (Queues.offerSkip (n := 0) (same.room hst room) c .plain)

/-! ### PORT-ENABLE and PORT-DISABLE (R146) -/

namespace State

theorem withIndex_of_val {n : Nat} {arg : List Byte} {i : Fin n} (act : Fin n → State → Answered) (s : State)
    (h : (byteAt arg 0).toNat = i.val) : s.withIndex n arg act = act i s := by
  simp [withIndex, indexOf_of_val h]

theorem withIndex_of_ge {n : Nat} {arg : List Byte} (act : Fin n → State → Answered) (s : State)
    (h : n ≤ (byteAt arg 0).toNat) : s.withIndex n arg act = (s, .badArg, []) := by
  simp [withIndex, indexOf_of_ge h]

theorem portAnswer_of_port {s : State} {p : Port} {u : PortUnit} (h : s.port p = u) :
    s.portAnswer p = (s, .ok, [u.state.code, boolByte u.enable]) := by
  rw [portAnswer, h]

theorem perform_portEnable {arg : List Byte} {p : Port} (h : (byteAt arg 0).toNat = p.val) (s : State) :
    s.perform .portEnable arg = (s.enablePort p).portAnswer p :=
  withIndex_of_val (fun p s => (s.enablePort p).portAnswer p) s h

theorem perform_portDisable {arg : List Byte} {p : Port} (h : (byteAt arg 0).toNat = p.val) (s : State) :
    s.perform .portDisable arg = (s.disablePort p).portAnswer p :=
  withIndex_of_val (fun p s => (s.disablePort p).portAnswer p) s h

theorem perform_port_of_ge {arg : List Byte} (h : 24 ≤ (byteAt arg 0).toNat) {q : Request}
    (hq : q = .portEnable ∨ q = .portDisable) (s : State) : s.perform q arg = (s, .badArg, []) := by
  rcases hq with rfl | rfl
  · exact withIndex_of_ge (fun p s => (s.enablePort p).portAnswer p) s h
  · exact withIndex_of_ge (fun p s => (s.disablePort p).portAnswer p) s h

section
variable {s : State} {p : Port}

theorem enablePort_of_disabled (h : (s.port p).state = .disabled) : s.enablePort p =
    s.modPort p fun u => { u with enable := true, state := .down, good := 0, lineLoss := false } := by
  simp [enablePort, h]

theorem enablePort_of_enabled (h : (s.port p).state ≠ .disabled) : s.enablePort p =
    s.modPort p fun u => { u with enable := true } := by
  simp [enablePort, h]

theorem disablePort_of_up (h : (s.port p).state = .up) : s.disablePort p =
    (s.modPort p fun u => { u with enable := false }).leaveUp p .disabled false := by
  simp [disablePort, h]

theorem disablePort_of_disabled (h : (s.port p).state = .disabled) : s.disablePort p =
    s.modPort p fun u => { u with enable := false } := by
  simp [disablePort, h]

theorem disablePort_of_waiting (h : (s.port p).state = .down ∨ (s.port p).state = .training) : s.disablePort p =
    (s.modPort p fun u => { u with enable := false }).modPort p fun u =>
      { u.emptied with state := .disabled, lineLoss := false } := by
  rcases h with h | h <;> simp [disablePort, h]

end

end State

/-- The station does not change when a port leaves UP. -/
theorem State.station_clearLocation (e : Ext) (why : ChangeReason) (s : State) :
    (s.clearLocation e why).station = s.station := by
  cases hr : s.homeRecord e with
  | none => rw [State.clearLocation_of_none why hr]
  | some h =>
    cases hl : h.location with
    | none => rw [State.clearLocation_of_unlocated why hr hl]
    | some loc => rw [State.clearLocation_of_located why hr hl]; simp

theorem State.station_logOut (s : State) (p : Port) : (s.logOut p).station = s.station := by
  cases hb : s.loginBody p with
  | none => rw [State.logOut_of_none hb]
  | some b =>
    cases b with
    | challenging e n r c => rw [State.logOut_of_challenging hb]; rfl
    | confirming e => rw [State.logOut_of_confirming hb]; simp
    | admitted e r x n =>
      have frame := ClearFrame.clearPort p .admission (s.setEntry p none)
      cases hh : s.homeOf e with
      | none => rw [State.logOut_of_noHome hb hh, frame.station]; rfl
      | some home =>
        by_cases hs : home = s.self
        · rw [State.logOut_of_homeHere hb (hh.trans (congrArg some hs)), State.station_clearLocation, frame.station]
          rfl
        · rw [State.logOut_of_homeAtPeer hb hh hs, State.offerSkip_station, frame.station]; rfl

/-- Settles O41: the port requests enable and disable the port they name. -/
theorem portRequestsEnableAndDisable : Obligations.PortRequestsEnableAndDisable := by
  intro s im x q arg hx hb one room him hm reply a
  have queues : ∀ (t : State) (c : Cell), t.station = s.station → t.highway.queue = s.highway.queue →
      Queues s (t.offerSkip c .plain) [c] := fun t c hst hq => queues_reply room hst hq c
  have run : ∀ (b : Answered) (P : State → Prop), q ≠ .restart → (taken s .maintC x).perform q arg = b →
      b.1.station = s.station → P (b.1.offerSkip (reply b.2.1 b.2.2) .plain) → Completes q.command s P :=
    fun b P hq ha hst h => completes_of_request hx hb one room.1 him hm hq ha hst h
  refine ⟨fun hq big => ?_, fun p ha hq st => ?_, fun p ha hq st => ?_, fun p ha hq => ?_⟩
  · exact run _ _ (by rcases hq with rfl | rfl <;> simp) (State.perform_port_of_ge big hq _) rfl
      ⟨queues _ _ rfl rfl, by simp⟩
  · subst hq
    set u := (taken s .maintC x).modPort p fun u =>
      { u with enable := true, state := .down, good := 0, lineLoss := false } with hu
    have port : u.port p = { s.port p with enable := true, state := .down, good := 0, lineLoss := false } :=
      State.port_modPort_same p _ _
    refine run (u, .ok, [1, 1]) _ (by simp) ((State.perform_portEnable ha _).trans ?_) rfl
      ⟨(State.port_offerSkip _ _ _ _).trans port, queues u _ rfl rfl, fun p' hp => ?_⟩
    · rw [State.enablePort_of_disabled (s := taken s .maintC x) st, ← hu, State.portAnswer_of_port port]
      rfl
    · exact (State.port_offerSkip _ _ _ _).trans (State.port_modPort_ne _ _ hp)
  · subst hq
    set u := (taken s .maintC x).modPort p fun u => { u with enable := true } with hu
    have port : u.port p = { s.port p with enable := true } := State.port_modPort_same p _ _
    refine run (u, .ok, [(s.port p).state.code, 1]) _ (by simp) ((State.perform_portEnable ha _).trans ?_) rfl
      ⟨(State.port_offerSkip _ _ _ _).trans port, ?_, fun p' hp => ?_⟩
    · rw [State.enablePort_of_enabled (s := taken s .maintC x) st, ← hu, State.portAnswer_of_port port]
      rfl
    · have cells := queues u (reply .ok [(s.port p).state.code, 1]) rfl rfl
      cases h : (s.port p).state <;> rw [h] at cells <;> exact cells
    · exact (State.port_offerSkip _ _ _ _).trans (State.port_modPort_ne _ _ hp)
  · subst hq
    have done : ∀ (u : State) (st : PortState) (en : Bool) (P : State → Prop),
        (taken s .maintC x).disablePort p = u → (u.port p).state = st → (u.port p).enable = en →
        u.station = s.station → P (u.offerSkip (reply .ok [st.code, boolByte en]) .plain) →
        Completes Request.portDisable.command s P := by
      rintro u st en P hu rfl rfl hst h
      refine run (u, .ok, [(u.port p).state.code, boolByte (u.port p).enable]) _ (by simp) ?_ hst h
      rw [State.perform_portDisable ha, hu]
      rfl
    by_cases up : (s.port p).state = .up
    · set v := (taken s .maintC x).modPort p fun u => { u with enable := false } with hv
      have port : (v.leaveUp p .disabled false).port p = { s.port p with enable := false }.left .disabled false := by
        rw [State.port_leaveUp _ _ _ _ (by simp), hv, State.port_modPort_same]
        rfl
      refine done (v.leaveUp p .disabled false) .disabled false _
        (State.disablePort_of_up (s := taken s .maintC x) up) (by rw [port]; rfl) (by rw [port]; rfl)
        (State.station_logOut _ p) ?_
      rw [State.port_offerSkip, port]
      refine ⟨rfl, rfl, fun _ => ⟨rfl, rfl, rfl, rfl, rfl, rfl⟩, fun _ => ⟨?_, rfl, rfl, rfl, ?_, fun e r y n body => ?_⟩,
        fun h => ?_, fun h => absurd up h⟩
      · rw [State.login_offerSkip, State.login_leaveUp]
      · rw [State.callPort_of_calls (congrArg (·.ports) (State.offerSkip_calls _ _ _)), State.hookView_leaveUp]
      · have cleared : PortCleared s (v.leaveUp p .disabled false) p .admission :=
          (State.leaveUp_cleared (s := v) .disabled false body).of_left rfl rfl rfl
        exact cleared.of_calls (State.offerSkip_calls _ _ _) fun c hc => State.mem_queue_offerSkip _ _ hc
      · rw [up] at h
        cases h
    · by_cases off : (s.port p).state = .disabled
      · set u := (taken s .maintC x).modPort p fun u => { u with enable := false } with hu
        have port : u.port p = { s.port p with enable := false } := State.port_modPort_same p _ _
        refine done u .disabled false _ (State.disablePort_of_disabled (s := taken s .maintC x) off)
          (by rw [port]; exact off) (by rw [port]) rfl ?_
        rw [State.port_offerSkip, port]
        refine ⟨off, rfl, fun h => absurd off h, fun h => absurd h up, fun _ => rfl, fun _ =>
          ⟨queues u _ rfl rfl, by simp [hu], by simp [hu], fun p' hp => ?_⟩⟩
        exact (State.port_offerSkip _ _ _ _).trans (State.port_modPort_ne _ _ hp)
      · have waiting : (s.port p).state = .down ∨ (s.port p).state = .training := by
          cases h : (s.port p).state <;> simp_all
        set v := (taken s .maintC x).modPort p fun u => { u with enable := false } with hv
        set u := v.modPort p fun u => { u.emptied with state := .disabled, lineLoss := false } with hu
        have port : u.port p = { { s.port p with enable := false }.emptied with
            state := .disabled, lineLoss := false } := by
          rw [hu, State.port_modPort_same, hv, State.port_modPort_same]
          rfl
        refine done u .disabled false _ (State.disablePort_of_waiting (s := taken s .maintC x) waiting)
          (by rw [port]) (by rw [port]; rfl) rfl ?_
        rw [State.port_offerSkip, port]
        refine ⟨rfl, rfl, fun _ => ⟨rfl, rfl, rfl, rfl, rfl, rfl⟩, fun h => absurd h up, fun h => absurd h off, fun _ =>
          ⟨queues u _ rfl rfl, by simp [hu, hv], by simp [hu, hv], fun p' hp => ?_⟩⟩
        rw [State.port_offerSkip, hu, State.port_modPort_ne _ _ hp, hv, State.port_modPort_ne _ _ hp]
        rfl

end Sys2Proof.Machine
end

