-- ==== Sys2Proof/Proofs/HomeRequests.lean ====
section
/-! PROOF. The home requests of the maintenance station: SET-RIGHTS, BAR, UNBAR, FORCE-LOGOUT (R17, R18, R181). -/

namespace Sys2Proof.Machine

open Sys2Proof

namespace State

/-! ### A location is cleared, and a login here dropped (R7, R18) -/

theorem calls_clearLocation (e : Ext) (why : ChangeReason) (s : State) : (s.clearLocation e why).calls = s.calls := by
  cases hr : s.homeRecord e with
  | none => rw [clearLocation_of_none why hr]
  | some h =>
    cases hl : h.location with
    | none => rw [clearLocation_of_unlocated why hr hl]
    | some loc => rw [clearLocation_of_located why hr hl]; simp

theorem logins_clearLocation (e : Ext) (why : ChangeReason) (s : State) :
    (s.clearLocation e why).adm.logins = s.adm.logins := logins_ext fun p => login_clearLocation e why p s

theorem queue_clearLocation_le (e : Ext) (why : ChangeReason) (s : State) :
    (s.clearLocation e why).highway.queue.length ≤ s.highway.queue.length + 1 := by
  cases hr : s.homeRecord e with
  | none => rw [clearLocation_of_none why hr]; omega
  | some h =>
    cases hl : h.location with
    | none => rw [clearLocation_of_unlocated why hr hl]; omega
    | some loc =>
      rw [clearLocation_of_located why hr hl]
      exact (offerSkip_length_le _ _ _).trans (by simp)

section
variable {s : State} {e : Ext} {h : HomeRecord} (why : ChangeReason) (drop : DropReason)

theorem evict_of_unlocated (hr : s.homeRecord e = some h) (hl : h.location = none) : s.evict e why drop = s := by
  simp [evict, clearLocation_of_unlocated why hr hl, hr, hl]

theorem hasLogin_iff {p : Port} : s.hasLogin p e = true ↔ ∃ r x n, s.loginBody p = some (.admitted e r x n) := by
  unfold hasLogin
  constructor
  · intro h
    cases ha : s.admitted p with
    | none => simp [ha] at h
    | some y =>
      obtain ⟨e', r, x⟩ := y
      obtain rfl : e' = e := by simpa [ha] using h
      obtain ⟨n, hn⟩ := admitted_eq_some.1 ha
      exact ⟨r, x, n, hn⟩
  · rintro ⟨r, x, n, hb⟩
    simp [admitted_eq_some.2 ⟨n, hb⟩]

section
variable {st : Station} {p : Port} (hr : s.homeRecord e = some h) (hl : h.location = some (st, p))
include hr hl

/-- A record located elsewhere, or where another number is logged in, drops nothing (log 67). -/
theorem evict_of_noLogin (no : st = s.self → s.hasLogin p e = false) : s.evict e why drop = s.clearLocation e why := by
  simp only [evict, hr, Option.bind_some, hl]
  refine if_neg fun ⟨h1, h2⟩ => ?_
  rw [no h1] at h2
  cases h2

theorem evict_of_login (hs : st = s.self) (hp : s.hasLogin p e = true) :
    s.evict e why drop = (s.clearLocation e why).dropLogin p drop := by
  simp only [evict, hr, Option.bind_some, hl]
  exact if_pos ⟨hs, hp⟩

theorem evict_cases : s.evict e why drop = s.clearLocation e why ∨
    s.evict e why drop = (s.clearLocation e why).dropLogin p drop := by
  by_cases hp : st = s.self ∧ s.hasLogin p e = true
  · exact .inr (evict_of_login why drop hr hl hp.1 hp.2)
  · refine .inl (evict_of_noLogin why drop hr hl fun h1 => ?_)
    exact Bool.eq_false_iff.2 fun h2 => hp ⟨h1, h2⟩

/-- The record after an eviction. -/
theorem homeRecord_evict : (s.evict e why drop).homeRecord e =
    some { h with location := none, epoch := h.epoch + 1 } := by
  have cleared := homeRecord_clearLocation why hr hl
  rcases evict_cases why drop hr hl with h' | h' <;> rw [h']
  · exact cleared
  · rw [(DropFrame.dropLogin p drop _).homeRecord, cleared]

theorem station_evict : (s.evict e why drop).station = s.station := by
  rcases evict_cases why drop hr hl with h' | h' <;> rw [h']
  · exact station_clearLocation e why s
  · rw [(DropFrame.dropLogin p drop _).station, station_clearLocation]

/-- The announcement is queued before anything that the drop of a login queues. -/
theorem queue_evict (room : QueueRoom 1 s) : s.highway.queue ++ [{
    cell := broadcast s (.admitChange e why (some (st, p)) h.rights (h.epoch + 1)), name := .plain }] <+:
      (s.evict e why drop).highway.queue := by
  have cleared : (s.clearLocation e why).highway.queue = s.highway.queue ++ [{
      cell := broadcast s (.admitChange e why (some (st, p)) h.rights (h.epoch + 1)), name := .plain }] := by
    rw [clearLocation_of_located why hr hl, offerSkip_of_room (n := 0) ⟨by simpa using room.1, by simpa using room.2⟩]
    simp
  rcases evict_cases why drop hr hl with h' | h' <;> rw [h', ← cleared]
  exact (DropFrame.dropLogin p drop _).queue

end
end

/-! ### The requests (R17, R18) -/

theorem withHome_of_big {arg : List Byte} (act : Ext → HomeRecord → State → Answered) (s : State)
    (h : 9999 < fieldAt arg 0 2) : s.withHome arg act = (s, .badArg, []) := by
  simp [withHome, h]

theorem withHome_of_away {arg : List Byte} (act : Ext → HomeRecord → State → Answered) {s : State}
    (h : fieldAt arg 0 2 ≤ 9999) (away : s.homedHere (fieldAt arg 0 2) = false) :
    s.withHome arg act = (s, .absent, []) := by
  simp [withHome, Nat.not_lt.2 h, away]

theorem withHome_of_here {arg : List Byte} (act : Ext → HomeRecord → State → Answered) {s : State} {h : HomeRecord}
    (le : fieldAt arg 0 2 ≤ 9999) (here : s.homedHere (fieldAt arg 0 2) = true)
    (hr : s.homeRecord (fieldAt arg 0 2) = some h) : s.withHome arg act = act (fieldAt arg 0 2) h s := by
  simp [withHome, Nat.not_lt.2 le, here, hr]

theorem homeAnswerData_of_record {s : State} {e : Ext} {h : HomeRecord} (hr : s.homeRecord e = some h) :
    s.homeAnswerData e = (s, .ok, homeData h) := by
  simp [homeAnswerData, hr]

/-- The home requests with what each does to a record homed here. -/
def homeAction (q : Request) (c : Rights) (e : Ext) (h : HomeRecord) (s : State) : State :=
  match q with
  | .setRights => s.setRightsOf c e h
  | .bar => s.barOf e h
  | .unbar => s.unbarOf e h
  | .forceLogout => s.evict e .forced .plain
  | _ => s

section
variable {s : State} {q : Request} {arg : List Byte} (hq : q = .setRights ∨ q = .bar ∨ q = .unbar ∨ q = .forceLogout)
include hq

theorem perform_home {c : Rights} (range : q = .setRights → (byteAt arg 2).toNat = c.val) : s.perform q arg =
    s.withHome arg fun e h s => (s.homeAction q c e h).homeAnswerData e := by
  rcases hq with rfl | rfl | rfl | rfl
  · simp only [perform, doSetRights, indexOf_of_val (range rfl)]
    rfl
  all_goals rfl

/-- A number above 9999, or a class above 3, is no argument. -/
theorem perform_home_of_bad (h : 9999 < fieldAt arg 0 2 ∨ ¬ (q = .setRights → (byteAt arg 2).toNat < 4)) :
    s.perform q arg = (s, .badArg, []) := by
  by_cases range : q = .setRights → (byteAt arg 2).toNat < 4
  · have big := h.resolve_right (not_not_intro range)
    by_cases hs : q = .setRights
    · rw [perform_home hq (c := ⟨(byteAt arg 2).toNat, range hs⟩) fun _ => rfl, withHome_of_big _ s big]
    · rw [perform_home hq (c := 0) fun h => absurd h hs, withHome_of_big _ s big]
  · obtain ⟨rfl, high⟩ := Classical.not_imp.1 range
    simp [perform, doSetRights, indexOf_of_ge (Nat.not_lt.1 high)]

theorem perform_home_of_away (le : fieldAt arg 0 2 ≤ 9999) (range : q = .setRights → (byteAt arg 2).toNat < 4)
    (away : s.homedHere (fieldAt arg 0 2) = false) : s.perform q arg = (s, .absent, []) := by
  by_cases hs : q = .setRights
  · rw [perform_home hq (c := ⟨(byteAt arg 2).toNat, range hs⟩) fun _ => rfl, withHome_of_away _ le away]
  · rw [perform_home hq (c := 0) fun h => absurd h hs, withHome_of_away _ le away]

/-- On a number homed here the record is changed, and the answer is the record as it then stands. -/
theorem perform_home_of_here {h h' : HomeRecord} {c : Rights} (le : fieldAt arg 0 2 ≤ 9999)
    (range : q = .setRights → (byteAt arg 2).toNat = c.val) (here : s.homedHere (fieldAt arg 0 2) = true)
    (hr : s.homeRecord (fieldAt arg 0 2) = some h)
    (after : (s.homeAction q c (fieldAt arg 0 2) h).homeRecord (fieldAt arg 0 2) = some h') :
    s.perform q arg = (s.homeAction q c (fieldAt arg 0 2) h, .ok, homeData h') := by
  rw [perform_home hq range, withHome_of_here _ le here hr, homeAnswerData_of_record after]

end

/-! ### SET-RIGHTS (R17) -/

theorem refreshLogin_cases (p : Port) (e : Ext) (r : Rights) (x : Epoch) (s : State) :
    s.refreshLogin p e r x = s ∨ ∃ y, s.refreshLogin p e r x = s.setEntry p (some y) := by
  unfold refreshLogin
  split
  · split
    · exact .inr ⟨_, rfl⟩
    · exact .inl rfl
  · exact .inl rfl

theorem refreshLogin_of_admitted {s : State} {p : Port} {e : Ext} {r r' : Rights} {x x' : Epoch} {n : Renewal}
    {tm : Option Nat} (h : (s.login p).entry = some { body := .admitted e r' x' n, timer := tm }) :
    s.refreshLogin p e r x = s.setEntry p (some { body := .admitted e r x n, timer := tm }) := by
  simp [refreshLogin, h]

section
variable {s : State} {e : Ext} {h : HomeRecord} (r : Rights)

/-- A record whose class is set (R17). -/
def rightsRecord (h : HomeRecord) (r : Rights) : HomeRecord := { h with rights := r, epoch := h.epoch + 1 }

/-- The home's part of SET-RIGHTS, before a login here is refreshed. -/
def rightsSet (s : State) (e : Ext) (h : HomeRecord) (r : Rights) : State :=
  (s.setHomeRecord e (rightsRecord h r)).offerSkip
    (broadcast s (.admitChange e .rights h.location r (h.epoch + 1))) .plain

theorem rightsSet_eq : s.rightsSet e h r = (s.setHomeRecord e (rightsRecord h r)).offerSkip
    ((s.setHomeRecord e (rightsRecord h r)).changeCell e .rights h.location (rightsRecord h r)) .plain := by
  simp [rightsSet, changeCell, cellToAll, broadcast, rightsRecord]

theorem setRightsOf_of_elsewhere (hl : ∀ p, h.location ≠ some (s.self, p)) :
    s.setRightsOf r e h = s.rightsSet e h r := by
  rw [rightsSet_eq]
  obtain ⟨loc, rights, barred, epoch⟩ := h
  cases loc with
  | none => rfl
  | some loc =>
    obtain ⟨st, p⟩ := loc
    exact if_neg (by rintro rfl; exact hl p rfl)

theorem setRightsOf_of_here {p : Port} (hl : h.location = some (s.self, p)) :
    s.setRightsOf r e h = (s.rightsSet e h r).refreshLogin p e r (h.epoch + 1) := by
  rw [rightsSet_eq]
  obtain ⟨loc, rights, barred, epoch⟩ := h
  obtain rfl : loc = some (s.self, p) := hl
  exact if_pos rfl

/-- Whatever is refreshed, the record, the queue and the calls are those of the home's part. -/
theorem setRightsOf_frame (hr : s.homeRecord e = some h) :
    (s.setRightsOf r e h).homeRecord e = some (rightsRecord h r) ∧ (s.setRightsOf r e h).calls = s.calls ∧
    (s.setRightsOf r e h).station = s.station ∧
    (s.setRightsOf r e h).highway.queue = (s.rightsSet e h r).highway.queue := by
  have set : (s.rightsSet e h r).homeRecord e = some (rightsRecord h r) ∧ (s.rightsSet e h r).calls = s.calls ∧
      (s.rightsSet e h r).station = s.station := by
    simp [rightsSet, homeRecord_setHomeRecord_same _ hr]
  by_cases hl : ∃ p, h.location = some (s.self, p)
  · obtain ⟨p, hl⟩ := hl
    rw [setRightsOf_of_here r hl]
    rcases refreshLogin_cases p e r (h.epoch + 1) (s.rightsSet e h r) with h' | ⟨y, h'⟩ <;> rw [h']
    · exact ⟨set.1, set.2.1, set.2.2, rfl⟩
    · exact ⟨set.1, set.2.1, set.2.2, rfl⟩
  · rw [setRightsOf_of_elsewhere r fun p hp => hl ⟨p, hp⟩]
    exact ⟨set.1, set.2.1, set.2.2, rfl⟩

end

/-! ### What the reply of BAR and FORCE-LOGOUT finds (R18) -/

section
variable {s u : State} {e : Ext} {h : HomeRecord} {st : Station} {p : Port} (why : ChangeReason) (drop : DropReason)
  (c : Cell) (hst : u.station = s.station) (hq : u.highway.queue = s.highway.queue)
  (hlog : u.adm.logins = s.adm.logins) (hr : u.homeRecord e = some h) (hl : h.location = some (st, p))
include hst hq hlog hr hl

theorem evict_announces (room : QueueRoom 2 s) :
    s.highway.queue ++ [{
      cell := broadcast s (.admitChange e why (some (st, p)) h.rights (h.epoch + 1)), name := .plain }] <+:
        ((u.evict e why drop).offerSkip c .plain).highway.queue ∧
    ((∀ p r x n, s.loginBody p ≠ some (.admitted e r x n)) → Queues s ((u.evict e why drop).offerSkip c .plain)
      [broadcast s (.admitChange e why (some (st, p)) h.rights (h.epoch + 1)), c]) := by
  have self : u.self = s.self := self_of_station hst
  have roomU : QueueRoom 2 u := ⟨by rw [hst]; exact room.1, by rw [hq]; exact room.2⟩
  constructor
  · have first := queue_evict why drop hr hl ⟨roomU.1, by have := roomU.2; omega⟩
    rw [hq] at first
    refine List.IsPrefix.trans ?_ (ClearFrame.offer c .plain (u.evict e why drop)).queue
    simpa [broadcast, self] using first
  · intro nobody
    have no : u.hasLogin p e = false := by
      refine Bool.eq_false_iff.2 fun h => ?_
      obtain ⟨r, x, n, hb⟩ := hasLogin_iff.1 h
      exact nobody p r x n ((loginBody_of_login (login_of_logins hlog p)).symm.trans hb)
    have first := queues_clearLocation (n := 1) why hr hl roomU
    rw [evict_of_noLogin why drop hr hl fun _ => no]
    have change : broadcast u (.admitChange e why (some (st, p)) h.rights (h.epoch + 1)) =
        broadcast s (.admitChange e why (some (st, p)) h.rights (h.epoch + 1)) := by simp [broadcast, self]
    have same : Queues s u [] := Queues.of_eq hq
    rw [← change]
    exact (same.trans first).trans
      (Queues.offerSkip (n := 0) (first.room (station_clearLocation e why u) roomU) c .plain)

/-- The login at which the record is located is dropped, which ends the calls of its port. -/
theorem evict_drops {r : Rights} {x : Epoch} {n : Renewal} (hc : u.calls = s.calls) (hp : u.ports = s.ports)
    (hd : drop ≠ .homeLost) (hs : st = s.self) (hb : s.loginBody p = some (.admitted e r x n)) :
    let t := (u.evict e why drop).offerSkip c .plain
    (t.login p).entry = none ∧ PortCleared s t p .admission ∧ FrontHearsReorder s t p ∧
      (drop = .barring → (s.port p).state = .up → Tells t p (.loginResult .barred)) := by
  have hb' : u.loginBody p = some (.admitted e r x n) := (loginBody_of_login (login_of_logins hlog p)).trans hb
  rw [evict_of_login why drop hr hl (hs.trans (self_of_station hst).symm) (hasLogin_iff.2 ⟨r, x, n, hb'⟩)]
  have hb'' : (u.clearLocation e why).loginBody p = some (.admitted e r x n) :=
    (loginBody_of_login (login_clearLocation e why p u)).trans hb'
  have cause : drop.cause = .admission := by cases drop <;> first | rfl | exact absurd rfl hd
  obtain ⟨cleared, heard⟩ := dropLogin_cleared_after (s := s) drop hb'' ((station_clearLocation e why u).trans hst)
    ((calls_clearLocation e why u).trans hc) ((ports_clearLocation e why u).trans hp)
    ((queue_clearLocation_le e why u).trans (by rw [hq]))
  rw [cause] at cleared
  refine ⟨?_, cleared.of_calls (offerSkip_calls _ _ _) fun q hq => mem_queue_offerSkip _ _ hq,
    heard.of_right (by rw [port_offerSkip]), fun hbar up => ?_⟩
  · rw [login_offerSkip, login_dropLogin_of_admitted hb'']
  · subst hbar
    have told := dropLogin_tells (why := .barring) hb'' rfl
      (by rw [port_of_ports ((ports_clearLocation e why u).trans hp)]; exact up)
    rw [Tells, port_offerSkip]
    exact told

end

/-! ### BAR and UNBAR -/

theorem barOf_of_barred {s : State} {e : Ext} {h : HomeRecord} (hb : h.barred = true) : s.barOf e h = s := by
  simp [barOf, hb]

theorem barOf_of_unbarred {s : State} {e : Ext} {h : HomeRecord} (hb : h.barred = false) :
    s.barOf e h = (s.setHomeRecord e { h with barred := true }).evict e .barred .barring := by
  simp [barOf, hb]

end State

/-- Settles O42: each home request changes the record it names and answers with it. -/
theorem homeRequestsChangeTheRecord : Obligations.HomeRequestsChangeTheRecord := by
  intro s im x q arg hx hb one active him hm hq e inRange announces reply
  set v := taken s .maintC x with hv
  have restart : q ≠ .restart := by rcases hq with rfl | rfl | rfl | rfl <;> simp
  have run : ∀ (b : Answered) (P : State → Prop), v.perform q arg = b → b.1.station = s.station →
      P (b.1.offerSkip (reply b.2.1 b.2.2) .plain) → Completes q.command s P :=
    fun b P ha hst h => completes_of_request hx hb one active him hm restart ha hst h
  refine ⟨fun bad room => ?_, fun le range away room => ?_, fun h le here hr => ?_⟩
  · exact run _ _ (State.perform_home_of_bad hq bad) rfl ⟨queues_reply (u := v) room rfl rfl _, State.offerSkip_adm _ _ _⟩
  · exact run _ _ (State.perform_home_of_away hq le range away) rfl
      ⟨queues_reply (u := v) room rfl rfl _, State.offerSkip_adm _ _ _⟩
  have acts : ∀ (c : Rights) (h' : HomeRecord) (P : State → Prop), (q = .setRights → (byteAt arg 2).toNat = c.val) →
      (v.homeAction q c e h).homeRecord e = some h' → (v.homeAction q c e h).station = s.station →
      P ((v.homeAction q c e h).offerSkip (reply .ok (homeData h')) .plain) → Completes q.command s P :=
    fun c h' P range after hst hP => run _ _ (State.perform_home_of_here hq le range here hr after) hst hP
  have hr' : v.homeRecord e = some h := hr
  refine ⟨fun c hs hc => ?_, fun loc hs hbar hl => ?_, fun hs hbar hl => ?_, fun hs hbar => ?_, fun hs hbar room => ?_,
    fun hs hbar => ?_, fun loc hs hl => ?_, fun p r ep n which hl body => ?_, fun hs hl => ?_⟩
  · subst hs
    obtain ⟨record, calls, station, queue⟩ := State.setRightsOf_frame (s := v) c hr'
    have done : ∀ P : State → Prop, P ((v.setRightsOf c e h).offerSkip
        (reply .ok (homeData (State.rightsRecord h c))) .plain) → Completes Request.setRights.command s P :=
      fun P hP => acts c _ P (fun _ => hc) record station hP
    refine ⟨done _ ⟨?_, ?_⟩, fun room => done _ ?_, fun p r y n tm hl he => done _ ⟨?_, fun p' hp => ?_⟩,
      fun hl => done _ ?_⟩
    · rw [State.homeRecord_offerSkip]
      exact record
    · exact (State.offerSkip_calls _ _ _).trans calls
    · have set : Queues s (v.setHomeRecord e (State.rightsRecord h c)) [] := Queues.of_eq (by simp [hv])
      have first : Queues s (v.setRightsOf c e h)
          [broadcast s (.admitChange e .rights h.location c (h.epoch + 1))] := by
        have := set.trans (Queues.offerSkip (n := 1) (set.room (by simp [hv]) room)
          (broadcast s (.admitChange e .rights h.location c (h.epoch + 1))) .plain)
        rw [Queues, queue]
        exact this
      exact first.trans (Queues.offerSkip (n := 0) (first.room station room) _ _)
    · rw [State.login_offerSkip, State.setRightsOf_of_here (s := v) c hl,
        State.refreshLogin_of_admitted (by simpa [State.rightsSet, hv] using he), State.login_setEntry_same]
    · rw [State.login_offerSkip, State.setRightsOf_of_here (s := v) c hl,
        State.refreshLogin_of_admitted (by simpa [State.rightsSet, hv] using he), State.login_setEntry_ne _ _ hp]
      simp [State.rightsSet, hv]
    · rw [State.offerSkip_adm, State.setRightsOf_of_elsewhere (s := v) c hl]
      simp [State.rightsSet, hv]
  · subst hs
    have range : Request.bar = .setRights → (byteAt arg 2).toNat = (0 : Rights).val := fun h => by cases h
    have barred := State.homeRecord_setHomeRecord_same { h with barred := true } hr'
    have action : v.homeAction .bar 0 e h = _ := State.barOf_of_unbarred hbar
    have done : ∀ P : State → Prop, P (((v.setHomeRecord e { h with barred := true }).evict e .barred .barring).offerSkip
        (reply .ok (homeData { h with barred := true, location := none, epoch := h.epoch + 1 })) .plain) →
        Completes Request.bar.command s P := fun P hP => by
      refine acts 0 _ P range ?_ ?_ (by rw [action]; exact hP)
      · rw [action]
        exact State.homeRecord_evict .barred .barring barred hl
      · rw [action, State.station_evict .barred .barring barred hl]
        simp [hv]
    refine ⟨done _ ?_, fun room => done _ ?_⟩
    · rw [State.homeRecord_offerSkip]
      exact State.homeRecord_evict .barred .barring barred hl
    · exact State.evict_announces .barred .barring _ (by simp [hv]) (by simp [hv]) (by simp [hv]) barred hl room
  · subst hs
    have range : Request.bar = .setRights → (byteAt arg 2).toNat = (0 : Rights).val := fun h => by cases h
    have barred := State.homeRecord_setHomeRecord_same { h with barred := true } hr'
    have action : v.homeAction .bar 0 e h = v.setHomeRecord e { h with barred := true } :=
      (State.barOf_of_unbarred hbar).trans (State.evict_of_unlocated .barred .barring barred hl)
    have done : ∀ P : State → Prop, P ((v.setHomeRecord e { h with barred := true }).offerSkip
        (reply .ok (homeData { h with barred := true })) .plain) → Completes Request.bar.command s P := fun P hP =>
      acts 0 _ P range (by rw [action]; exact barred) (by rw [action]; simp [hv]) (by rw [action]; exact hP)
    refine ⟨done _ ⟨?_, by simp [hv]⟩, fun room => done _ (queues_reply room (by simp [hv]) (by simp [hv]) _)⟩
    rw [State.homeRecord_offerSkip]
    exact barred
  · subst hs
    have action : v.homeAction .bar 0 e h = v := State.barOf_of_barred hbar
    refine acts 0 h _ (fun h => by cases h) (by rw [action]; exact hr') (by rw [action]; rfl) ?_
    rw [action, State.offerSkip_adm]
    rfl
  · subst hs
    have action : v.homeAction .unbar 0 e h = v.setHomeRecord e { h with barred := false, epoch := h.epoch + 1 } :=
      if_pos hbar
    have record := State.homeRecord_setHomeRecord_same { h with barred := false, epoch := h.epoch + 1 } hr'
    refine acts 0 _ _ (fun h => by cases h) (by rw [action]; exact record) (by rw [action]; simp [hv]) ?_
    rw [action]
    refine ⟨?_, queues_reply room (by simp [hv]) (by simp [hv]) _⟩
    rw [State.homeRecord_offerSkip]
    exact record
  · subst hs
    have action : v.homeAction .unbar 0 e h = v := if_neg (by simp [hbar])
    refine acts 0 h _ (fun h => by cases h) (by rw [action]; exact hr') (by rw [action]; rfl) ?_
    rw [action, State.offerSkip_adm]
    rfl
  · subst hs
    have range : Request.forceLogout = .setRights → (byteAt arg 2).toNat = (0 : Rights).val := fun h => by cases h
    have done : ∀ P : State → Prop, P ((v.evict e .forced .plain).offerSkip
        (reply .ok (homeData { h with location := none, epoch := h.epoch + 1 })) .plain) →
        Completes Request.forceLogout.command s P := fun P hP =>
      acts 0 _ P range (State.homeRecord_evict .forced .plain hr' hl)
        ((State.station_evict .forced .plain hr' hl).trans rfl) hP
    refine ⟨done _ ?_, fun room => done _ ?_⟩
    · rw [State.homeRecord_offerSkip]
      exact State.homeRecord_evict .forced .plain hr' hl
    · exact State.evict_announces (u := v) .forced .plain _ rfl rfl rfl hr' hl room
  · rcases which with ⟨rfl, hbar⟩ | rfl
    · have barred := State.homeRecord_setHomeRecord_same { h with barred := true } hr'
      have action : v.homeAction .bar 0 e h = _ := State.barOf_of_unbarred hbar
      refine acts 0 { h with barred := true, location := none, epoch := h.epoch + 1 } _ (fun h => by cases h) ?_ ?_ ?_
      · rw [action]
        exact State.homeRecord_evict .barred .barring barred hl
      · rw [action, State.station_evict .barred .barring barred hl]
        simp [hv]
      · rw [action]
        obtain ⟨h1, h2, h3, h4⟩ := State.evict_drops (s := s) .barred .barring
          (reply .ok (homeData { h with barred := true, location := none, epoch := h.epoch + 1 })) (by simp [hv])
          (by simp [hv]) (by simp [hv]) barred hl (by simp [hv]) (by simp [hv]) (by simp) rfl body
        exact ⟨h1, h2, h3, fun _ => h4 rfl⟩
    · obtain ⟨h1, h2, h3, -⟩ := State.evict_drops (s := s) (u := v) .forced .plain
        (reply .ok (homeData { h with location := none, epoch := h.epoch + 1 })) rfl rfl rfl hr' hl rfl rfl
        (by simp) rfl body
      exact acts 0 _ _ (fun h => by cases h) (State.homeRecord_evict .forced .plain hr' hl)
        ((State.station_evict .forced .plain hr' hl).trans rfl) ⟨h1, h2, h3, fun h => by cases h⟩
  · subst hs
    have action : v.homeAction .forceLogout 0 e h = v := State.evict_of_unlocated .forced .plain hr' hl
    refine acts 0 h _ (fun h => by cases h) (by rw [action]; exact hr') (by rw [action]; rfl) ?_
    rw [action, State.offerSkip_adm]
    rfl

end Sys2Proof.Machine
end

