-- ==== Sys2Proof/Proofs/MoveAnswers.lean ====
section
/-! PROOF. A login is confirmed (R10, R13), at the home's answer or at the record here. -/

namespace Sys2Proof.Machine

open Sys2Proof

theorem indexOf_byteOf {n : Nat} (le : n ≤ 256) (i : Fin n) : indexOf n (byteOf i.val) = some i := by
  refine indexOf_of_val ?_
  have := i.isLt
  simp only [byteOf, BitVec.toNat_ofNat]
  omega

theorem byteOf_of_indexOf {n : Nat} {b : Byte} {i : Fin n} (h : indexOf n b = some i) : byteOf i.val = b := by
  unfold indexOf at h
  split at h
  · cases h
    simp [byteOf]
  · cases h

namespace State

/-! ### The entry that an answer finds (R2, R13) -/

section
variable {s : State} {p : Port} {e : Ext}

theorem movedEntry_of_confirming (h : s.loginBody p = some (.confirming e)) :
    s.movedEntry (s.loginTag p) e false = some p := by
  simp [movedEntry, loginTag, indexOf_byteOf, h]

theorem movedEntry_of_sent {r : Rights} {x : Epoch} (h : s.loginBody p = some (.admitted e r x .sent)) :
    s.movedEntry (s.loginTag p) e true = some p := by
  simp [movedEntry, loginTag, indexOf_byteOf, h]

/-- An answer that finds no entry of its extension in the state its flags name is an orphan. -/
theorem movedEntry_of_orphan {tag : Tag} {renew : Bool}
    (h : ∀ p : Port, tag = s.loginTag p → (renew = false → s.loginBody p ≠ some (.confirming e)) ∧
      (renew = true → ∀ r x, s.loginBody p ≠ some (.admitted e r x .sent))) : s.movedEntry tag e renew = none := by
  unfold movedEntry
  split
  · rename_i p hp
    split
    · rename_i hi
      have tagIs : tag = s.loginTag p := by
        cases tag
        simp only at hp hi
        simp [loginTag, byteOf_of_indexOf hp, hi]
      obtain ⟨h1, h2⟩ := h p tagIs
      split
      · rename_i e' hb
        exact if_neg fun he => h1 rfl (by rw [hb, he])
      · rename_i e' r x hb
        exact if_neg fun he => h2 rfl r x (by rw [hb, he])
      · rfl
    · rfl
  · rfl

end

/-! ### A login is admitted -/

/-- A port's login becomes ADMITTED, and its set hears so (R10, R13). -/
def admits (p : Port) (e : Ext) (r : Rights) (x : Epoch) (s : State) : State :=
  ((s.setEntry p (some { body := .admitted e r x .none, timer := none })).setTone p .none).sendResult p .ok

section
variable (p : Port) (e : Ext) (r : Rights) (x : Epoch) (s : State)

@[simp] theorem admits_station : (s.admits p e r x).station = s.station := by simp [admits]
@[simp] theorem admits_highway : (s.admits p e r x).highway = s.highway := by simp [admits]
@[simp] theorem admits_homes : (s.admits p e r x).adm.homes = s.adm.homes := by simp [admits]

theorem login_admits : (s.admits p e r x).login p =
    { s.login p with entry := some { body := .admitted e r x .none, timer := none } } := by
  simp [admits]

theorem homeRecord_admits (n : Ext) : (s.admits p e r x).homeRecord n = s.homeRecord n :=
  homeRecord_of_homes (by simp) (by simp) n

variable {p s} in
theorem admits_tells (up : (s.port p).state = .up) : Tells (s.admits p e r x) p (.loginResult .ok) :=
  sendMessage_last _ (by rw [(ClearFrame.setTone p .none _).portState]; exact up)

end

/-! ### Confirmation at the own record (R10) -/

section
variable {s : State} {p : Port} {e : Ext} {h : HomeRecord} (hr : s.homeRecord e = some h)
include hr

theorem confirmHere_of_barred (hb : h.barred = true) : s.confirmHere p e = s.leaveConfirming p .barred := by
  simp [confirmHere, hr, hb]

/-- Where the move of the record is applied the login is admitted with the record's class and new epoch. -/
theorem confirmHere_of_moved (hb : h.barred = false) {t : State} (hm : s.moveHome e h s.self p = (t, true)) :
    s.confirmHere p e = t.admits p e h.rights (h.epoch + 1) := by
  simp only [confirmHere, hr, hb, hm, Bool.false_eq_true, if_false, if_true]
  rfl

theorem confirmHere_of_refused (hb : h.barred = false) {t : State} (hm : s.moveHome e h s.self p = (t, false)) :
    s.confirmHere p e = t.leaveConfirming p .busy := by
  simp [confirmHere, hr, hb, hm]

end

/-- What a confirmation at the own record leaves of the login and the record. -/
structure LocatedHere (s t : State) (p : Port) (e : Ext) (h : HomeRecord) : Prop where
  entry : t.login p = { s.login p with
    entry := some { body := .admitted e h.rights (h.epoch + 1) .none, timer := none } }
  record : t.homeRecord e = some (movedRecord h s.self p)
  told : (s.port p).state = .up → Tells t p (.loginResult .ok)

section
variable {s : State} {p : Port} {e : Ext} {h : HomeRecord} (hr : s.homeRecord e = some h) (hb : h.barred = false)
include hr hb

theorem locatedHere_of_moved {u : State} (hm : s.moveHome e h s.self p = (u.setHomeRecord e (movedRecord h s.self p), true))
    (hl : u.login p = s.login p) (hp : u.port p = s.port p) (hu : u.homeRecord e = s.homeRecord e) :
    LocatedHere s (s.confirmHere p e) p e h := by
  rw [confirmHere_of_moved hr hb hm]
  refine ⟨by rw [login_admits, login_setHomeRecord, hl], ?_, fun up => admits_tells _ _ _ (by simpa [hp] using up)⟩
  rw [homeRecord_admits]
  exact homeRecord_setHomeRecord_same _ (hu.trans hr)

/-- A record that is unlocated or located here is located at the port, without a cell. -/
theorem confirmHere_of_free (hl : h.location = none ∨ ∃ q, h.location = some (s.self, q)) :
    LocatedHere s (s.confirmHere p e) p e h ∧ (s.confirmHere p e).highway = s.highway := by
  have moved := moveHome_of_free (s := s) (e := e) (q := p) hl
  refine ⟨locatedHere_of_moved (u := s) hr hb moved rfl rfl rfl, ?_⟩
  rw [confirmHere_of_moved hr hb moved]
  simp

section
variable {o : Station} {q : Port} (hl : h.location = some (o, q)) (ho : o ≠ s.self)
include hl ho

/-- A record located at a peer moves here once the move is announced. -/
theorem confirmHere_of_third (room : QueueRoom 1 s) :
    LocatedHere s (s.confirmHere p e) p e h ∧ Queues s (s.confirmHere p e) [movedCell s e h s.self p] := by
  have moved := moveHome_of_third (s := s) (e := e) (q := p) hl ho room ho
  refine ⟨locatedHere_of_moved (u := s.offerSkip (movedCell s e h s.self p) .plain) hr hb moved (by simp) (by simp)
    (by simp), ?_⟩
  rw [confirmHere_of_moved hr hb moved]
  have := Queues.offerSkip (n := 0) room (movedCell s e h s.self p) .plain
  simpa [Queues] using this

/-- Refused, the announcement leaves the record, and the login ends with BUSY. -/
theorem confirmHere_of_full (full : s.station.state ≠ .active ∨ 20 ≤ s.highway.queue.length) :
    s.confirmHere p e = (s.offerSkip (movedCell s e h s.self p) .plain).leaveConfirming p .busy :=
  confirmHere_of_refused hr hb (moveHome_of_full hl ho full)

end
end

@[simp] theorem leaveConfirming_homes (p : Port) (x : LoginResult) (s : State) :
    (s.leaveConfirming p x).adm.homes = s.adm.homes := (DropFrame.leaveConfirming p x s).homes
@[simp] theorem leaveConfirming_highway (p : Port) (x : LoginResult) (s : State) :
    (s.leaveConfirming p x).highway = s.highway := by simp [leaveConfirming]

/-! ### What an answer does to the cache (R26) -/

section
variable (source : Station) (e : Ext) (st : TellStatus) (loc : Option (Station × Port)) (x : Epoch) (fills : Bool)
  (s : State)

/-- An answer changes the cache and nothing else before it reaches its entry or query. -/
theorem cacheTell_eq : s.cacheTell source e st loc x fills =
    s.setCache (s.cacheTell source e st loc x fills).adm.cache := by
  unfold cacheTell
  split
  · split
    · split <;> rfl
    all_goals rfl
  · rfl

variable {source e st loc x fills s}

/-- The first place of the cache is filled from the number's home with a reachable location. -/
theorem cacheTell_of_located {l : Station} {q : Port} (hh : s.homeOf e = some source) (hs : source ≠ s.self)
    (hl : s.reachable l = true) :
    (s.cacheTell source e .admitted (some (l, q)) x true).adm.cache.head? = some { ext := e, station := l, epoch := x } := by
  simp [cacheTell, hh, hs, hl, cacheWith]

/-- Any other answer of the number's home empties the cache of the number. -/
theorem cacheTell_of_refusal (hh : s.homeOf e = some source) (hs : source ≠ s.self) (hst : st ≠ .admitted) :
    s.cacheTell source e st loc x fills = s.cacheRemove e := by
  cases st
  case admitted => exact absurd rfl hst
  all_goals simp [cacheTell, hh, hs]

end

/-! ### The rows of R13 -/

section
variable {s : State} {c : Cell} {e : Ext} {r : Rights} {x : Epoch} {p : Port}

theorem moveAnswer_of_notIn (q : Option Port) : s.moveAnswer c e .notIn r x q = s := by
  unfold moveAnswer
  cases q <;> cases c.renew <;> rfl

theorem moveAnswer_of_orphan {st : TellStatus} (h : st ≠ .admitted) : s.moveAnswer c e st r x none = s := by
  unfold moveAnswer
  cases st
  case admitted => exact absurd rfl h
  all_goals cases c.renew <;> rfl

theorem moveAnswer_of_admittedOrphan : s.moveAnswer c e .admitted r x none =
    s.offerSkip (cellFrom s c.source Tag.absent Tag.absent (.admitLeave e x)) .plain := by
  unfold moveAnswer
  cases c.renew <;> rfl

theorem moveAnswer_confirming (hc : c.renew = false) :
    (s.homedHere e = true → s.moveAnswer c e .admitted r x (some p) = s.confirmHere p e) ∧
    (s.homedHere e = false → s.moveAnswer c e .admitted r x (some p) = s.admits p e r x) ∧
    s.moveAnswer c e .barred r x (some p) = s.leaveConfirming p .barred ∧
    s.moveAnswer c e .notHome r x (some p) = s.leaveConfirming p .noHome := by
  simp only [moveAnswer, hc]
  exact ⟨fun h => if_pos h, fun h => if_neg (by simp [h]), trivial, trivial⟩

theorem moveAnswer_renewing (hc : c.renew = true) :
    s.moveAnswer c e .admitted r x (some p) =
      s.setEntry p (some { body := .admitted e r x .none, timer := none }) ∧
    s.moveAnswer c e .barred r x (some p) = s.dropLogin p .barring ∧
    s.moveAnswer c e .notHome r x (some p) = s.dropLogin p .homeLost := by
  simp only [moveAnswer, hc]
  exact ⟨trivial, trivial, trivial⟩

end

end State

end Sys2Proof.Machine
end

