-- ==== Sys2Proof/Proofs/QueryAnswers.lean ====
section
/-! PROOF. A query that is answered: the ROUTING waiter claims a path to the number, or is cleared (R26, R29, R51, R52). -/

namespace Sys2Proof.Machine

open Sys2Proof

/-! ### What routing a caller leaves of the Admission Unit -/

/-- No login and no cache entry changes, no query but for its waiters, and nobody joins the query wait list. -/
structure Routed (s t : State) : Prop where
  logins : t.adm.logins = s.adm.logins
  cache : t.adm.cache = s.adm.cache
  queries : t.adm.queries.map QueryPlace.bare = s.adm.queries.map QueryPlace.bare
  waitList : t.calls.waitList.Sublist s.calls.waitList

namespace Routed

theorem refl (s : State) : Routed s s := ⟨rfl, rfl, rfl, .refl _⟩

theorem trans {s t u : State} (a : Routed s t) (b : Routed t u) : Routed s u :=
  ⟨b.logins.trans a.logins, b.cache.trans a.cache, b.queries.trans a.queries, b.waitList.trans a.waitList⟩

theorem of_clearFrame {s t : State} (h : ClearFrame s t) : Routed s t :=
  ⟨h.logins, h.cache, h.queries, h.waitList⟩

theorem of_eq {s t : State} (ha : t.adm = s.adm) (hw : t.calls.waitList = s.calls.waitList) : Routed s t :=
  ⟨by rw [ha], by rw [ha], by rw [ha], by rw [hw]⟩

theorem foldl {α : Type} {f : State → α → State} (h : ∀ s x, Routed s (f s x)) (xs : List α) (s : State) :
    Routed s (xs.foldl f s) := by
  induction xs generalizing s with
  | nil => exact refl s
  | cons x xs ih => exact (h s x).trans (ih _)

theorem query_none {s t : State} (h : Routed s t) {i : QueryId} (hi : (s.adm.queries.get i).query = none) :
    t.adm.queries.get i = s.adm.queries.get i :=
  QueryPlace.eq_of_bare (queries_bare_get h.queries i) hi

end Routed

namespace State

/-! ### The lowest FREE lane and the first claimable slot (R91, R92, R110) -/

theorem firstFreeTalk_of_lowest {s : State} {l : TalkId} (h : LowestFreeTalk s l) : s.firstFreeTalk = some l := by
  rw [firstFreeTalk, ← Fin.find?_eq_find?_finRange, Fin.find?_eq_some_iff]
  exact ⟨by simp [h.1], fun j hj => by simpa [Option.isSome_iff_ne_none] using h.2 j hj⟩

theorem mem_slotsFrom (st : Station) (x : Slot) : x ∈ slotsFrom st := by
  have hx := x.isLt
  refine List.mem_map.2 ⟨(x.val + 256 - 16 * st.val) % 256, List.mem_range.2 (Nat.mod_lt _ (by omega)), ?_⟩
  apply Fin.ext
  simp only [Fin.ofNat]
  omega

/-- An attempt finds a slot where one may be named. -/
theorem selectSlot_of_claimable {s : State} {z : Slot} (h : Claimable s z) : ∃ x, s.selectSlot = some x := by
  cases hs : s.selectSlot with
  | some x => exact ⟨x, rfl⟩
  | none =>
    have no := List.find?_eq_none.1 hs z (mem_slotsFrom _ z)
    have free : s.holder z = none := h.1
    simp only [free, Option.isNone_none, Bool.true_and, Bool.not_eq_true', Bool.not_eq_false,
      List.any_eq_true, Claim.names, Bool.or_eq_true, decide_eq_true_eq] at no
    obtain ⟨c, hc, hn⟩ := no
    exact absurd hn (not_or.2 (h.2 c hc))

/-! ### A talk lane opens (R110) -/

theorem requestFirstTalkKey_frame (l : TalkId) (s : State) :
    (s.requestFirstTalkKey l).adm = s.adm ∧ (s.requestFirstTalkKey l).calls = s.calls := by
  unfold requestFirstTalkKey
  split
  · split
    · rename_i p _
      rcases mixRequest_cases (.talk l (s.talkOpening l)) s.secret _ p 0 s with ⟨-, h⟩ | ⟨-, h⟩ <;> rw [h] <;> simp
    · exact ⟨rfl, rfl⟩
  · exact ⟨rfl, rfl⟩

theorem addClaim_adm (e : Claim) (s : State) : (s.addClaim e).adm = s.adm := by
  simp [addClaim, offerClaim]

theorem openTalk_routed (r : RecordId) (n : Option Nonce) (s : State) : Routed s (s.openTalk r n).1 := by
  unfold openTalk
  split
  · exact .refl s
  · rename_i l _
    dsimp only
    set u := ((s.drawNonce.1.setTalkPlace l { opening := (s.talkPlace l).opening + 1, lane := some {
      state := .claiming, owner := r, ownerTag := s.callTag r, ownNonce := s.drawNonce.2, partner := n } }).modCall r
        fun k => { k with talkLane := some l }) with hu
    have first : Routed s u := .trans (t := s.drawNonce.1.setTalkPlace l _) (.of_eq rfl rfl)
      (.of_clearFrame (.modCall r _ _ (fun _ => rfl) fun _ => rfl))
    unfold firstClaim
    cases u.selectSlot with
    | none => exact first
    | some x =>
      obtain ⟨ha, hc⟩ := requestFirstTalkKey_frame l (u.addClaim { kind := .claim, slot := x, lane := some l })
      refine first.trans (.of_eq (ha.trans (addClaim_adm _ _)) ?_)
      exact (congrArg (·.waitList) (hc.trans (addClaim_calls _ _)))

/-- With a FREE lane, a claimable slot and room, a lane without a partner nonce opens and its claim is queued. -/
theorem openTalk_of_free {s : State} {r : RecordId} {l : TalkId} (hl : LowestFreeTalk s l) (hz : ∃ z, Claimable s z)
    (room : QueueRoom 1 s) : (s.openTalk r none).2 = true ∧
    (s.openTalk r none).1.call? r = (s.call? r).map (fun k => { k with talkLane := some l }) ∧
    ∃ x, Claimable s x ∧ Queues s (s.openTalk r none).1 [broadcast s (.slot (.claim x))] := by
  obtain ⟨z, hz⟩ := hz
  have free := firstFreeTalk_of_lowest hl
  set u := ((s.drawNonce.1.setTalkPlace l { opening := (s.talkPlace l).opening + 1, lane := some {
    state := .claiming, owner := r, ownerTag := s.callTag r, ownNonce := s.drawNonce.2, partner := none } }).modCall r
      fun k => { k with talkLane := some l }) with hu
  have slots : u.slots = s.slots := by simp [hu, drawNonce_eq]
  have station : u.station = s.station := by simp [hu, drawNonce_eq]
  have queue : u.highway.queue = s.highway.queue := by simp [hu, drawNonce_eq]
  have claimable : ∀ x, Claimable u x ↔ Claimable s x := fun x => by simp [Claimable, slots]
  obtain ⟨x, hx⟩ := selectSlot_of_claimable ((claimable z).2 hz)
  set v := u.addClaim { kind := .claim, slot := x, lane := some l } with hv
  have lane : v.talk? l = some {
      state := .claiming, owner := r, ownerTag := s.callTag r, ownNonce := s.drawNonce.2, partner := none } := by
    have scr : v.scr = u.scr := by simp [hv, addClaim, offerClaim]
    simp only [talk?, talkPlace, scr]
    simp [hu, setTalkPlace]
  have key : v.requestFirstTalkKey l = v := by simp [requestFirstTalkKey, lane]
  have run : s.openTalk r none = (v, true) := by
    simp only [openTalk, free, ← hu, firstClaim, hx, ← hv, if_true, key]
  rw [run]
  refine ⟨rfl, ?_, x, (claimable x).1 (selectSlot_claimable hx), ?_⟩
  · rw [call_of_calls (addClaim_calls _ _), hu, call_modCall_same]
    rfl
  · have same : Queues s u [] := Queues.of_eq queue
    have offered := Queues.offerSkip (n := 0) (same.room station room) (u.cellToAll (.slot (.claim x)))
      (.slotCell (.claim x))
    have cell : u.cellToAll (.slot (.claim x)) = broadcast s (.slot (.claim x)) := by
      simp [cellToAll, broadcast, self_of_station station]
    rw [cell] at offered
    refine same.trans ?_
    rw [Queues, hv]
    simpa [addClaim, offerClaim, Claim.cell, Queues, offerSkip, cell] using offered

/-! ### A result reaches a record (R51) -/

theorem setCallState_frame (r : RecordId) (st : CallState) (s : State) : Routed s (s.setCallState r st) := by
  have first : Routed s (s.modCall r fun k => { k with state := st }) :=
    .of_clearFrame (.modCall r (fun k => { k with state := st }) s (fun _ => rfl) fun _ => rfl)
  unfold setCallState
  dsimp only
  split
  · split
    · exact first.trans (.of_eq (by simp) (by simp))
    · exact first
  · exact first

/-- The offer of a call and the OFFERING state, or the caller that clears where its cell was refused. -/
theorem offered_routed (r : RecordId) {s : State} {o : State × Bool} (h : Routed s o.1) :
    Routed s (if o.2 then (o.1.modCall r fun k => { k with timer := some 250 }).setCallState r .offering
      else o.1.clearNoCell r .congestion) := by
  split
  · have timed := ClearFrame.modCall r (fun k => { k with timer := some 250 }) o.1 (fun _ => rfl) fun _ => rfl
    exact (h.trans (.of_clearFrame timed)).trans (setCallState_frame _ _ _)
  · have cleared := ClearFrame.clearQuiet r .congestion (Cause.tone .congestion) o.1
    exact h.trans (.of_clearFrame cleared)

theorem issueOffer_routed (r : RecordId) (s : State) : Routed s (s.issueOffer r) := by
  unfold issueOffer
  split
  · exact .refl s
  · split
    · split
      · exact offered_routed r (.of_clearFrame (.offer _ _ s))
      all_goals exact .refl s
    all_goals exact .refl s

theorem claimPath_routed (r : RecordId) (s : State) : Routed s (s.claimPath r) := by
  unfold claimPath
  dsimp only
  split
  · exact openTalk_routed r none s
  · exact (openTalk_routed r none s).trans (.of_clearFrame (.clearRecord r _ _))

/-- The record of a located number (R51). -/
def locate (r : RecordId) (far : Station) (ep : Option Epoch) (s : State) : State :=
  s.modCall r fun k => { k with farStation := some far, calledEpoch := ep, farTag := Tag.absent }

theorem locate_routed (r : RecordId) (far : Station) (ep : Option Epoch) (s : State) :
    Routed s (s.locate r far ep) := by
  unfold locate modCall
  cases s.call? r <;> exact .of_eq rfl rfl

theorem routeTo_routed (r : RecordId) (far : Station) (ep : Option Epoch) (s : State) :
    Routed s (s.routeTo r far ep) := by
  have first := locate_routed r far ep s
  unfold routeTo
  dsimp only
  split
  · exact first.trans (issueOffer_routed r _)
  · exact first.trans (claimPath_routed r _)

theorem giveResult_routed (r : RecordId) (x : LookupResult) (s : State) : Routed s (s.giveResult r x) := by
  cases hx : x.isRefusal with
  | true => exact .of_clearFrame (.giveResult hx r s)
  | false =>
    cases x with
    | located st ep =>
      unfold giveResult
      split
      · exact .refl s
      · split
        · exact routeTo_routed r st (some ep) s
        · exact .refl s
    | unreachable => cases hx
    | congestion => cases hx
    | homeAbsent => cases hx
    | noNumber => cases hx

/-- Whatever a query is answered, its place is empty and no login changes, with nobody on the wait list. -/
theorem settleQuery_routed {s : State} {i : QueryId} {y : Query} (x : LookupResult)
    (hq : (s.adm.queries.get i).query = some y) (hw : s.calls.waitList = []) :
    s.settleQuery i x = (s.endQuery i).giveAll y.waiters x ∧
    (s.settleQuery i x).adm.queries.get i = { incarnation := (s.adm.queries.get i).incarnation } ∧
    (s.settleQuery i x).adm.logins = s.adm.logins := by
  have routed : Routed (s.endQuery i) ((s.endQuery i).giveAll y.waiters x) :=
    .foldl (fun s r => giveResult_routed r x s) _ _
  have settle : s.settleQuery i x = (s.endQuery i).giveAll y.waiters x := by
    have nil : ((s.endQuery i).giveAll y.waiters x).calls.waitList = [] :=
      List.sublist_nil.1 (by simpa [hw] using routed.waitList)
    rw [← drain_of_nil nil]
    simp [settleQuery, hq, giveAll]
  rw [settle]
  exact ⟨rfl, by rw [routed.query_none (by simp), query_endQuery_same], routed.logins⟩

/-- A plain ROUTING waiter that is located has its far station and epoch, and a talk lane that claims a slot. -/
theorem giveResult_of_located {s : State} {r : RecordId} {k : Call} {far : Station} {ep : Epoch} {l : TalkId}
    (hk : s.call? r = some k) (hs : k.state = .routing) (ht : k.talkLane = none) (hl : LowestFreeTalk s l)
    (hz : ∃ z, Claimable s z) (room : QueueRoom 1 s) :
    (s.giveResult r (.located far ep)).call? r = some { k with
      farStation := some far, calledEpoch := some ep, farTag := Tag.absent, talkLane := some l } ∧
    ∃ x, Claimable s x ∧ Queues s (s.giveResult r (.located far ep)) [broadcast s (.slot (.claim x))] := by
  have located : (s.locate r far (some ep)).call? r = some { k with
      farStation := some far, calledEpoch := some ep, farTag := Tag.absent } := by
    simp [locate, call_modCall_same, hk]
  have hl' : LowestFreeTalk (s.locate r far (some ep)) l := by
    simpa [LowestFreeTalk, talk?, talkPlace, locate] using hl
  have hz' : ∃ z, Claimable (s.locate r far (some ep)) z := by simpa [Claimable, locate] using hz
  have room' : QueueRoom 1 (s.locate r far (some ep)) := ⟨by simpa [locate] using room.1, by simpa [locate] using room.2⟩
  obtain ⟨ok, call, x, hx, queue⟩ := openTalk_of_free (r := r) hl' hz' room'
  have run : s.giveResult r (.located far ep) = ((s.locate r far (some ep)).openTalk r none).1 := by
    have bind : ((s.locate r far (some ep)).call? r).bind (·.talkLane) = none := by simp [located, ht]
    simp only [giveResult, hk, hs, if_true, routeTo]
    rw [← locate, bind]
    simp only [claimPath, ok, if_true]
  rw [run]
  refine ⟨by rw [call, located]; rfl, x, by simpa [Claimable, locate] using hx, ?_⟩
  have self : (s.locate r far (some ep)).self = s.self := self_of_station (by simp [locate])
  have cell : broadcast (s.locate r far (some ep)) (.slot (.claim x)) = broadcast s (.slot (.claim x)) := by
    rw [broadcast, self, broadcast]
  rw [cell] at queue
  simpa [Queues, locate] using queue

end State

end Sys2Proof.Machine
end

