-- ==== Sys2Proof/Proofs/AdmitTell.lean ====
section
/-! PROOF. ADMIT-TELL settles the moves, renewals and queries that it answers (R13, R26, R29). -/

namespace Sys2Proof.Machine

open Sys2Proof

namespace State

section
variable {x : Stored} {e : Ext} {st : TellStatus} {loc : Option (Station × Port)} {r : Rights} {ep : Epoch}
  (hb : x.cell.body = .admitTell e st loc r ep)
include hb

/-- A move answer reaches the entry that its receiver tag names, with the cache changed at most. -/
theorem actAdmitTell_of_move (s : State) (hm : x.cell.move = true) : ∃ c, s.actAdmitTell x =
    (s.setCache c).moveAnswer x.cell e st r ep (s.movedEntry x.cell.receiver e x.cell.renew) := by
  refine ⟨(s.cacheTell x.cell.source e st loc ep
    (s.movedEntry x.cell.receiver e x.cell.renew).isSome).adm.cache, ?_⟩
  rw [actAdmitTell, hb]
  simp only [hm, if_true]
  rw [← cacheTell_eq]

/-- A query answer ends the query of its extension that its receiver tag names. -/
theorem actAdmitTell_of_query {s : State} {i : QueryId} {y : Query} (hm : x.cell.move = false)
    (hr : x.cell.receiver = s.queryTag i) (hq : (s.adm.queries.get i).query = some y) (he : y.ext = e) :
    s.actAdmitTell x = (s.cacheTell x.cell.source e st loc ep true).settleQuery i
      (s.tellResult x.cell.source e st loc ep) := by
  have named (c : List CacheEntry) : (s.setCache c).queryOf (s.queryTag i) = some (i, y) := by
    have place : (s.setCache c).adm.queries.get i = s.adm.queries.get i := rfl
    simp [queryOf, queryTag, indexOf_byteOf, place, hq]
  rw [actAdmitTell, hb]
  simp only [hm, Bool.false_eq_true, if_false, hr]
  rw [cacheTell_eq, named]
  exact if_pos he

end

section
variable {s : State} {source : Station} {e : Ext} {st : TellStatus} {loc : Option (Station × Port)} {ep : Epoch}

/-- The waiters are told the location where the number's home locates it at a station that can be reached. -/
theorem tellResult_of_located {l : Station} {q : Port} (hh : s.homeOf e = some source) (hl : s.reachable l = true) :
    s.tellResult source e .admitted (some (l, q)) ep = .located l ep := by
  simp [tellResult, hh, hl]

/-- Any other answer is UNREACHABLE. -/
theorem tellResult_of_other (h : st ≠ .admitted ∨ s.homeOf e ≠ some source ∨
    ∃ l q, loc = some (l, q) ∧ s.reachable l = false) : s.tellResult source e st loc ep = .unreachable := by
  cases st <;> simp only [tellResult]
  cases loc with
  | none => rfl
  | some a =>
    refine if_neg fun ⟨home, reach⟩ => ?_
    obtain hst | hhome | ⟨l, q, hl, hr⟩ := h
    · exact hst rfl
    · exact hhome home
    · cases hl
      rw [hr] at reach
      cases reach

theorem reachable_eq_true {l : Station} :
    s.reachable l = true ↔ l = s.self ∨ (s.highway.presence.get l).state = .present := by simp [reachable]

end

end State

section
variable {s : State} {x : Stored} {e : Ext} {st : TellStatus} {loc : Option (Station × Port)} {r : Rights} {ep : Epoch}
  (hx : s.nextCell .admitC = some x) (hb : x.cell.body = .admitTell e st loc r ep)
include hx hb

theorem completes_admitTell {P : State → Prop} (h : P ((taken s .admitC x).actAdmitTell x)) :
    Completes .admitTell s P :=
  completes_of_consume rfl hx (by simp [hb, Body.kind]) h

/-- A move answer runs the rows of R13 at the entry found, in a state that differs from the old one by its cache. -/
theorem completes_move {P : State → Prop} (hm : x.cell.move = true) {found : Option Port}
    (hf : s.movedEntry x.cell.receiver e x.cell.renew = found)
    (h : ∀ c, P (((taken s .admitC x).setCache c).moveAnswer x.cell e st r ep found)) :
    Completes .admitTell s P := by
  obtain ⟨c, run⟩ := State.actAdmitTell_of_move hb (taken s .admitC x) hm
  refine completes_admitTell hx hb ?_
  rw [run]
  exact hf ▸ h c

end

/-- Settles O23: each answer finds the entry or the query that its receiver tag names, and nothing else. -/
theorem admitTellSettlesMovesAndQueries : Obligations.AdmitTellSettlesMovesAndQueries := by
  intro s x e st loc r ep hx hb
  refine ⟨fun p hm hn hr he up => ?_, fun p r' x' hm hn hr he up => ?_, fun hm orphan => ?_,
    fun i y hm hr hq hy hw => ?_⟩
  · have found : s.movedEntry x.cell.receiver e x.cell.renew = some p := by
      rw [hr, hn, State.movedEntry_of_confirming he]
    have run {P : State → Prop} (h : ∀ c, P (((taken s .admitC x).setCache c).moveAnswer x.cell e st r ep (some p))) :
        Completes .admitTell s P := completes_move hx hb hm found h
    refine ⟨fun hst away => run fun c => ?_, fun h hst here hh => ⟨fun barred => run fun c => ?_,
      fun open_ hl => run fun c => ?_, fun o q open_ hl ho => ⟨fun room => run fun c => ?_, fun full => run fun c => ?_⟩⟩,
      fun hst => run fun c => ?_, fun hst => run fun c => ?_, fun hst => run fun c => ?_⟩
    all_goals
      subst hst
      set u := (taken s .admitC x).setCache c with hu
      obtain ⟨own, peer, isBarred, notHome⟩ := State.moveAnswer_confirming (s := u) (e := e) (r := r) (x := ep) (p := p) hn
    · rw [peer away]
      exact ⟨by rw [State.login_admits], State.admits_tells _ _ _ up⟩
    · rw [own here, State.confirmHere_of_barred (s := u) hh barred]
      exact ⟨by rw [State.login_leaveConfirming], State.leaveConfirming_tells _ up, State.leaveConfirming_homes _ _ _⟩
    · obtain ⟨located, same⟩ := State.confirmHere_of_free (s := u) (p := p) hh open_ hl
      rw [own here]
      exact ⟨⟨by rw [located.entry], located.told up, located.record⟩, by rw [same]; rfl⟩
    · obtain ⟨located, cells⟩ := State.confirmHere_of_third (s := u) (p := p) hh open_ hl ho room
      rw [own here]
      exact ⟨⟨by rw [located.entry], located.told up, located.record⟩, cells⟩
    · rw [own here, State.confirmHere_of_full (s := u) hh open_ hl ho (.inr full)]
      obtain ⟨adm, queue⟩ := State.offerSkip_of_full (s := u) (c := u.movedCell e h u.self p) .plain rfl (.inr full)
      refine ⟨by rw [State.login_leaveConfirming], State.leaveConfirming_tells _ ?_, ?_, ?_⟩
      · rw [State.port_of_ports (State.offerSkip_ports ..)]
        exact up
      · rw [State.leaveConfirming_homes, adm]
        rfl
      · rw [State.leaveConfirming_highway, queue]
        rfl
    · rw [isBarred]
      exact ⟨by rw [State.login_leaveConfirming], State.leaveConfirming_tells _ up⟩
    · rw [notHome]
      exact ⟨by rw [State.login_leaveConfirming], State.leaveConfirming_tells _ up⟩
    · rw [State.moveAnswer_of_notIn]
      rfl
  · have found : s.movedEntry x.cell.receiver e x.cell.renew = some p := by
      rw [hr, hn, State.movedEntry_of_sent he]
    have run {P : State → Prop} (h : ∀ c, P (((taken s .admitC x).setCache c).moveAnswer x.cell e st r ep (some p))) :
        Completes .admitTell s P := completes_move hx hb hm found h
    refine ⟨fun hst => run fun c => ?_, fun hst => run fun c => ?_, fun hst => run fun c => ?_, fun hst => run fun c => ?_⟩
    all_goals
      subst hst
      set u := (taken s .admitC x).setCache c with hu
      obtain ⟨admitted, isBarred, notHome⟩ := State.moveAnswer_renewing (s := u) (e := e) (r := r) (x := ep) (p := p) hn
    · rw [admitted]
      exact ⟨by simp, rfl, rfl⟩
    · rw [isBarred]
      obtain ⟨cleared, heard⟩ := State.dropLogin_cleared (s := u) .barring he
      exact ⟨by rw [State.login_dropLogin_of_admitted (s := u) he], State.dropLogin_tells (s := u) he rfl up,
        cleared.of_left rfl rfl rfl, heard.of_left rfl rfl⟩
    · rw [notHome]
      obtain ⟨cleared, heard⟩ := State.dropLogin_cleared (s := u) .homeLost he
      exact ⟨by rw [State.login_dropLogin_of_admitted (s := u) he], State.dropLogin_tells (s := u) he rfl up,
        cleared.of_left rfl rfl rfl, heard.of_left rfl rfl⟩
    · rw [State.moveAnswer_of_notIn]
      rfl
  · have found := State.movedEntry_of_orphan orphan
    refine ⟨fun hst room => completes_move hx hb hm found fun c => ?_, fun hst => completes_move hx hb hm found fun c => ?_⟩
    · subst hst
      rw [State.moveAnswer_of_admittedOrphan]
      exact ⟨by rw [State.offerSkip_adm]; rfl, by rw [State.offerSkip_calls]; rfl,
        Queues.offerSkip (n := 0) (s := (taken s .admitC x).setCache c) room _ .plain⟩
    · rw [State.moveAnswer_of_orphan hst]
      exact ⟨rfl, rfl, rfl⟩
  · set v := taken s .admitC x with hv
    have act := State.actAdmitTell_of_query hb (s := v) hm hr hq hy
    set w := v.cacheTell x.cell.source e st loc ep true with hw'
    have cached : w = v.setCache w.adm.cache := State.cacheTell_eq ..
    have hq' : (w.adm.queries.get i).query = some y := by rw [cached]; exact hq
    have hwait : w.calls.waitList = [] := by rw [cached]; exact hw
    have inc : (w.adm.queries.get i).incarnation = (s.adm.queries.get i).incarnation := by rw [cached]; rfl
    refine ⟨completes_admitTell hx hb ?_, fun far q wt k l hst hl hh hne reach hy' hk hs ht free hz room =>
      completes_admitTell hx hb ?_, fun other => completes_admitTell hx hb ?_⟩
    all_goals rw [act]
    · obtain ⟨-, place, logins⟩ := State.settleQuery_routed (v.tellResult x.cell.source e st loc ep) hq' hwait
      refine ⟨by rw [place, inc], ?_⟩
      rw [logins, cached]
      rfl
    · subst hst hl
      have far' : v.reachable far = true := State.reachable_eq_true.2 reach
      rw [State.tellResult_of_located (s := v) hh far']
      obtain ⟨run, -, -⟩ := State.settleQuery_routed (.located far ep) hq' hwait
      rw [run, hy']
      have head : w.adm.cache.head? = some { ext := e, station := far, epoch := ep } :=
        State.cacheTell_of_located (s := v) hh hne far'
      obtain ⟨c, hc⟩ : ∃ c, w = v.setCache c := ⟨_, cached⟩
      have kept := (State.giveResult_routed wt (.located far ep) (w.endQuery i)).cache
      rw [hc] at kept head ⊢
      have located := State.giveResult_of_located (s := (v.setCache c).endQuery i) (far := far) (ep := ep) hk hs ht free
        hz room
      exact ⟨(congrArg List.head? kept).trans head, located⟩
    · have ended := State.settleQuery_ended (x := .unreachable) rfl hq' hwait
      rw [State.tellResult_of_other (s := v) ?_]
      · refine ⟨fun a k ha hk => ended.waiters a k ha ?_, fun hst hh hne z hz => ?_⟩
        · rw [cached]
          exact hk
        · rw [ended.frame.cache] at hz
          have refused : w = v.cacheRemove e := State.cacheTell_of_refusal (s := v) hh hne hst
          have hz' : z ∈ (v.cacheRemove e).adm.cache := refused ▸ hz
          exact (State.mem_cache_cacheRemove.1 hz').2
      · refine other.imp_right (.imp_right fun ⟨far, q, hl, hself, absent⟩ => ⟨far, q, hl, ?_⟩)
        exact Bool.eq_false_iff.2 fun reach => (State.reachable_eq_true.1 reach).elim hself absent

end Sys2Proof.Machine
end

