-- ==== Sys2Proof/Proofs/ClearingCells.lean ====
section
/-! PROOF. The cells of a clearing: SLOT-FREE of the talk lane that closes, and the CALL-CLEAR that follows it (R62, R95). -/

namespace Sys2Proof.Machine.State

open Sys2Proof

/-! ### Cells sent to all -/

theorem broadcast_of_station {s t : State} (h : t.station = s.station) (b : Body) : broadcast t b = broadcast s b := by
  rw [broadcast, self_of_station h, broadcast]

theorem Sends.queue_eq {s t : State} (h : Sends 0 s t) : t.highway.queue = s.highway.queue := by
  obtain ⟨-, new, hq, hl⟩ := h
  simpa [List.length_eq_zero_iff.1 (Nat.le_zero.1 hl)] using hq

theorem Sends.queues {s t : State} (h : Sends 0 s t) : Queues s t [] := Queues.of_eq h.queue_eq

/-- An entry joins the list with its cell queued. -/
theorem queues_addClaim {n : Nat} {s : State} (e : Claim) (room : QueueRoom (n + 1) s) :
    Queues s (s.addClaim e) [broadcast s (.slot e.cell)] := by
  have offered : Queues s _ [broadcast s (.slot e.cell)] :=
    Queues.offerSkip room (s.cellToAll (.slot e.cell)) (.slotCell e.cell)
  simpa [Queues, addClaim, offerClaim, offerSkip] using offered

/-! ### A talk lane closes (R95, R111) -/

theorem closeTalk_of_active {s : State} {l : TalkId} {t : TalkLane} {x : Slot} (hl : s.talk? l = some t)
    (hs : t.state = .active) (hx : t.slot = some x) :
    s.closeTalk l = (s.setTalkPlace l { s.talkPlace l with lane := none }).releaseSlot x := by
  simp [closeTalk, hl, hs, hx]

theorem talk_closeTalk_same (l : TalkId) (s : State) : (s.closeTalk l).talk? l = none := by
  unfold closeTalk
  cases h : s.talk? l with
  | none => exact h
  | some t =>
    have closed : (s.setTalkPlace l { s.talkPlace l with lane := none }).talk? l = none := by simp [talk?]
    dsimp only
    split
    · exact ((ClearFrame.addClaim _ _).talk l).elim (·.trans closed) id
    · exact closed
    · exact closed
    · exact closed

/-- An ACTIVE lane that closes sends SLOT-FREE of its slot. -/
theorem queues_closeTalk {n : Nat} {s : State} {l : TalkId} {t : TalkLane} {x : Slot} (hl : s.talk? l = some t)
    (hs : t.state = .active) (hx : t.slot = some x) (room : QueueRoom (n + 1) s) :
    Queues s (s.closeTalk l) [broadcast s (.slot (.free x))] := by
  rw [closeTalk_of_active hl hs hx]
  exact queues_addClaim (s := (s.setTalkPlace l { s.talkPlace l with lane := none }).setSlot x none)
    { kind := .release, slot := x } room

/-! ### A record ends with its lane (R62) -/

/-- Before its lane closes the ending of a record changes no lane and queues nothing, and nothing is queued after it. -/
theorem endRecord_around_closeTalk {s : State} {r : RecordId} {k : Call} {l : TalkId} (c : Cause) (tone : Option Tone)
    (hk : s.call? r = some k) (hl : k.talkLane = some l) : ∃ u, u.scr = s.scr ∧ Sends 0 s u ∧
    ClearFrame (u.closeTalk l) (s.endRecord r c tone) ∧ Sends 0 (u.closeTalk l) (s.endRecord r c tone) := by
  let s1 := s.modCall r fun k => { k with cause := c }
  let s2 := if k.isFront && k.ringing then s1.setRing k.port false else s1
  let u := match tone with
    | some x => if k.isFront && decide ((s.callPort k.port).hookView = Hook.off) then s2.setTone k.port x else s2
    | none => s2
  let v := ((u.closeTalk l).closeListens k.listenLanes).detach r
  let w := if k.state = .held then v.leaveStack k.port r else v
  have run : s.endRecord r c tone = w.modCall r fun k => { k with talkLane := none, listenLanes := [], timer := none } := by
    simp only [endRecord, hk, hl]
    rfl
  have ring : s2.scr = s.scr ∧ Sends 0 s s2 := by
    have first : Sends 0 s s1 := .of_eq (by simp [s1]) (by simp [s1])
    dsimp only [s2]
    split
    · refine ⟨?_, first.trans (setRing_calls _ _ _).2⟩
      rcases setRing_cases k.port false s1 with ⟨-, h⟩ | ⟨-, h⟩ <;> simp [h, s1]
    · exact ⟨by simp [s1], first⟩
  have heard : u.scr = s2.scr ∧ Sends 0 s2 u := by
    dsimp only [u]
    cases tone with
    | none => exact ⟨rfl, .refl _⟩
    | some x =>
      dsimp only
      split
      · exact ⟨setTone_scr _ _ _, (setTone_calls _ _ _).2.2⟩
      · exact ⟨rfl, .refl _⟩
  refine ⟨u, heard.1.trans ring.1, ring.2.trans heard.2, ?_⟩
  rw [run]
  have last : ClearFrame v w ∧ Sends 0 v w := by
    dsimp only [w]
    split
    · exact ⟨.leaveStack _ _ _, (leaveStack_spec _ _ _).2.1⟩
    · exact ⟨.refl _, .refl _⟩
  refine ⟨(((ClearFrame.closeListens _ _).trans (.detach r _)).trans last.1).trans
    (.modCall r _ w (fun _ => rfl) fun _ => rfl), ?_⟩
  have closed : Sends 0 (u.closeTalk l) v := (closeListens_spec k.listenLanes _).2.1.trans (n := 0) (.of_eq rfl rfl)
  exact (closed.trans last.2).trans (n := 0) (.of_eq (by simp) (by simp))

section
variable {s : State} {r : RecordId} {k : Call} {l : TalkId} (c : Cause) (tone : Option Tone)
  (hk : s.call? r = some k) (hl : k.talkLane = some l)
include hk hl

theorem talk_endRecord_own : (s.endRecord r c tone).talk? l = none := by
  obtain ⟨u, -, -, after, -⟩ := endRecord_around_closeTalk c tone hk hl
  exact (after.talk l).elim (·.trans (talk_closeTalk_same l u)) id

/-- The record's ACTIVE lane sends SLOT-FREE of its slot, and the ending sends nothing else. -/
theorem queues_endRecord {t : TalkLane} {x : Slot} {n : Nat} (ht : s.talk? l = some t) (hs : t.state = .active)
    (hx : t.slot = some x) (room : QueueRoom (n + 1) s) :
    Queues s (s.endRecord r c tone) [broadcast s (.slot (.free x))] := by
  obtain ⟨u, scr, before, -, after⟩ := endRecord_around_closeTalk c tone hk hl
  have lane : u.talk? l = some t := by simpa [talk?, talkPlace, scr] using ht
  have closed := queues_closeTalk (n := n) lane hs hx (before.room (by simpa using room))
  rw [broadcast_of_station before.1] at closed
  exact (before.queues.trans closed).trans after.queues

/-- A clearing without a cell of its own sends SLOT-FREE alone. -/
theorem queues_clearQuiet {t : TalkLane} {x : Slot} {n : Nat} (ht : s.talk? l = some t) (hs : t.state = .active)
    (hx : t.slot = some x) (room : QueueRoom (n + 1) s) :
    Queues s (s.clearQuiet r c tone) [broadcast s (.slot (.free x))] := by
  have ended := queues_endRecord c tone hk hl ht hs hx room
  have rest : (s.clearQuiet r c tone).highway = (s.endRecord r c tone).highway := by
    simp only [clearQuiet, freeRecord_highway, freeConfOf]
    split <;> simp
  simpa [Queues, rest] using ended

theorem talk_clearQuiet_own : (s.clearQuiet r c tone).talk? l = none :=
  (((ClearFrame.freeConfOf r _).trans (.freeRecord r _)).talk l).elim (·.trans (talk_endRecord_own c tone hk hl)) id

end

@[simp] theorem call_clearQuiet_same (r : RecordId) (c : Cause) (tone : Option Tone) (s : State) :
    (s.clearQuiet r c tone).call? r = none := by
  simp [clearQuiet]

/-! ### CALL-CLEAR to the far station (R62, R65) -/

theorem clearRecord_clearsTo {s : State} {r : RecordId} {k : Call} {far : Station} (c : Cause)
    (hk : s.call? r = some k) (hc : k.confRole ≠ .controller) (hm : k.farMayExist = true)
    (hf : k.farStation = some far) (room : QueueRoom 2 s) : ClearsTo s (s.clearRecord r c) r c far k.farTag := by
  obtain ⟨record, incarnation, -, sends, -, -⟩ := endRecord_spec r c c.tone s hk
  set u := s.endRecord r c c.tone with hu
  have open_ : k.isClearing = false := by
    cases hs : k.state <;> simp [Call.farMayExist, Call.isClearing, hs] at hm ⊢
  have run : s.clearRecord r c = u.offerCallClear r c far k.farTag := by
    simp [clearRecord, clearRecordTone, hk, open_, hc, hm, hf, hu]
  set cell := u.cellTo far (u.callTag r) k.farTag (.callClear c) with hcell
  obtain ⟨offered, -⟩ := QueueRoom.offer (n := 0) (sends.room room) cell (u.clearingName r)
  obtain ⟨-, waits, -, -, quiet, -⟩ := awaitClears_spec r 1 (u.enqueue ⟨cell, u.clearingName r⟩) record
  have own : s.clearRecord r c = (u.enqueue ⟨cell, u.clearingName r⟩).awaitClears r 1 := by
    rw [run]
    simp only [offerCallClear, ← hcell, offered, if_true]
  rw [own]
  refine ⟨⟨_, waits (by simp), rfl, rfl, rfl, rfl, rfl⟩, ?_⟩
  have same : cell = cellFrom s far (s.callTag r) k.farTag (.callClear c) := by
    rw [hcell, cellTo, cellFrom, self_of_station sends.1, callTag, callTag, incarnation]
  rw [quiet.queue_eq, ← same]
  simp

end Sys2Proof.Machine.State
end

