-- ==== Sys2Proof/Proofs/Conferences.lean ====
section
/-! PROOF. Members leave a conference, and those that stay hear of it (R82, R85, R87). -/

namespace Sys2Proof.Machine.State

open Sys2Proof

/-! ### A rekey (R118) -/

/-- What a rekey leaves as it was: it asks the mixer, whose refusal is counted, and notes so at the talk lane. -/
structure Rekeyed (s t : State) : Prop where
  station : t.station = s.station := by rfl
  clock : t.clock = s.clock := by rfl
  pending : t.pending = s.pending := by rfl
  slots : t.slots = s.slots := by rfl
  ports : t.ports = s.ports := by rfl
  adm : t.adm = s.adm := by rfl
  calls : t.calls = s.calls := by rfl
  listen : t.scr.listen = s.scr.listen := by rfl
  nonces : t.scr.noncesGiven = s.scr.noncesGiven := by rfl
  highway : t.highway = { s.highway with counters := t.highway.counters, fault := t.highway.fault } := by rfl

namespace Rekeyed

theorem refl (s : State) : Rekeyed s s := {}

theorem trans {s t u : State} (a : Rekeyed s t) (b : Rekeyed t u) : Rekeyed s u where
  station := b.station.trans a.station
  clock := b.clock.trans a.clock
  pending := b.pending.trans a.pending
  slots := b.slots.trans a.slots
  ports := b.ports.trans a.ports
  adm := b.adm.trans a.adm
  calls := b.calls.trans a.calls
  listen := b.listen.trans a.listen
  nonces := b.nonces.trans a.nonces
  highway := by rw [b.highway, a.highway]

theorem modTalk (l : TalkId) (f : TalkLane → TalkLane) (s : State) : Rekeyed s (s.modTalk l f) := by
  unfold State.modTalk
  cases s.talk? l with
  | none => exact refl s
  | some t => exact {}

theorem mixRequest (who : Requester) (key : Key) (a b : Nonce) (n : Nat) (s : State) :
    Rekeyed s (s.mixRequest who key a b n).1 := by
  rcases mixRequest_cases who key a b n s with ⟨-, h⟩ | ⟨-, h⟩ <;> rw [h] <;> exact {}

theorem rekeyTrigger (l : TalkId) (n : Option Nonce) (s : State) : Rekeyed s (s.rekeyTrigger l n) := by
  unfold State.rekeyTrigger
  cases s.talk? l with
  | none => exact refl s
  | some t =>
    dsimp only
    split
    · unfold startRekey
      cases s.talk? l with
      | none => exact refl s
      | some t => exact (mixRequest _ _ _ _ _ s).trans (modTalk _ _ _)
    · exact modTalk _ _ _

theorem rekeyRecord (r : RecordId) (n : Option Nonce) (s : State) : Rekeyed s (s.rekeyRecord r n) := by
  unfold State.rekeyRecord
  split
  · exact rekeyTrigger _ _ s
  · exact refl s

theorem queues {s t : State} (h : Rekeyed s t) : Queues s t [] := Queues.of_eq (by rw [h.highway])

end Rekeyed

/-! ### CONF-SET to the members (R82) -/

/-- The CONF-SET that tells a member of the places. -/
def confSetCell (s : State) (n : Nonce) (ps : List MemberPlace) (m : Member) : Cell :=
  cellFrom s m.station m.link m.tag (.confSet n ps)

/-- With room for all of them each member is sent its CONF-SET, in list order, and nothing else changes. -/
theorem offerConfSets_of_room (r : RecordId) (n : Nonce) {ms : List Member} {s : State}
    (room : QueueRoom ms.length s) : s.offerConfSets r n ms = ({ s with highway := { s.highway with
      queue := s.highway.queue ++ ms.map fun m => ⟨s.confSetCell n (s.confPlaces r ms) m, .plain⟩ } }, []) := by
  unfold offerConfSets
  dsimp only
  generalize s.confPlaces r ms = ps
  induction ms generalizing s with
  | nil => simp
  | cons m ms ih =>
    obtain ⟨offered, room'⟩ := QueueRoom.offer room (s.cellTo m.station m.link m.tag (.confSet n ps)) .plain
    rw [List.foldl_cons]
    simp only [offered, if_true]
    rw [ih room']
    simp [enqueue, confSetCell, cellFrom, cellTo, self]

/-! ### Members are removed (R85) -/

theorem closeListen_scr (l : ListenId) (s : State) :
    (s.closeListen l).scr.talk = s.scr.talk ∧ (s.closeListen l).scr.noncesGiven = s.scr.noncesGiven := by
  unfold closeListen
  cases s.listen? l with
  | none => exact ⟨rfl, rfl⟩
  | some t => simp [setListenPlace]

theorem closeListens_scr (ls : List ListenId) (s : State) :
    (s.closeListens ls).scr.talk = s.scr.talk ∧ (s.closeListens ls).scr.noncesGiven = s.scr.noncesGiven := by
  unfold closeListens
  induction ls generalizing s with
  | nil => exact ⟨rfl, rfl⟩
  | cons l ls ih => exact ⟨(ih _).1.trans (closeListen_scr l s).1, (ih _).2.trans (closeListen_scr l s).2⟩

/-- What the removal of members leaves: the entry holds the others, and the controller's lanes alone change. -/
structure MembersRemoved (s t : State) (e : ConfId) (c : Conf) (r : RecordId) (gone : List Member) : Prop where
  frame : ClearFrame (s.setConf e (some { c with members := c.members.filter fun m => !gone.contains m })) t
  confs : t.calls.confs = upd s.calls.confs e (some { c with members := c.members.filter fun m => !gone.contains m })
  quiet : Sends 0 s t
  kept : ∀ q, Keeps s t q
  talk : t.scr.talk = s.scr.talk
  nonces : t.scr.noncesGiven = s.scr.noncesGiven

theorem removeMembers_removed {s : State} {e : ConfId} {c : Conf} {r : RecordId} {k : Call} (gone : List Member)
    (hc : s.calls.confs.get e = some c) (hk : s.call? r = some k) :
    MembersRemoved s (s.removeMembers e r gone) e c r gone := by
  set u := s.setConf e (some { c with members := c.members.filter fun m => !gone.contains m }) with hu
  set ls := k.listenLanes.filter fun l => gone.any fun m => s.hears l m.place with hls
  have run : s.removeMembers e r gone = u.closeListens ls := by simp only [removeMembers, hc, hk, ← hu, ← hls]
  obtain ⟨kept, quiet, -, confs⟩ := closeListens_spec ls u
  obtain ⟨talk, nonces⟩ := closeListens_scr ls u
  rw [run]
  exact ⟨.closeListens ls u, confs, (Sends.of_eq rfl rfl).trans (n := 0) quiet,
    fun q => (Keeps.of_records rfl q : Keeps s u q).trans (kept q), talk, nonces⟩

/-- The controller is listed as before after an operation that keeps its record and the talk lanes. -/
theorem confPlaces_of_kept {s t : State} {r : RecordId} {k : Call} (hk : s.call? r = some k)
    (station : t.station = s.station) (kept : Keeps s t r) (talk : t.scr.talk = s.scr.talk) (ms : List Member) :
    t.confPlaces r ms = s.confPlaces r ms := by
  obtain ⟨incarnation, -, call⟩ := kept
  obtain ⟨tm, ls, -, hk'⟩ := call k hk
  simp only [confPlaces, controllerSlot, hk, hk', Option.bind_some, self_of_station station, callTag, incarnation,
    talk?, talkPlace, talk]

/-! ### A conference is reformed (R85, R87) -/

/-- What telling the members of a new nonce leaves. -/
structure ConfTold (s t : State) (r : RecordId) (ms : List Member) : Prop where
  calls : t.calls = s.calls
  adm : t.adm = s.adm
  ports : t.ports = s.ports
  slots : t.slots = s.slots
  station : t.station = s.station
  listen : t.scr.listen = s.scr.listen
  boards : t.highway.refusesHeard = s.highway.refusesHeard ∧ t.highway.presence = s.highway.presence
  told : ∃ n, t.scr.noncesGiven = n :: s.scr.noncesGiven ∧ Queues s t (ms.map (s.confSetCell n (s.confPlaces r ms)))

/-- The nonce, the cells and the rekey of a forming whose cells are all accepted. -/
theorem confTold_of_room (r : RecordId) {ms : List Member} {s : State} (room : QueueRoom ms.length s) :
    (s.drawNonce.1.offerConfSets r s.drawNonce.2 ms).2 = [] ∧
    ConfTold s ((s.drawNonce.1.offerConfSets r s.drawNonce.2 ms).1.rekeyRecord r (some s.drawNonce.2)) r ms := by
  rw [offerConfSets_of_room r s.drawNonce.2 (s := s.drawNonce.1) (ms := ms) room]
  refine ⟨rfl, ?_⟩
  dsimp only
  set u : State := { s.drawNonce.1 with highway := { s.drawNonce.1.highway with
    queue := s.drawNonce.1.highway.queue ++
      ms.map fun m => ⟨s.drawNonce.1.confSetCell s.drawNonce.2 (s.drawNonce.1.confPlaces r ms) m, .plain⟩ } } with hu
  have rekey := Rekeyed.rekeyRecord r (some s.drawNonce.2) u
  have cells : Queues s u (ms.map (s.confSetCell s.drawNonce.2 (s.confPlaces r ms))) := by
    simp only [Queues, hu, List.map_append, List.map_map]
    rfl
  refine ⟨rekey.calls, rekey.adm, rekey.ports, rekey.slots, rekey.station, rekey.listen, ?_,
    s.drawNonce.2, rekey.nonces, ?_⟩
  · rw [rekey.highway]
    exact ⟨rfl, rfl⟩
  · simpa using cells.trans rekey.queues

theorem reform_of_two (lost : Cause) (fuel : Nat) {e : ConfId} {r : RecordId} {s : State} {c : Conf} {a b : Member}
    (hc : s.calls.confs.get e = some c) (hm : c.members = [a, b]) (room : QueueRoom 2 s) :
    ConfTold s (s.reform lost (fuel + 1) e r) r [a, b] := by
  obtain ⟨none, told⟩ := confTold_of_room r (ms := [a, b]) room
  have run : s.reform lost (fuel + 1) e r =
      (s.drawNonce.1.offerConfSets r s.drawNonce.2 [a, b]).1.rekeyRecord r (some s.drawNonce.2) := by
    simp only [reform, hc, hm, none]
  rw [run]
  exact told

theorem confSetCell_of_station {s t : State} (h : t.station = s.station) (n : Nonce) (ps : List MemberPlace) :
    t.confSetCell n ps = s.confSetCell n ps := by
  funext m
  simp only [confSetCell, cellFrom, self_of_station h]

/-- What a conference of which two members stay leaves of the others, the queue and the nonces. -/
structure TwoStay (s t : State) (e : ConfId) (c : Conf) (a b : Member) : Prop where
  confs : t.calls.confs = upd s.calls.confs e (some { c with members := [a, b] })
  kept : ∀ q, Keeps s t q
  heard : t.highway.refusesHeard = s.highway.refusesHeard
  told : ∃ n, t.scr.noncesGiven = n :: s.scr.noncesGiven ∧
    Queues s t ([a, b].map (s.confSetCell n (s.confPlaces c.controller [a, b])))

/-- Two members that stay are sent CONF-SET of count 3 with a new nonce. -/
theorem membersLeave_two {s : State} {e : ConfId} {c : Conf} {k : Call} {gone : List Member} {a b : Member}
    (lost : Cause) (hc : s.calls.confs.get e = some c) (hk : s.call? c.controller = some k)
    (stay : (c.members.filter fun m => !gone.contains m) = [a, b]) (room : QueueRoom 2 s) :
    TwoStay s (s.membersLeave lost e c.controller gone) e c a b := by
  obtain ⟨frame, confs, quiet, kept, talk, nonces⟩ := removeMembers_removed gone hc hk
  set u := s.removeMembers e c.controller gone
  rw [stay] at confs frame
  have entry : u.calls.confs.get e = some { c with members := [a, b] } := by simp [confs]
  have told : ConfTold u (s.membersLeave lost e c.controller gone) c.controller [a, b] :=
    reform_of_two lost 3 entry rfl (quiet.room room)
  obtain ⟨n, given, cells⟩ := told.told
  refine ⟨by rw [told.calls, confs], fun q => (kept q).trans (.of_records (by rw [told.calls]) q),
    told.boards.1.trans (frame.refusesHeard.trans rfl), n, by rw [given, nonces], ?_⟩
  rw [confSetCell_of_station quiet.1, confPlaces_of_kept hk quiet.1 (kept _) talk] at cells
  exact quiet.queues.trans cells

end Sys2Proof.Machine.State
end

