-- ==== Sys2Proof/Proofs/Refusals.lean ====
section
/-! PROOF. A REFUSE reaches the owner of the kind refused (R11, R20, R29, R65, R85, R164). -/

namespace Sys2Proof.Machine

open Sys2Proof

/-- A pass over all indices that changes the state at one of them alone. -/
theorem foldl_finRange_of_one {σ : Type} {n : Nat} {f : σ → Fin n → σ} {i : Fin n} {s t : σ} (hi : f s i = t)
    (before : ∀ j, j ≠ i → f s j = s) (after : ∀ j, j ≠ i → f t j = t) : (List.finRange n).foldl f s = t := by
  have idle {u : σ} {xs : List (Fin n)} (h : ∀ j ∈ xs, f u j = u) : xs.foldl f u = u := by
    induction xs with
    | nil => rfl
    | cons x xs ih =>
      rw [List.foldl_cons, h x (List.mem_cons_self ..)]
      exact ih fun j hj => h j (List.mem_cons_of_mem _ hj)
  obtain ⟨xs, ys, split⟩ := List.append_of_mem (List.mem_finRange i)
  have nodup := split ▸ List.nodup_finRange n
  have apart := List.nodup_append.1 nodup
  have notLeft : ∀ j ∈ xs, j ≠ i := fun j hj => apart.2.2 j hj i (List.mem_cons_self ..)
  have notRight : ∀ j ∈ ys, j ≠ i := fun j hj e => (List.nodup_cons.1 apart.2.1).1 (e ▸ hj)
  rw [split, List.foldl_append, idle fun j hj => before j (notLeft j hj), List.foldl_cons, hi]
  exact idle fun j hj => after j (notRight j hj)

namespace State

/-! ### The oldest REFUSE of the frame (R164) -/

/-- The REFUSE that is handed on is gone from the list. -/
def refusePopped (rest : List Cell) (s : State) : State := { s with highway := { s.highway with refusesHeard := rest } }

section
variable {s : State} {c : Cell} {rest : List Cell} {kind : Byte} {tag : Tag} {cause : RefuseCause}
  (hr : s.highway.refusesHeard = c :: rest) (hb : c.body = .refuse kind tag cause)
include hr hb

theorem takeRefuse_of_admit (h : kind = 0x10 ∨ kind = 0x12) :
    s.takeRefuse = (s.refusePopped rest).admitRefused kind tag := by
  simp only [takeRefuse, hr, handRefuse, hb, h, if_true]
  rfl

theorem takeRefuse_of_call (h : kind = 0x20 ∨ kind = 0x21 ∨ kind = 0x22 ∨ kind = 0x25) :
    s.takeRefuse = (s.refusePopped rest).callRefused kind c.source tag := by
  have other : ¬ (kind = 0x10 ∨ kind = 0x12) := by
    rcases h with rfl | rfl | rfl | rfl <;> decide
  simp only [takeRefuse, hr, handRefuse, hb, other, h, if_true, if_false]
  rfl

theorem takeRefuse_of_other (h : kind ∉ ([0x10, 0x12, 0x20, 0x21, 0x22, 0x25] : List Byte)) :
    s.takeRefuse = s.refusePopped rest := by
  simp only [List.mem_cons, List.not_mem_nil, or_false, not_or] at h
  obtain ⟨h1, h2, h3, h4, h5, h6⟩ := h
  simp only [takeRefuse, hr, handRefuse, hb, h1, h2, h3, h4, h5, h6, or_self, if_false]
  rfl

end

/-! ### At the Admission Unit (R11, R20, R29) -/

section
variable {s : State} {p : Port} {tag : Tag} (ht : tag.index = byteOf p.val)
include ht

theorem admitRefused_move (hi : tag.incarnation = (s.login p).incarnation) :
    (∀ e, s.loginBody p = some (.confirming e) → s.admitRefused 0x12 tag = s.leaveConfirming p .busy) ∧
    (∀ e r x, s.loginBody p = some (.admitted e r x .sent) → s.admitRefused 0x12 tag = s.dropLogin p .homeLost) := by
  constructor <;> intros <;> simp_all [admitRefused, indexOf_byteOf]

theorem admitRefused_of_older (hi : tag.incarnation ≠ (s.login p).incarnation) : s.admitRefused 0x12 tag = s := by
  simp [admitRefused, ht, indexOf_byteOf, hi.symm]

end

theorem admitRefused_ask {s : State} {i : QueryId} {y : Query} (hq : (s.adm.queries.get i).query = some y) :
    s.admitRefused 0x10 (s.queryTag i) = s.settleQuery i .congestion := by
  have named : s.queryOf (s.queryTag i) = some (i, y) := by simp [queryOf, queryTag, indexOf_byteOf, hq]
  simp [admitRefused, named]

/-! ### At the Call Controller (R65) -/

section
variable {s : State} {r : RecordId} {k : Call} {kind : Byte} {source : Station} (hk : s.call? r = some k)
include hk

theorem recordOf_callTag : s.recordOf (s.callTag r) = some r := by
  simp [recordOf, callTag, indexOf_byteOf, hk]

theorem callRefused_record :
    (k.state = .offering → s.callRefused 0x20 source (s.callTag r) = s.clearNoCell r .congestion) ∧
    (k.state = .alerting → s.callRefused 0x21 source (s.callTag r) = s.clearRecord r .congestion) ∧
    (k.state = .proving → s.callRefused 0x22 source (s.callTag r) = s.clearRecord r .congestion) := by
  refine ⟨fun h => ?_, fun h => ?_, fun h => ?_⟩ <;> simp [callRefused, recordOf_callTag hk, hk, h]

theorem callRefused_of_other (h : (kind = 0x20 ∧ k.state ≠ .offering) ∨ (kind = 0x21 ∧ k.state ≠ .alerting) ∨
    (kind = 0x22 ∧ k.state ≠ .proving)) : s.callRefused kind source (s.callTag r) = s := by
  rcases h with ⟨rfl, h⟩ | ⟨rfl, h⟩ | ⟨rfl, h⟩ <;>
    · simp only [callRefused, recordOf_callTag hk, hk]
      cases hs : k.state <;> simp_all

end

/-! ### At a conference (R85) -/

/-- The member that a REFUSE of CONF-SET names. -/
def refusedMember (source : Station) (tag : Tag) (m : Member) : Bool := decide (m.station = source ∧ m.link = tag)

/-- What one entry of the conference table does at a refused CONF-SET. -/
def confRefusedAt (source : Station) (tag : Tag) (s : State) (e : ConfId) : State :=
  match s.calls.confs.get e with
  | some c => match c.members.filter (refusedMember source tag) with
    | [] => s
    | gone => (gone.foldl (fun s m => s.offerSkip (s.memberClear m .congestion) .plain) s).membersLeave .congestion e
        c.controller gone
  | none => s

theorem confSetRefused_eq (source : Station) (tag : Tag) (s : State) :
    s.confSetRefused source tag = (List.finRange 6).foldl (confRefusedAt source tag) s := rfl

theorem confRefusedAt_of_unnamed {source : Station} {tag : Tag} {s : State} {e : ConfId}
    (h : ∀ cf, s.calls.confs.get e = some cf → cf.members.filter (refusedMember source tag) = []) :
    s.confRefusedAt source tag e = s := by
  unfold confRefusedAt
  cases hc : s.calls.confs.get e with
  | none => rfl
  | some cf => simp only [h cf hc]

theorem confSetRefused_of_one {s : State} {source : Station} {tag : Tag} {e : ConfId} {cf : Conf} {k : Call}
    {gone a b : Member} (hc : s.calls.confs.get e = some cf) (hk : s.call? cf.controller = some k)
    (named : cf.members.filter (refusedMember source tag) = [gone])
    (others : (cf.members.filter fun m => !refusedMember source tag m) = [a, b])
    (elsewhere : ∀ e' cf', e' ≠ e → s.calls.confs.get e' = some cf' →
      cf'.members.filter (refusedMember source tag) = []) (room : QueueRoom 3 s) :
    TwoStay (s.offerSkip (s.memberClear gone .congestion) .plain) (s.confSetRefused source tag) e cf a b := by
  set u := s.offerSkip (s.memberClear gone .congestion) .plain with hu
  have calls : u.calls = s.calls := offerSkip_calls ..
  have inList : gone ∈ cf.members.filter (refusedMember source tag) := by simp [named]
  have isNamed : refusedMember source tag gone = true := (List.mem_filter.1 inList).2
  have stay : (cf.members.filter fun m => !List.contains [gone] m) = [a, b] := by
    rw [← others]
    refine List.filter_congr fun m hm => ?_
    by_cases hn : refusedMember source tag m = true
    · have : m ∈ cf.members.filter (refusedMember source tag) := List.mem_filter.2 ⟨hm, hn⟩
      rw [named, List.mem_singleton] at this
      simp [this, isNamed]
    · have : m ≠ gone := fun h => hn (h ▸ isNamed)
      simp [hn, this]
  have room' : QueueRoom 2 u := (Queues.offerSkip (n := 2) room (s.memberClear gone .congestion) .plain).room
    (offerSkip_station ..) room
  have two := membersLeave_two (s := u) .congestion (by rw [calls]; exact hc) (by rw [call_of_calls calls]; exact hk)
    stay room'
  have run : s.confSetRefused source tag = u.membersLeave .congestion e cf.controller [gone] := by
    rw [confSetRefused_eq]
    refine foldl_finRange_of_one (i := e) ?_ (fun j hj => ?_) fun j hj => ?_
    · simp only [confRefusedAt, hc, named]
      rfl
    · exact confRefusedAt_of_unnamed fun cf' h => elsewhere j cf' hj h
    · refine confRefusedAt_of_unnamed fun cf' h => elsewhere j cf' hj ?_
      rw [two.confs, upd_get_ne _ _ hj, calls] at h
      exact h
  rw [run]
  exact two

end State

/-- Settles O15: each REFUSE acts at the login, query, record or conference it names, in the state R164 asks for. -/
theorem refuseReachesTheOwnerOfItsKind : Obligations.RefuseReachesTheOwnerOfItsKind := by
  refine ⟨fun s c rest kind tag cause p e hr hb ht => ⟨fun hkind hi he up => ?_, fun r x hkind hi he up => ?_,
    fun hkind hi => ?_⟩, fun s c rest kind tag cause hr hb => ⟨fun i y hkind htag hq hw => ?_,
    fun r k htag hk plain => ⟨fun l t0 x hkind hs hl ht0 hact hx room => ?_, fun far hkind hs hf room => ?_,
      fun far hkind hs hf room => ?_, fun other => ?_⟩, ?_, fun other => ?_⟩⟩
  · subst hkind
    obtain ⟨confirming, -⟩ := State.admitRefused_move (s := s.refusePopped rest) ht hi
    refine ⟨_, congrArg Host.Outcome.next ((State.takeRefuse_of_admit hr hb (.inr rfl)).trans (confirming e he)), ?_⟩
    have frame := State.DropFrame.leaveConfirming p .busy (s.refusePopped rest)
    refine ⟨by rw [State.login_leaveConfirming], State.leaveConfirming_tells _ up, by rw [State.login_leaveConfirming]; rfl,
      frame.refusesHeard, frame.logins⟩
  · subst hkind
    obtain ⟨-, sent⟩ := State.admitRefused_move (s := s.refusePopped rest) ht hi
    refine ⟨_, congrArg Host.Outcome.next ((State.takeRefuse_of_admit hr hb (.inr rfl)).trans (sent e r x he)), ?_⟩
    have frame := State.DropFrame.dropLogin p .homeLost (s.refusePopped rest)
    obtain ⟨cleared, heard⟩ := State.dropLogin_cleared (s := s.refusePopped rest) .homeLost he
    exact ⟨by rw [State.login_dropLogin_of_admitted (s := s.refusePopped rest) he],
      State.dropLogin_tells (s := s.refusePopped rest) he rfl up, frame.refusesHeard, cleared.of_left rfl rfl rfl,
      heard.of_left rfl rfl, frame.logins⟩
  · subst hkind
    exact ⟨_, congrArg Host.Outcome.next ((State.takeRefuse_of_admit hr hb (.inr rfl)).trans
      (State.admitRefused_of_older (s := s.refusePopped rest) ht hi)), rfl⟩
  · subst hkind htag
    have ended := State.settleQuery_ended (s := s.refusePopped rest) (x := .congestion) rfl hq hw
    exact ⟨_, congrArg Host.Outcome.next ((State.takeRefuse_of_admit hr hb (.inl rfl)).trans
      (State.admitRefused_ask (s := s.refusePopped rest) hq)), ended.place, ended.frame.refusesHeard, ended.waiters⟩
  · subst hkind htag
    obtain ⟨offering, -, -⟩ := State.callRefused_record (s := s.refusePopped rest) (source := c.source) hk
    refine ⟨_, congrArg Host.Outcome.next ((State.takeRefuse_of_call hr hb (.inl rfl)).trans (offering hs)),
      State.call_clearQuiet_same .., State.talk_clearQuiet_own (s := s.refusePopped rest) _ _ hk hl,
      (ClearFrame.clearQuiet r _ _ _).refusesHeard, ?_⟩
    exact State.queues_clearQuiet (s := s.refusePopped rest) (n := 0) _ _ hk hl ht0 hact hx room
  · subst hkind htag
    obtain ⟨-, alerting, -⟩ := State.callRefused_record (s := s.refusePopped rest) (source := c.source) hk
    refine ⟨_, congrArg Host.Outcome.next ((State.takeRefuse_of_call hr hb (.inr (.inl rfl))).trans (alerting hs)), ?_,
      (ClearFrame.clearRecord r _ _).refusesHeard⟩
    exact State.clearRecord_clearsTo (s := s.refusePopped rest) _ hk plain (by simp [Call.farMayExist, hs]) hf room
  · subst hkind htag
    obtain ⟨-, -, proving⟩ := State.callRefused_record (s := s.refusePopped rest) (source := c.source) hk
    refine ⟨_, congrArg Host.Outcome.next ((State.takeRefuse_of_call hr hb (.inr (.inr (.inl rfl)))).trans (proving hs)),
      ?_, (ClearFrame.clearRecord r _ _).refusesHeard⟩
    exact State.clearRecord_clearsTo (s := s.refusePopped rest) _ hk plain (by simp [Call.farMayExist, hs]) hf room
  · subst htag
    have isCall : kind = 0x20 ∨ kind = 0x21 ∨ kind = 0x22 ∨ kind = 0x25 := by tauto
    exact ⟨_, congrArg Host.Outcome.next ((State.takeRefuse_of_call hr hb isCall).trans
      (State.callRefused_of_other (s := s.refusePopped rest) hk other)), rfl⟩
  · intro e cf k gone a b named hkind hc hk one others elsewhere room
    subst hkind
    have two := State.confSetRefused_of_one (s := s.refusePopped rest) hc hk one others elsewhere room
    set v := s.refusePopped rest with hv
    set u := v.offerSkip (v.memberClear gone .congestion) .plain with hu
    have station : u.station = v.station := State.offerSkip_station ..
    have scr : u.scr = v.scr := State.offerSkip_scr ..
    have calls : u.calls = v.calls := State.offerSkip_calls ..
    have cleared : Queues v u [v.memberClear gone .congestion] :=
      Queues.offerSkip (n := 2) (s := v) room _ .plain
    have places : u.confPlaces cf.controller [a, b] = v.confPlaces cf.controller [a, b] :=
      State.confPlaces_of_kept (s := v) hk station (.of_records (by rw [calls]) _) (by rw [scr]) [a, b]
    obtain ⟨n, given, cells⟩ := two.told
    refine ⟨_, congrArg Host.Outcome.next ((State.takeRefuse_of_call hr hb (.inr (.inr (.inr rfl)))).trans
      (if_pos rfl)), ?_, two.heard.trans (ClearFrame.offer _ _ v).refusesHeard, n, by rw [given, scr]; rfl, ?_⟩
    · rw [two.confs]
      simp
    · rw [State.confSetCell_of_station station, places] at cells
      exact cleared.trans cells
  · exact ⟨_, congrArg Host.Outcome.next (State.takeRefuse_of_other hr hb other), rfl⟩

end Sys2Proof.Machine
end

