-- ==== Sys2Proof/Proofs/MixerLanes.lean ====
section
/-! PROOF. A result of the key mixer at a lane (R106, R112, R113, R119, R127, R131, R132). -/

namespace Sys2Proof.Machine

open Sys2Proof

namespace State

/-! ### The oldest request is taken (R106) -/

/-- The mixer after a completion: its oldest request is gone, and it has completed in this frame end. -/
def mixerPopped (rest : List MixRequest) (s : State) : State :=
  { s with scr := { s.scr with mixer := rest, mixerDone := true } }

section
variable {s : State} {q : MixRequest} {rest : List MixRequest} (hm : s.scr.mixer = q :: rest)
include hm

theorem mixerCompletion_of_idle (h : s.scr.mixerDone = true ∨ q.fresh = true) : s.mixerCompletion = s := by
  simp only [mixerCompletion, hm, h, if_true]

theorem mixerCompletion_of_due (hd : s.scr.mixerDone = false) (hf : q.fresh = false) :
    s.mixerCompletion = (s.mixerPopped rest).deliverResult q
      (Config.mixer q.key q.nonceA q.nonceB (BitVec.ofNat 16 q.count)) := by
  simp only [mixerCompletion, hm, hd, hf, Bool.false_eq_true, or_self, if_false]
  rfl

end

/-! ### A talk lane (R112, R113, R119) -/

section
variable {s : State} {l : TalkId} {t : TalkLane} (hl : s.talk? l = some t)
include hl

theorem modTalk_of_lane (f : TalkLane → TalkLane) : s.modTalk l f = s.setTalk l (f t) := by
  simp only [modTalk, hl]

theorem offerKeyNext_of_moving (hs : t.state = .moving) : s.offerKeyNext l = s := by
  simp [offerKeyNext, hl, hs]

section
variable {g : TalkStaged} {x : Slot} (hs : t.state = .active) (hx : t.slot = some x) (hg : t.staged = some g)
  (first : g.isFirst = false) (queued : g.queued = false)
include hs hx hg first queued

/-- An ACTIVE lane queues the KEY-NEXT of a staged key that is not its first, where there is room. -/
theorem offerKeyNext_of_room (active : s.station.state = .active) (room : s.highway.queue.length < 24) :
    s.offerKeyNext l = (s.enqueue ⟨s.keyNextCell t g x, .keyNext l (s.talkOpening l)⟩).setTalk l
      { t with staged := some { g with queued := true } } := by
  have accepted : s.accepts (s.keyNextCell t g x).body = true := by
    simp [accepts, State.active, active, room, keyNextCell, cellToAll, Body.reserve, Body.cellClass]
  have offered : s.offer (s.keyNextCell t g x) (.keyNext l (s.talkOpening l)) =
      (s.enqueue ⟨s.keyNextCell t g x, .keyNext l (s.talkOpening l)⟩, true) := by
    simp [offer, accepted]
  simp only [offerKeyNext, hl, hs, hx, hg, first, queued, Bool.or_self, Bool.false_eq_true, if_false, offered, if_true]
  rw [modTalk_of_lane (s := s.enqueue _) hl]
  simp only [hs, hx]

/-- A full queue refuses it, and the refusal is counted. -/
theorem offerKeyNext_of_full (active : s.station.state = .active) (full : s.highway.queue.length = 24) :
    s.offerKeyNext l = s.recordFault .queueFull s.self (some (s.keyNextCell t g x).header) := by
  have offered : s.offer (s.keyNextCell t g x) (.keyNext l (s.talkOpening l)) =
      (s.recordFault .queueFull s.self (some (s.keyNextCell t g x).header), false) := by
    simp [offer, accepts, State.active, active, full]
  simp only [offerKeyNext, hl, hs, hx, hg, first, queued, Bool.or_self, Bool.false_eq_true, if_false, offered]

end

/-- The lane that has staged a NEXT result, before it is announced. -/
def nextLane (t : TalkLane) (key : Key) (c : Nat) (p : Nonce) : TalkLane :=
  { t with request := .none, staged := some { key := key, count := c, partner := p, isFirst := false } }

section
variable {key : Key} {c : Nat} {p : Nonce} (hr : t.request = .next c p)
include hr

theorem deliverTalkKey_of_next : s.deliverTalkKey l key =
    ((s.setTalk l (nextLane t key c p)).offerKeyNext l).markRefusedNext l := by
  simp only [deliverTalkKey, hl, hr, modTalk_of_lane hl]
  rfl

theorem deliverTalkKey_of_moving (hs : t.state = .moving) : s.deliverTalkKey l key =
    (s.setTalk l (nextLane t key c p)).markRefusedNext l := by
  rw [deliverTalkKey_of_next hl hr, offerKeyNext_of_moving (talk_setTalk_same l (nextLane t key c p) s) hs]

end

/-- The lane that has staged a FIRST result, with the boundary where that is known. -/
def firstLane (t : TalkLane) (key : Key) (p : Nonce) : TalkLane :=
  { t with
    request := .none
    staged := some { key := key, count := 0, partner := p, isFirst := true, countdown := t.firstBoundary } }

section
variable {key : Key} {p : Nonce} (hr : t.request = .first) (hp : t.partner = some p)
include hr hp

theorem deliverTalkKey_of_first : s.deliverTalkKey l key =
    (s.setTalk l (firstLane t key p)).installDueFirstKey l := by
  simp only [deliverTalkKey, hl, hr, modTalk_of_lane hl]
  simp only [firstLane, hp, Option.getD_some]

theorem deliverTalkKey_of_early (early : ∀ b, t.firstBoundary = some b → 0 < b) : s.deliverTalkKey l key =
    s.setTalk l (firstLane t key p) := by
  rw [deliverTalkKey_of_first hl hr hp, installDueFirstKey, talk_setTalk_same]
  cases hb : t.firstBoundary with
  | none => simp [firstLane, hb]
  | some b => simp [firstLane, hb, early b hb]

theorem deliverTalkKey_of_late {b : Nat} (late : t.firstBoundary = some (-(b : Int))) : s.deliverTalkKey l key =
    (s.setTalk l (firstLane t key p)).installTalkKey l b := by
  rw [deliverTalkKey_of_first hl hr hp, installDueFirstKey, talk_setTalk_same]
  simp [firstLane, late]

end

end

@[simp] theorem setTalk_mixer (l : TalkId) (t : TalkLane) (s : State) : (s.setTalk l t).scr.mixer = s.scr.mixer := rfl
@[simp] theorem talkOpening_setTalk (l : TalkId) (t : TalkLane) (s : State) :
    (s.setTalk l t).talkOpening l = s.talkOpening l := by simp [talkOpening, setTalk]

@[simp] theorem modTalk_mixer (l : TalkId) (f : TalkLane → TalkLane) (s : State) :
    (s.modTalk l f).scr.mixer = s.scr.mixer := by
  unfold modTalk
  split <;> rfl

@[simp] theorem markRefusedNext_mixer (l : TalkId) (s : State) : (s.markRefusedNext l).scr.mixer = s.scr.mixer :=
  modTalk_mixer ..
@[simp] theorem markRefusedNext_highway (l : TalkId) (s : State) : (s.markRefusedNext l).highway = s.highway :=
  modTalk_highway ..

@[simp] theorem installTalkKey_mixer (l : TalkId) (n : Nat) (s : State) :
    (s.installTalkKey l n).scr.mixer = s.scr.mixer := modTalk_mixer ..
@[simp] theorem installTalkKey_highway (l : TalkId) (n : Nat) (s : State) :
    (s.installTalkKey l n).highway = s.highway := modTalk_highway ..

/-! ### A listen lane (R127, R130, R131, R132) -/

theorem setListen_of_lane {s : State} {l : ListenId} {t : ListenLane} (hl : s.listen? l = some t) :
    s.setListen l t = s := by
  have place : { s.listenPlace l with lane := some t } = s.listenPlace l := by
    rw [← hl, listen?]
  have same : upd s.scr.listen l (s.listenPlace l) = s.scr.listen := by
    refine Vector.ext fun j hj => ?_
    by_cases h : (⟨j, hj⟩ : ListenId) = l
    · subst h
      exact upd_get_same ..
    · exact upd_get_ne _ _ h
  rw [setListen, place, setListenPlace, same]

@[simp] theorem modListen_mixer (l : ListenId) (f : ListenLane → ListenLane) (s : State) :
    (s.modListen l f).scr.mixer = s.scr.mixer := by
  unfold modListen
  split <;> rfl

theorem modListen_of_fixed {s : State} {l : ListenId} {f : ListenLane → ListenLane}
    (h : ∀ t, s.listen? l = some t → f t = t) : s.modListen l f = s := by
  unfold modListen
  cases hl : s.listen? l with
  | none => rfl
  | some t =>
    simp only [h t hl]
    exact setListen_of_lane hl

theorem listen_deliverListenKey {s : State} {l : ListenId} {t : ListenLane} (hl : s.listen? l = some t) (key : Key)
    (talker partner : Nonce) (count : Nat) : (s.deliverListenKey l key talker partner count).listen? l =
    some (t.deliver key talker partner count) := by
  rw [deliverListenKey, listen_modListen_same, hl, Option.map_some]

end State

namespace ListenLane

variable {t : ListenLane} {key : Key} {talker partner : Nonce} {count : Nat}

/-- A result whose inputs the lane has not asked for is discarded. -/
theorem deliver_of_unasked
    (h : ∀ a, t.request = some a → ¬ (a.talker = talker ∧ a.partner = partner ∧ a.count = count)) :
    t.deliver key talker partner count = t := by
  unfold deliver
  cases hr : t.request with
  | none => rfl
  | some a => exact if_neg (h a hr)

/-- The lane that has staged the key it asked for. -/
def stagedFor (t : ListenLane) (key : Key) (a : ListenRequest) : ListenLane :=
  { t with
    request := none
    talkerNonce := some (t.talkerNonce.getD a.talker)
    partnerNonce := some (t.partnerNonce.getD a.partner)
    staged := some { key := key, talker := a.talker, partner := a.partner, count := a.count, countdown := a.countdown } }

section
variable {a : ListenRequest} (hr : t.request = some a) (h1 : a.talker = talker) (h2 : a.partner = partner)
  (h3 : a.count = count)
include hr h1 h2 h3

theorem deliver_of_asked : t.deliver key talker partner count = (t.stagedFor key a).installOverdue := by
  subst h1 h2 h3
  simp only [deliver, hr, and_self, if_true]
  rfl

theorem deliver_of_early (early : ∀ b, a.countdown = some b → 0 < b) :
    t.deliver key talker partner count = t.stagedFor key a := by
  rw [deliver_of_asked hr h1 h2 h3]
  cases hb : a.countdown with
  | none => simp [installOverdue, stagedFor, hb]
  | some b => simp [installOverdue, stagedFor, hb, early b hb]

theorem deliver_of_overdue {b : Nat} (late : a.countdown = some (-(b : Int))) :
    t.deliver key talker partner count = (t.stagedFor key a).install
      { key := key, talker := a.talker, partner := a.partner, count := a.count, countdown := a.countdown } b := by
  rw [deliver_of_asked hr h1 h2 h3]
  simp [installOverdue, stagedFor, late]

end

/-- What the installing of a key leaves, whatever the state of the lane. -/
structure Installed (t t1 : ListenLane) (g : ListenStaged) (position : Nat) : Prop where
  request : t1.request = t.request
  staged : t1.staged = none
  slot : t1.slot = t.slot
  active : t1.active = some { key := g.key, talker := g.talker, partner := g.partner, count := g.count,
                              position := BitVec.ofNat 16 position }
  previous : t1.previous = if t.active = none then t.previous else t.active
  nonces : t1.talkerNonce = some g.talker ∧ t1.partnerNonce = some g.partner
  framesRead : t1.framesRead = 0
  setup : t.state = .waitkey → t.purpose = .setup → t1.state = .proving ∧ t1.timer = none
  join : t.state = .waitkey → t.purpose = .join → t1.state = .waitkey ∧ t1.timer = t.timer
  search : t.state = .search → t1.state = .search ∧
    t1.search = some { phase := 1, slot := t.slot, previous := false, cursor := none }
  lost : t.state = .lost → t1.state = .lost ∧ (t.syncLost = false → t.purpose = .join ∨ t.active ≠ none →
    t1.awaiting = true ∧ t1.timer = none)
  locked : t.state = .locked → t1.state = .locked ∧ t1.lowCount = t.lowCount
  proving : t.state = .proving → t1.state = .proving

theorem install_installed (t : ListenLane) (g : ListenStaged) (position : Nat) :
    Installed t (t.install g position) g position := by
  have previous : (match t.active with | some k => some k | none => t.previous) =
      if t.active = none then t.previous else t.active := by
    cases t.active <;> simp
  have notFirst : t.purpose = .join ∨ t.active ≠ none → t.firstKey g.talker g.partner g.count = false := by
    rintro (h | h)
    · simp [firstKey, h]
    · cases ha : t.active with
      | none => exact absurd ha h
      | some k => simp [firstKey, ha]
  unfold install
  cases hs : t.state with
  | waitkey =>
    cases hp : t.purpose with
    | setup =>
      constructor
      case previous => exact previous
      all_goals simp [hs, hp]
    | join =>
      constructor
      case previous => exact previous
      all_goals simp [hs, hp]
  | proving =>
    constructor
    case previous => exact previous
    all_goals simp [hs]
  | locked =>
    constructor
    case previous => exact previous
    all_goals simp [hs]
  | search =>
    constructor
    case previous => exact previous
    all_goals simp [hs, phaseOne]
  | lost =>
    by_cases reported : t.firstKey g.talker g.partner g.count = true ∨ t.syncLost = true
    · have stays : (t.firstKey g.talker g.partner g.count || t.syncLost) = true := by simpa using reported
      simp only [stays, if_true]
      constructor
      case previous => exact previous
      case lost =>
        refine fun _ => ⟨rfl, fun h1 h2 => ?_⟩
        rw [notFirst h2, h1] at stays
        cases stays
      all_goals simp [hs]
    · have awaits : (t.firstKey g.talker g.partner g.count || t.syncLost) = false := by simpa using reported
      simp only [awaits, Bool.false_eq_true, if_false]
      constructor
      case previous => exact previous
      all_goals simp [hs]

end ListenLane

end Sys2Proof.Machine
end

