-- ==== Sys2Proof/Proofs/LoginChecks.lean ====
section
/-! PROOF. A result of the key mixer at a login place, and the confirmation that follows it (R9, R10). -/

namespace Sys2Proof.Machine.State

open Sys2Proof

/-! ### The steps of a check (R9) -/

section
variable {s : State} {p : Port} {e : Ext} {n v : Nonce} {tm : Option Nat} {key : Key}
  {i : Byte} (hi : (s.login p).incarnation = i)
include hi

theorem deliverCheck_of_setKey
    (he : (s.login p).entry = some { body := .challenging e n (some v) .setKey, timer := tm }) :
    s.deliverCheck p i .setKey key = s.askCheck p .expected e n v tm key n := by
  simp [deliverCheck, he, hi]

theorem deliverCheck_of_expected
    (he : (s.login p).entry = some { body := .challenging e n (some v) .expected, timer := tm }) :
    s.deliverCheck p i .expected key =
      if firstBits key = v then (s.modLogin p fun l => { l with failures := 0 }).confirm p e else s.challengeFails p := by
  simp [deliverCheck, he, hi]

end

/-! ### The other entries of a number are dropped (R10) -/

/-- A drop removes every entry of an extension but one that is challenged, which has none yet. -/
theorem entry_dropLogin_of_ext {s : State} {p : Port} {e : Ext} (why : DropReason)
    (h : (s.loginBody p).bind LoginBody.ext = some e) : ((s.dropLogin p why).login p).entry = none := by
  cases hb : s.loginBody p with
  | none => simp [hb] at h
  | some b =>
    cases b with
    | challenging => simp [hb, LoginBody.ext] at h
    | confirming e' =>
      have leaves : s.dropLogin p why = s.leaveConfirming p (why.result.getD .busy) := by simp only [dropLogin, hb]
      rw [leaves, login_leaveConfirming]
    | admitted e' r x n => rw [login_dropLogin_of_admitted hb]

/-- A drop keeps a login place as it is or empties it. -/
theorem login_dropLogin_cases (p : Port) (why : DropReason) (s : State) :
    (s.dropLogin p why).login p = s.login p ∨ ((s.dropLogin p why).login p).entry = none := by
  cases hb : (s.loginBody p).bind LoginBody.ext with
  | some e => exact .inr (entry_dropLogin_of_ext why hb)
  | none =>
    refine .inl (congrArg (fun t : State => t.login p) ?_)
    unfold dropLogin
    cases h : s.loginBody p with
    | none => rfl
    | some b => cases b <;> simp [h, LoginBody.ext] at hb ⊢

/-- What a list of plain drops at other ports leaves of a port's login, with the ends of the dropped ones. -/
structure OthersDropped (s t : State) (p : Port) (qs : List Port) (e : Ext) : Prop where
  frame : CallsEnd s t
  own : t.login p = s.login p
  portState : ∀ q, (t.port q).state = (s.port q).state
  logins : ∀ q, t.login q = s.login q ∨ (t.login q).entry = none
  dropped : ∀ q ∈ qs, (s.loginBody q).bind LoginBody.ext = some e → (t.login q).entry = none

theorem othersDropped_of_foldl {p : Port} {e : Ext} {qs : List Port} (hp : p ∉ qs) (s : State) :
    OthersDropped s (qs.foldl (fun s q => s.dropLogin q .plain) s) p qs e := by
  induction qs generalizing s with
  | nil => exact ⟨.refl s, rfl, fun _ => rfl, fun _ => .inl rfl, fun _ h => absurd h List.not_mem_nil⟩
  | cons q qs ih =>
    obtain ⟨hpq, hpqs⟩ := not_or.1 (fun h => hp (List.mem_cons.2 h))
    have first := DropFrame.dropLogin q .plain s
    set u := s.dropLogin q .plain with hu
    have rest := ih hpqs u
    rw [List.foldl_cons]
    set t := qs.foldl (fun s q => s.dropLogin q .plain) u
    have gone {j : Port} (h : (u.login j).entry = none) : (t.login j).entry = none := by
      rcases rest.logins j with h' | h'
      · rw [h', h]
      · exact h'
    refine ⟨first.toCallsEnd.trans rest.frame, rest.own.trans (first.logins p hpq),
      fun j => (rest.portState j).trans (first.portState j), fun j => ?_, fun j hj hext => ?_⟩
    · rcases rest.logins j with h | h
      · by_cases hjq : j = q
        · subst hjq
          rw [h]
          exact login_dropLogin_cases j .plain s
        · exact .inl (h.trans (first.logins j hjq))
      · exact .inr h
    · by_cases hjq : j = q
      · subst hjq
        exact gone (entry_dropLogin_of_ext .plain hext)
      · refine rest.dropped j ((List.mem_cons.1 hj).resolve_left hjq) ?_
        rwa [loginBody_of_login (first.logins j hjq)]

/-- The entries of a number at the other ports, dropped in ascending port order. -/
def dropOthers (p : Port) (e : Ext) (s : State) : State :=
  ((List.finRange 24).filter fun q => decide (q ≠ p) && decide ((s.loginBody q).bind LoginBody.ext = some e)).foldl
    (fun s q => s.dropLogin q .plain) s

/-- The entry in CONFIRMING, before its home is asked. -/
def confirming (p : Port) (e : Ext) (s : State) : State :=
  (s.setEntry p (some { body := .confirming e, timer := none })).dropOthers p e

theorem dropOthers_of_alone {s : State} {p : Port} {e : Ext}
    (h : ∀ r, r ≠ p → (s.loginBody r).bind LoginBody.ext ≠ some e) : s.dropOthers p e = s := by
  have none : ((List.finRange 24).filter fun q =>
      decide (q ≠ p) && decide ((s.loginBody q).bind LoginBody.ext = some e)) = [] := by
    refine List.filter_eq_nil_iff.2 fun q _ => ?_
    by_cases hq : q = p
    · simp [hq]
    · simp [h q hq]
  rw [dropOthers, none]
  rfl

section
variable {s : State} {p : Port} {e : Ext}

theorem dropOthers_dropped (p : Port) (e : Ext) (s : State) :
    OthersDropped s (s.dropOthers p e) p (((List.finRange 24).filter fun q =>
      decide (q ≠ p) && decide ((s.loginBody q).bind LoginBody.ext = some e))) e :=
  othersDropped_of_foldl (by simp) s

theorem confirming_frame (p : Port) (e : Ext) (s : State) : CallsEnd s (s.confirming p e) :=
  (DropFrame.setEntry p _ s).toCallsEnd.trans (dropOthers_dropped p e _).frame

theorem confirm_eq (p : Port) (e : Ext) (s : State) : s.confirm p e =
    match (s.confirming p e).homeOf e with
    | none => (s.confirming p e).leaveConfirming p .noHome
    | some h => if h = (s.confirming p e).self then (s.confirming p e).confirmHere p e
      else (s.confirming p e).confirmAt p e h := rfl

theorem confirm_of_homeless (hh : s.homeOf e = none) : s.confirm p e = (s.confirming p e).leaveConfirming p .noHome := by
  rw [confirm_eq, (confirming_frame p e s).homeOf, hh]

theorem confirm_of_own (hh : s.homeOf e = some s.self) : s.confirm p e = (s.confirming p e).confirmHere p e := by
  rw [confirm_eq, (confirming_frame p e s).homeOf, hh, (confirming_frame p e s).self]
  exact if_pos rfl

theorem confirm_of_peer {home : Station} (hh : s.homeOf e = some home) (hn : home ≠ s.self) :
    s.confirm p e = (s.confirming p e).confirmAt p e home := by
  rw [confirm_eq, (confirming_frame p e s).homeOf, hh, (confirming_frame p e s).self]
  exact if_neg hn

end

/-! ### The end of a confirmation -/

/-- A confirmation at its home changes the entry, the tone of the port, and no call. -/
structure Settled (s t : State) (p : Port) : Prop where
  others : ∀ r, r ≠ p → t.login r = s.login r ∧ t.callPort r = s.callPort r
  own : t.login p = { s.login p with entry := (t.login p).entry }
  records : t.calls.records = s.calls.records
  confs : t.calls.confs = s.calls.confs
  waitList : t.calls.waitList = s.calls.waitList
  mixer : t.scr.mixer = s.scr.mixer
  burst : (s.port p).state = .up → t.callPort p = { s.callPort p with burst := none }

namespace Settled

/-- The entry is set and the port receives a tone, after other blocks have changed at most. -/
theorem toned {s u : State} (hl : u.adm.logins = s.adm.logins) (hc : u.calls = s.calls) (hm : u.scr = s.scr)
    (hp : u.ports = s.ports) (p : Port) (x : Option LoginEntry) (y : Tone) :
    Settled s ((u.setEntry p x).setTone p y) p where
  others r hr := ⟨by rw [login_setTone, login_setEntry_ne _ _ hr, login_of_logins hl],
    by rw [callPort_setTone_ne _ _ hr]; exact callPort_of_calls (congrArg (·.ports) hc) r⟩
  own := by rw [login_setTone, login_setEntry_same, login_of_logins hl]
  records := by simp [hc]
  confs := by simp [hc]
  waitList := by simp [hc]
  mixer := by simp [hm]
  burst up := by
    rw [callPort_setTone_same y (by rw [port_of_ports (s := s) (by exact hp)]; exact up)]
    rw [show (u.setEntry p x).callPort p = s.callPort p from callPort_of_calls (congrArg (·.ports) hc) p]

theorem send {s t : State} {p : Port} (h : Settled s t p) (m : SetMessage) : Settled s (t.sendMessage p m) p where
  others r hr := by simpa using h.others r hr
  own := by simpa using h.own
  records := by simpa using h.records
  confs := by simpa using h.confs
  waitList := by simpa using h.waitList
  mixer := by simpa using h.mixer
  burst up := by simpa using h.burst up

theorem leaveConfirming {s u : State} (hl : u.adm.logins = s.adm.logins) (hc : u.calls = s.calls) (hm : u.scr = s.scr)
    (hp : u.ports = s.ports) (p : Port) (x : LoginResult) : Settled s (u.leaveConfirming p x) p :=
  (toned hl hc hm hp p none .none).send _

end Settled

/-- A record moves to this station with an offer at most before it, and no other block changes. -/
theorem moveHome_self (e : Ext) (h : HomeRecord) (p : Port) (s : State) : ∃ u, u.adm = s.adm ∧ u.calls = s.calls ∧
    u.scr = s.scr ∧ u.ports = s.ports ∧ (s.moveHome e h s.self p = (u.setHomeRecord e (movedRecord h s.self p), true) ∨
      s.moveHome e h s.self p = (u, false)) := by
  cases hl : h.location with
  | none => exact ⟨s, rfl, rfl, rfl, rfl, .inl (moveHome_of_free (.inl hl))⟩
  | some loc =>
    obtain ⟨o, q⟩ := loc
    by_cases ho : o = s.self
    · subst ho
      exact ⟨s, rfl, rfl, rfl, rfl, .inl (moveHome_of_free (.inr ⟨q, hl⟩))⟩
    · refine ⟨(s.offer (movedCell s e h s.self p) .plain).1, offer_adm .., offer_calls .., offer_scr .., offer_ports .., ?_⟩
      rw [moveHome_of_other hl ho]
      simp only [if_neg ho]
      split
      · exact .inl rfl
      · exact .inr rfl

theorem settled_confirmHere (p : Port) (e : Ext) (s : State) : Settled s (s.confirmHere p e) p := by
  cases hr : s.homeRecord e with
  | none =>
    rw [show s.confirmHere p e = s.leaveConfirming p .noHome by simp only [confirmHere, hr]]
    exact .leaveConfirming rfl rfl rfl rfl p _
  | some h =>
    cases hb : h.barred with
    | true =>
      rw [confirmHere_of_barred hr hb]
      exact .leaveConfirming rfl rfl rfl rfl p _
    | false =>
      obtain ⟨u, adm, calls, scr, ports, moved | refused⟩ := moveHome_self e h p s
      · rw [confirmHere_of_moved hr hb moved]
        refine .send (.toned ?_ ?_ ?_ ?_ p _ .none) _
        all_goals simp [adm, calls, scr, ports]
      · rw [confirmHere_of_refused hr hb refused]
        exact .leaveConfirming (by rw [adm]) calls scr ports p _

/-! ### Confirmation at a peer (R10) -/

section
variable {s : State} {p : Port} {e : Ext} {home : Station}

theorem confirmAt_of_absent {rg : Range} (hp : s.calls.plan.get home = .absent rg) :
    s.confirmAt p e home = s.leaveConfirming p .noHome := by
  simp only [confirmAt, hp]

/-- A home that is not ABSENT is asked by ADMIT-MOVE, whose refusal ends the login with BUSY. -/
theorem confirmAt_of_other (hp : ∀ rg, s.calls.plan.get home ≠ .absent rg) : s.confirmAt p e home =
    if (s.offer (s.moveCell p e home false) .plain).2 then
      ((s.offer (s.moveCell p e home false) .plain).1.setEntry p
        (some { body := .confirming e, timer := some 16 })).setTone p .confirm
    else (s.offer (s.moveCell p e home false) .plain).1.leaveConfirming p .busy := by
  unfold confirmAt
  cases h : s.calls.plan.get home with
  | absent rg => exact absurd h (hp rg)
  | present rg => rfl
  | unknown => rfl

/-- The home is asked, and the set hears the confirmation tone. -/
theorem confirmAt_of_room (hp : ∀ rg, s.calls.plan.get home ≠ .absent rg) (up : (s.port p).state = .up)
    (room : QueueRoom 1 s) :
    ((s.confirmAt p e home).login p).entry = some { body := .confirming e, timer := some 16 } ∧
    ((s.confirmAt p e home).port p).tone = .confirm ∧
    Queues s (s.confirmAt p e home) [cellFrom s home (s.loginTag p) Tag.absent (.admitMove e p)] := by
  obtain ⟨offered, -⟩ := QueueRoom.offer (n := 0) room (s.moveCell p e home false) .plain
  rw [confirmAt_of_other hp]
  simp only [offered, if_true]
  refine ⟨by simp, ?_, ?_⟩
  · rw [port_setTone_same .confirm (by exact up)]
  · simp only [Queues, setTone_highway, setEntry_highway, enqueue_queue, List.map_append]
    rfl

theorem confirmAt_of_full (hp : ∀ rg, s.calls.plan.get home ≠ .absent rg) (up : (s.port p).state = .up)
    (full : 20 ≤ s.highway.queue.length) :
    ((s.confirmAt p e home).login p).entry = none ∧ Tells (s.confirmAt p e home) p (.loginResult .busy) ∧
    Queues s (s.confirmAt p e home) [] := by
  obtain ⟨no, queue⟩ := offer_refused (s := s) (c := s.moveCell p e home false) .plain rfl (.inr full)
  rw [confirmAt_of_other hp, if_neg (by simp [no])]
  refine ⟨by rw [login_leaveConfirming], leaveConfirming_tells _ ?_, Queues.of_eq ?_⟩
  · rw [port_of_ports (offer_ports _ _ s)]
    exact up
  · rw [leaveConfirming_highway, queue]

end

theorem settled_confirmAt (p : Port) (e : Ext) (home : Station) (s : State) : Settled s (s.confirmAt p e home) p := by
  by_cases h : ∃ rg, s.calls.plan.get home = .absent rg
  · obtain ⟨rg, h⟩ := h
    rw [confirmAt_of_absent h]
    exact .leaveConfirming rfl rfl rfl rfl p _
  · rw [confirmAt_of_other (not_exists.1 h)]
    split
    · exact .toned (by rw [offer_adm]) (offer_calls ..) (offer_scr ..) (offer_ports ..) p _ _
    · exact .leaveConfirming (by rw [offer_adm]) (offer_calls ..) (offer_scr ..) (offer_ports ..) p _

theorem settled_confirm (p : Port) (e : Ext) (s : State) : Settled (s.confirming p e) (s.confirm p e) p := by
  cases hh : s.homeOf e with
  | none =>
    rw [confirm_of_homeless hh]
    exact .leaveConfirming rfl rfl rfl rfl p _
  | some home =>
    by_cases hn : home = s.self
    · subst hn
      rw [confirm_of_own hh]
      exact settled_confirmHere p e _
    · rw [confirm_of_peer hh hn]
      exact settled_confirmAt p e home _

end Sys2Proof.Machine.State
end

