-- ==== Sys2Proof/Proofs/MixerCompletion.lean ====
section
/-! PROOF. The key mixer completes its oldest request (R106). -/

namespace Sys2Proof.Machine

open Sys2Proof

namespace State

/-! ### The confirmation of a checked login, before its home is asked -/

/-- The state in which the home of a checked login is asked: its failures are 0, it is CONFIRMING, and no other entry has
its number. -/
def checked (p : Port) (e : Ext) (rest : List MixRequest) (s : State) : State :=
  ((s.mixerPopped rest).modLogin p fun l => { l with failures := 0 }).confirming p e

section
variable {s : State} {p : Port} {e : Ext} {rest : List MixRequest}

theorem checked_frame : CallsEnd (s.mixerPopped rest) (s.checked p e rest) :=
  CallsEnd.trans (t := (s.mixerPopped rest).modLogin p fun l => { l with failures := 0 }) {} (confirming_frame p e _)

theorem checked_up (up : (s.port p).state = .up) : ((s.checked p e rest).port p).state = .up := by
  rw [checked, confirming, (dropOthers_dropped p e _).portState]
  exact up

theorem checked_plan : (s.checked p e rest).calls.plan = s.calls.plan := checked_frame.plan

theorem login_checked : (s.checked p e rest).login p =
    { s.login p with failures := 0, entry := some { body := .confirming e, timer := none } } := by
  rw [checked, confirming, (dropOthers_dropped p e _).own, login_setEntry_same, login_modLogin_same]
  rfl

theorem failures_checked : ((s.checked p e rest).login p).failures = 0 := by rw [login_checked]

theorem entry_checked_ne {r : Port} (hr : r ≠ p) (he : (s.loginBody r).bind LoginBody.ext = some e) :
    ((s.checked p e rest).login r).entry = none := by
  have same : (((s.mixerPopped rest).modLogin p fun l => { l with failures := 0 }).setEntry p
      (some { body := .confirming e, timer := none })).login r = s.login r := by
    rw [login_setEntry_ne _ _ hr]
    exact login_modLogin_ne _ _ hr
  refine (dropOthers_dropped p e _).dropped r ?_ ?_
  · have : (s.loginBody r).bind LoginBody.ext = some e := he
    simp [hr, loginBody_of_login same, this]
  · rwa [loginBody_of_login same]

/-- With no other entry of its number, nothing but the entry has changed. -/
theorem checked_of_alone (alone : ∀ r, r ≠ p → (s.loginBody r).bind LoginBody.ext ≠ some e) :
    s.checked p e rest = ((s.mixerPopped rest).modLogin p fun l => { l with failures := 0 }).setEntry p
      (some { body := .confirming e, timer := none }) := by
  refine dropOthers_of_alone fun r hr => ?_
  have same : (((s.mixerPopped rest).modLogin p fun l => { l with failures := 0 }).setEntry p
      (some { body := .confirming e, timer := none })).login r = s.login r := by
    rw [login_setEntry_ne _ _ hr]
    exact login_modLogin_ne _ _ hr
  rw [loginBody_of_login same]
  exact alone r hr

end

/-! ### What the confirmation of a checked login tells -/

section
variable {s : State} {p : Port} {e : Ext} {rest : List MixRequest}

theorem checked_of_alone_frame (alone : ∀ r, r ≠ p → (s.loginBody r).bind LoginBody.ext ≠ some e) :
    (s.checked p e rest).station = s.station ∧ (s.checked p e rest).highway = s.highway := by
  rw [checked_of_alone alone]
  exact ⟨rfl, rfl⟩

end

end State

section
variable {s : State} {q : MixRequest} {rest : List MixRequest} (hm : s.scr.mixer = q :: rest)
  (hd : s.scr.mixerDone = false) (hf : q.fresh = false)
include hm hd hf

theorem completes_mixer {P : State → Prop} (h : P ((s.mixerPopped rest).deliverResult q
    (Config.mixer q.key q.nonceA q.nonceB (BitVec.ofNat 16 q.count)))) : Completes .mixerCompletion s P :=
  ⟨_, congrArg Host.Outcome.next (State.mixerCompletion_of_due hm hd hf), h⟩

/-! ### Results for lanes -/

theorem completes_talk {P : State → Prop} {l : TalkId} (hq : q.requester = .talk l (s.talkOpening l))
    (h : P ((s.mixerPopped rest).deliverTalkKey l (Config.mixer q.key q.nonceA q.nonceB (BitVec.ofNat 16 q.count)))) :
    Completes .mixerCompletion s P := by
  refine completes_mixer hm hd hf ?_
  have same : (s.mixerPopped rest).talkOpening l = s.talkOpening l := rfl
  simpa only [State.deliverResult, hq, same, if_true] using h

theorem completes_listen {P : State → Prop} {l : ListenId} (hq : q.requester = .listen l (s.listenOpening l))
    (h : P ((s.mixerPopped rest).deliverListenKey l (Config.mixer q.key q.nonceA q.nonceB (BitVec.ofNat 16 q.count))
      q.nonceA q.nonceB q.count)) : Completes .mixerCompletion s P := by
  refine completes_mixer hm hd hf ?_
  have same : (s.mixerPopped rest).listenOpening l = s.listenOpening l := rfl
  simpa only [State.deliverResult, hq, same, if_true] using h

theorem completes_check {P : State → Prop} {p : Port} {step : CheckStep}
    (hq : q.requester = .login p (s.login p).incarnation step)
    (h : P ((s.mixerPopped rest).deliverCheck p (s.login p).incarnation step
      (Config.mixer q.key q.nonceA q.nonceB (BitVec.ofNat 16 q.count)))) : Completes .mixerCompletion s P := by
  refine completes_mixer hm hd hf ?_
  simpa only [State.deliverResult, hq] using h

end

/-- Settles O51: each result reaches the lane or login that still stands as its request names it. -/
theorem mixerCompletesItsOldestRequest : Obligations.MixerCompletesItsOldestRequest := by
  intro s q rest hm result
  refine ⟨fun idle => ?_, fun hd hf => ⟨fun l o hq gone => ?_, fun l o hq gone => ?_, fun l t0 c p hq hl hs hr => ?_,
    fun l t0 c p y hq hl hs hy hr active => ⟨fun room => ?_, fun full => ?_⟩,
    fun l t0 p hq hl hr hp => ⟨fun early => ?_, fun b late => ?_⟩,
    fun l t0 hq hl => ⟨fun unasked => ?_, fun a ha h1 h2 h3 => ⟨fun early => ?_, fun b late => ?_⟩⟩,
    fun p e n v tm hq he room => ?_, fun p e n v tm hq he ne few up => ?_, fun p e n v tm im hq he ne third up him => ?_,
    fun p e n v tm hq he hv up => ?_⟩⟩
  · exact ⟨_, congrArg Host.Outcome.next (State.mixerCompletion_of_idle hm idle), rfl⟩
  · refine completes_mixer hm hd hf ?_
    by_cases opening : s.talkOpening l = o
    · subst opening
      have closed : (s.mixerPopped rest).talk? l = none := gone.resolve_left (fun h => h rfl)
      simp only [State.deliverResult, hq, State.deliverTalkKey, closed, ite_self]
      rfl
    · have opening' : ¬ (s.mixerPopped rest).talkOpening l = o := opening
      simp only [State.deliverResult, hq, opening', if_false]
      rfl
  · refine completes_mixer hm hd hf ?_
    by_cases opening : s.listenOpening l = o
    · subst opening
      have closed : (s.mixerPopped rest).listen? l = none := gone.resolve_left (fun h => h rfl)
      simp only [State.deliverResult, hq, State.deliverListenKey, State.modListen, closed, ite_self]
      rfl
    · have opening' : ¬ (s.mixerPopped rest).listenOpening l = o := opening
      simp only [State.deliverResult, hq, opening', if_false]
      rfl
  · refine completes_talk hm hd hf hq ?_
    rw [State.deliverTalkKey_of_moving (s := s.mixerPopped rest) hl hr hs]
    refine ⟨by rw [State.markRefusedNext_mixer]; rfl, by rw [State.markRefusedNext_highway]; rfl, ?_⟩
    rw [State.talk_markRefusedNext, State.talk_setTalk_same]
    simp [State.nextLane, hs, result]
  · refine completes_talk hm hd hf hq ?_
    set v := s.mixerPopped rest with hv
    set u := v.setTalk l (State.nextLane t0 result c p) with hu
    have announced := State.offerKeyNext_of_room (s := u) (State.talk_setTalk_same l (State.nextLane t0 result c p) v)
      hs hy rfl rfl rfl active room
    rw [State.deliverTalkKey_of_next (s := v) hl hr, ← hu, announced]
    refine ⟨by rw [State.markRefusedNext_mixer]; rfl, ?_, ?_⟩
    · rw [State.markRefusedNext_highway, State.setTalk_highway, State.enqueue_queue, hu, State.talkOpening_setTalk]
      rfl
    · rw [State.talk_markRefusedNext, State.talk_setTalk_same]
      simp [State.nextLane]
  · refine completes_talk hm hd hf hq ?_
    set v := s.mixerPopped rest with hv
    set u := v.setTalk l (State.nextLane t0 result c p) with hu
    have refused := State.offerKeyNext_of_full (s := u) (State.talk_setTalk_same l (State.nextLane t0 result c p) v)
      hs hy rfl rfl rfl active full
    rw [State.deliverTalkKey_of_next (s := v) hl hr, ← hu, refused]
    refine ⟨by rw [State.markRefusedNext_mixer]; rfl, ?_, ?_⟩
    · rw [State.markRefusedNext_highway]
      rfl
    · have lane : (u.recordFault .queueFull u.self (some (u.keyNextCell (State.nextLane t0 result c p)
          { key := result, count := c, partner := p, isFirst := false } y).header)).talk? l =
          some (State.nextLane t0 result c p) := State.talk_setTalk_same l (State.nextLane t0 result c p) v
      rw [State.talk_markRefusedNext, lane]
      simp [State.nextLane, hs]
  · refine completes_talk hm hd hf hq ?_
    rw [State.deliverTalkKey_of_early (s := s.mixerPopped rest) hl hr hp early]
    exact ⟨rfl, rfl, State.talk_setTalk_same ..⟩
  · refine completes_talk hm hd hf hq ?_
    rw [State.deliverTalkKey_of_late (s := s.mixerPopped rest) hl hr hp late]
    refine ⟨by rw [State.installTalkKey_mixer]; rfl, by rw [State.installTalkKey_highway]; rfl, ?_⟩
    rw [State.installTalkKey, State.talk_modTalk_same, State.talk_setTalk_same]
    simp [State.firstLane, result]
  · refine completes_listen hm hd hf hq ?_
    exact State.modListen_of_fixed (s := s.mixerPopped rest) fun t ht =>
      ListenLane.deliver_of_unasked fun a ha => unasked a (by rw [← ha, Option.some.inj (hl.symm.trans ht)])
  · refine completes_listen hm hd hf hq ?_
    refine ⟨State.modListen_mixer .., ?_⟩
    rw [State.listen_deliverListenKey (s := s.mixerPopped rest) hl,
      ListenLane.deliver_of_early ha h1 h2 h3 early]
    rfl
  · refine completes_listen hm hd hf hq ?_
    refine ⟨State.modListen_mixer .., _, State.listen_deliverListenKey (s := s.mixerPopped rest) hl .., ?_⟩
    rw [ListenLane.deliver_of_overdue ha h1 h2 h3 late]
    have i := ListenLane.install_installed (t0.stagedFor result a)
      { key := result, talker := a.talker, partner := a.partner, count := a.count, countdown := a.countdown } b
    exact ⟨i.request, i.staged, i.slot, i.active, i.previous, i.nonces.1, i.nonces.2, i.framesRead, i.setup, i.join,
      i.search, i.lost, i.locked, i.proving⟩
  · refine completes_check hm hd hf hq ?_
    rw [State.deliverCheck_of_setKey (s := s.mixerPopped rest) (i := (s.login p).incarnation) rfl he,
      State.askCheck_of_room (s := s.mixerPopped rest) _ _ _ _ _ _ _ room]
    refine ⟨rfl, ?_⟩
    rw [State.login_setEntry_same]
  · refine completes_check hm hd hf hq ?_
    rw [State.deliverCheck_of_expected (s := s.mixerPopped rest) (i := (s.login p).incarnation) rfl he, if_neg (by exact ne),
      State.challengeFails_of_few (s := s.mixerPopped rest) few]
    exact ⟨by simp [State.mixerPopped], by simp, by simp; rfl, State.sendMessage_last _ up⟩
  · refine completes_check hm hd hf hq ?_
    rw [State.deliverCheck_of_expected (s := s.mixerPopped rest) (i := (s.login p).incarnation) rfl he, if_neg (by exact ne),
      State.challengeFails_of_third (s := s.mixerPopped rest) third him]
    exact ⟨by simp [State.mixerPopped], by simp; rfl, State.sendMessage_last _ up⟩
  · intro alone ends
    have run {P : State → Prop} (h : P (((s.mixerPopped rest).modLogin p fun l => { l with failures := 0 }).confirm p e)) :
        Completes .mixerCompletion s P := by
      refine completes_check hm hd hf hq ?_
      rw [State.deliverCheck_of_expected (s := s.mixerPopped rest) (i := (s.login p).incarnation) rfl he, if_pos (by exact hv)]
      exact h
    set w := (s.mixerPopped rest).modLogin p fun l => { l with failures := 0 } with hw
    set c := w.confirming p e with hc
    have settled : State.Settled c (w.confirm p e) p := State.settled_confirm p e w
    have cUp : (c.port p).state = .up := State.checked_up up
    have frame : CallsEnd (s.mixerPopped rest) c := State.checked_frame
    have cPlan (home : Station) : c.calls.plan.get home = s.calls.plan.get home :=
      congrArg (·.get home) State.checked_plan
    have notAbsent {home : Station} {rg : Range} (h : s.calls.plan.get home = .present rg) :
        ∀ rg', c.calls.plan.get home ≠ .absent rg' := fun rg' h' => by
      rw [cPlan, h] at h'
      cases h'
    have cRecord {h : HomeRecord} (hr : s.homeRecord e = some h) : c.homeRecord e = some h :=
      (frame.homeRecord e).trans hr
    have admitted {h : HomeRecord} {t : State} (l : State.LocatedHere c t p e h) :
        (t.login p).entry = some { body := .admitted e h.rights (h.epoch + 1) .none, timer := none } ∧
        t.homeRecord e = some { h with location := some (s.self, p), epoch := h.epoch + 1 } ∧
        Tells t p (.loginResult .ok) := by
      refine ⟨by rw [l.entry], ?_, l.told cUp⟩
      rw [l.record, State.movedRecord, frame.self]
      rfl
    have leaves {t : State} {why : LoginResult} (h : t = c.leaveConfirming p why) : ends t why := by
      rw [h]
      exact ⟨by rw [State.login_leaveConfirming], State.leaveConfirming_tells _ cUp⟩
    refine ⟨run ⟨?_, fun r hr hext => ?_⟩, fun only => run ?_, fun home hh hn => ⟨fun rg hp => run ?_,
      fun rg hp only => ⟨fun room => run ?_, fun full => run ?_⟩⟩, fun h hh hrec => ⟨fun barred => run ?_,
      fun open_ hl => run ?_, fun o r open_ hl ho only => ⟨fun room => run ?_, fun full => run ?_⟩⟩⟩
    · rw [settled.own]
      exact State.failures_checked
    · rw [(settled.others r hr).1]
      exact State.entry_checked_ne hr hext
    · have eq : c = w.setEntry p (some { body := .confirming e, timer := none }) := State.checked_of_alone only
      rw [eq] at settled
      refine ⟨settled.mixer, settled.records, settled.confs, settled.waitList, settled.burst up, fun r hr => ?_⟩
      rw [(settled.others r hr).1, (settled.others r hr).2, State.login_setEntry_ne _ _ hr]
      exact ⟨State.login_modLogin_ne _ _ hr, rfl⟩
    · exact leaves ((State.confirm_of_peer (s := w) hh hn).trans (State.confirmAt_of_absent ((cPlan home).trans hp)))
    · obtain ⟨station, highway⟩ : c.station = s.station ∧ c.highway = s.highway := State.checked_of_alone_frame only
      have asked := State.confirmAt_of_room (s := c) (e := e) (notAbsent hp) cUp
        ⟨by rw [station]; exact room.1, by rw [highway]; exact room.2⟩
      rw [State.confirm_of_peer (s := w) hh hn]
      have tag : c.loginTag p = s.loginTag p := by
        rw [State.loginTag, show c.login p = _ from State.login_checked]
        rfl
      refine ⟨asked.1, asked.2.1, ?_⟩
      have cells := asked.2.2
      rw [tag, cellFrom, frame.self, Queues, highway] at cells
      exact cells
    · obtain ⟨station, highway⟩ : c.station = s.station ∧ c.highway = s.highway := State.checked_of_alone_frame only
      obtain ⟨entry, tells, queue⟩ := State.confirmAt_of_full (s := c) (e := e) (notAbsent hp) cUp
        (by rw [highway]; exact full)
      rw [State.confirm_of_peer (s := w) hh hn]
      exact ⟨⟨entry, tells⟩, by simpa only [Queues, highway] using queue⟩
    · have eq := (State.confirm_of_own (s := w) (p := p) hh).trans
        (State.confirmHere_of_barred (s := c) (cRecord hrec) barred)
      refine ⟨leaves eq, ?_⟩
      rw [eq]
      exact ((State.DropFrame.leaveConfirming p .barred c).homeRecord e).trans (cRecord hrec)
    · obtain ⟨located, -⟩ := State.confirmHere_of_free (s := c) (p := p) (cRecord hrec) open_ (by rw [frame.self]; exact hl)
      rw [State.confirm_of_own (s := w) hh]
      exact admitted located
    · obtain ⟨station, highway⟩ : c.station = s.station ∧ c.highway = s.highway := State.checked_of_alone_frame only
      obtain ⟨located, cells⟩ := State.confirmHere_of_third (s := c) (p := p) (cRecord hrec) open_ hl
        (by rw [frame.self]; exact ho) ⟨by rw [station]; exact room.1, by rw [highway]; exact room.2⟩
      rw [State.confirm_of_own (s := w) hh]
      refine ⟨admitted located, ?_⟩
      rw [State.movedCell, broadcast, frame.self, Queues, highway] at cells
      exact cells
    · obtain ⟨station, highway⟩ : c.station = s.station ∧ c.highway = s.highway := State.checked_of_alone_frame only
      obtain ⟨-, queue⟩ := State.offerSkip_of_full (s := c) (c := c.movedCell e h c.self p) .plain rfl
        (.inr (by rw [highway]; exact full))
      rw [State.confirm_of_own (s := w) hh, State.confirmHere_of_full (s := c) (cRecord hrec) open_ hl
        (by rw [frame.self]; exact ho) (.inr (by rw [highway]; exact full))]
      refine ⟨⟨by rw [State.login_leaveConfirming], State.leaveConfirming_tells _ ?_⟩, ?_, ?_⟩
      · rw [State.port_of_ports (State.offerSkip_ports ..)]
        exact cUp
      · rw [(State.DropFrame.leaveConfirming p .busy _).homeRecord]
        exact ((ClearFrame.offer _ _ c).homeRecord e).trans (cRecord hrec)
      · refine Queues.of_eq ?_
        rw [State.leaveConfirming_highway, queue, highway]

end Sys2Proof.Machine
end

