-- ==== Sys2Proof/Proofs/CrossedLanes.lean ====
section
/-! PROOF. A taken lane that finds no free slot clears its owner, and with it whatever lane that record names (R62, R99,
R100): the counterexample to the last part of the fourth clause about censuses. -/

namespace Sys2Proof.Machine

open Sys2Proof

/-- A call of record 0, which names lane 1 as its talk lane. -/
def crossedCall : Call := { state := .connected, port := 0, ownExt := 4000, role := .caller, talkLane := some 1 }

/-- A talk lane of record 0 that is ACTIVE on a slot. -/
def laneOn (x : Slot) : TalkLane := { state := .active, owner := 0, ownerTag := ⟨0, 0⟩, slot := some x, ownNonce := 0 }

/-- The census of station 1, which lists slot 0. -/
def censusOne : HeardCensus :=
  { station := 1, cold := false, header := [], body := { low := 0, length := 0, startTag := 0, held := [0] } }

/-- Station 0, with lane 0 ACTIVE on slot 0 and lane 1 on slot 1. Both belong to record 0, which names lane 1. Station 1
lists slot 0, and every other slot is held. -/
def crossedLanes : State :=
  { State.reset with
    station := { State.reset.station with state := .active }
    slots := { State.reset.slots with map := upd (upd (Vector.replicate 256 (some 3)) 0 (some 1)) 1 (some 0) }
    calls := { State.reset.calls with
      records := upd State.reset.calls.records 0 { call := some crossedCall }
      plan := upd State.reset.calls.plan 1 (.present ⟨0, 0⟩) }
    scr := { State.reset.scr with
      talk := upd (upd State.reset.scr.talk 0 { lane := some (laneOn 0) }) 1 { lane := some (laneOn 1) } }
    highway := { State.reset.highway with censuses := [censusOne] } }

namespace crossedLanes

theorem talk_eq (l : TalkId) :
    crossedLanes.talk? l = if l = 1 then some (laneOn 1) else if l = 0 then some (laneOn 0) else none := by
  simp only [State.talk?, State.talkPlace, crossedLanes, upd_get]
  split
  · rfl
  · split
    · rfl
    · simp [State.reset, Vector.get_eq_getElem]

theorem map_eq (x : Slot) :
    crossedLanes.slots.map.get x = if x = 1 then some 0 else if x = 0 then some 1 else some 3 := by
  simp only [crossedLanes, upd_get]
  split
  · rfl
  · split
    · rfl
    · simp [Vector.get_eq_getElem]

/-- Station 1 alone is heard, and lists slot 0 alone. -/
theorem lists_iff {st : Station} {x : Slot} :
    (∃ c ∈ crossedLanes.highway.censuses, c.station = st ∧ x ∈ c.body.held) ↔ 1 = st ∧ x = 0 := by
  simp [crossedLanes, censusOne]

theorem heard_iff {st : Station} : (∃ c ∈ crossedLanes.highway.censuses, c.station = st) ↔ 1 = st := by
  simp [crossedLanes, censusOne]

theorem findings : ∀ st, (crossedLanes.finding st).lost = false ∧ (crossedLanes.finding st).restarted = false := by
  decide +kernel

/-- Every lane but lane 0 is lane 1, on slot 1. -/
theorem slot_of_other {j : TalkId} {t : TalkLane} {y : Slot} (hj : j ≠ 0) (ht : crossedLanes.talk? j = some t)
    (hy : t.slot = some y) : y = 1 := by
  rw [talk_eq, if_neg hj] at ht
  split at ht
  · obtain rfl := Option.some.inj ht
    exact (Option.some.inj hy).symm
  · cases ht

/-- The one slot that the map shows held by this station has its lane. -/
theorem slot_of_held {y : Slot} (hy : (if y = 1 then some 0 else if y = 0 then some 1 else some 3) = some (0 : Station)) :
    y = 1 := by
  by_contra ne
  rw [if_neg ne] at hy
  split at hy <;> exact absurd hy (by decide)

/-- No slot is free for lane 0: its owner is cleared, and lane 1 gives up slot 1. -/
theorem after_census : crossedLanes.takeCensus.slots.map.get 0 ≠ none ∧
    crossedLanes.takeCensus.slots.map.get 1 = none ∧ crossedLanes.takeCensus.call? 0 = none := by
  decide +kernel

end crossedLanes

/-- Refutes O16: in the fourth clause nothing binds the talk lane that the owner of the taken lane names. Lane 0 loses its
slot and finds no other; its owner is cleared and closes lane 1, so that slot 1 is FREE after all, and yet lane 0 has not
asked for it. -/
theorem not_censusesSetThePresenceTable : ¬ Obligations.CensusesSetThePresenceTable := by
  unfold Obligations.CensusesSetThePresenceTable
  rintro ⟨-, -, -, reconciles, -⟩
  obtain ⟨-, -, moves⟩ := reconciles crossedLanes (.inr (.inl rfl)) rfl rfl fun st _ => (crossedLanes.findings st).1
  simp only [crossedLanes.lists_iff, crossedLanes.heard_iff, crossedLanes.map_eq] at moves
  have others := moves 0 (laneOn 0) 0 1 rfl rfl rfl ⟨.inl ⟨rfl, rfl⟩, by decide⟩ (by decide) fun j t1 y ne ht _ hy => by
    obtain rfl := crossedLanes.slot_of_other ne ht hy
    exact ⟨by decide, .inr ⟨fun st' h => absurd h.2 (by decide), rfl, by decide⟩⟩
  have ours := others fun y hy => by
    obtain rfl := crossedLanes.slot_of_held (hy.resolve_right fun h => absurd h.1 (by decide))
    exact ⟨1, laneOn 1, rfl, rfl, rfl⟩
  obtain ⟨t, run, after⟩ := ours rfl ⟨rfl, by decide⟩ (fun st => (crossedLanes.findings st).2)
    (by simp [crossedLanes, censusOne])
  obtain rfl : crossedLanes.takeCensus = t := Host.Outcome.next.inj run
  obtain ⟨held, free, cleared⟩ := crossedLanes.after_census
  obtain ⟨-, same, -⟩ := after 1 (by decide) free (by decide) fun j hj => by
    obtain rfl : j = 0 := Nat.lt_one_iff.1 hj
    exact .inl held
  have kept : crossedLanes.takeCensus.call? 0 = some crossedCall := by
    rw [State.call?, State.record, same]
    rfl
  rw [cleared] at kept
  cases kept

end Sys2Proof.Machine
end

