-- ==== Sys2Proof/Proofs/EarlyCalls.lean ====
section
/-! PROOF. A caller's record before any lane is open for it: its updates, its clearing, and the path that it claims
(R43, R51, R52, R62). -/

namespace Sys2Proof.Machine

open Sys2Proof

/-- A call outside conferences for which no lane has opened yet and no far record can exist (R47, R62). -/
structure Call.Early (k : Call) : Prop where
  state : k.state = .dialing ∨ k.state = .routing
  plain : k.confRole = .none
  talkLane : k.talkLane = none
  listenLanes : k.listenLanes = []

/-- Such a call is a front record that does not ring, and its far end is not told of its end. -/
theorem Call.Early.front {k : Call} (h : k.Early) : k.isFront = true ∧ k.isClearing = false ∧ k.farMayExist = false ∧
    k.ringing = false ∧ k.state ≠ .held := by
  rcases h.state with st | st <;> simp [Call.isFront, Call.isClearing, Call.farMayExist, Call.ringing, st]

/-- The record is FREE, the set of its port hears TONE REORDER, and every other record's call stands. -/
structure FreedWithReorder (s t : State) (r : RecordId) (p : Port) : Prop where
  free : t.call? r = none
  tone : (t.port p).tone = .reorder
  others : ∀ q, q ≠ r → t.call? q = s.call? q

/-- The record claims a path: its call is the one given, and no table of the Admission Unit and no port has changed. -/
structure ClaimsPath (s t : State) (r : RecordId) (k : Call) : Prop where
  call : t.call? r = some k
  adm : t.adm = s.adm
  ports : t.ports = s.ports

namespace State

/-! ### Updates of one call -/

theorem modCall_of_call {s : State} {r : RecordId} {k : Call} (hk : s.call? r = some k) (f : Call → Call) :
    s.modCall r f = s.setCall r (f k) := by
  simp [modCall, hk]

theorem record_setCall_ne {r q : RecordId} (k : Call) (s : State) (h : q ≠ r) : (s.setCall r k).record q = s.record q :=
  record_setRecord_ne _ s h

@[simp] theorem setCall_setCall (r : RecordId) (k k' : Call) (s : State) :
    (s.setCall r k).setCall r k' = s.setCall r k' := by
  simp [setCall, setRecord, record, upd, Vector.get_eq_getElem]

@[simp] theorem modCall_setCall (r : RecordId) (k : Call) (f : Call → Call) (s : State) :
    (s.setCall r k).modCall r f = s.setCall r (f k) := by
  rw [modCall_of_call (call_setCall_same r k s), setCall_setCall]

theorem setCallState_setCall {k : Call} (ht : k.talkLane = none) (r : RecordId) (st : CallState) (s : State) :
    (s.setCall r k).setCallState r st = s.setCall r { k with state := st } := by
  simp [setCallState, ht]

/-! ### Clearing (R62, R66) -/

section
variable {k : Call} (early : k.Early)
include early

/-- The end of an early call gives up no lane and leaves no stack, so that no other record is concerned. -/
theorem record_endRecord_early {s : State} {r q : RecordId} (hk : s.call? r = some k) (c : Cause) (tone : Option Tone)
    (hq : q ≠ r) : (s.endRecord r c tone).record q = s.record q := by
  obtain ⟨-, -, -, quiet, notHeld⟩ := early.front
  have own (u : State) (f : Call → Call) : (u.modCall r f).record q = u.record q := by
    unfold modCall
    split
    · exact record_setCall_ne _ u hq
    · rfl
  have heard (u : State) (x : Tone) : (u.setTone k.port x).record q = u.record q := by
    simp only [record, setTone_records]
  have detached (u : State) : (u.detach r).record q = u.record q := rfl
  simp only [endRecord, hk, quiet, Bool.and_false, Bool.false_eq_true, if_false, early.talkLane, early.listenLanes,
    notHeld, own, closeListens, List.foldl_nil, detached]
  split
  · split
    · rw [heard, own]
    · exact own s _
  · exact own s _

theorem clearRecord_early {s : State} {p : Port} {c : Cause} (r : RecordId) (hp : k.port = p)
    (up : (s.port p).state = .up) (off : (s.callPort p).hookView = .off) (reorder : c.tone = some .reorder) :
    FreedWithReorder s ((s.setCall r k).clearRecord r c) r p := by
  subst hp
  have hk : (s.setCall r k).call? r = some k := call_setCall_same r k s
  obtain ⟨front, open_, alone, -, -⟩ := early.front
  have run : (s.setCall r k).clearRecord r c = ((s.setCall r k).endRecord r c c.tone).freeRecord r := by
    simp [clearRecord, clearRecordTone, open_, alone, early.plain]
  refine ⟨?_, (clearRecord_hear r c .reorder _ reorder).2 k hk front up off, fun q hq => ?_⟩
  · rw [run, call_freeRecord_same]
  · rw [run, call_freeRecord_ne _ hq, call?, record_endRecord_early early hk c _ hq, record_setCall_ne k s hq, call?]

end

/-! ### The path of a routed caller (R51, R52) -/

theorem requestFirstTalkKey_ports (l : TalkId) (s : State) : (s.requestFirstTalkKey l).ports = s.ports := by
  unfold requestFirstTalkKey
  split
  · split
    · rename_i p _
      rcases mixRequest_cases (.talk l (s.talkOpening l)) s.secret _ p 0 s with ⟨-, h⟩ | ⟨-, h⟩ <;> rw [h] <;> simp
    · rfl
  · rfl

theorem addClaim_ports (e : Claim) (s : State) : (s.addClaim e).ports = s.ports := by simp [addClaim, offerClaim]

/-- The lowest FREE lane opens, whatever becomes of its claim's cell in the queue. -/
theorem openTalk_claimsPath {s : State} {r : RecordId} {k : Call} {l : TalkId} (hk : s.call? r = some k)
    (hl : LowestFreeTalk s l) (hz : ∃ z, Claimable s z) : (s.openTalk r none).2 = true ∧
    ClaimsPath s (s.openTalk r none).1 r { k with talkLane := some l } := by
  obtain ⟨z, hz⟩ := hz
  set u := ((s.drawNonce.1.setTalkPlace l { opening := (s.talkPlace l).opening + 1, lane := some {
    state := .claiming, owner := r, ownerTag := s.callTag r, ownNonce := s.drawNonce.2, partner := none } }).modCall r
      fun k => { k with talkLane := some l }) with hu
  have slots : u.slots = s.slots := by simp [hu, drawNonce_eq]
  obtain ⟨x, hx⟩ := selectSlot_of_claimable (s := u) (z := z) (by simpa only [Claimable, slots] using hz)
  set v := u.addClaim { kind := .claim, slot := x, lane := some l } with hv
  have run : s.openTalk r none = (v.requestFirstTalkKey l, true) := by
    simp only [openTalk, firstFreeTalk_of_lowest hl, ← hu, firstClaim, hx, ← hv, if_true]
  obtain ⟨adm, calls⟩ := requestFirstTalkKey_frame l v
  rw [run]
  refine ⟨rfl, ?_, ?_, ?_⟩
  · rw [call_of_calls (calls.trans (addClaim_calls _ _)), hu, call_modCall_same]
    exact congrArg (Option.map _) hk
  · rw [adm, hv, addClaim_adm, hu, modCall_adm]
    rfl
  · rw [requestFirstTalkKey_ports, hv, addClaim_ports, hu, modCall_ports]
    rfl

theorem routeTo_claimsPath {s : State} {k : Call} {l : TalkId} (r : RecordId) (far : Station) (ep : Option Epoch)
    (ht : k.talkLane = none) (hl : LowestFreeTalk s l) (hz : ∃ z, Claimable s z) :
    ClaimsPath s ((s.setCall r k).routeTo r far ep) r { k with
      farStation := some far, calledEpoch := ep, farTag := Tag.absent, talkLane := some l } := by
  set k' : Call := { k with farStation := some far, calledEpoch := ep, farTag := Tag.absent } with hk'
  have call : (s.setCall r k').call? r = some k' := call_setCall_same r k' s
  obtain ⟨ok, path⟩ := openTalk_claimsPath (s := s.setCall r k') call hl hz
  have run : (s.setCall r k).routeTo r far ep = ((s.setCall r k').openTalk r none).1 := by
    have lane : ((s.setCall r k').call? r).bind (·.talkLane) = none := by rw [call]; exact ht
    simp only [routeTo, modCall_setCall, ← hk', lane, claimPath, ok, if_true]
  rw [run]
  exact ⟨path.call, path.adm, path.ports⟩

/-! ### A complete number of a divert (R43) -/

section
variable {s : State} {k : Call} {i : Fin 8} (r : RecordId)

theorem completeDivert_of_target (ht : k.talkLane = none) (target : TargetPresent s i) :
    (s.setCall r k).completeDivert r (s.calls.diverts.get i).target =
      (s.setCall r { k with timer := none, state := .routing }).routeTo r (s.calls.diverts.get i).target none := by
  set d := (s.calls.diverts.get i).target with hd
  have plan : ∀ k', (s.setCall r k').calls.plan.get d = s.calls.plan.get d := fun _ => rfl
  have self : ∀ k', (s.setCall r k').self = s.self := fun _ => rfl
  have routing := setCallState_setCall (k := { k with timer := none }) ht r .routing s
  simp only [completeDivert, modCall_setCall, plan, self, routing]
  refine if_pos ?_
  rcases target with here | ⟨rg, present⟩
  · split
    · rfl
    all_goals exact decide_eq_true here
  · rw [← hd] at present
    simp [present]

theorem completeDivert_of_noTarget (target : ¬ TargetPresent s i) :
    (s.setCall r k).completeDivert r (s.calls.diverts.get i).target =
      (s.setCall r { k with timer := none }).clearRecord r .farAbsent := by
  obtain ⟨away, absent⟩ := not_or.1 target
  have plan : ∀ k', (s.setCall r k').calls.plan.get = s.calls.plan.get := fun _ => rfl
  have self : ∀ k', (s.setCall r k').self = s.self := fun _ => rfl
  simp only [completeDivert, modCall_setCall, plan, self]
  refine if_neg ?_
  split
  · rename_i rg h
    exact absurd ⟨rg, h⟩ absent
  all_goals simpa using away

theorem completeDivert_claimsPath {l : TalkId} (ht : k.talkLane = none) (target : TargetPresent s i)
    (hl : LowestFreeTalk s l) (hz : ∃ z, Claimable s z) :
    ClaimsPath s ((s.setCall r k).completeDivert r (s.calls.diverts.get i).target) r { k with
      state := .routing, timer := none, farStation := some (s.calls.diverts.get i).target, calledEpoch := none
      farTag := Tag.absent, talkLane := some l } := by
  rw [completeDivert_of_target r ht target]
  exact routeTo_claimsPath r _ none ht hl hz

theorem completeDivert_freed {p : Port} (early : k.Early) (target : ¬ TargetPresent s i) (hp : k.port = p)
    (up : (s.port p).state = .up) (off : (s.callPort p).hookView = .off) :
    FreedWithReorder s ((s.setCall r k).completeDivert r (s.calls.diverts.get i).target) r p := by
  have timed : Call.Early { k with timer := none } := ⟨early.state, early.plain, early.talkLane, early.listenLanes⟩
  rw [completeDivert_of_noTarget r target]
  exact clearRecord_early timed r hp up off rfl

end

end State

end Sys2Proof.Machine
end

