-- ==== Sys2Proof/Proofs/Lookups.lean ====
section
/-! PROOF. Where a number leads: the lookup in the number plan (R40), and the admission lookup of a caller's number
through home record, cache, query and wait list (R23 to R26). -/

namespace Sys2Proof.Machine.State

open Sys2Proof

/-! ### The number plan (R39, R40) -/

theorem lookupNumber_of_divert {s : State} {n : Ext} {i : Fin 8} (h : DivertOf s n i) : s.lookupNumber n =
    .divert (s.calls.diverts.get i).target (s.calls.diverts.get i).outside := by
  obtain ⟨covers, lower⟩ := h
  have first : (s.calls.diverts.toList.find? fun d => d.covers n) = some (s.calls.diverts.get i) := by
    refine List.find?_eq_some_iff_getElem.2 ⟨covers, i.val, by simp, by simp [Vector.get_eq_getElem], fun j hj => ?_⟩
    have := lower ⟨j, hj.trans i.isLt⟩ hj
    simpa [Vector.get_eq_getElem] using this
  simp only [lookupNumber, first]

theorem lookupNumber_of_noDivert {s : State} {n : Ext} (h : ∀ i : Fin 8, (s.calls.diverts.get i).covers n = false) :
    s.lookupNumber n = s.lookupHome n := by
  have none : (s.calls.diverts.toList.find? fun d => d.covers n) = Option.none := by
    refine List.find?_eq_none.2 fun d hd => ?_
    obtain ⟨i, hi, rfl⟩ := List.getElem_of_mem hd
    have := h ⟨i, by simpa using hi⟩
    simpa [Vector.get_eq_getElem] using this
  simp only [lookupNumber, none]

theorem lookupHome_of_noHome {s : State} {n : Ext} (h : s.homeOf n = none) : s.lookupHome n = .noNumber := by
  simp [lookupHome, h]

theorem lookupHome_of_absent {s : State} {n : Ext} {home : Station} {rg : Range} (hh : s.homeOf n = some home)
    (hp : s.calls.plan.get home = .absent rg) : s.lookupHome n = .homeAbsent := by
  simp [lookupHome, hh, hp]

theorem lookupHome_ne_divert (s : State) (n : Ext) (d : Station) (out : Bool) : s.lookupHome n ≠ .divert d out := by
  unfold lookupHome
  split
  · exact fun h => nomatch h
  · split <;> exact fun h => nomatch h

/-! ### The list of queries (R24, R25) -/

section
variable {s : State} {e : Ext} (home : Station) (r : RecordId)

/-- The query for the number takes one more waiter. -/
theorem startQuery_of_asked {i : QueryId} {y : Query} (hq : (s.adm.queries.get i).query = some y) (he : y.ext = e)
    (lower : ∀ j z, j < i → (s.adm.queries.get j).query = some z → z.ext ≠ e) :
    s.startQuery e home r = (s.setQuery i { s.adm.queries.get i with
      query := some { y with waiters := y.waiters ++ [r] } }, .later) := by
  have asked : s.queryFor e = some i := by
    rw [queryFor, ← Fin.find?_eq_find?_finRange, Fin.find?_eq_some_iff]
    refine ⟨by simp [hq, he], fun j hj => ?_⟩
    cases hz : (s.adm.queries.get j).query with
    | none => rfl
    | some z => simpa using lower j z hj hz
  simp only [startQuery, asked, hq, Option.map_some]

variable (unasked : ∀ i z, (s.adm.queries.get i).query = some z → z.ext ≠ e)
include unasked

theorem queryFor_of_unasked : s.queryFor e = none := by
  refine List.find?_eq_none.2 fun i _ => ?_
  cases hz : (s.adm.queries.get i).query with
  | none => simp
  | some z => simpa using unasked i z hz

/-- The lowest empty place takes the query, whose ADMIT-ASK goes to the home. -/
theorem startQuery_of_lowest {i : QueryId} (hi : (s.adm.queries.get i).query = none)
    (lower : ∀ j, j < i → (s.adm.queries.get j).query ≠ none) (room : QueueRoom 1 s) :
    (s.startQuery e home r).2 = .later ∧
    (s.startQuery e home r).1.adm.queries.get i = {
      incarnation := (s.adm.queries.get i).incarnation + 1
      query := some { ext := e, home := home, timer := some 8, waiters := [r] } } ∧
    (s.startQuery e home r).1.calls = s.calls ∧
    Queues s (s.startQuery e home r).1
      [cellFrom s home ⟨byteOf i.val, (s.adm.queries.get i).incarnation + 1⟩ Tag.absent (.admitAsk e)] := by
  have place : s.emptyQueryPlace = some i := by
    rw [emptyQueryPlace, ← Fin.find?_eq_find?_finRange, Fin.find?_eq_some_iff]
    exact ⟨by simp [hi], fun j hj => by simpa [Option.isSome_iff_ne_none] using lower j hj⟩
  set u := s.setQuery i {
    incarnation := (s.adm.queries.get i).incarnation + 1
    query := some { ext := e, home := home, timer := none, waiters := [r] } } with hu
  have tag : u.queryTag i = ⟨byteOf i.val, (s.adm.queries.get i).incarnation + 1⟩ := by simp [queryTag, hu]
  have ok := (QueueRoom.offer (n := 0) (s := u) room
    (u.cellTo home (u.queryTag i) Tag.absent (.admitAsk e)) .plain).1
  simp only [startQuery, queryFor_of_unasked unasked, place, ← hu, ok, if_true]
  refine ⟨trivial, by simp [hu], rfl, ?_⟩
  rw [Queues, tag, setQuery_highway, enqueue_queue, List.map_append]
  rfl

/-- With no empty place nothing changes, and the record has to wait for one. -/
theorem startQuery_of_full (full : ∀ i, (s.adm.queries.get i).query ≠ none) : s.startQuery e home r = (s, .full) := by
  have place : s.emptyQueryPlace = none := List.find?_eq_none.2 fun i _ => by simpa using full i
  simp only [startQuery, queryFor_of_unasked unasked, place]

end

/-! ### The lookup of a record's number (R23, R25) -/

section
variable {s : State} {e : Ext} {home : Station} {rg : Range}

theorem lookupAtPeer_of_cached {y : CacheEntry} (r : RecordId) (hp : s.calls.plan.get home = .present rg)
    (hc : s.cacheEntry e = some y) :
    s.lookupAtPeer e home r = (s.setCache (cacheWith y s.adm.cache), .now (.located y.station y.epoch)) := by
  simp only [lookupAtPeer, hp, hc]

theorem lookupAtPeer_of_uncached (r : RecordId) (hp : s.calls.plan.get home = .present rg)
    (hc : s.cacheEntry e = none) : s.lookupAtPeer e home r = s.startQuery e home r := by
  simp only [lookupAtPeer, hp, hc]

variable {r : RecordId} {k : Call} (hk : s.call? r = some k) (he : k.farExt = some e) (hh : s.homeOf e = some home)
  (hp : s.calls.plan.get home = .present rg)
include hk he hh hp

theorem lookupAgain_of_own (own : home = s.self) : s.lookupAgain r = (s, .now (s.homeAnswer e)) := by
  simp only [lookupAgain, hk, Option.bind_some, he, lookupHome_of_present hh hp, own, if_true]

theorem lookupAgain_of_peer (peer : home ≠ s.self) : s.lookupAgain r = s.lookupAtPeer e home r := by
  simp only [lookupAgain, hk, Option.bind_some, he, lookupHome_of_present hh hp, peer, if_false]

end

section
variable {s t : State} {r : RecordId}

theorem runLookup_of_now {x : LookupResult} (h : s.lookupAgain r = (t, .now x)) (hx : x ≠ .congestion) :
    s.runLookup r = t.giveResult r x := by
  simp [runLookup, relookup, h, hx]

theorem runLookup_of_later (h : (s.lookupAgain r).2 = .later) : s.runLookup r = (s.lookupAgain r).1 := by
  simp [runLookup, relookup, h]

theorem runLookup_of_full (h : s.lookupAgain r = (t, .full)) :
    s.runLookup r = t.setWaitList (t.calls.waitList ++ [r]) := by
  simp [runLookup, relookup, h]

end

/-! ### A result at the record that waits for it (R51) -/

section
variable {k : Call} (hs : k.state = .routing) (r : RecordId) (s : State)
include hs

theorem giveResult_located (far : Station) (ep : Epoch) :
    (s.setCall r k).giveResult r (.located far ep) = (s.setCall r k).routeTo r far (some ep) := by
  simp [giveResult, hs]

theorem giveResult_unreachable :
    (s.setCall r k).giveResult r .unreachable = (s.setCall r k).clearRecord r .unreachable := by
  simp [giveResult, hs]

end

/-! ### The lookup of a caller that has just dialled (R23 to R26, R51, R52) -/

section
variable {s : State} {r : RecordId} {k : Call} {n : Ext} {home : Station} {rg : Range} (hs : k.state = .routing)
  (he : k.farExt = some n) (hh : s.homeOf n = some home) (hp : s.calls.plan.get home = .present rg)
include he hh hp

section
include hs

/-- The own home record locates the number. -/
theorem runLookup_claimsPath_own {h : HomeRecord} {st : Station} {q : Port} {l : TalkId} (own : home = s.self)
    (hr : s.homeRecord n = some h) (located : h.location = some (st, q)) (ht : k.talkLane = none)
    (hl : LowestFreeTalk s l) (hz : ∃ z, Claimable s z) :
    ClaimsPath s ((s.setCall r k).runLookup r) r { k with
      farStation := some st, calledEpoch := some h.epoch, farTag := Tag.absent, talkLane := some l } := by
  have record : (s.setCall r k).homeRecord n = some h := hr
  have answer : (s.setCall r k).homeAnswer n = .located st h.epoch := by simp [homeAnswer, record, located]
  have look := lookupAgain_of_own (s := s.setCall r k) (call_setCall_same r k s) he hh hp own
  rw [runLookup_of_now look (by simp [answer]), answer, giveResult_located hs]
  exact routeTo_claimsPath r st _ ht hl hz

/-- The own home record holds no location. -/
theorem runLookup_freed_own {h : HomeRecord} {p : Port} (own : home = s.self) (hr : s.homeRecord n = some h)
    (unlocated : h.location = none) (early : k.Early) (port : k.port = p) (up : (s.port p).state = .up)
    (off : (s.callPort p).hookView = .off) : FreedWithReorder s ((s.setCall r k).runLookup r) r p := by
  have record : (s.setCall r k).homeRecord n = some h := hr
  have answer : (s.setCall r k).homeAnswer n = .unreachable := by simp [homeAnswer, record, unlocated]
  have look := lookupAgain_of_own (s := s.setCall r k) (call_setCall_same r k s) he hh hp own
  rw [runLookup_of_now look (by simp [answer]), answer, giveResult_unreachable hs]
  exact clearRecord_early early r port up off rfl

/-- A cache entry locates the number, and moves to the first place. -/
theorem runLookup_claimsPath_cached {y : CacheEntry} {l : TalkId} (peer : home ≠ s.self)
    (hc : s.cacheEntry n = some y) (ht : k.talkLane = none) (hl : LowestFreeTalk s l) (hz : ∃ z, Claimable s z) :
    ClaimsPath (s.setCache (cacheWith y s.adm.cache)) ((s.setCall r k).runLookup r) r { k with
      farStation := some y.station, calledEpoch := some y.epoch, farTag := Tag.absent, talkLane := some l } := by
  have look := (lookupAgain_of_peer (s := s.setCall r k) (call_setCall_same r k s) he hh hp peer).trans
    (lookupAtPeer_of_cached (s := s.setCall r k) r hp hc)
  rw [runLookup_of_now look (by simp)]
  exact (giveResult_located hs r (s.setCache _) y.station y.epoch).symm ▸ routeTo_claimsPath r _ _ ht hl hz

end

section
variable (peer : home ≠ s.self) (hc : s.cacheEntry n = none)
include peer hc

theorem lookupAgain_of_uncached :
    (s.setCall r k).lookupAgain r = (s.setCall r k).startQuery n home r :=
  (lookupAgain_of_peer (s := s.setCall r k) (call_setCall_same r k s) he hh hp peer).trans
    (lookupAtPeer_of_uncached (s := s.setCall r k) r hp hc)

/-- The query for the number takes the record as one more waiter. -/
theorem runLookup_of_asked {i : QueryId} {y : Query} (hq : (s.adm.queries.get i).query = some y) (hy : y.ext = n)
    (lower : ∀ j z, j < i → (s.adm.queries.get j).query = some z → z.ext ≠ n) :
    (s.setCall r k).runLookup r = (s.setCall r k).setQuery i { s.adm.queries.get i with
      query := some { y with waiters := y.waiters ++ [r] } } := by
  have look := (lookupAgain_of_uncached (r := r) he hh hp peer hc).trans
    (startQuery_of_asked (s := s.setCall r k) home r hq hy lower)
  rw [runLookup_of_later (congrArg Prod.snd look), look]
  rfl

variable (unasked : ∀ i z, (s.adm.queries.get i).query = some z → z.ext ≠ n)
include unasked

/-- The lowest empty place starts the query. -/
theorem runLookup_of_lowest {i : QueryId} (hi : (s.adm.queries.get i).query = none)
    (lower : ∀ j, j < i → (s.adm.queries.get j).query ≠ none) (room : QueueRoom 1 s) :
    ((s.setCall r k).runLookup r).call? r = some k ∧
    ((s.setCall r k).runLookup r).adm.queries.get i = {
      incarnation := (s.adm.queries.get i).incarnation + 1
      query := some { ext := n, home := home, timer := some 8, waiters := [r] } } ∧
    Queues s ((s.setCall r k).runLookup r)
      [cellFrom s home ⟨byteOf i.val, (s.adm.queries.get i).incarnation + 1⟩ Tag.absent (.admitAsk n)] := by
  have look := lookupAgain_of_uncached (r := r) he hh hp peer hc
  obtain ⟨later, place, calls, cells⟩ :=
    startQuery_of_lowest (s := s.setCall r k) home r unasked hi lower room
  rw [runLookup_of_later (by rw [look, later]), look]
  exact ⟨(call_of_calls calls r).trans (call_setCall_same r k s), place, cells⟩

/-- With every place in use the record joins the query wait list. -/
theorem runLookup_of_allInUse (full : ∀ i, (s.adm.queries.get i).query ≠ none) :
    (s.setCall r k).runLookup r = (s.setCall r k).setWaitList (s.calls.waitList ++ [r]) :=
  runLookup_of_full ((lookupAgain_of_uncached (r := r) he hh hp peer hc).trans
    (startQuery_of_full (s := s.setCall r k) home r unasked full))

end

end

end Sys2Proof.Machine.State
end

