-- ==== Sys2Proof/Proofs/Digits.lean ====
section
/-! PROOF. Digits make a number, which is located, diverted or refused (R23 to R26, R40 to R43, R49, R51, R52). -/

namespace Sys2Proof.Machine

open Sys2Proof

/-- The call when its four digits are complete (R41). -/
def Call.withNumber (k : Call) (n : Ext) : Call := { k with timer := none, farExt := some n, dialled := [] }

theorem Call.Early.withNumber {k : Call} (h : k.Early) (n : Ext) : (k.withNumber n).Early :=
  ⟨h.state, h.plain, h.talkLane, h.listenLanes⟩

/-- The call while its number is looked up (R41, R51). -/
def Call.routingTo (k : Call) (n : Ext) : Call := { k.withNumber n with state := .routing }

theorem numberOf_four (a b c d : Digit) :
    numberOf ([a, b, c] ++ [d]) = a.val * 1000 + b.val * 100 + c.val * 10 + d.val := by
  change (((0 * 10 + a.val) * 10 + b.val) * 10 + c.val) * 10 + d.val = _
  omega

theorem Rights.mayInternal_iff {x : Rights} : Rights.mayInternal x = true ↔ x ≠ 0 := by
  revert x; decide

theorem Rights.mayOutside_iff {x : Rights} : Rights.mayOutside x = true ↔ x = 3 := by
  revert x; decide

namespace State

/-! ### The digit at the port (R49, R150) -/

/-- The oldest digit leaves the FIFO of a port that has then offered its event. -/
def digitTaken (p : Port) (s : State) : State :=
  s.modPort p fun u => { u with digits := u.digits.drop 1, offered := true }

theorem port_digitTaken (p : Port) (s : State) : (s.digitTaken p).port p =
    { s.port p with digits := (s.port p).digits.drop 1, offered := true } :=
  port_modPort_same p _ s

theorem takeDigitEvent_of_due {s : State} {p : Port} {d : Digit} (due : s.dueEvent p = some (.digit d)) :
    s.takeDigitEvent p = (s.digitTaken p).takeDigit p d := by
  simp only [takeDigitEvent, takeOffer, due]
  rfl

theorem takeDigit_of_dialing {s : State} {p : Port} {r : RecordId} {k : Call} (d : Digit) (front : FrontIs s p r k)
    (dialing : k.state = .dialing) : s.takeDigit p d = s.dialDigit r k d := by
  simp only [takeDigit, front.1, front.2, dialing, if_true]

theorem takeDigit_of_other {s : State} {p : Port} (d : Digit)
    (h : s.front p = none ∨ ∃ r k, FrontIs s p r k ∧ k.state ≠ .dialing) : s.takeDigit p d = s := by
  rcases h with none | ⟨r, k, front, other⟩
  · simp only [takeDigit, none]
  · simp only [takeDigit, front.1, front.2, other, if_false]

/-! ### The digit at a record in DIALING (R42, R49) -/

section
variable {s : State} {r : RecordId} {k : Call} (d : Digit)

/-- The divert of the dialled number is found again when its onward digits are complete (R42, R43). -/
theorem completeOnward_of_divert {n : Ext} {i : Fin 8} (numbered : k.farExt = some n) (divert : DivertOf s n i) :
    (s.setCall r k).completeOnward r = (s.setCall r k).completeDivert r (s.calls.diverts.get i).target := by
  have number : (s.setCall r k).lookupNumber n =
    .divert (s.calls.diverts.get i).target (s.calls.diverts.get i).outside := lookupNumber_of_divert divert
  simp only [completeOnward, call_setCall_same, Option.bind_some, numbered, number]

theorem dialDigit_of_few (unnumbered : k.farExt = none) (few : k.dialled.length < 3) :
    s.dialDigit r k d = (if k.dialled = [] then s.setTone k.port .none else s).modCall r
      fun k => { k with dialled := k.dialled ++ [d], timer := some 1250 } := by
  simp only [dialDigit, unnumbered, few, if_true, List.isEmpty_iff]

/-- The first digit ends dial tone, and each of the first three starts the timer again (R49). -/
theorem dialDigit_kept {p : Port} (unnumbered : k.farExt = none) (few : k.dialled.length < 3) (hk : s.call? r = some k)
    (hp : k.port = p) (up : (s.port p).state = .up) :
    (s.dialDigit r k d).call? r = some { k with dialled := k.dialled ++ [d], timer := some 1250 } ∧
    ((s.dialDigit r k d).port p).tone = (if k.dialled = [] then .none else (s.port p).tone) ∧
    (∀ q, q ≠ r → (s.dialDigit r k d).record q = s.record q) ∧ (s.dialDigit r k d).highway = s.highway := by
  subst hp
  rw [dialDigit_of_few d unnumbered few]
  obtain ⟨v, hv, records, tone, highway⟩ : ∃ v, (if k.dialled = [] then s.setTone k.port .none else s) = v ∧
      (∀ q, v.record q = s.record q) ∧ (v.port k.port).tone = (if k.dialled = [] then .none else (s.port k.port).tone) ∧
      v.highway = s.highway := by
    split
    · exact ⟨_, rfl, fun q => by simp only [record, setTone_records], by rw [port_setTone_same _ up],
        setTone_highway ..⟩
    · exact ⟨_, rfl, fun _ => rfl, rfl, rfl⟩
  have call : v.call? r = some k := by rw [call?, records]; exact hk
  rw [hv, modCall_of_call call]
  exact ⟨call_setCall_same .., tone, fun q hq => (record_setCall_ne _ v hq).trans (records q), highway⟩

theorem dialDigit_of_fourth {a b c : Digit} (unnumbered : k.farExt = none) (three : k.dialled = [a, b, c]) :
    s.dialDigit r k d = s.fourthDigit r k.port (a.val * 1000 + b.val * 100 + c.val * 10 + d.val) := by
  simp only [dialDigit, unnumbered, three, numberOf_four]
  rfl

variable (hk : s.call? r = some k)
include hk

theorem dialDigit_of_onward {n : Ext} (numbered : k.farExt = some n) (few : k.onward.length < 11) :
    s.dialDigit r k d = s.setCall r { k with onward := k.onward ++ [d], timer := some 500 } := by
  have more : k.onward.length + 1 < 12 := by omega
  simp only [dialDigit, numbered, more, if_true, modCall_of_call hk]

/-- The twelfth completes the number (R42). -/
theorem dialDigit_of_twelfth {n : Ext} {i : Fin 8} (numbered : k.farExt = some n) (eleven : 11 ≤ k.onward.length)
    (divert : DivertOf s n i) : s.dialDigit r k d =
      (s.setCall r { k with onward := k.onward ++ [d], timer := some 500 }).completeDivert r
        (s.calls.diverts.get i).target := by
  have full : ¬ k.onward.length + 1 < 12 := by omega
  rw [← completeOnward_of_divert (k := { k with onward := k.onward ++ [d], timer := some 500 }) numbered divert]
  simp only [dialDigit, numbered, full, if_false, modCall_of_call hk]

end

/-! ### The fourth digit: lookup and rights (R41) -/

/-- A number is refused at once: it has no home, its home is ABSENT, or the class of the login has no right to it. -/
inductive RefusesNumber (s : State) (p : Port) (n : Ext) : Prop where
  | noNumber (number : s.lookupNumber n = .noNumber)
  | homeAbsent (number : s.lookupNumber n = .homeAbsent)
  | noInternal (rights : s.rightsAt p = 0) (number : ∀ target, s.lookupNumber n ≠ .divert target true)
  | noOutside (rights : s.rightsAt p ≠ 3) {target : Station} (number : s.lookupNumber n = .divert target true)

section
variable {s : State} {r : RecordId} {k : Call} {p : Port} {n : Ext} (hk : s.call? r = some k)
include hk

theorem fourthDigit_of_refused (h : s.RefusesNumber p n) : ∃ c : Cause, c.tone = some .reorder ∧
    s.fourthDigit r p n = (s.setCall r (k.withNumber n)).clearRecord r c := by
  have number : (s.setCall r (k.withNumber n)).lookupNumber n = s.lookupNumber n := rfl
  rw [fourthDigit, modCall_of_call hk, ← Call.withNumber]
  simp only [number]
  have internal (no : s.rightsAt p = 0) : ¬ Rights.mayInternal (s.rightsAt p) = true :=
    fun may => Rights.mayInternal_iff.1 may no
  cases h with
  | noNumber number => exact ⟨.noNumber, rfl, by rw [number]⟩
  | homeAbsent number =>
    rw [number]
    by_cases may : Rights.mayInternal (s.rightsAt p) = true
    · exact ⟨.homeAbsent, rfl, if_pos may⟩
    · exact ⟨.restricted, rfl, if_neg may⟩
  | noInternal no number =>
    cases x : s.lookupNumber n with
    | noNumber => exact ⟨.noNumber, rfl, rfl⟩
    | homeAbsent | home st => exact ⟨.restricted, rfl, if_neg (internal no)⟩
    | divert target out => cases out with
      | false => exact ⟨.restricted, rfl, if_neg (internal no)⟩
      | true => exact absurd x (number target)
  | noOutside no number =>
    rw [number]
    exact ⟨.restricted, rfl, if_neg fun may => no (Rights.mayOutside_iff.1 may)⟩

theorem fourthDigit_of_home {home : Station} (ht : k.talkLane = none) (hn : s.lookupNumber n = .home home)
    (hr : s.rightsAt p ≠ 0) : s.fourthDigit r p n =
      (s.setCall r (k.routingTo n)).runLookup r := by
  have number : (s.setCall r (k.withNumber n)).lookupNumber n = .home home := hn
  have routing := setCallState_setCall (k := k.withNumber n) ht r .routing s
  rw [fourthDigit, modCall_of_call hk, ← Call.withNumber]
  simp only [number, routing]
  exact if_pos (Rights.mayInternal_iff.2 hr)

theorem fourthDigit_of_divert {target : Station} (hn : s.lookupNumber n = .divert target false)
    (hr : s.rightsAt p ≠ 0) : s.fourthDigit r p n =
      (s.setCall r { k.withNumber n with divert := true }).completeDivert r target := by
  have number : (s.setCall r (k.withNumber n)).lookupNumber n = .divert target false := hn
  rw [fourthDigit, modCall_of_call hk, ← Call.withNumber]
  simp only [number, modCall_setCall]
  exact if_pos (Rights.mayInternal_iff.2 hr)

theorem fourthDigit_of_outside {target : Station} (hn : s.lookupNumber n = .divert target true)
    (hr : s.rightsAt p = 3) : s.fourthDigit r p n =
      s.setCall r { k.withNumber n with divert := true, onward := [], timer := some 500 } := by
  have number : (s.setCall r (k.withNumber n)).lookupNumber n = .divert target true := hn
  rw [fourthDigit, modCall_of_call hk, ← Call.withNumber]
  simp only [number, modCall_setCall]
  exact if_pos (Rights.mayOutside_iff.2 hr)

theorem fourthDigit_freed (early : k.Early) (port : k.port = p) (up : (s.port p).state = .up)
    (off : (s.callPort p).hookView = .off) (h : s.RefusesNumber p n) :
    FreedWithReorder s (s.fourthDigit r p n) r p := by
  obtain ⟨c, reorder, run⟩ := fourthDigit_of_refused hk h
  rw [run]
  exact clearRecord_early (early.withNumber n) r port up off reorder

end

end State

/-- A digit that is due at a front record in DIALING is that record's. -/
theorem completes_digit {s : State} {p : Port} {r : RecordId} {k : Call} {d : Digit} {P : State → Prop}
    (due : s.dueEvent p = some (.digit d)) (front : FrontIs s p r k) (dialing : k.state = .dialing)
    (h : P ((s.digitTaken p).dialDigit r k d)) : Completes (.digit p) s P := by
  refine ⟨_, congrArg Host.Outcome.next (State.takeDigitEvent_of_due due), ?_⟩
  rw [State.takeDigit_of_dialing (s := s.digitTaken p) d front dialing]
  exact h

/-- Settles O28: the digit leaves the FIFO, and what the record does with it goes by the digits it holds, by where its
number leads, and by the class of the login. -/
theorem digitsMakeANumber : Obligations.DigitsMakeANumber := by
  intro s p d up due
  refine ⟨fun other => ?_, fun r k front dialing => ?_⟩
  · refine ⟨_, congrArg Host.Outcome.next (State.takeDigitEvent_of_due due), ?_⟩
    rw [State.takeDigit_of_other (s := s.digitTaken p) d other]
    exact ⟨State.port_digitTaken p s, rfl⟩
  have port : k.port = p := by
    obtain ⟨k', hk', port, -⟩ := State.front_spec front.1
    obtain rfl : k' = k := Option.some.inj (hk'.symm.trans front.2)
    exact port
  have run {P : State → Prop} (h : P ((s.digitTaken p).dialDigit r k d)) : Completes (.digit p) s P :=
    completes_digit due front dialing h
  set u := s.digitTaken p with hu
  have hk : u.call? r = some k := front.2
  have upU : (u.port p).state = .up := by rw [hu, State.port_digitTaken]; exact up
  have toneU : (u.port p).tone = (s.port p).tone := by rw [hu, State.port_digitTaken]
  intro fails
  have freed {t : State} (h : FreedWithReorder u t r p) : t.call? r = none ∧ (t.port p).tone = .reorder ∧
      ∀ q, q ≠ r → t.call? q = s.call? q := ⟨h.free, h.tone, h.others⟩
  refine ⟨fun unnumbered few => run ?_, fun n numbered few => run ?_, fun n i numbered eleven divert lane =>
    ⟨fun l target hl hz => run ?_, fun target plain off listen => run ?_⟩, ?_⟩
  · obtain ⟨call, tone, others, highway⟩ := State.dialDigit_kept d unnumbered few hk port upU
    exact ⟨call, tone.trans (by rw [toneU]), others, highway⟩
  · rw [State.dialDigit_of_onward d hk numbered few]
    exact ⟨State.call_setCall_same .., toneU⟩
  · rw [State.dialDigit_of_twelfth d hk numbered eleven divert]
    have path := State.completeDivert_claimsPath (s := u) (i := i) (l := l) r
      (k := { k with onward := k.onward ++ [d], timer := some 500 }) lane target hl hz
    exact ⟨path.call, (congrArg PortUnit.tone (State.port_of_ports path.ports p)).trans toneU⟩
  · rw [State.dialDigit_of_twelfth d hk numbered eleven divert]
    exact freed (State.completeDivert_freed (s := u) r ⟨.inl dialing, plain, lane, listen⟩ target port upU off)
  intro a b c unnumbered three plain off n
  have fourth {P : State → Prop} (h : P (u.fourthDigit r p n)) : Completes (.digit p) s P :=
    run (by rw [State.dialDigit_of_fourth d unnumbered three, port]; exact h)
  have refused (lane : k.talkLane = none) (listen : k.listenLanes = []) (h : u.RefusesNumber p n) :
      fails :=
    fourth (freed (State.fourthDigit_freed hk ⟨.inl dialing, plain, lane, listen⟩ port upU off h))
  refine ⟨fun noDivert => ?_, fun i divert out => ?_, fun i divert out lane => ?_⟩
  · have number : u.lookupNumber n = u.lookupHome n := State.lookupNumber_of_noDivert noDivert
    have asks {home : Station} {rg : Range} {P : State → Prop} (hh : s.homeOf n = some home)
        (hp : s.calls.plan.get home = .present rg) (right : s.rightsAt p ≠ 0) (lane : k.talkLane = none)
        (h : P ((u.setCall r (k.routingTo n)).runLookup r)) : Completes (.digit p) s P := by
      have leads : u.lookupNumber n = .home home := number.trans (State.lookupHome_of_present (s := u) hh hp)
      exact fourth (State.fourthDigit_of_home hk lane leads right ▸ h)
    refine ⟨fun no lane listen => ?_, fun _ class0 lane listen => ?_, fun rg h hh hp hr right lane =>
        ⟨fun unlocated listen => asks hh hp right lane ?_, fun st q l located hl hz => asks hh hp right lane ?_⟩,
      fun home hh peer right lane => ⟨fun rg hp listen => ?_, fun rg hp =>
        ⟨fun y l cached hl hz => asks hh hp right lane ?_, fun i y uncached hq hy lower => asks hh hp right lane ?_,
          fun unasked uncached => ⟨fun i hi lower room => asks hh hp right lane ?_,
            fun full => asks hh hp right lane ?_⟩⟩⟩⟩
    · exact refused lane listen (.noNumber (number.trans (State.lookupHome_of_noHome no)))
    · exact refused lane listen (.noInternal class0 fun target => number ▸ State.lookupHome_ne_divert u n target true)
    · exact freed (State.runLookup_freed_own (s := u) (k := k.routingTo n) rfl rfl hh hp rfl hr unlocated
        ⟨.inr rfl, plain, lane, listen⟩ port upU off)
    · exact (State.runLookup_claimsPath_own (s := u) (k := k.routingTo n) rfl rfl hh hp rfl hr located lane hl hz).call
    · exact refused lane listen (.homeAbsent (number.trans (State.lookupHome_of_absent (s := u) hh hp)))
    · have path := State.runLookup_claimsPath_cached (s := u) (k := k.routingTo n) (r := r) rfl rfl hh hp peer cached
        lane hl hz
      exact ⟨by rw [path.adm]; rfl, by rw [path.adm]; rfl, path.call⟩
    · rw [State.runLookup_of_asked (s := u) rfl hh hp peer uncached hq hy lower]
      exact ⟨State.call_setCall_same r _ u, rfl, State.query_setQuery_same ..⟩
    · obtain ⟨routed, place, cells⟩ := State.runLookup_of_lowest (s := u) (r := r) (k := k.routingTo n) rfl hh hp peer
        uncached unasked hi lower room
      exact ⟨routed, place, cells⟩
    · rw [State.runLookup_of_allInUse (s := u) rfl hh hp peer uncached unasked full]
      exact ⟨State.call_setCall_same r _ u, rfl, rfl, rfl⟩
  · have number : u.lookupNumber n = .divert (s.calls.diverts.get i).target true :=
      out ▸ State.lookupNumber_of_divert (s := u) divert
    refine ⟨fun class3 => fourth ?_, fun other lane listen => refused lane listen (.noOutside other number)⟩
    · rw [State.fourthDigit_of_outside hk number class3]
      exact State.call_setCall_same ..
  · have number : u.lookupNumber n = .divert (s.calls.diverts.get i).target false :=
      out ▸ State.lookupNumber_of_divert (s := u) divert
    refine ⟨fun l right target hl hz => fourth ?_, fun closed listen => ?_⟩
    · rw [State.fourthDigit_of_divert hk number right]
      have path := State.completeDivert_claimsPath (s := u) r (k := { k.withNumber n with divert := true }) lane target
        hl hz
      exact path.call
    · by_cases class0 : s.rightsAt p = 0
      · exact refused lane listen (.noInternal class0 (by simp [number]))
      · refine fourth ?_
        rw [State.fourthDigit_of_divert hk number class0]
        exact freed (State.completeDivert_freed (s := u) r (k := { k.withNumber n with divert := true })
          ⟨.inl dialing, plain, lane, listen⟩ (closed.resolve_left class0) port upU off)

end Sys2Proof.Machine
end

