-- ==== Sys2Proof/Proofs/ImageFields.lean ====
section
/-! PROOF. What an image that `decodeImage` accepts holds in its bytes: the ranges of R175's table, and its divert entries
at the offsets of spec 12. -/

namespace Sys2Proof.Machine

open Sys2Proof

/-! ### One field -/

theorem toNat_of_indexOf {n : Nat} {b : Byte} {i : Fin n} (h : indexOf n b = some i) : b.toNat = i.val := by
  unfold indexOf at h
  split at h
  · cases h; rfl
  · cases h

/-- A field that is read on has been found in its range. -/
theorem of_bind_inRange {α : Type} {v low high : Nat} {f : Nat → Option α} {x : α}
    (h : (inRange v low high >>= f) = some x) : (low ≤ v ∧ v ≤ high) ∧ f v = some x := by
  unfold inRange at h
  split at h
  · exact ⟨by assumption, h⟩
  · cases h

/-- A field is read on as its value, or as its default where it is zero, and that lies in its range. -/
theorem of_bind_defaulted {α : Type} {v d low high : Nat} {f : Nat → Option α} {x : α}
    (h : (defaulted v d low high >>= f) = some x) :
    (low ≤ (if v = 0 then d else v) ∧ (if v = 0 then d else v) ≤ high) ∧ f (if v = 0 then d else v) = some x :=
  of_bind_inRange (v := if v = 0 then d else v) h

theorem maintenanceAt_some {b : Byte} {self : Station} {m : Option Station} (h : maintenanceAt b self = some m) :
    b.toNat = 0xFF ∨ (b.toNat < 16 ∧ b.toNat ≠ self.val) := by
  unfold maintenanceAt at h
  split at h
  · rename_i none
    exact .inl (by rw [none]; rfl)
  · cases hi : indexOf 16 b with
    | none => simp [hi] at h
    | some st =>
      have other : st ≠ self := by
        rintro rfl
        simp [hi] at h
      rw [toNat_of_indexOf hi]
      exact .inr ⟨st.isLt, fun e => other (Fin.ext e)⟩

/-- An entry lies at its offset: low, high, target and flags; its range is not empty and ends at 9999 at most. -/
theorem divertAt_some {bs : List Byte} {i : Nat} {d : DivertEntry} (h : divertAt bs i = some d) :
    d.low = fieldAt bs i 2 ∧ d.high = fieldAt bs (i + 2) 2 ∧ d.target.val = (byteAt bs (i + 4)).toNat ∧
      d.low ≤ d.high ∧ d.high ≤ 9999 := by
  unfold divertAt at h
  dsimp only at h
  split at h
  · rename_i t target
    obtain ⟨⟨order, top⟩, rfl⟩ : (_ ∧ _) ∧ _ = d := by simpa using h
    exact ⟨rfl, rfl, (toNat_of_indexOf target).symm, order, top⟩
  · cases h

/-! ### The image -/

/-- The bytes of an image that passes: its check, its format code, and each field in its range (R175, spec 12). -/
structure ImageInRange (bs : List Byte) (im : Image) : Prop where
  check : checkGood 87 bs = true
  format : (byteAt bs 0).toNat = 0x31
  station : (byteAt bs 1).toNat < 16
  low : fieldAt bs 2 2 ≤ 9999
  length : 1 ≤ fieldAt bs 4 2 ∧ fieldAt bs 4 2 ≤ 256
  top : fieldAt bs 2 2 + fieldAt bs 4 2 - 1 ≤ 9999
  rights : (byteAt bs 6).toNat < 4
  reserved : ∀ i, 0x0A ≤ i → i ≤ 0x0D → 1 ≤ (byteAt bs i).toNat ∧ (byteAt bs i).toNat ≤ 8
  maintenance : (byteAt bs 0x0E).toNat = 0xFF ∨
    ((byteAt bs 0x0E).toNat < 16 ∧ (byteAt bs 0x0E).toNat ≠ (byteAt bs 1).toNat)
  lock : (if (byteAt bs 0x0F).toNat = 0 then 60 else (byteAt bs 0x0F).toNat) ≤ 64
  loss : (if (byteAt bs 0x10).toNat = 0 then 48 else (byteAt bs 0x10).toNat) ≤ 64
  lossBelowLock : (if (byteAt bs 0x10).toNat = 0 then 48 else (byteAt bs 0x10).toNat) ≤
    if (byteAt bs 0x0F).toNat = 0 then 60 else (byteAt bs 0x0F).toNat
  keyAge : 1024 ≤ if fieldAt bs 0x13 2 = 0 then 7500 else fieldAt bs 0x13 2
  proving : (if fieldAt bs 0x15 2 = 0 then 8 else fieldAt bs 0x15 2) ≤ 511
  diverts : ∀ i : Fin 8, divertAt bs (0x27 + 6 * i.val) = some (im.diverts.get i)

theorem decodeImage_inRange {bs : List Byte} {im : Image} (h : decodeImage bs = some im) : ImageInRange bs im := by
  unfold decodeImage at h
  rw [Option.ite_none_right_eq_some] at h
  obtain ⟨⟨check, format⟩, h⟩ := h
  obtain ⟨self, station, h⟩ := Option.bind_eq_some_iff.1 h
  obtain ⟨low, h⟩ := of_bind_inRange h
  obtain ⟨length, h⟩ := of_bind_inRange h
  obtain ⟨top, h⟩ := of_bind_inRange h
  obtain ⟨r, rights, h⟩ := Option.bind_eq_some_iff.1 h
  obtain ⟨admission, h⟩ := of_bind_inRange h
  obtain ⟨call, h⟩ := of_bind_inRange h
  obtain ⟨key, h⟩ := of_bind_inRange h
  obtain ⟨maint, h⟩ := of_bind_inRange h
  obtain ⟨m, maintenance, h⟩ := Option.bind_eq_some_iff.1 h
  obtain ⟨lock, h⟩ := of_bind_defaulted h
  obtain ⟨loss, h⟩ := of_bind_defaulted h
  obtain ⟨below, h⟩ := of_bind_inRange h
  obtain ⟨-, h⟩ := of_bind_defaulted h
  obtain ⟨age, h⟩ := of_bind_defaulted h
  obtain ⟨proving, h⟩ := of_bind_defaulted h
  obtain ⟨d0, h0, h⟩ := Option.bind_eq_some_iff.1 h
  obtain ⟨d1, h1, h⟩ := Option.bind_eq_some_iff.1 h
  obtain ⟨d2, h2, h⟩ := Option.bind_eq_some_iff.1 h
  obtain ⟨d3, h3, h⟩ := Option.bind_eq_some_iff.1 h
  obtain ⟨d4, h4, h⟩ := Option.bind_eq_some_iff.1 h
  obtain ⟨d5, h5, h⟩ := Option.bind_eq_some_iff.1 h
  obtain ⟨d6, h6, h⟩ := Option.bind_eq_some_iff.1 h
  obtain ⟨d7, h7, h⟩ := Option.bind_eq_some_iff.1 h
  obtain rfl := Option.some.inj h
  have number := toNat_of_indexOf station
  exact {
    check := check
    format := by rw [format]; rfl
    station := by rw [number]; exact self.isLt
    low := low.2
    length := length
    top := top.2
    rights := by rw [toNat_of_indexOf rights]; exact r.isLt
    reserved := fun i hi hj => by
      obtain rfl | rfl | rfl | rfl : i = 0x0A ∨ i = 0x0B ∨ i = 0x0C ∨ i = 0x0D := by omega
      exacts [admission, call, key, maint]
    maintenance := by rw [number]; exact maintenanceAt_some maintenance
    lock := lock.2
    loss := loss.2
    lossBelowLock := below.2
    keyAge := age.1
    proving := proving.2
    diverts := fun i => by
      fin_cases i
      exacts [h0, h1, h2, h3, h4, h5, h6, h7] }

/-- The fields of divert entry `i`, each at its own offset. -/
theorem ImageInRange.divert {bs : List Byte} {im : Image} (h : ImageInRange bs im) {i : Nat} (lt : i < 8) :
    fieldAt bs (0x27 + 6 * i) 2 ≤ fieldAt bs (0x29 + 6 * i) 2 ∧ fieldAt bs (0x29 + 6 * i) 2 ≤ 9999 ∧
      (byteAt bs (0x2B + 6 * i)).toNat < 16 := by
  obtain ⟨low, high, target, order, top⟩ := divertAt_some (h.diverts ⟨i, lt⟩)
  have highOffset : 0x29 + 6 * i = 0x27 + 6 * i + 2 := by omega
  have targetOffset : 0x2B + 6 * i = 0x27 + 6 * i + 4 := by omega
  rw [highOffset, targetOffset, ← low, ← high, ← target]
  exact ⟨order, top, Fin.isLt _⟩

end Sys2Proof.Machine
end

