-- ==== Sys2Proof/Proofs/DivertOverlaps.lean ====
section
/-! PROOF. The divert table after the overlap step (R39): each entry as the image gives it, disabled where it overlaps an
enabled entry of lower index. -/

namespace Sys2Proof.Machine

open Sys2Proof

/-- The entry of a list is disabled when one of the entries before it overlaps it. -/
def DivertEntry.after (d : DivertEntry) (before : List DivertEntry) : DivertEntry :=
  if before.any fun e => e.overlaps d then { d with enable := false } else d

theorem resolveDiverts_cons (done : List DivertEntry) (d : DivertEntry) (rest : List DivertEntry) :
    resolveDiverts done (d :: rest) = resolveDiverts (done ++ [d.after done]) rest := rfl

theorem resolveDiverts_prefix (done rest : List DivertEntry) : done <+: resolveDiverts done rest := by
  induction rest generalizing done with
  | nil => exact List.prefix_refl _
  | cons d rest ih => exact (List.prefix_append _ _).trans (ih _)

/-- Each entry is judged by the entries before it, as they have been judged. -/
theorem resolveDiverts_getElem? (done rest : List DivertEntry) (j : Nat) :
    (resolveDiverts done rest)[done.length + j]? =
      rest[j]?.map fun d => d.after ((resolveDiverts done rest).take (done.length + j)) := by
  induction rest generalizing done j with
  | nil => simp [resolveDiverts]
  | cons d rest ih =>
    rw [resolveDiverts_cons]
    obtain ⟨later, split⟩ := resolveDiverts_prefix (done ++ [d.after done]) rest
    cases j with
    | zero => simp [← split]
    | succ j =>
      have next := ih (done ++ [d.after done]) j
      rw [List.length_append, List.length_singleton] at next
      rwa [List.getElem?_cons_succ, Nat.add_comm j 1, ← Nat.add_assoc]

theorem overlaps_iff {a b : DivertEntry} : a.overlaps b = true ↔
    a.enable = true ∧ b.enable = true ∧ a.low ≤ b.high ∧ b.low ≤ a.high := by
  simp [DivertEntry.overlaps, and_assoc]

theorem covers_iff {d : DivertEntry} {n : Nat} : d.covers n = true ↔ d.enable = true ∧ d.low ≤ n ∧ n ≤ d.high := by
  simp [DivertEntry.covers]

section
variable (v : Vector DivertEntry 8)

theorem resolvedTable_getElem? (i : Fin 8) :
    (resolveDiverts [] v.toList)[i.val]? = some ((resolvedTable v).get i) := by
  have length : i.val < (resolveDiverts [] v.toList).length := by
    have judged := resolveDiverts_getElem? [] v.toList i.val
    by_contra short
    rw [List.length_nil, Nat.zero_add, List.getElem?_eq_none (by omega)] at judged
    simp at judged
  simp [resolvedTable, Vector.get_eq_getElem, length]

/-- The entries judged before an entry are those of lower index. -/
theorem mem_take_resolveDiverts {j : Fin 8} {e : DivertEntry} :
    e ∈ (resolveDiverts [] v.toList).take j.val ↔ ∃ i < j, (resolvedTable v).get i = e := by
  simp only [List.mem_iff_getElem?, List.getElem?_take, Option.ite_none_right_eq_some]
  constructor
  · rintro ⟨i, lower, found⟩
    rw [resolvedTable_getElem? v ⟨i, lower.trans j.isLt⟩] at found
    exact ⟨⟨i, lower.trans j.isLt⟩, lower, Option.some.inj found⟩
  · rintro ⟨i, lower, rfl⟩
    exact ⟨i.val, lower, resolvedTable_getElem? v i⟩

/-- An entry is the image's, or that disabled where an enabled entry of lower index overlaps it. -/
theorem resolvedTable_get (j : Fin 8) : (resolvedTable v).get j =
    if ∃ i < j, ((resolvedTable v).get i).overlaps (v.get j) = true then { v.get j with enable := false }
    else v.get j := by
  have judged := resolveDiverts_getElem? [] v.toList j.val
  have own : v.toList[j.val]? = some (v.get j) := by simp [Vector.get_eq_getElem]
  rw [List.length_nil, Nat.zero_add, resolvedTable_getElem?, own, Option.map_some, Option.some.injEq] at judged
  rw [judged, DivertEntry.after]
  refine if_congr ?_ rfl rfl
  rw [List.any_eq_true]
  constructor
  · rintro ⟨e, before, shared⟩
    obtain ⟨i, lower, rfl⟩ := (mem_take_resolveDiverts v).1 before
    exact ⟨i, lower, shared⟩
  · rintro ⟨i, lower, shared⟩
    exact ⟨_, (mem_take_resolveDiverts v).2 ⟨i, lower, rfl⟩, shared⟩

/-- Only the enable of an entry changes. -/
theorem resolvedTable_get_enable (i : Fin 8) :
    (resolvedTable v).get i = { v.get i with enable := ((resolvedTable v).get i).enable } := by
  rw [resolvedTable_get]
  split <;> rfl

variable {v}

/-- An enabled entry is the image's, and no entry of lower index overlaps it. -/
theorem resolvedTable_enabled {j : Fin 8} (h : ((resolvedTable v).get j).enable = true) :
    (resolvedTable v).get j = v.get j ∧ ∀ i < j, ((resolvedTable v).get i).overlaps (v.get j) = false := by
  rw [resolvedTable_get] at h ⊢
  split at h
  · cases h
  · rename_i alone
    exact ⟨if_neg alone, fun i lower => by simpa using fun shared => alone ⟨i, lower, shared⟩⟩

theorem enable_of_resolvedTable {i : Fin 8} (h : ((resolvedTable v).get i).enable = true) : (v.get i).enable = true := by
  rwa [(resolvedTable_enabled h).1] at h

/-- No number is covered twice. -/
theorem resolvedTable_covers_once {i j : Fin 8} {n : Nat} (hi : ((resolvedTable v).get i).covers n = true)
    (hj : ((resolvedTable v).get j).covers n = true) : i = j := by
  have apart {i j : Fin 8} (hi : ((resolvedTable v).get i).covers n = true)
      (hj : ((resolvedTable v).get j).covers n = true) : ¬ i < j := by
    intro lower
    obtain ⟨enabled, low, high⟩ := covers_iff.1 hi
    obtain ⟨enabled', low', high'⟩ := covers_iff.1 hj
    obtain ⟨own, alone⟩ := resolvedTable_enabled enabled'
    have shared : ((resolvedTable v).get i).overlaps (v.get j) = true :=
      overlaps_iff.2 ⟨enabled, own ▸ enabled', own ▸ low.trans high', own ▸ low'.trans high⟩
    exact Bool.false_ne_true ((alone i lower).symm.trans shared)
  exact le_antisymm (not_lt.1 (apart hj hi)) (not_lt.1 (apart hi hj))

/-- An entry that is disabled shares a number with an enabled one of lower index, where no range is empty. -/
theorem resolvedTable_disabled {j : Fin 8} (order : ∀ i, (v.get i).low ≤ (v.get i).high)
    (enabled : (v.get j).enable = true) (h : ((resolvedTable v).get j).enable = false) :
    ∃ (i : Fin 8) (n : Nat), i < j ∧ ((resolvedTable v).get i).covers n = true ∧ (v.get j).covers n = true := by
  have found : ∃ i < j, ((resolvedTable v).get i).overlaps (v.get j) = true := by
    by_contra alone
    rw [resolvedTable_get, if_neg alone, enabled] at h
    cases h
  obtain ⟨i, lower, shared⟩ := found
  obtain ⟨first, -, below, above⟩ := overlaps_iff.1 shared
  have own := (resolvedTable_enabled first).1
  rw [own] at below above first
  refine ⟨i, max (v.get i).low (v.get j).low, lower, ?_, covers_iff.2 ⟨enabled, le_max_right .., max_le below (order j)⟩⟩
  rw [own]
  exact covers_iff.2 ⟨first, le_max_left .., max_le (order i) above⟩

/-- The entries that the overlap step disables. -/
def disabledEntries (v : Vector DivertEntry 8) : List (Fin 8) :=
  (List.finRange 8).filter fun i => (v.get i).enable && !((resolvedTable v).get i).enable

theorem enabled_length (v : Vector DivertEntry 8) :
    (v.toList.filter (·.enable)).length = ((List.finRange 8).filter fun i => (v.get i).enable).length := by
  have list : v.toList = (List.finRange 8).map v.get := by
    refine List.ext_getElem (by simp) fun i _ _ => ?_
    simp [Vector.get_eq_getElem]
  rw [list, List.filter_map, List.length_map]
  rfl

theorem disabledCount_eq (v : Vector DivertEntry 8) : disabledCount v = (disabledEntries v).length := by
  have parts := List.length_eq_length_filter_add (l := (List.finRange 8).filter fun i => (v.get i).enable)
    fun i => ((resolvedTable v).get i).enable
  rw [List.filter_filter, List.filter_filter] at parts
  have kept : ((List.finRange 8).filter fun i => ((resolvedTable v).get i).enable && (v.get i).enable) =
      (List.finRange 8).filter fun i => ((resolvedTable v).get i).enable :=
    List.filter_congr fun i _ => by
      cases h : ((resolvedTable v).get i).enable with
      | false => rfl
      | true => simpa using enable_of_resolvedTable h
  have gone : ((List.finRange 8).filter fun i => !((resolvedTable v).get i).enable && (v.get i).enable) =
      disabledEntries v := List.filter_congr fun i _ => Bool.and_comm ..
  rw [kept, gone] at parts
  rw [disabledCount, enabled_length, enabled_length, parts]
  omega

end

end Sys2Proof.Machine
end

