-- ==== Sys2Proof/Proofs/ImageLoad.lean ====
section
/-! PROOF. What READ_COMPLETION and READ_FAILURE do in LOADING: the station halts, or the image is distributed (R174 to
R176, R39). -/

namespace Sys2Proof.Machine

open Sys2Proof

/-! ### The faults of a load (R39) -/

/-- The faults touch counters, fault record and the pending mark of the NOTICE, and nothing else. -/
theorem overlapFaults_frame (n : Nat) (s : State) :
    ∃ (c : Vector Nat 12) (f : FaultRecord) (m : Bool), s.overlapFaults n = { s with
      highway := { s.highway with counters := c, fault := f }, maint := { s.maint with pending := m } } := by
  induction n generalizing s with
  | zero => exact ⟨_, _, _, rfl⟩
  | succ n ih =>
    obtain ⟨c, f, m, first⟩ := State.recordFault_frame .rangeOverlap s.self none s
    obtain ⟨c', f', m', rest⟩ := ih (s.recordFault .rangeOverlap s.self none)
    exact ⟨c', f', m', by rw [State.overlapFaults, rest, first]⟩

/-- RANGE-OVERLAP is counted for each of them, up to 65535. -/
theorem overlapFaults_counter (n : Nat) {s : State} (h : s.highway.counters.get FaultKind.rangeOverlap.index ≤ 65535) :
    (s.overlapFaults n).highway.counters.get FaultKind.rangeOverlap.index =
      min (s.highway.counters.get FaultKind.rangeOverlap.index + n) 65535 := by
  induction n generalizing s with
  | zero => exact (min_eq_left h).symm
  | succ n ih =>
    have one := State.recordFault_counter_same .rangeOverlap s.self none s
    rw [State.overlapFaults, ih (by rw [one]; exact min_le_right ..), one, saturate]
    omega

/-! ### The distribution of an image (R176) -/

/-- What a good image gives each block. -/
structure Distributed (im : Image) (s t : State) : Prop where
  /-- The station is LISTENING, and its start tag is the lower part of a value drawn. -/
  station : ∃ n : Nonce, t.scr.noncesGiven = n :: s.scr.noncesGiven ∧ t.station = {
    state := .listening, startTag := n.setWidth 16, listeningCount := 0, sinceFrame0 := false, entered := true
    faultOutput := false, image := some im }
  plan : t.calls.plan = upd s.calls.plan im.station (.present im.range)
  diverts : t.calls.diverts = resolvedTable im.diverts
  ports : ∀ p, t.port p = PortUnit.afterLoad im p
  slots : t.slots = s.slots
  queue : t.highway.queue = s.highway.queue
  overlaps : s.highway.counters.get FaultKind.rangeOverlap.index ≤ 65535 →
    t.highway.counters.get FaultKind.rangeOverlap.index =
      min (s.highway.counters.get FaultKind.rangeOverlap.index + (disabledEntries im.diverts).length) 65535

/-- The blocks with their parts of the image, before the faults of the overlap step and the draw of the start tag. -/
def State.withImage (im : Image) (s : State) : State := { s with
  station := { s.station with image := some im, listeningCount := 0, sinceFrame0 := false, entered := true }
  calls := { s.calls with
    plan := upd s.calls.plan im.station (.present im.range)
    diverts := resolvedTable im.diverts }
  adm := { s.adm with
    homes := List.replicate im.range.length
      { location := none, rights := im.defaultRights, barred := false, epoch := 0 } }
  ports := Vector.ofFn fun p => PortUnit.afterLoad im p }

theorem port_withImage (im : Image) (s : State) (p : Port) : (s.withImage im).port p = PortUnit.afterLoad im p := by
  simp [State.withImage, State.port, Vector.get_eq_getElem]

/-- The same with RANGE-OVERLAP counted, from which the start tag is drawn. -/
def State.withOverlapsCounted (im : Image) (s : State) : State := (s.withImage im).overlapFaults (disabledCount im.diverts)

theorem distribute_eq (im : Image) (s : State) : s.distribute im =
    { (s.withOverlapsCounted im).drawNonce.1 with station := { (s.withOverlapsCounted im).drawNonce.1.station with
        state := .listening, faultOutput := false
        startTag := (s.withOverlapsCounted im).drawNonce.2.setWidth 16 } } := rfl

theorem distribute_distributed (im : Image) (s : State) : Distributed im s (s.distribute im) := by
  have count := overlapFaults_counter (s := s.withImage im) (disabledCount im.diverts)
  obtain ⟨c, f, m, frame⟩ := overlapFaults_frame (disabledCount im.diverts) (s.withImage im)
  rw [← State.withOverlapsCounted] at count frame
  rw [distribute_eq, State.drawNonce_eq]
  exact {
    station := ⟨(s.withOverlapsCounted im).drawNonce.2, by rw [frame]; rfl, by rw [frame]; rfl⟩
    plan := by rw [frame]; rfl
    diverts := by rw [frame]; rfl
    ports := fun p => by rw [frame]; exact port_withImage im s p
    slots := by rw [frame]; rfl
    queue := by rw [frame]; rfl
    overlaps := disabledCount_eq im.diverts ▸ count }

/-- The image whose fields are in range has no divert entry with an empty range. -/
theorem diverts_ordered {bs : List Byte} {im : Image} (h : decodeImage bs = some im) (i : Fin 8) :
    (im.diverts.get i).low ≤ (im.diverts.get i).high := by
  obtain ⟨-, -, -, order, -⟩ := divertAt_some ((decodeImage_inRange h).diverts i)
  exact order

/-! ### The two answers of the image store (R174, R175) -/

section
variable {s : State} {bytes : List Byte} (loading : s.station.state = .loading)
include loading

theorem completes_readFailure : Completes .readFailure s fun t => t = s.halt :=
  ⟨_, rfl, if_pos loading⟩

theorem completes_readCompletion_bad (bad : decodeImage bytes = none) :
    Completes (.readCompletion bytes) s fun t => t = s.halt :=
  ⟨_, rfl, by simp only [State.readCompletion, loading, bad, if_true]⟩

theorem completes_readCompletion_good {im : Image} (good : decodeImage bytes = some im) :
    Completes (.readCompletion bytes) s fun t => Distributed im s t := by
  refine ⟨_, rfl, ?_⟩
  have run : s.readCompletion bytes = s.distribute im := by simp only [State.readCompletion, loading, good, if_true]
  rw [run]
  exact distribute_distributed im s

end

/-- Settles O6: a field out of its range contradicts what a decoded image holds, and a good image is distributed with the
divert table resolved. -/
theorem readingTheImage : Obligations.ReadingTheImage := by
  unfold Obligations.ReadingTheImage
  refine ⟨fun s bytes loading => ⟨completes_readFailure loading, completes_readCompletion_bad loading, ?_⟩,
    fun s bytes im loading good => (completes_readCompletion_good loading good).mono fun t given => ?_,
    fun s bytes im loading good => (completes_readCompletion_good loading good).mono fun t given => ?_⟩
  · intro byte pair defaulted bad
    refine completes_readCompletion_bad loading (Option.eq_none_iff_forall_ne_some.2 fun im good => ?_)
    have fits := decodeImage_inRange good
    dsimp only [byte, pair, defaulted] at bad
    rcases bad with check | format | station | low | short | long | top | rights | ⟨i, lower, upper, reserved⟩ | own |
      noStation | lock | loss | above | keyAge | proving | ⟨i, lt, divert⟩
    · exact Bool.false_ne_true (check.symm.trans fits.check)
    · exact format fits.format
    · exact absurd fits.station (by omega)
    · exact absurd fits.low (by omega)
    · exact absurd fits.length (by omega)
    · exact absurd fits.length (by omega)
    · exact absurd fits.top (by omega)
    · exact absurd fits.rights (by omega)
    · exact absurd (fits.reserved i lower upper) (by omega)
    · have station := fits.station
      exact absurd fits.maintenance (by omega)
    · exact absurd fits.maintenance (by omega)
    · exact absurd fits.lock (by split <;> omega)
    · exact absurd fits.loss (by split <;> omega)
    · exact absurd fits.lossBelowLock (not_le.2 above)
    · exact absurd fits.keyAge (by split <;> omega)
    · exact absurd fits.proving (by split <;> omega)
    · exact absurd (fits.divert lt) (by omega)
  · obtain ⟨n, nonces, station⟩ := given.station
    rw [given.plan, given.diverts, station]
    refine ⟨rfl, rfl, rfl, rfl, upd_get_same .., fun st other => upd_get_ne _ _ other, fun p => ?_, ⟨n, nonces, rfl⟩,
      fun i => ⟨?_, enable_of_resolvedTable⟩, given.queue, given.slots⟩
    · rw [given.ports p]
      exact ⟨rfl, rfl⟩
    · rw [resolvedTable_get_enable]
  · rw [given.diverts]
    exact ⟨fun i j n => resolvedTable_covers_once, fun j => resolvedTable_disabled (diverts_ordered good)⟩

end Sys2Proof.Machine
end

