-- ==== Sys2Proof/Proofs/ResetValues.lean ====
section
/-! PROOF. The other blocks after COLD_RESET, after the load and after a warm reset (R45, R70, R88, R123, R142, R156, R172,
R186). -/

namespace Sys2Proof.Machine

open Sys2Proof

/-! ### The tables of a cold station -/

namespace State

section
variable (s : State)

theorem plan_coldReset (st : Station) : s.coldReset.calls.plan.get st = .unknown := Vector.get_replicate ..
theorem presence_coldReset (st : Station) : s.coldReset.highway.presence.get st = {} := Vector.get_replicate ..
theorem counters_coldReset (k : Fin 12) : s.coldReset.highway.counters.get k = 0 := Vector.get_replicate ..
theorem diverts_coldReset (i : Fin 8) : s.coldReset.calls.diverts.get i = {} := Vector.get_replicate ..
theorem record_coldReset (r : RecordId) : s.coldReset.record r = {} := Vector.get_replicate ..
theorem callPort_coldReset (p : Port) : s.coldReset.callPort p = {} := Vector.get_replicate ..
theorem conf_coldReset (e : ConfId) : s.coldReset.calls.confs.get e = none := Vector.get_replicate ..
theorem talkPlace_coldReset (l : TalkId) : s.coldReset.talkPlace l = {} := Vector.get_replicate ..
theorem listenPlace_coldReset (l : ListenId) : s.coldReset.listenPlace l = {} := Vector.get_replicate ..
theorem port_coldReset (p : Port) : s.coldReset.port p = {} := Vector.get_replicate ..

end

/-! ### The tables after a warm reset -/

section
variable (im : Image) (s : State)

theorem presence_warmValues (st : Station) :
    (s.warmValues im).highway.presence.get st = (s.highway.presence.get st).afterWarm := by
  simp [warmValues, Vector.get_eq_getElem]

theorem plan_warmValues_own : (s.warmValues im).calls.plan.get im.station = s.calls.plan.get im.station := by
  simp [warmValues, Vector.get_eq_getElem]

theorem plan_warmValues_peer {st : Station} (h : st ≠ im.station) :
    (s.warmValues im).calls.plan.get st = (s.calls.plan.get st).afterWarm := by
  simp [warmValues, Vector.get_eq_getElem, h]

theorem record_warmValues (r : RecordId) :
    (s.warmValues im).record r = { incarnation := (s.record r).incarnation } := by
  simp [warmValues, record, Vector.get_eq_getElem]

theorem callPort_warmValues (p : Port) : (s.warmValues im).callPort p = {} := Vector.get_replicate ..
theorem conf_warmValues (e : ConfId) : (s.warmValues im).calls.confs.get e = none := Vector.get_replicate ..
theorem talkPlace_warmValues (l : TalkId) : (s.warmValues im).talkPlace l = {} := Vector.get_replicate ..
theorem listenPlace_warmValues (l : ListenId) : (s.warmValues im).listenPlace l = {} := Vector.get_replicate ..

theorem port_warmValues (p : Port) : (s.warmValues im).port p = (s.port p).afterWarm im p := by
  simp [warmValues, port, Vector.get_eq_getElem]

end

end State

/-! ### The commands -/

/-- The carried reply of a RESTART that is due completes with the warm values. -/
theorem completes_restart {s : State} {q : Queued} {im : Image} {P : State → Prop} (sent : s.highway.sent = some q)
    (name : q.name = .restartReply) (active : s.station.state = .active) (due : s.maint.restartDue = true)
    (image : s.station.image = some im) (h : P ((s.setHighway { s.highway with sent := none }).warmValues im)) :
    Completes .cellCarried s P :=
  ⟨_, rfl, by rw [cellCarried_restart sent name active due image]; exact h⟩

/-- Settles O5: after each command every table is read by the value that the reset writes, and RANGE-OVERLAP has risen by
the entries disabled. -/
theorem stationWideResetValues : Obligations.StationWideResetValues := by
  unfold Obligations.StationWideResetValues
  refine ⟨fun s q im => ⟨⟨_, rfl, ?_⟩, fun sent name active due image =>
    completes_restart sent name active due image ?_⟩, fun s q im => ?_⟩
  · exact ⟨rfl, rfl, rfl, rfl, rfl, rfl, rfl, rfl, fun st => by rw [s.presence_coldReset], rfl, s.counters_coldReset, rfl⟩
  · exact ⟨rfl, image, rfl, rfl, rfl, rfl, rfl, rfl, rfl, State.presence_warmValues im _, rfl, rfl, rfl⟩
  intro untrained disabled
  have fresh (st : PortState) (enable : Bool) (losses replaced : Nat) : untrained
      { state := st, enable := enable, lineLossCount := losses, replacedCount := replaced } :=
    ⟨rfl, rfl, rfl, rfl, rfl, rfl, rfl, rfl, rfl, rfl, rfl, rfl⟩
  refine ⟨⟨_, rfl, ?_⟩, fun bytes loading good le =>
    (completes_readCompletion_good loading good).mono fun t given => ?_, fun sent name active due image =>
    completes_restart sent name active due image ?_⟩
  · refine ⟨s.plan_coldReset, s.record_coldReset, s.callPort_coldReset, s.conf_coldReset, s.diverts_coldReset, rfl, rfl,
      rfl, s.talkPlace_coldReset, s.listenPlace_coldReset, fun p => ?_⟩
    rw [s.port_coldReset]
    exact ⟨rfl, fresh .down false 0 0, rfl, rfl⟩
  · have entries : disabled im t = disabledEntries im.diverts := by
      simp only [disabled, given.diverts, disabledEntries]
    refine ⟨by rw [given.plan, upd_get_same], fun i => ?_, by rw [entries]; exact given.overlaps le, fun p => ?_⟩
    · rw [given.diverts]
      exact resolvedTable_get_enable im.diverts i
    · rw [given.ports p]
      exact ⟨rfl, rfl, fresh _ _ 0 0⟩
  · refine ⟨State.plan_warmValues_own im _, fun st peer => State.plan_warmValues_peer im _ peer, rfl,
      State.record_warmValues im _, State.callPort_warmValues im _, State.conf_warmValues im _, rfl, rfl, rfl,
      State.talkPlace_warmValues im _, State.listenPlace_warmValues im _, fun p => ?_⟩
    rw [State.port_warmValues]
    exact ⟨rfl, rfl, fresh _ _ _ _, rfl, rfl⟩

end Sys2Proof.Machine
end

