-- ==== Sys2Proof/Proofs/CallTimers.lean ====
section
/-! PROOF. The expiry of the timers of a call record (R42, R43, R47, R61, R76). -/

namespace Sys2Proof.Machine

open Sys2Proof

namespace State

/-! ### A timer that has run out, and one that runs (log 2) -/

theorem expired_of_call {s : State} {r : RecordId} {k : Call} (hk : s.call? r = some k) (p : Call → Bool) :
    s.expired r p = (decide (k.timer = some 0) && p k) := by
  simp only [expired, hk]

theorem setCall_self {s : State} {r : RecordId} {k : Call} (hk : s.call? r = some k) : s.setCall r k = s := by
  have record : ({ s.record r with call := some k } : CallRecord) = s.record r := by rw [← hk]; rfl
  have table : upd s.calls.records r (s.record r) = s.calls.records := by
    simp [upd, State.record, Vector.get_eq_getElem]
  rw [setCall, record, setRecord, table]

/-! ### A record without a far record is FREE at once (R62, R66) -/

section
variable {s : State} {r : RecordId} {k : Call} (hk : s.call? r = some k) (plain : k.confRole = .none)
include hk plain

theorem clearRecord_quiet {c : Cause} (early : k.state = .dialing ∨ k.state = .routing) (reorder : c.tone = some .reorder) :
    (s.clearRecord r c).call? r = none ∧
    ((s.port k.port).state = .up → (s.callPort k.port).hookView = .off →
      ((s.clearRecord r c).port k.port).tone = .reorder) := by
  have inUse : k.state ≠ .clearing ∧ k.isFront = true := by
    rcases early with st | st <;> simp [Call.isFront, st]
  exact ⟨(clearRecord_cleared r c s hk inUse.1).quiet (by simp [plain]) early,
    (clearRecord_hear r c .reorder s reorder).2 k hk inUse.2⟩

/-! ### What the set of the port hears (R62, R66) -/

theorem clearRecord_of_far {c : Cause} {far : Station} (told : k.farMayExist = true) (hf : k.farStation = some far) :
    s.clearRecord r c = (s.endRecord r c c.tone).offerCallClear r c far k.farTag := by
  have inUse : k.isClearing = false := by
    cases st : k.state <;> simp [Call.farMayExist, Call.isClearing, st] at told ⊢
  simp [clearRecord, clearRecordTone, hk, inUse, plain, told, hf]

end

theorem awaitClears_ports (r : RecordId) (n : Nat) (s : State) : (s.awaitClears r n).ports = s.ports := by
  rcases awaitClears_cases r n s with ⟨-, h⟩ | ⟨-, h⟩ <;> rw [h]
  · exact freeRecord_ports r s
  · exact modCall_ports r _ s

theorem offerCallClear_ports (r : RecordId) (c : Cause) (far : Station) (tag : Tag) (s : State) :
    (s.offerCallClear r c far tag).ports = s.ports :=
  (awaitClears_ports r _ _).trans (offer_ports _ _ s)

theorem closeListens_ports (ls : List ListenId) (s : State) : (s.closeListens ls).ports = s.ports := by
  unfold closeListens
  induction ls generalizing s with
  | nil => rfl
  | cons l ls ih =>
    rw [List.foldl_cons, ih, closeListen]
    split
    · rfl
    · rw [modCall_ports, setListenPlace_ports]

theorem ring_setTone (p q : Port) (x : Tone) (s : State) : ((s.setTone p x).port q).ring = (s.port q).ring := by
  by_cases up : (s.port p).state = .up
  · by_cases same : q = p
    · subst same
      rw [port_setTone_same x up]
    · rw [port_setTone_ne x s same]
  · simp only [setTone, up, if_false]

section
variable {s : State} {r : RecordId} {k : Call} (hk : s.call? r = some k) (c : Cause)
include hk

/-- The set of a ringing record stops. -/
theorem ring_endRecord (tone : Option Tone) (ringing : k.ringing = true) (up : (s.port k.port).state = .up) :
    ((s.endRecord r c tone).port k.port).ring = false := by
  obtain ⟨alerting, lane⟩ : k.state = .alerting ∧ k.talkLane = none := by simpa [Call.ringing] using ringing
  have front : k.isFront = true := by simp [Call.isFront, alerting]
  set u := (s.modCall r fun k => { k with cause := c }).setRing k.port false with hu
  have stopped : (u.port k.port).ring = false := by
    have upNow : ((s.modCall r fun k => { k with cause := c }).port k.port).state = .up := by
      rwa [port_of_ports (modCall_ports ..)]
    simp [hu, setRing, upNow]
  have lanesClosed {v : State} (hv : (v.port k.port).ring = false) :
      (((v.closeListens k.listenLanes).detach r).port k.port).ring = false := by
    rw [port_of_ports (show ((v.closeListens k.listenLanes).detach r).ports = v.ports from closeListens_ports ..)]
    exact hv
  simp only [endRecord, hk, front, ringing, lane, alerting, Bool.and_self, if_true, reduceCtorEq, if_false, ← hu]
  rw [port_of_ports (modCall_ports ..)]
  refine lanesClosed ?_
  split
  · split
    · rw [ring_setTone]; exact stopped
    · exact stopped
  · exact stopped

/-- A record that is no front record ends without a tone. -/
theorem endRecord_of_notFront (back : k.isFront = false) (tone : Option Tone) :
    s.endRecord r c tone = s.endRecord r c none := by
  simp only [endRecord, hk, back, Bool.false_and, Bool.false_eq_true, if_false]
  cases tone <;> rfl

/-- Whatever tone could be heard, a record that is no front record lets no set hear it. -/
theorem tone_endRecord_of_notFront (back : k.isFront = false) (tone : Option Tone) (p : Port) :
    ((s.endRecord r c tone).port p).tone = (s.port p).tone := by
  have heard (x : Tone) : ((s.endRecord r c tone).port p).tone = (s.port p).tone ∨
      ((s.endRecord r c tone).port p).tone = x := by
    rw [endRecord_of_notFront hk c back tone, ← endRecord_of_notFront hk c back (some x)]
    exact ((endRecord_hear r c x s).1 p).2.2
  rcases heard .none with same | silent
  · exact same
  · rcases heard .dial with same | dial
    · exact same
    · cases silent.symm.trans dial

end

/-! ### The onward digits are complete (R42, R43) -/

section
variable {s : State} {r : RecordId} {k : Call} {n : Ext} {i : Fin 8} (hk : s.call? r = some k)
  (numbered : k.farExt = some n) (divert : DivertOf s n i)
include hk numbered divert

theorem completeOnward_of_call : s.completeOnward r = (s.setCall r k).completeDivert r (s.calls.diverts.get i).target := by
  rw [← completeOnward_of_divert numbered divert, setCall_self hk]

end

end State

/-! ### The commands -/

section
variable {s : State} {r : RecordId} {k : Call} {P : State → Prop} (hk : s.call? r = some k) (due : k.timer = some 0)
include hk due

theorem completes_digitTimer (dialing : k.state = .dialing) (unnumbered : k.farExt = none)
    (h : P (s.clearRecord r .noDigits)) : Completes (.digitTimerExpiry r) s P :=
  ⟨_, rfl, by simpa [State.digitTimerExpiry, State.expired_of_call hk, due, dialing, unnumbered] using h⟩

theorem completes_onwardPause (dialing : k.state = .dialing) (numbered : k.farExt ≠ none)
    (h : P (if k.onward = [] then s.clearRecord r .noDigits else s.completeOnward r)) :
    Completes (.onwardPauseExpiry r) s P :=
  ⟨_, rfl, by simpa [State.onwardPauseExpiry, State.expired_of_call hk, hk, due, dialing,
    Option.isSome_iff_ne_none.2 numbered] using h⟩

theorem completes_answerTimer (offering : k.state = .offering) (h : P (s.clearRecord r .congestion)) :
    Completes (.answerTimerExpiry r) s P :=
  ⟨_, rfl, by simpa [State.answerTimerExpiry, State.expired_of_call hk, due, offering] using h⟩

theorem completes_ringingTimer (ringback : k.state = .ringback) (h : P (s.clearRecord r .noAnswer)) :
    Completes (.ringingTimerExpiry r) s P :=
  ⟨_, rfl, by simpa [State.ringingTimerExpiry, State.expired_of_call hk, due, ringback] using h⟩

theorem completes_alertingTimer (ringing : k.ringing = true) (h : P (s.clearRecord r .noAnswer)) :
    Completes (.alertingTimerExpiry r) s P :=
  ⟨_, rfl, by simpa [State.alertingTimerExpiry, State.expired_of_call hk, due, ringing] using h⟩

theorem completes_recallTimer (held : k.state = .held) (h : P (s.clearRecord r .noAnswer)) :
    Completes (.recallTimerExpiry r) s P :=
  ⟨_, rfl, by simpa [State.recallTimerExpiry, State.expired_of_call hk, due, held] using h⟩

end

/-- Settles O32: a timer that runs lets its command do nothing, and one that has run out clears its record with the cause of
R61, or completes its number where onward digits stand. -/
theorem callTimersExpire : Obligations.CallTimersExpire := by
  unfold Obligations.CallTimersExpire
  intro s r k hk plain
  have notController : k.confRole ≠ .controller := by simp [plain]
  refine ⟨fun runs c hc => ?_, fun due dialing => ⟨fun c hc => ?_, fun n i numbered onward lane divert =>
    ⟨fun l target hl hz => ?_, fun target => ?_⟩⟩, fun far due hf room =>
    ⟨fun offering => ?_, fun ringback => ?_, fun alerting lane => ?_, fun held => ?_⟩⟩
  · have still (p : Call → Bool) : s.expired r p = false := by simp [State.expired_of_call hk, runs]
    rcases hc with rfl | rfl | rfl | rfl | rfl | rfl
    · exact ⟨_, rfl, by simp [State.digitTimerExpiry, still]⟩
    · exact ⟨_, rfl, by simp [State.onwardPauseExpiry, hk, still]⟩
    · exact ⟨_, rfl, by simp [State.answerTimerExpiry, still]⟩
    · exact ⟨_, rfl, by simp [State.ringingTimerExpiry, still]⟩
    · exact ⟨_, rfl, by simp [State.alertingTimerExpiry, still]⟩
    · exact ⟨_, rfl, by simp [State.recallTimerExpiry, still]⟩
  · have freed := State.clearRecord_quiet hk plain (c := .noDigits) (.inl dialing) rfl
    rcases hc with ⟨rfl, unnumbered⟩ | ⟨rfl, numbered, noOnward⟩
    · exact completes_digitTimer hk due dialing unnumbered freed
    · exact completes_onwardPause hk due dialing numbered (by simpa [noOnward] using freed)
  · refine completes_onwardPause hk due dialing (by simp [numbered]) ?_
    rw [if_neg (by simpa using onward), State.completeOnward_of_call hk numbered divert]
    exact (State.completeDivert_claimsPath r lane target hl hz).call
  · refine completes_onwardPause hk due dialing (by simp [numbered]) ?_
    rw [if_neg (by simpa using onward), State.completeOnward_of_call hk numbered divert,
      State.completeDivert_of_noTarget r target]
    exact State.clearRecord_quiet (k := { k with timer := none }) (State.call_setCall_same ..) plain (.inl dialing) rfl
  · exact completes_answerTimer hk due offering
      (State.clearRecord_clearsTo _ hk notController (by simp [Call.farMayExist, offering]) hf room)
  · exact completes_ringingTimer hk due ringback
      (State.clearRecord_clearsTo _ hk notController (by simp [Call.farMayExist, ringback]) hf room)
  · have ringing : k.ringing = true := by simp [Call.ringing, alerting, lane]
    have told : k.farMayExist = true := by simp [Call.farMayExist, alerting]
    refine completes_alertingTimer hk due ringing
      ⟨State.clearRecord_clearsTo _ hk notController told hf room, fun up => ?_⟩
    rw [State.clearRecord_of_far hk plain told hf, State.port_of_ports (State.offerCallClear_ports ..)]
    exact State.ring_endRecord hk _ _ ringing up
  · have told : k.farMayExist = true := by simp [Call.farMayExist, held]
    have cleared := State.clearRecord_cleared r .noAnswer s hk (by simp [held])
    refine completes_recallTimer hk due held
      ⟨State.clearRecord_clearsTo _ hk notController told hf room, ?_, fun p => ?_⟩
    · simpa [held] using cleared.heldLists k.port
    · rw [State.clearRecord_of_far hk plain told hf, State.port_of_ports (State.offerCallClear_ports ..)]
      exact State.tone_endRecord_of_notFront hk _ (by simp [Call.isFront, held]) _ p

end Sys2Proof.Machine
end

