-- ==== Sys2Proof/Proofs/HighwayFrames.lean ====
section
/-! PROOF. What an operation leaves of the highway, the slot map and the talk lanes, and what the ending of a record brings
there: its talk lane closes (R62, R95, R111). -/

namespace Sys2Proof.Machine

open Sys2Proof

namespace State

/-! ### Offers of the cells that the last places of the queue are kept for (R159) -/

section
variable {s : State} {c : Cell} (n : OfferName)

theorem offer_of_reserve (active : s.station.state = .active) (kept : c.body.reserve = true)
    (room : s.highway.queue.length < 24) : s.offer c n = (s.enqueue ⟨c, n⟩, true) := by
  have accepted : s.accepts c.body = true := by simp [accepts, State.active, active, room, kept]
  simp [offer, accepted]

theorem offer_of_noPlace (full : s.station.state ≠ .active ∨ 24 ≤ s.highway.queue.length) :
    (s.offer c n).2 = false ∧ (s.offer c n).1.highway.queue = s.highway.queue := by
  have no : s.accepts c.body = false := by
    rcases full with h | h
    · simp [accepts, active, h]
    · simp [accepts, Nat.not_lt.2 h, show ¬ s.highway.queue.length < 20 by omega]
  rcases offer_cases c n s with ⟨yes, -⟩ | ⟨-, -, h⟩ | ⟨-, -, h⟩
  · rw [no] at yes; cases yes
  · simp [h]
  · simp [h]

end

/-! ### Operations away from highway, slot map and talk lanes -/

/-- What an operation on records, sets, logins or listen lanes leaves as it was. -/
structure OffHighway (s t : State) : Prop where
  station : t.station = s.station := by rfl
  clock : t.clock = s.clock := by rfl
  highway : t.highway = s.highway := by rfl
  slots : t.slots = s.slots := by rfl
  maint : t.maint = s.maint := by rfl
  talk : t.scr.talk = s.scr.talk := by rfl

namespace OffHighway

theorem refl (s : State) : OffHighway s s := {}

theorem trans {s t u : State} (a : OffHighway s t) (b : OffHighway t u) : OffHighway s u where
  station := b.station.trans a.station
  clock := b.clock.trans a.clock
  highway := b.highway.trans a.highway
  slots := b.slots.trans a.slots
  maint := b.maint.trans a.maint
  talk := b.talk.trans a.talk

section
variable {s t : State} (h : OffHighway s t)
include h

theorem self : t.self = s.self := self_of_station h.station

theorem talkPlace (l : TalkId) : t.talkPlace l = s.talkPlace l := by simp only [State.talkPlace, h.talk]

theorem talk_eq (l : TalkId) : t.talk? l = s.talk? l := by simp only [State.talk?, h.talkPlace]

theorem room {n : Nat} (room : QueueRoom n s) : QueueRoom n t := by
  rwa [QueueRoom, h.station, h.highway]

end

/-! #### The operations -/

theorem modCall (r : RecordId) (f : Call → Call) (s : State) : OffHighway s (s.modCall r f) := by
  unfold State.modCall
  split <;> exact {}

theorem freeRecord (r : RecordId) (s : State) : OffHighway s (s.freeRecord r) := {}

theorem awaitClears (r : RecordId) (n : Nat) (s : State) : OffHighway s (s.awaitClears r n) := by
  rcases awaitClears_cases r n s with ⟨-, h⟩ | ⟨-, h⟩ <;> rw [h]
  · exact freeRecord r s
  · exact modCall r _ s

theorem modCallPort (p : Port) (f : CallPort → CallPort) (s : State) : OffHighway s (s.modCallPort p f) := {}

theorem setTone (p : Port) (x : Tone) (s : State) : OffHighway s (s.setTone p x) := by
  rw [setTone_eq]
  exact {}

theorem setRing (p : Port) (on : Bool) (s : State) : OffHighway s (s.setRing p on) := by
  rcases setRing_cases p on s with ⟨-, h⟩ | ⟨-, h⟩ <;> rw [h] <;> exact {}

theorem modListen (l : ListenId) (f : ListenLane → ListenLane) (s : State) : OffHighway s (s.modListen l f) := by
  unfold State.modListen
  split <;> exact {}

theorem setListen (l : ListenId) (t : ListenLane) (s : State) : OffHighway s (s.setListen l t) := {}

theorem closeListen (l : ListenId) (s : State) : OffHighway s (s.closeListen l) := by
  unfold State.closeListen
  split
  · exact refl s
  · rename_i t _
    have closed : OffHighway s (s.setListenPlace l { s.listenPlace l with lane := none }) := {}
    exact closed.trans (modCall _ _ _)

theorem closeListens (ls : List ListenId) (s : State) : OffHighway s (s.closeListens ls) := by
  unfold State.closeListens
  induction ls generalizing s with
  | nil => exact refl s
  | cons l ls ih => exact (closeListen l s).trans (ih _)

theorem detach (r : RecordId) (s : State) : OffHighway s (s.detach r) := {}

theorem leaveStack (p : Port) (r : RecordId) (s : State) : OffHighway s (s.leaveStack p r) := by
  have left := modCallPort p (fun c => { c with stack := (s.callPort p).stack.erase r }) s
  unfold State.leaveStack
  dsimp only
  split
  · split
    · exact (left.trans (setRing p false _)).trans (modCallPort p _ _)
    · exact left.trans (modCall _ _ _)
  · exact left

theorem freeConfOf (r : RecordId) (s : State) : OffHighway s (s.freeConfOf r) := by
  unfold State.freeConfOf
  split
  · exact {}
  · exact refl s

/-! #### What an operation on the highway or a talk lane does, it does in either state -/

section
variable {s t : State} (h : OffHighway s t)
include h

theorem offer (c : Cell) (n : OfferName) :
    OffHighway (s.offer c n).1 (t.offer c n).1 ∧ (t.offer c n).2 = (s.offer c n).2 := by
  have accepts : t.accepts c.body = s.accepts c.body := by
    simp only [State.accepts, State.active, h.station, h.highway]
  have active : t.active = s.active := by simp only [State.active, h.station]
  unfold State.offer
  rw [accepts, active, h.self]
  split
  · exact ⟨{
      station := h.station, clock := h.clock, slots := h.slots, maint := h.maint, talk := h.talk
      highway := by simp only [enqueue, setHighway_highway, h.highway] }, rfl⟩
  · split
    · exact ⟨{
        station := h.station, clock := h.clock, slots := h.slots, talk := h.talk
        highway := by simp only [recordFault, h.highway, h.clock]
        maint := by simp only [recordFault, h.highway, h.maint] }, rfl⟩
    · exact ⟨h, rfl⟩

theorem setClaims (cs : List Claim) : OffHighway (s.setClaims cs) (t.setClaims cs) where
  station := h.station
  clock := h.clock
  highway := h.highway
  maint := h.maint
  talk := h.talk
  slots := by simp only [State.setClaims, h.slots]

theorem addClaim (e : Claim) : OffHighway (s.addClaim e) (t.addClaim e) := by
  have cell : t.cellToAll (.slot e.cell) = s.cellToAll (.slot e.cell) := by simp only [cellToAll, h.self]
  obtain ⟨off, same⟩ := h.offer (s.cellToAll (.slot e.cell)) (.slotCell e.cell)
  simp only [State.addClaim, offerClaim, cell, same, off.slots]
  exact off.setClaims _

theorem setTalkPlace (l : TalkId) (x : TalkPlace) : OffHighway (s.setTalkPlace l x) (t.setTalkPlace l x) where
  station := h.station
  clock := h.clock
  highway := h.highway
  slots := h.slots
  maint := h.maint
  talk := by simp only [State.setTalkPlace, h.talk]

theorem setSlot (x : Slot) (st : Option Station) : OffHighway (s.setSlot x st) (t.setSlot x st) where
  station := h.station
  clock := h.clock
  highway := h.highway
  maint := h.maint
  talk := h.talk
  slots := by simp only [State.setSlot, h.slots]

theorem closeTalk (l : TalkId) : OffHighway (s.closeTalk l) (t.closeTalk l) := by
  have closed := h.setTalkPlace l { s.talkPlace l with lane := none }
  unfold State.closeTalk
  rw [h.talk_eq, h.talkPlace]
  split
  · exact h
  · dsimp only
    split
    · exact (closed.setSlot _ none).addClaim _
    · exact closed
    · simp only [orphanClaim, closed.slots]
      exact closed.setClaims _
    · simp only [orphanClaim, closed.slots]
      exact closed.setClaims _

end

end OffHighway

/-! ### A talk lane closes (R95, R111) -/

/-- The lane that the ending of a record closes (R62). -/
def closeLaneOf (k : Call) (s : State) : State :=
  match k.talkLane with
  | some l => s.closeTalk l
  | none => s

theorem closeLaneOf_some {k : Call} {l : TalkId} (h : k.talkLane = some l) (s : State) :
    s.closeLaneOf k = s.closeTalk l := by simp only [closeLaneOf, h]

theorem closeLaneOf_none {k : Call} (h : k.talkLane = none) (s : State) : s.closeLaneOf k = s := by
  simp only [closeLaneOf, h]

theorem closeLaneOf_station (k : Call) (s : State) : (s.closeLaneOf k).station = s.station := by
  unfold closeLaneOf
  split
  · exact (ClearFrame.closeTalk _ s).station
  · rfl

/-- A closing lane that is not ACTIVE sends no cell; at most its entry loses it. -/
theorem closeTalk_of_idle {s : State} {l : TalkId} {t : TalkLane} (hl : s.talk? l = some t) (idle : t.state ≠ .active) :
    s.closeTalk l = (s.setTalkPlace l { s.talkPlace l with lane := none }).orphanClaim l := by
  simp only [closeTalk, hl]
  cases hs : t.state with
  | active => exact absurd hs idle
  | claiming => rfl
  | moving => rfl

section
variable {s : State} {l : TalkId} {t : TalkLane} {x : Slot} (hl : s.talk? l = some t) (active : t.state = .active)
  (hx : t.slot = some x)
include hl active hx

theorem map_closeTalk : (s.closeTalk l).slots.map = upd s.slots.map x none := by
  rw [closeTalk_of_active hl active hx, releaseSlot_map]
  rfl

/-- With a place for its SLOT-FREE the closing of an ACTIVE lane leaves a RELEASE entry and the cell. -/
theorem closeTalk_of_place (up : s.station.state = .active) (room : s.highway.queue.length < 24) :
    (s.closeTalk l).highway.queue = s.highway.queue ++
      [{ cell := broadcast s (.slot (.free x)), name := .slotCell (.free x) }] ∧
    (s.closeTalk l).slots.claims = s.slots.claims ++ [{ kind := .release, slot := x }] := by
  rw [closeTalk_of_active hl active hx, releaseSlot]
  set v := (s.setTalkPlace l { s.talkPlace l with lane := none }).setSlot x none with hv
  have offered : v.offerClaim { kind := .release, slot := x } =
      (v.enqueue ⟨broadcast s (.slot (.free x)), .slotCell (.free x)⟩, true) :=
    offer_of_reserve (s := v) (c := broadcast s (.slot (.free x))) _ up rfl room
  refine ⟨?_, ?_⟩
  · simp only [addClaim, offered]
    rfl
  · rw [addClaim_claims, offered]
    rfl

/-- Without one the RELEASE entry is marked refused. -/
theorem closeTalk_of_noPlace (full : 24 ≤ s.highway.queue.length) :
    (s.closeTalk l).highway.queue = s.highway.queue ∧
    (s.closeTalk l).slots.claims = s.slots.claims ++ [{ kind := .release, slot := x, refused := true, fresh := true }] := by
  rw [closeTalk_of_active hl active hx, releaseSlot]
  set v := (s.setTalkPlace l { s.talkPlace l with lane := none }).setSlot x none with hv
  obtain ⟨refused, queue⟩ : (v.offerClaim { kind := .release, slot := x }).2 = false ∧
      (v.offerClaim { kind := .release, slot := x }).1.highway.queue = s.highway.queue :=
    offer_of_noPlace (s := v) _ (.inr full)
  refine ⟨?_, ?_⟩
  · exact queue
  · rw [addClaim_claims, refused]
    rfl

end

/-- A closing lane queues nothing, or the SLOT-FREE of its slot. -/
theorem queue_closeTalk (l : TalkId) (s : State) : ∃ new, (s.closeTalk l).highway.queue = s.highway.queue ++ new ∧
    ∀ q ∈ new, ∃ c, q.cell.body = .slot c := by
  have still : ∀ t : State, t.highway.queue = s.highway.queue → ∃ new, t.highway.queue = s.highway.queue ++ new ∧
      ∀ q ∈ new, ∃ c, q.cell.body = .slot c := fun t ht => ⟨[], by simp [ht], by simp⟩
  cases hl : s.talk? l with
  | none => exact still _ (by simp only [closeTalk, hl])
  | some t =>
    by_cases active : t.state = .active
    · cases hx : t.slot with
      | none => exact still _ (by simp only [closeTalk, hl, active, hx]; rfl)
      | some x =>
        rw [closeTalk_of_active hl active hx, releaseSlot, addClaim]
        set v := (s.setTalkPlace l { s.talkPlace l with lane := none }).setSlot x none
        set e : Claim := { kind := .release, slot := x }
        have queue : v.highway.queue = s.highway.queue := rfl
        rcases offer_cases (v.cellToAll (.slot e.cell)) (.slotCell e.cell) v with ⟨-, h⟩ | ⟨-, -, h⟩ | ⟨-, -, h⟩
        · refine ⟨[⟨v.cellToAll (.slot e.cell), .slotCell e.cell⟩], ?_, ?_⟩
          · simp only [offerClaim, h]
            rfl
          · intro q hq
            rw [List.mem_singleton.1 hq]
            exact ⟨_, rfl⟩
        · exact still _ (by simp only [offerClaim, h]; rfl)
        · exact still _ (by simp only [offerClaim, h]; rfl)
    · exact still _ (by rw [closeTalk_of_idle hl active]; rfl)

/-! ### A record ends (R62) -/

section
variable {s : State} {r : RecordId} {k : Call} (c : Cause) (tone : Option Tone) (hk : s.call? r = some k)
include hk

/-- On the highway, in the slot map and among the talk lanes the ending of a record is the closing of its talk lane. -/
theorem endRecord_offHighway : OffHighway (s.closeLaneOf k) (s.endRecord r c tone) := by
  unfold endRecord
  simp only [hk]
  have cause := OffHighway.modCall r (fun k => { k with cause := c }) s
  have ring : ∀ u, OffHighway s u → OffHighway s (if k.isFront && k.ringing then u.setRing k.port false else u) := by
    intro u h
    split
    · exact h.trans (.setRing _ _ _)
    · exact h
  have heard : ∀ u, OffHighway s u → OffHighway s (match tone with
      | some t => if k.isFront && decide ((s.callPort k.port).hookView = Hook.off) then u.setTone k.port t else u
      | none => u) := by
    intro u h
    cases tone with
    | none => exact h
    | some t =>
      dsimp only
      split
      · exact h.trans (.setTone _ _ _)
      · exact h
  have lane : ∀ u, OffHighway s u → OffHighway (s.closeLaneOf k) (match k.talkLane with
      | some l => u.closeTalk l
      | none => u) := by
    intro u h
    unfold closeLaneOf
    cases k.talkLane with
    | none => exact h
    | some l => exact h.closeTalk l
  have leave : ∀ u, OffHighway u (if k.state = .held then u.leaveStack k.port r else u) := by
    intro u
    split
    · exact .leaveStack _ _ _
    · exact .refl u
  exact ((((lane _ (heard _ (ring _ cause))).trans (.closeListens _ _)).trans (.detach _ _)).trans (leave _)).trans
    (.modCall _ _ _)

theorem clearQuiet_offHighway : OffHighway (s.closeLaneOf k) (s.clearQuiet r c tone) :=
  ((endRecord_offHighway c tone hk).trans (.freeConfOf _ _)).trans (.freeRecord _ _)

omit hk in
theorem clearQuiet_ports : (s.clearQuiet r c tone).ports = (s.endRecord r c tone).ports := by
  simp only [clearQuiet, freeRecord_ports, freeConfOf]
  split <;> rfl

/-- The user of an ended front call hears the tone of its end. -/
theorem tone_clearQuiet (x : Tone) (front : k.isFront = true) (up : (s.port k.port).state = .up)
    (off : (s.callPort k.port).hookView = .off) : ((s.clearQuiet r c (some x)).port k.port).tone = x := by
  rw [port_of_ports (clearQuiet_ports c (some x))]
  exact (endRecord_hear r c x s).2 k hk front up off

/-- The ringer of an ended call that rang is still. -/
theorem ring_clearQuiet (ringing : k.ringing = true) (up : (s.port k.port).state = .up) :
    ((s.clearQuiet r c tone).port k.port).ring = false := by
  rw [port_of_ports (clearQuiet_ports c tone)]
  exact ring_endRecord hk c tone ringing up

/-- The end of a record queues no cell but a SLOT-FREE. -/
theorem queue_clearQuiet : ∃ new, (s.clearQuiet r c tone).highway.queue = s.highway.queue ++ new ∧
    ∀ q ∈ new, ∃ x, q.cell.body = .slot x := by
  rw [(clearQuiet_offHighway c tone hk).highway]
  unfold closeLaneOf
  split
  · exact queue_closeTalk _ s
  · exact ⟨[], by simp, by simp⟩

/-- With room for the CALL-CLEAR once its talk lane has closed, a record that has a far end tells it. -/
theorem clearRecord_clearsTo_of_closed {far : Station} (plain : k.confRole ≠ .controller) (told : k.farMayExist = true)
    (hf : k.farStation = some far) (room : QueueRoom 1 (s.closeLaneOf k)) :
    ClearsTo s (s.clearRecord r c) r c far k.farTag := by
  obtain ⟨record, incarnation, -, sends, -, -⟩ := endRecord_spec r c c.tone s hk
  have off := endRecord_offHighway c c.tone hk
  set u := s.endRecord r c c.tone with hu
  have open_ : k.isClearing = false := by
    cases hs : k.state <;> simp [Call.farMayExist, Call.isClearing, hs] at told ⊢
  have tag : u.callTag r = s.callTag r := by rw [callTag, callTag, incarnation]
  have run : s.clearRecord r c = (u.enqueue ⟨cellFrom s far (s.callTag r) k.farTag (.callClear c),
      u.clearingName r⟩).awaitClears r 1 := by
    have cell : u.cellTo far (u.callTag r) k.farTag (.callClear c) =
        cellFrom s far (s.callTag r) k.farTag (.callClear c) := by
      rw [cellTo, cellFrom, tag, self_of_station sends.1]
    have offered := (QueueRoom.offer (n := 0) (off.room room)
      (cellFrom s far (s.callTag r) k.farTag (.callClear c)) (u.clearingName r)).1
    simp only [clearRecord, clearRecordTone, hk, open_, Bool.false_eq_true, if_false, plain, told, hf, ← hu,
      offerCallClear, cell, offered, if_true]
  obtain ⟨-, waits, -⟩ := awaitClears_spec r 1 (u.enqueue ⟨_, u.clearingName r⟩) record
  rw [run]
  refine ⟨⟨_, waits (by simp), rfl, rfl, rfl, rfl, rfl⟩, ?_⟩
  rw [(OffHighway.awaitClears r 1 _).highway]
  simp

end

end State

/-! ### CALL-CLEAR as the statements write it, from another state -/

theorem ClearsTo.of_start {s s' t : State} {r : RecordId} {c : Cause} {far : Station} {tag : Tag}
    (h : ClearsTo s' t r c far tag) (station : s'.station = s.station)
    (incarnation : (s'.record r).incarnation = (s.record r).incarnation) : ClearsTo s t r c far tag := by
  refine ⟨h.1, h.2.trans ?_⟩
  rw [cellFrom, cellFrom, State.self_of_station station, State.callTag, State.callTag, incarnation]

theorem ClearsTo.of_end {s t t' : State} {r : RecordId} {c : Cause} {far : Station} {tag : Tag}
    (h : ClearsTo s t r c far tag) (call : t'.call? r = t.call? r) (queue : t'.highway.queue = t.highway.queue) :
    ClearsTo s t' r c far tag := by
  refine ⟨?_, ?_⟩
  · rw [call]
    exact h.1
  · rw [queue]
    exact h.2

end Sys2Proof.Machine
end

