-- ==== Sys2Proof/Proofs/CarriedReports.lean ====
section
/-! PROOF. What the own window carries, and what the report of a carried cell does (R157, R158; R62, R90, R96, R112, R120,
R127, R171). -/

namespace Sys2Proof.Machine

open Sys2Proof

/-! ### The SLOT cell of an entry (R90) -/

section
variable {e : Claim} {x : Slot}

theorem Claim.cell_eq_free_iff : e.cell = .free x ↔ e.kind = .release ∧ e.slot = x := by
  cases h : e.kind <;> simp [Claim.cell, h]

theorem Claim.cell_eq_claim_iff : e.cell = .claim x ↔ e.kind = .claim ∧ e.slot = x := by
  cases h : e.kind <;> simp [Claim.cell, h]

theorem Claim.cell_eq_move_iff {old : Slot} :
    e.cell = .move old x ↔ e.kind = .move ∧ e.slot = x ∧ e.oldSlot.getD x = old := by
  cases h : e.kind with
  | claim | release => simp [Claim.cell, h]
  | move =>
    simp only [Claim.cell, h, SlotCell.move.injEq, true_and]
    constructor
    · rintro ⟨hold, rfl⟩
      exact ⟨rfl, hold⟩
    · rintro ⟨rfl, hold⟩
      exact ⟨hold, rfl⟩

end

namespace State

/-! ### The carried report (R157) -/

/-- The cell of the own window is reported, and will not be again. -/
def reported (s : State) : State := { s with highway := { s.highway with sent := none } }

section
variable {s : State}

/-- The report of a SLOT-FREE removes its RELEASE entry and no other. -/
theorem mem_claims_slotCellCarried_free {x : Slot} {e : Claim} : e ∈ (s.slotCellCarried (.free x)).slots.claims ↔
    e ∈ s.slots.claims ∧ ¬ (e.kind = .release ∧ e.slot = x ∧ e.refused = false) := by
  simp only [slotCellCarried, setClaims_claims, List.mem_filterMap, Claim.cell_eq_free_iff]
  constructor
  · rintro ⟨a, ha, h⟩
    split at h
    · rename_i carried
      rw [carried.1.1] at h
      cases h
    · rename_i other
      cases h
      exact ⟨ha, fun hk => other ⟨⟨hk.1, hk.2.1⟩, hk.2.2⟩⟩
  · rintro ⟨he, other⟩
    exact ⟨e, he, if_neg fun hk => other ⟨hk.1.1, hk.1.2, hk.2⟩⟩

/-- The report of a claiming cell gives each entry it is the cell of the frame that carried it. -/
theorem claims_slotCellCarried_of_claiming {c : SlotCell} (claiming : ∀ e : Claim, e.cell = c → e.kind ≠ .release) :
    (s.slotCellCarried c).slots.claims = s.slots.claims.map fun e =>
      if e.cell = c ∧ e.refused = false then { e with carried := some s.clock.frame } else e := by
  rw [slotCellCarried, setClaims_claims, ← List.filterMap_eq_map']
  refine List.filterMap_congr fun e _ => ?_
  split
  · rename_i carried
    have := claiming e carried.1
    cases h : e.kind with
    | release => exact absurd h this
    | claim | move => rfl
  · rfl

/-- The report of a callee's CALL-CONNECT at its two lanes. -/
theorem callConnectCarried_of_lanes {r : RecordId} {k : Call} {l : TalkId} {m : ListenId} {t : TalkLane}
    {u : ListenLane} (hk : s.call? r = some k) (hl : k.talkLane = some l) (hm : k.listenLanes = [m])
    (ht : s.talk? l = some t) (hu : s.listen? m = some u) (setup : u.purpose = .setup)
    (unknown : u.provingClock = none) : s.callConnectCarried r (s.record r).incarnation =
      (s.setTalk l { t with
        firstBoundary := some 1
        staged := t.staged.map fun g => if g.isFirst then { g with countdown := some 1 } else g }).setListen m
          (u.setProvingClock 1) := by
  set v := s.setTalk l { t with
    firstBoundary := some 1
    staged := t.staged.map fun g => if g.isFirst then { g with countdown := some 1 } else g } with hv
  have talk : s.setFirstBoundary l 1 = v := modTalk_of_lane ht _
  have call : v.call? r = some k := hk
  have lane : v.listen? m = some u := hu
  simp only [callConnectCarried, hk, hl, if_true, talk, setProvingClocks, call, hm, List.foldl_cons, List.foldl_nil,
    modListen, lane, setup, unknown, Option.isNone_none, and_self]

end

end State

section
variable {s : State} {q : Queued} (sent : s.highway.sent = some q) {P : State → Prop}
include sent

theorem completes_carried (h : P (s.reported.carriedReport q.name)) :
    Completes .cellCarried s P :=
  ⟨_, congrArg Host.Outcome.next (by simp only [State.cellCarried, sent]; rfl), h⟩

end

/-- Settles O8: the own window by the frame's place, and the carried report by what the offer named. -/
theorem ownWindowIsSentAndReported : Obligations.OwnWindowIsSentAndReported := by
  unfold Obligations.OwnWindowIsSentAndReported
  refine ⟨fun s im him => ⟨fun active zero => ?_, fun active later => ?_, fun silent => ?_⟩, fun s q sent => ⟨fun name => ?_,
    fun name => ?_, fun x name => ?_, fun l t0 g name hl hg announced => ?_, fun r i k name hk clearing =>
      ⟨fun own last => ?_, fun own more => ?_, fun other => ?_⟩, fun x name => ?_, fun old x name => ?_, fun r i k name hk =>
      ⟨fun other => ?_, fun l t0 m l0 own hl hm ht hu setup unknown waits unstaged => ?_⟩⟩⟩
  · have self : s.self = im.station := by simp only [State.self, him]
    refine ⟨s.sendCensus, ?_, ⟨s.censusCell, rfl, self, rfl, rfl, rfl, ?_, ?_⟩, rfl, rfl, rfl, rfl⟩
    · exact congrArg Host.Outcome.next (by simp [State.sendWindow, State.active, active, zero])
    · simp [State.censusCell]
    · simp [State.censusCell, him, State.cellToAll, State.slotsOf, State.holder, self]
  · exact ⟨_, rfl, by simp [State.sendWindow, State.active, active, later, State.sendChosen, State.setHighway]⟩
  · exact ⟨_, rfl, by simp [State.sendWindow, State.active, silent, State.setHighway]⟩
  · refine completes_carried sent ?_
    rw [name]
    rfl
  · refine completes_carried sent ?_
    rw [name]
    rfl
  · refine completes_carried sent ?_
    rw [name]
    refine ⟨fun e he => (State.mem_claims_slotCellCarried_free.1 he).1, fun e he =>
      State.mem_claims_slotCellCarried_free.trans (and_iff_right he), rfl, rfl⟩
  · refine completes_carried sent ?_
    rw [name]
    have lane : s.reported.talk? l = some t0 := hl
    have report : s.reported.carriedReport (.keyNext l (s.talkOpening l)) =
        s.reported.setTalk l { t0 with
          staged := some { g with countdown := some 2 } } := by
      have opening : s.reported.talkOpening l = s.talkOpening l := rfl
      rw [State.carriedReport, State.keyNextCarried, if_pos opening, State.modTalk_of_lane lane]
      simp only [hg, Option.map_some, announced, if_true]
    rw [report]
    exact ⟨State.talk_setTalk_same .., rfl⟩
  · refine completes_carried sent ?_
    have call : s.reported.call? r = some k := hk
    have report : s.reported.clearCarried r i =
        s.reported.freeRecord r := by
      have waits : k.isClearing = true := decide_eq_true clearing
      have inc : (s.reported.record r).incarnation = i := own
      simp only [State.clearCarried, call, inc, waits, and_self, if_true, State.awaitClears, Nat.sub_eq_zero_of_le last]
    rw [name, State.carriedReport, report]
    refine ⟨?_, fun j hj => ?_⟩
    · rw [State.freeRecord, State.record_setRecord_same, ← own]
      rfl
    · rw [State.freeRecord, State.record_setRecord_ne _ _ hj]
      rfl
  · refine completes_carried sent ?_
    have call : s.reported.call? r = some k := hk
    have waits : k.isClearing = true := decide_eq_true clearing
    have inc : (s.reported.record r).incarnation = i := own
    rw [name, State.carriedReport]
    simp only [State.clearCarried, call, inc, waits, and_self, if_true]
    obtain ⟨-, counts, -⟩ := State.awaitClears_spec r (k.clears - 1) _ call
    rw [counts (by omega), ← clearing]
  · refine completes_carried sent ?_
    have call : s.reported.call? r = some k := hk
    have inc : ¬ (s.reported.record r).incarnation = i := other
    rw [name, State.carriedReport]
    simp only [State.clearCarried, call, inc, false_and, if_false]
    rfl
  · refine completes_carried sent ?_
    rw [name, State.carriedReport, State.claims_slotCellCarried_of_claiming fun e he => by
      simp [(Claim.cell_eq_claim_iff.1 he).1]]
    refine ⟨?_, rfl, rfl⟩
    simp only [Claim.cell_eq_claim_iff, and_assoc]
    rfl
  · refine completes_carried sent ?_
    rw [name, State.carriedReport, State.claims_slotCellCarried_of_claiming fun e he => by
      simp [(Claim.cell_eq_move_iff.1 he).1]]
    refine ⟨?_, rfl, rfl⟩
    simp only [Claim.cell_eq_move_iff, and_assoc]
    rfl
  · refine completes_carried sent ?_
    have call : s.reported.call? r = some k := hk
    have inc : ¬ (s.reported.record r).incarnation = i := other
    rw [name, State.carriedReport]
    simp only [State.callConnectCarried, call, inc, if_false]
    rfl
  · refine completes_carried sent ?_
    subst own
    have report := State.callConnectCarried_of_lanes (s := s.reported) hk hl hm ht hu setup unknown
    have inc : s.reported.record r = s.record r := rfl
    rw [name, State.carriedReport, ← inc, report]
    refine ⟨State.talk_setTalk_same .., ?_, rfl⟩
    rw [State.listen_setListen_same]
    simp [ListenLane.setProvingClock, waits, unstaged]

end Sys2Proof.Machine
end

