-- ==== Sys2Proof/Proofs/LaneBoundaries.lean ====
section
/-! PROOF. The boundary of a listen lane (R126): what the judgment of its superframe leaves, by the lane's state, and the
boundary of a lane whose judgment tells nobody. -/

namespace Sys2Proof.Machine

open Sys2Proof

/-! ### One lane -/

namespace ListenLane

/-- A lane with nothing staged and nothing requested has no countdown to lessen. -/
theorem swap_of_settled {t : ListenLane} (unstaged : t.staged = none) (unasked : t.request = none) : t.swap = t := by
  obtain ⟨⟩ := t
  simp only at unstaged unasked
  subst unstaged unasked
  rfl

/-- A staged key whose boundary comes is installed at position 0 (R131). -/
theorem swap_of_due {t : ListenLane} {g : ListenStaged} (hg : t.staged = some g) (due : g.countdown = some 1) :
    t.swap = ({ t with
      staged := some { g with countdown := some 0 }
      request := t.request.map fun q => { q with countdown := q.countdown.map (· - 1) } } : ListenLane).install
        { g with countdown := some 0 } 0 := by
  simp [swap, installOverdue, hg, due]

theorem install_timer_of_stopped {t : ListenLane} (stopped : t.timer = none) (g : ListenStaged) (position : Nat) :
    (t.install g position).timer = none := by
  unfold install
  cases hs : t.state with
  | waitkey | lost =>
    dsimp only
    split
    · simp [stopped]
    · simp [stopped]
  | proving | locked | search => exact stopped

theorem figure_of_whole {t : ListenLane} (whole : t.framesRead = 64) : t.figure = some t.marksAgreed := if_pos whole

theorem figure_of_part {t : ListenLane} (part : t.framesRead ≠ 64) : t.figure = none := if_neg part

theorem noteFigure_of_whole {t : ListenLane} (whole : t.framesRead = 64) :
    t.noteFigure = { t with lastFigure := some t.marksAgreed } := by
  simp only [noteFigure, figure_of_whole whole]

theorem noteFigure_of_part {t : ListenLane} (part : t.framesRead ≠ 64) : t.noteFigure = t := by
  simp only [noteFigure, figure_of_part part]

end ListenLane

namespace State

@[simp] theorem setListen_setListen (l : ListenId) (t u : ListenLane) (s : State) :
    (s.setListen l t).setListen l u = s.setListen l u := by
  simp [setListen, setListenPlace, listenPlace, upd, Vector.get_eq_getElem]

theorem modListen_setListen (l : ListenId) (t : ListenLane) (f : ListenLane → ListenLane) (s : State) :
    (s.setListen l t).modListen l f = s.setListen l (f t) := by
  simp only [modListen, listen_setListen_same, setListen_setListen]

/-! ### The judgment of a superframe (step 1 of R126) -/

section
variable {s : State} {t : ListenLane}

theorem judgeLane_of_unclocked (unclocked : t.provingClock = none) :
    s.judgeLane t = ((s.judgeByState t).1.nextSuperframe, (s.judgeByState t).2) := by
  simp only [judgeLane, unclocked]

/-- A superframe that was not read whole leaves a lane that is not searching as it was (R126). -/
theorem judgeByState_of_part (part : t.framesRead ≠ 64) (settled : t.state ≠ .search) : s.judgeByState t = (t, .quiet) := by
  cases hs : t.state <;>
    simp_all [judgeByState, ListenLane.figure_of_part part, ListenLane.noteFigure_of_part part]

section
variable (whole : t.framesRead = 64)
include whole

theorem judgeByState_locked (hs : t.state = .locked) : s.judgeByState t =
    ({ t with lastFigure := some t.marksAgreed }.judgeLocked s.lossThreshold t.marksAgreed, .quiet) := by
  simp only [judgeByState, ListenLane.figure_of_whole whole, ListenLane.noteFigure_of_whole whole, hs]

theorem judgeByState_waitkey (hs : t.state = .waitkey) : s.judgeByState t =
    (if s.lockThreshold ≤ t.marksAgreed then { t with lastFigure := some t.marksAgreed }.enterLocked
      else { t with lastFigure := some t.marksAgreed }.enterSearch, .quiet) := by
  simp only [judgeByState, ListenLane.figure_of_whole whole, ListenLane.noteFigure_of_whole whole, hs]

theorem judgeByState_lost (hs : t.state = .lost) : s.judgeByState t =
    if t.awaiting && !t.syncLost then
      { t with lastFigure := some t.marksAgreed }.judgeRecovery s.lockThreshold t.marksAgreed
    else ({ t with lastFigure := some t.marksAgreed }, .quiet) := by
  simp only [judgeByState, ListenLane.figure_of_whole whole, ListenLane.noteFigure_of_whole whole, hs]

theorem figure_noteFigure : t.noteFigure.figure = some t.marksAgreed := by
  rw [ListenLane.noteFigure_of_whole whole]
  exact if_pos whole

section
variable {c : Search} (hs : t.state = .search) (hc : t.search = some c)
include hs hc

theorem judgeByState_found (high : s.lockThreshold ≤ t.marksAgreed) :
    s.judgeByState t = (t.noteFigure.lockOn c, .quiet) := by
  simp only [judgeByState, hs, hc, judgeSearch, figure_noteFigure whole, high, if_true]

theorem judgeByState_next {d : Search} (low : t.marksAgreed < s.lockThreshold)
    (next : s.nextCandidate t.noteFigure c = some d) :
    s.judgeByState t = ({ t.noteFigure with search := some d }, .quiet) := by
  simp only [judgeByState, hs, hc, judgeSearch, figure_noteFigure whole, Nat.not_le.2 low, if_false, next]

theorem judgeByState_exhausted (low : t.marksAgreed < s.lockThreshold) (last : s.nextCandidate t.noteFigure c = none) :
    s.judgeByState t = (t.noteFigure, .exhausted) := by
  simp only [judgeByState, hs, hc, judgeSearch, figure_noteFigure whole, Nat.not_le.2 low, if_false, last]

end

end

/-- A search whose superframe was not read whole keeps its candidate, but where a KEY-NEXT has reset the cursor. -/
theorem judgeByState_search_of_part {c : Search} (part : t.framesRead ≠ 64) (hs : t.state = .search)
    (hc : t.search = some c) :
    s.judgeByState t = (if c.restart then { t with search := some t.phaseOne } else t, .quiet) := by
  simp only [judgeByState, ListenLane.noteFigure_of_part part, ListenLane.figure_of_part part, hs, hc, judgeSearch]

/-! ### The boundary of one lane (R126) -/

theorem lockThreshold_of_image {im : Image} (him : s.station.image = some im) : s.lockThreshold = im.lockThreshold := by
  simp only [lockThreshold, him]

theorem lossThreshold_of_image {im : Image} (him : s.station.image = some im) : s.lossThreshold = im.lossThreshold := by
  simp only [lossThreshold, him]

theorem provingLimit_of_image {im : Image} (him : s.station.image = some im) : s.provingLimit = im.provingLimit := by
  simp only [provingLimit, him]

section
variable {l : ListenId} (hl : s.listen? l = some t)
include hl

theorem laneTimer_of_stopped (stopped : t.timer = none) : s.laneTimer l = s := by
  simp only [laneTimer, hl, stopped]

theorem boundaryWhen_of_due {due : State → ListenLane → Bool} (frame : AtBoundary s) (h : due s t = true) :
    s.boundaryWhen l due = s.boundaryOf l t := by
  have now : s.clock.frame = 63 := frame
  simp only [boundaryWhen, hl, now, h, and_self, if_true]

end

/-- The boundary of a lane whose judgment tells nobody and whose timer does not run changes this lane alone. -/
theorem boundaryOf_of_quiet {l : ListenId} {j : ListenLane} (judged : s.judgeLane t = (j, .quiet))
    (stopped : j.advance.swap.timer = none) : s.boundaryOf l t = s.setListen l j.advance.swap := by
  simp only [boundaryOf, judged, reportVerdict, modListen_setListen]
  exact laneTimer_of_stopped (listen_setListen_same ..) stopped

/-- The same with nothing staged and nothing requested. -/
theorem boundaryOf_of_settled {l : ListenId} {j : ListenLane} (judged : s.judgeLane t = (j, .quiet))
    (stopped : j.timer = none) (unstaged : j.staged = none) (unasked : j.request = none) :
    s.boundaryOf l t = s.setListen l j.advance := by
  have same : j.advance.swap = j.advance := ListenLane.swap_of_settled (by simp [ListenLane.advance, unstaged]) unasked
  rw [boundaryOf_of_quiet judged (by rw [same]; exact stopped), same]

end

end State

/-! ### The commands -/

section
variable {s : State} {l : ListenId} {t : ListenLane} {P : State → Prop} (frame : AtBoundary s)
  (hl : s.listen? l = some t) (h : P (s.boundaryOf l t))
include frame hl h

theorem completes_listenBoundary : Completes (.listenLaneBoundary l) s P :=
  ⟨_, congrArg Host.Outcome.next (State.boundaryWhen_of_due hl frame rfl), h⟩

theorem completes_lowFigure (due : s.lowFigureDue t = true) : Completes (.lowFigureLimit l) s P :=
  ⟨_, congrArg Host.Outcome.next (State.boundaryWhen_of_due hl frame due), h⟩

theorem completes_recovery (due : s.recoveryDue t = true) : Completes (.recoveryLimit l) s P :=
  ⟨_, congrArg Host.Outcome.next (State.boundaryWhen_of_due hl frame due), h⟩

theorem completes_waitkeyTimer (due : s.waitkeyDue t = true) : Completes (.waitkeyTimerExpiry l) s P :=
  ⟨_, congrArg Host.Outcome.next (State.boundaryWhen_of_due hl frame due), h⟩

theorem completes_syncAskTimer (due : s.syncAskDue t = true) : Completes (.syncAskTimerExpiry l) s P :=
  ⟨_, congrArg Host.Outcome.next (State.boundaryWhen_of_due hl frame due), h⟩

theorem completes_listenSwap (due : s.listenSwapDue t = true) : Completes (.listenKeySwap l) s P :=
  ⟨_, congrArg Host.Outcome.next (State.boundaryWhen_of_due hl frame due), h⟩

end

section
variable {s : State} {l : ListenId} {t j : ListenLane} {P : State → Prop} (frame : AtBoundary s)
  (hl : s.listen? l = some t) (unclocked : t.provingClock = none) (judged : s.judgeByState t = (j, .quiet))
  (stopped : j.timer = none) (unstaged : j.staged = none) (unasked : j.request = none)
include frame hl unclocked judged stopped unstaged unasked

/-- A lane outside proving, with nothing staged, requested or timed, is after its boundary as it was judged, its keys one
position on. -/
theorem completes_judged (h : P (s.setListen l j.nextSuperframe.advance)) : Completes (.listenLaneBoundary l) s P := by
  refine completes_listenBoundary frame hl ?_
  rwa [State.boundaryOf_of_settled (j := j.nextSuperframe) (by rw [State.judgeLane_of_unclocked unclocked, judged]) stopped unstaged unasked]

end

end Sys2Proof.Machine
end

