-- ==== Sys2Proof/Proofs/LockedLanes.lean ====
section
/-! PROOF. The boundary of a lane in LOCKED, in WAITKEY and in proving (R126, R128, R131, R133, R134; R60). -/

namespace Sys2Proof.Machine

open Sys2Proof

namespace State

/-! ### Path proving (R128, R60) -/

section
variable {s : State} {t : ListenLane}

/-- The end of the acquisition superframe. -/
theorem judgeLane_acquisition (clock : t.provingClock = some 0) : s.judgeLane t =
    ((t.judgeAcquisition s.lockThreshold).1.nextSuperframe, (t.judgeAcquisition s.lockThreshold).2) := by
  simp only [judgeLane, clock, if_true]

/-- The end of the count superframe. -/
theorem judgeLane_count (clock : t.provingClock = some (-1)) : s.judgeLane t =
    ((t.judgeCount s.provingLimit).1.nextSuperframe, (t.judgeCount s.provingLimit).2) := by
  simp [judgeLane, clock]

theorem judgeLane_acquisition_fails (clock : t.provingClock = some 0)
    (short : t.state ≠ .proving ∨ t.marksAgreed < s.lockThreshold) : ∃ j, s.judgeLane t = (j, .fail) := by
  have no : ¬ (t.state = .proving ∧ s.lockThreshold ≤ t.marksAgreed) := fun ⟨proving, high⟩ =>
    short.elim (· proving) (Nat.not_lt.2 high)
  exact ⟨_, by rw [judgeLane_acquisition clock, ListenLane.judgeAcquisition, if_neg no]⟩

theorem judgeLane_count_fails (clock : t.provingClock = some (-1))
    (many : t.state ≠ .proving ∨ s.provingLimit < t.provingErrors) : ∃ j, s.judgeLane t = (j, .fail) := by
  have no : ¬ (t.state = .proving ∧ t.provingErrors ≤ s.provingLimit) := fun ⟨proving, few⟩ =>
    many.elim (· proving) (Nat.not_lt.2 few)
  exact ⟨_, by rw [judgeLane_count clock, ListenLane.judgeCount, if_neg no]⟩

section
variable {r : RecordId} {k : Call} (owner : t.owner = r) (tag : t.ownerTag = s.callTag r) (hk : s.call? r = some k)
include owner tag hk

theorem ownerOf_of_lane : s.ownerOf t.owner t.ownerTag = some (r, k) := by
  subst owner
  simp only [ownerOf, tag, if_true, hk, Option.map_some]

end

section
variable {l : ListenId} {j : ListenLane} {r : RecordId} {k : Call} (owner : t.owner = r)
  (tag : t.ownerTag = s.callTag r) (hk : s.call? r = some k) (proving : k.state = .proving)
include owner tag hk proving

theorem boundaryOf_pass (judged : s.judgeLane t = (j, .pass)) : s.boundaryOf l t =
    ((((s.setListen l j).setCallState r .connected).modListen l fun t => t.advance.swap).laneTimer l) := by
  have named := ownerOf_of_lane (s := s.setListen l j) owner tag hk
  have call : (s.setListen l j).call? r = some k := hk
  simp only [boundaryOf, judged, reportVerdict, named, provingPass, call, proving, if_true]

theorem boundaryOf_fail (judged : s.judgeLane t = (j, .fail)) : s.boundaryOf l t =
    ((((s.setListen l j).clearRecord r .pathFailed).modListen l fun t => t.advance.swap).laneTimer l) := by
  have named := ownerOf_of_lane (s := s.setListen l j) owner tag hk
  have call : (s.setListen l j).call? r = some k := hk
  simp only [boundaryOf, judged, reportVerdict, named, provingFail, call, proving, if_true]

end

end

/-! ### A record changes state with its lane's send mode (R116) -/

theorem setCallState_of_lane {s : State} {r : RecordId} {k k' : Call} {l : TalkId} {t : TalkLane} {st : CallState}
    (hk : s.call? r = some k) (after : { k with state := st } = k') (hl : k.talkLane = some l) (ht : s.talk? l = some t) :
    s.setCallState r st = (s.setCall r k').setTalk l { t with mode := k'.sendMode } := by
  have lane : k'.talkLane = some l := by rw [← after]; exact hl
  have talk : (s.setCall r k').talk? l = some t := ht
  simp only [setCallState, modCall_of_call hk, after, call_setCall_same, lane]
  exact modTalk_of_lane talk _

/-! ### A closed lane takes no further step (R126) -/

theorem modListen_of_closed {s : State} {l : ListenId} (closed : s.listen? l = none) (f : ListenLane → ListenLane) :
    s.modListen l f = s := by simp only [modListen, closed]

theorem laneTimer_of_closed {s : State} {l : ListenId} (closed : s.listen? l = none) : s.laneTimer l = s := by
  simp only [laneTimer, closed]

/-- The record's own listen lanes close with it. -/
theorem listen_closeListens_of_mem {l : ListenId} {ls : List ListenId} (h : l ∈ ls) (s : State) :
    (s.closeListens ls).listen? l = none := by
  unfold closeListens
  induction ls generalizing s with
  | nil => cases h
  | cons m ls ih =>
    rw [List.foldl_cons]
    by_cases later : l ∈ ls
    · exact ih later _
    · obtain rfl : l = m := (List.mem_cons.1 h).resolve_right later
      exact ((ClearFrame.closeListens ls (s.closeListen l)).listen l).elim
        (·.trans (listen_closeListen_same l s)) id

theorem listen_endRecord_of_mem {s : State} {r : RecordId} {k : Call} {l : ListenId} (c : Cause) (tone : Option Tone)
    (hk : s.call? r = some k) (h : l ∈ k.listenLanes) : (s.endRecord r c tone).listen? l = none := by
  have own : ∀ u : State, (u.modCall r fun k => { k with talkLane := none, listenLanes := [], timer := none }).listen? l =
      u.listen? l := fun u => by simp only [listen?, listenPlace, modCall_scr]
  have closed : ∀ u : State, ((u.closeListens k.listenLanes).detach r).listen? l = none := fun u =>
    listen_closeListens_of_mem h u
  simp only [endRecord, hk, own]
  split
  · exact ((ClearFrame.leaveStack _ _ _).listen l).elim (·.trans (closed _)) id
  · exact closed _

theorem listen_clearRecord_of_mem {s : State} {r : RecordId} {k : Call} {l : ListenId} (c : Cause)
    (hk : s.call? r = some k) (open_ : k.isClearing = false) (h : l ∈ k.listenLanes) :
    (s.clearRecord r c).listen? l = none := by
  have ended := listen_endRecord_of_mem c c.tone hk h
  have kept {t : State} (f : ClearFrame (s.endRecord r c c.tone) t) : t.listen? l = none :=
    (f.listen l).elim (·.trans ended) id
  simp only [clearRecord, clearRecordTone, hk, open_, Bool.false_eq_true, if_false]
  split
  · exact kept (.endConference r _)
  · split
    · exact kept (.offerCallClear ..)
    all_goals exact kept (.freeRecord r _)

end State

/-- Settles O54: each lane by the rule of its state, and proving by the clock of its first key. -/
theorem lockedLaneIsJudgedAtTheBoundary : Obligations.LockedLaneIsJudgedAtTheBoundary := by
  unfold Obligations.LockedLaneIsJudgedAtTheBoundary
  refine ⟨fun s l t0 im k frame him hl hs unclocked unasked stopped hk => ⟨fun unstaged whole high => ?_,
      fun unstaged whole low few => ?_, fun unstaged whole low third => ?_, fun unstaged part => ?_,
      fun g hg due part => ?_⟩,
    fun s l t0 im frame him hl hs unclocked unasked unstaged stopped whole => ⟨fun high => ?_, fun low => ?_⟩,
    fun s l t0 im r k far tl T frame him hl unasked unstaged stopped owner tag hk proving plain lanes hf htl hT =>
      ⟨fun clock hs high => ?_, fun clock hs few => ?_, fun failed room => ?_⟩⟩
  · have judged := State.judgeByState_locked (s := s) whole hs
    rw [State.lossThreshold_of_image him, ListenLane.judgeLocked, if_pos high] at judged
    refine completes_judged frame hl unclocked judged stopped unstaged unasked ⟨_, State.listen_setListen_same .., ?_⟩
    simp only [ListenLane.advance, ListenLane.nextSuperframe, hs, hk, Option.map_some, true_and]
    exact fun j hj => State.listen_setListen_ne _ s hj
  · have judged := State.judgeByState_locked (s := s) whole hs
    rw [State.lossThreshold_of_image him, ListenLane.judgeLocked, if_neg (Nat.not_le.2 low),
      if_pos (show t0.lowCount + 1 < 3 by omega)] at judged
    refine completes_judged frame hl unclocked judged stopped unstaged unasked ⟨_, State.listen_setListen_same .., ?_⟩
    simp only [ListenLane.advance, ListenLane.nextSuperframe, hs, hk, Option.map_some, true_and]
  · have judged := State.judgeByState_locked (s := s) whole hs
    rw [State.lossThreshold_of_image him, ListenLane.judgeLocked, if_neg (Nat.not_le.2 low),
      if_neg (by simp [third])] at judged
    have lane := State.judgeLane_of_unclocked (s := s) unclocked
    rw [judged] at lane
    have due : s.lowFigureDue t0 = true := by
      rw [State.lowFigureDue, lane]
      exact decide_eq_true ⟨hs, rfl⟩
    refine completes_lowFigure frame hl ?_ due
    rw [State.boundaryOf_of_settled lane rfl unstaged unasked]
    exact ⟨_, State.listen_setListen_same .., rfl, rfl, rfl⟩
  · have judged := State.judgeByState_of_part (s := s) (t := t0) (by omega) (by simp [hs])
    exact completes_judged frame hl unclocked judged stopped unstaged unasked
      ⟨_, State.listen_setListen_same .., hs, rfl, rfl⟩
  · have lane := State.judgeLane_of_unclocked (s := s) unclocked
    rw [State.judgeByState_of_part (by omega) (by simp [hs])] at lane
    have swaps := ListenLane.swap_of_due (t := t0.nextSuperframe.advance) hg due
    set u : ListenLane := { t0.nextSuperframe.advance with
      staged := some { g with countdown := some 0 }
      request := t0.nextSuperframe.advance.request.map fun q => { q with countdown := q.countdown.map (· - 1) } } with hu
    have installed := u.install_installed { g with countdown := some 0 } 0
    have active : u.active = some { k with position := k.position + 1 } := by
      simp only [hu, ListenLane.advance, ListenLane.nextSuperframe, hk, Option.map_some]
    refine completes_listenSwap frame hl ?_ (by simp [State.listenSwapDue, hg, due])
    rw [State.boundaryOf_of_quiet lane (by rw [swaps]; exact ListenLane.install_timer_of_stopped (t := u) stopped _ _), swaps]
    refine ⟨_, State.listen_setListen_same .., (installed.locked hs).1, ?_, installed.staged, installed.active,
      installed.nonces⟩
    rw [installed.previous, active]
    rfl
  · have judged := State.judgeByState_waitkey (s := s) whole hs
    rw [State.lockThreshold_of_image him, if_pos high] at judged
    exact completes_judged frame hl unclocked judged rfl unstaged unasked
      ⟨_, State.listen_setListen_same .., rfl, rfl, rfl, rfl⟩
  · have judged := State.judgeByState_waitkey (s := s) whole hs
    rw [State.lockThreshold_of_image him, if_neg (Nat.not_le.2 low)] at judged
    exact completes_judged frame hl unclocked judged rfl unstaged unasked
      ⟨_, State.listen_setListen_same .., rfl, rfl, rfl, rfl⟩
  · have lane := State.judgeLane_acquisition (s := s) clock
    rw [State.lockThreshold_of_image him, ListenLane.judgeAcquisition, if_pos ⟨hs, high⟩] at lane
    refine completes_listenBoundary frame hl ?_
    rw [State.boundaryOf_of_settled lane stopped unstaged unasked]
    refine ⟨_, State.listen_setListen_same .., hs, ?_, rfl, rfl, rfl⟩
    simp [ListenLane.advance, ListenLane.nextSuperframe, clock]
  · have lane := State.judgeLane_count (s := s) clock
    rw [State.provingLimit_of_image him, ListenLane.judgeCount, if_pos ⟨hs, few⟩] at lane
    refine completes_listenBoundary frame hl ?_
    rw [State.boundaryOf_pass owner tag hk proving lane]
    set j := ({ t0.noteFigure with provingClock := none } : ListenLane).enterLocked.nextSuperframe with hj
    have noted : t0.noteFigure.staged = none ∧ t0.noteFigure.request = none := by
      unfold ListenLane.noteFigure
      split <;> exact ⟨unstaged, unasked⟩
    have still : j.advance.swap = j.advance :=
      ListenLane.swap_of_settled (by simp [hj, ListenLane.advance, ListenLane.nextSuperframe, ListenLane.enterLocked, noted])
        noted.2
    have call : (s.setListen l j).call? r = some k := hk
    have talk : (s.setListen l j).talk? tl = some T := hT
    set v := (s.setListen l j).setCallState r .connected with hv
    have run : v = ((s.setListen l j).setCall r { k with state := .connected }).setTalk tl { T with mode := .voice } :=
      State.setCallState_of_lane call rfl htl talk
    have lane' : v.listen? l = some j := by
      rw [run]
      exact State.listen_setListen_same l j s
    rw [show (v.modListen l fun t => t.advance.swap) = v.setListen l j.advance from by
      simp only [State.modListen, lane', still],
      State.laneTimer_of_stopped (State.listen_setListen_same ..) rfl, run]
    exact ⟨⟨_, State.listen_setListen_same .., rfl, rfl, rfl, rfl⟩, State.call_setCall_same .., State.talk_setTalk_same .., rfl⟩
  · have fails : ∃ j, s.judgeLane t0 = (j, .fail) := by
      rcases failed with ⟨clock, short⟩ | ⟨clock, short⟩
      · exact State.judgeLane_acquisition_fails clock (by rwa [State.lockThreshold_of_image him])
      · exact State.judgeLane_count_fails clock (by rwa [State.provingLimit_of_image him])
    obtain ⟨j, lane⟩ := fails
    have call : (s.setListen l j).call? r = some k := hk
    have closed : ((s.setListen l j).clearRecord r .pathFailed).listen? l = none :=
      State.listen_clearRecord_of_mem _ call (by simp [Call.isClearing, proving]) (by simp [lanes])
    have told : ClearsTo (s.setListen l j) _ r .pathFailed far k.farTag :=
      State.clearRecord_clearsTo .pathFailed call (by simp [plain]) (by simp [Call.farMayExist, proving]) hf room
    refine completes_listenBoundary frame hl ?_
    rw [State.boundaryOf_fail owner tag hk proving lane, State.modListen_of_closed closed,
      State.laneTimer_of_closed closed]
    exact ⟨closed, told.of_start rfl rfl⟩

end Sys2Proof.Machine
end

