-- ==== Sys2Proof/Proofs/LostLanes.lean ====
section
/-! PROOF. A lane that has lost its talker: it asks, searches, recovers, and at the third failure reports SYNC-LOST (R133,
R135 to R138; R60, R96, R103). -/

namespace Sys2Proof.Machine

open Sys2Proof

/-! ### The slots of a search (R103, R135) -/

namespace State

/-- How far after the lane's own slot a search has come. -/
def triedUpTo (origin : Slot) (cursor : Option Slot) : Nat :=
  match cursor with
  | some z => slotsAfter origin z
  | none => 0

/-- Of two candidates the one that comes first after the lane's own slot, among those not yet tried. -/
def nearer (origin : Slot) (cursor : Option Slot) (best : Option Slot) (x : Slot) : Option Slot :=
  if slotsAfter origin x ≤ triedUpTo origin cursor then best
  else match best with
    | none => some x
    | some y => if slotsAfter origin x < slotsAfter origin y then some x else some y

theorem phaseTwoSlot_eq (s : State) (t : ListenLane) (cursor : Option Slot) :
    s.phaseTwoSlot t cursor = (s.slotsOf t.talker).foldl (nearer t.slot cursor) none := by
  unfold phaseTwoSlot
  congr 1
  funext best x
  unfold nearer triedUpTo
  cases cursor with
  | none =>
    refine if_congr ?_ rfl rfl
    simp
  | some z =>
    refine if_congr ?_ rfl rfl
    simp only [decide_eq_true_eq]
    omega

/-- Distinct slots stand at distinct distances. -/
theorem slotsAfter_injective (origin : Slot) : Function.Injective (slotsAfter origin) := by
  intro x y h
  have hx := x.isLt
  have hy := y.isLt
  have ho := origin.isLt
  unfold slotsAfter at h
  exact Fin.ext (by omega)

section
variable (origin : Slot) (cursor : Option Slot)

/-- The slot found is a candidate and none comes before it; where none is found there is no candidate. -/
theorem foldl_nearer (xs : List Slot) (best : Option Slot) :
    (∀ y, xs.foldl (nearer origin cursor) best = some y →
      (best = some y ∨ y ∈ xs ∧ triedUpTo origin cursor < slotsAfter origin y) ∧
      (∀ z, best = some z → slotsAfter origin y ≤ slotsAfter origin z) ∧
      ∀ z ∈ xs, triedUpTo origin cursor < slotsAfter origin z → slotsAfter origin y ≤ slotsAfter origin z) ∧
    (xs.foldl (nearer origin cursor) best = none →
      best = none ∧ ∀ z ∈ xs, ¬ triedUpTo origin cursor < slotsAfter origin z) := by
  induction xs generalizing best with
  | nil =>
    refine ⟨fun y h => ⟨.inl h, fun z hz => ?_, by simp⟩, fun h => ⟨h, by simp⟩⟩
    obtain rfl : y = z := by simpa [List.foldl_nil] using h.symm.trans hz
    exact le_rfl
  | cons x xs ih =>
    rw [List.foldl_cons]
    obtain ⟨found, missed⟩ := ih (nearer origin cursor best x)
    have step : (slotsAfter origin x ≤ triedUpTo origin cursor ∧ nearer origin cursor best x = best) ∨
        (triedUpTo origin cursor < slotsAfter origin x ∧ ((nearer origin cursor best x = some x ∧
            ∀ z, best = some z → slotsAfter origin x ≤ slotsAfter origin z) ∨
          (∃ z, best = some z ∧ nearer origin cursor best x = best ∧ slotsAfter origin z ≤ slotsAfter origin x))) := by
      unfold nearer
      by_cases tried : slotsAfter origin x ≤ triedUpTo origin cursor
      · exact .inl ⟨tried, if_pos tried⟩
      · refine .inr ⟨Nat.lt_of_not_le tried, ?_⟩
        rw [if_neg tried]
        cases best with
        | none => exact .inl ⟨rfl, by simp⟩
        | some z =>
          by_cases closer : slotsAfter origin x < slotsAfter origin z
          · exact .inl ⟨if_pos closer, fun w hw => by cases hw; exact closer.le⟩
          · exact .inr ⟨z, rfl, if_neg closer, Nat.le_of_not_lt closer⟩
    constructor
    · intro y hy
      obtain ⟨origin', least, others⟩ := found y hy
      rcases step with ⟨tried, same⟩ | ⟨fresh, ⟨taken, before⟩ | ⟨z, hz, same, after⟩⟩
      · rw [same] at origin' least
        refine ⟨origin'.imp_right fun h => ⟨List.mem_cons_of_mem _ h.1, h.2⟩, least, fun w hw hn => ?_⟩
        rcases List.mem_cons.1 hw with rfl | hw
        · exact absurd hn (Nat.not_lt.2 tried)
        · exact others w hw hn
      · have toX := least x taken
        refine ⟨.inr ?_, fun w hw => toX.trans (before w hw), fun w hw hn => ?_⟩
        · rcases origin' with h | ⟨h, hn⟩
          · obtain rfl : x = y := by simpa [taken] using h
            exact ⟨List.mem_cons_self .., fresh⟩
          · exact ⟨List.mem_cons_of_mem _ h, hn⟩
        · rcases List.mem_cons.1 hw with rfl | hw
          · exact toX
          · exact others w hw hn
      · rw [same] at origin' least
        refine ⟨origin'.imp_right fun h => ⟨List.mem_cons_of_mem _ h.1, h.2⟩, least, fun w hw hn => ?_⟩
        rcases List.mem_cons.1 hw with rfl | hw
        · exact (least z hz).trans after
        · exact others w hw hn
    · intro h
      obtain ⟨none', others⟩ := missed h
      rcases step with ⟨tried, same⟩ | ⟨-, ⟨taken, -⟩ | ⟨z, hz, same, -⟩⟩
      · refine ⟨same ▸ none', fun w hw => ?_⟩
        rcases List.mem_cons.1 hw with rfl | hw
        · exact Nat.not_lt.2 tried
        · exact others w hw
      · rw [taken] at none'
        cases none'
      · rw [same, hz] at none'
        cases none'

end

/-- A slot that a search has still to try: the map shows it held by the talker, after the cursor (R103, R135). -/
def Untried (s : State) (t : ListenLane) (cursor : Option Slot) (y : Slot) : Prop :=
  s.slots.map.get y = some t.talker ∧ triedUpTo t.slot cursor < slotsAfter t.slot y

section
variable {s : State} {t : ListenLane} {cursor : Option Slot}

theorem mem_slotsOf {st : Station} {y : Slot} : y ∈ s.slotsOf st ↔ s.slots.map.get y = some st := by
  simp only [slotsOf, List.mem_filter, List.mem_finRange, true_and]
  exact decide_eq_true_iff

theorem phaseTwoSlot_of_first {y : Slot} (hy : s.Untried t cursor y)
    (first : ∀ z, s.Untried t cursor z → slotsAfter t.slot y ≤ slotsAfter t.slot z) : s.phaseTwoSlot t cursor = some y := by
  rw [phaseTwoSlot_eq]
  obtain ⟨found, missed⟩ := foldl_nearer t.slot cursor (s.slotsOf t.talker) none
  cases h : (s.slotsOf t.talker).foldl (nearer t.slot cursor) none with
  | none => exact absurd hy.2 ((missed h).2 y (mem_slotsOf.2 hy.1))
  | some z =>
    obtain ⟨from_, -, least⟩ := found z h
    obtain ⟨mem, fresh⟩ := from_.resolve_left (by simp)
    have before := first z ⟨mem_slotsOf.1 mem, fresh⟩
    have after := least y (mem_slotsOf.2 hy.1) hy.2
    rw [slotsAfter_injective t.slot (Nat.le_antisymm before after)]

theorem phaseTwoSlot_of_none (none_ : ∀ y, ¬ s.Untried t cursor y) : s.phaseTwoSlot t cursor = none := by
  rw [phaseTwoSlot_eq]
  obtain ⟨found, -⟩ := foldl_nearer t.slot cursor (s.slotsOf t.talker) none
  cases h : (s.slotsOf t.talker).foldl (nearer t.slot cursor) none with
  | none => rfl
  | some z =>
    obtain ⟨mem, fresh⟩ := (found z h).1.resolve_left (by simp)
    exact absurd ⟨mem_slotsOf.1 mem, fresh⟩ (none_ z)

end

/-! ### The next candidate (R135, R136) -/

section
variable {s : State} {t : ListenLane} {c : Search}

theorem nextCandidate_of_restart (restart : c.restart = true) : s.nextCandidate t c = some t.phaseOne := if_pos restart

section
variable (goesOn : c.restart = false) (phase : c.phase = 1 ∨ c.phase = 2)
include goesOn phase

theorem nextCandidate_of_first {y : Slot} (hy : s.Untried t c.cursor y)
    (first : ∀ z, s.Untried t c.cursor z → slotsAfter t.slot y ≤ slotsAfter t.slot z) :
    s.nextCandidate t c = some { phase := 2, slot := y, previous := false, cursor := some y } := by
  simp only [nextCandidate, goesOn, Bool.false_eq_true, if_false, phase, if_true, phaseTwoSlot_of_first hy first]

theorem nextCandidate_of_none (none_ : ∀ y, ¬ s.Untried t c.cursor y) : s.nextCandidate t c = phaseThree t := by
  simp only [nextCandidate, goesOn, Bool.false_eq_true, if_false, phase, if_true, phaseTwoSlot_of_none none_]

end

theorem nextCandidate_of_phaseThree (goesOn : c.restart = false) (phase : c.phase = 3) : s.nextCandidate t c = none := by
  simp [nextCandidate, goesOn, phase]

end

/-! ### SYNC-ASK (R137) -/

/-- The SYNC-ASK of a lane. -/
def syncAskCell (s : State) (t : ListenLane) : Cell := cellFrom s t.talker t.ownerTag t.talkerTag (.syncAsk t.slot)

/-- The lane that is lost (R133, R136, R137). -/
def lostLane (t : ListenLane) : ListenLane := { t with state := .lost, search := none, awaiting := false }

section
variable {s : State} {l : ListenId} {t : ListenLane}

theorem listen_offerSkip (c : Cell) (n : OfferName) (s : State) (l : ListenId) :
    (s.offerSkip c n).listen? l = s.listen? l := by
  simp only [listen?, listenPlace, offerSkip_scr]

theorem offerSyncAsk_of_lane (hl : s.listen? l = some t) :
    s.offerSyncAsk l = (s.offerSkip (s.syncAskCell t) .plain).setListen l { t with timer := some 8 } := by
  have cell : s.cellTo t.talker t.ownerTag t.talkerTag (.syncAsk t.slot) = s.syncAskCell t := rfl
  simp only [offerSyncAsk, hl, cell, modListen, listen_offerSkip]

theorem enterLost_setListen : (s.setListen l t).enterLost l =
    ((s.setListen l (lostLane t)).offerSkip (s.syncAskCell t) .plain).setListen l { lostLane t with timer := some 8 } := by
  rw [enterLost, modListen_setListen]
  exact offerSyncAsk_of_lane (listen_setListen_same ..)

/-- The queue takes the cell of a reserved class, or holds 24 (R159). -/
theorem queues_offerSkip_of_reserve {c : Cell} (n : OfferName) (active : s.station.state = .active)
    (kept : c.body.reserve = true) :
    (s.highway.queue.length < 24 → Queues s (s.offerSkip c n) [c]) ∧
    (s.highway.queue.length = 24 → Queues s (s.offerSkip c n) []) := by
  refine ⟨fun room => ?_, fun full => .of_eq (offer_of_noPlace n (.inr full.ge)).2⟩
  rw [offerSkip, offer_of_reserve n active kept room]
  simp [Queues]

/-! ### A timer that runs out at the boundary (R133, R137) -/

/-- A lane with nothing staged or requested whose superframe gave no figure, before step 4 of its boundary. -/
theorem beforeTimer_of_unread (unclocked : t.provingClock = none) (unstaged : t.staged = none) (unasked : t.request = none)
    (part : t.framesRead ≠ 64) (settled : t.state ≠ .search) :
    s.judgeLane t = (t.nextSuperframe, .quiet) ∧ s.beforeTimer t = t.nextSuperframe.advance ∧
    ∀ l, s.boundaryOf l t = (s.setListen l t.nextSuperframe.advance).laneTimer l := by
  have judged : s.judgeLane t = (t.nextSuperframe, .quiet) := by
    rw [judgeLane_of_unclocked unclocked, judgeByState_of_part part settled]
  have still : t.nextSuperframe.advance.swap = t.nextSuperframe.advance :=
    ListenLane.swap_of_settled (by simp [ListenLane.advance, ListenLane.nextSuperframe, unstaged]) unasked
  refine ⟨judged, by rw [beforeTimer, judged, still], fun l => ?_⟩
  simp only [boundaryOf, judged, reportVerdict, modListen_setListen, still]

theorem laneTimer_of_waitkey (due : t.timer = some 1) (hs : t.state = .waitkey) :
    (s.setListen l t).laneTimer l = (s.setListen l { t with timer := none }).enterLost l := by
  simp only [laneTimer, listen_setListen_same, due, hs, modListen_setListen, le_refl, if_true]

theorem laneTimer_of_lost (due : t.timer = some 1) (hs : t.state = .lost) (unreported : t.syncLost = false) :
    (s.setListen l t).laneTimer l = (s.setListen l { t with timer := none }).offerSyncAsk l := by
  simp only [laneTimer, listen_setListen_same, due, hs, unreported, modListen_setListen, le_refl, if_true, Bool.false_eq_true, if_false]

/-- A lane is lost with its timer at 8, and its SYNC-ASK is queued where there was a place. -/
structure Asked (s t : State) (l : ListenId) (t0 : ListenLane) : Prop where
  lane : ∃ t1, t.listen? l = some t1 ∧ t1.state = .lost ∧ t1.timer = some 8 ∧ t1.recovery = t0.recovery
  sent : s.highway.queue.length < 24 → Queues s t [s.syncAskCell t0]
  full : s.highway.queue.length = 24 → Queues s t []

theorem asked_setListen {t0 v w : ListenLane} {cell : Cell} (active : s.station.state = .active)
    (asks : cell = s.syncAskCell t0) (lost : w.state = .lost) (timed : w.timer = some 8)
    (kept : w.recovery = t0.recovery) : Asked s (((s.setListen l v).offerSkip cell .plain).setListen l w) l t0 := by
  subst asks
  obtain ⟨sent, full⟩ := queues_offerSkip_of_reserve (s := s.setListen l v) (c := s.syncAskCell t0) .plain active rfl
  exact ⟨⟨_, listen_setListen_same .., lost, timed, kept⟩, sent, full⟩

section
variable (active : s.station.state = .active) (due : t.timer = some 1) (unclocked : t.provingClock = none)
  (unstaged : t.staged = none) (unasked : t.request = none) (part : t.framesRead ≠ 64)
include active due unclocked unstaged unasked part

theorem waitkeyExpiry_asked (hs : t.state = .waitkey) : s.waitkeyDue t = true ∧ Asked s (s.boundaryOf l t) l t := by
  obtain ⟨judged, before, run⟩ := beforeTimer_of_unread (s := s) unclocked unstaged unasked part (by simp [hs])
  refine ⟨?_, ?_⟩
  · rw [waitkeyDue, judged, before]
    exact decide_eq_true ⟨hs, rfl, hs, due⟩
  · rw [run, laneTimer_of_waitkey (t := t.nextSuperframe.advance) due hs, enterLost_setListen]
    exact asked_setListen active rfl rfl rfl rfl

theorem syncAskExpiry_asked (hs : t.state = .lost) (unreported : t.syncLost = false) :
    s.syncAskDue t = true ∧ Asked s (s.boundaryOf l t) l t := by
  obtain ⟨judged, before, run⟩ := beforeTimer_of_unread (s := s) unclocked unstaged unasked part (by simp [hs])
  refine ⟨?_, ?_⟩
  · rw [syncAskDue, judged, before]
    exact decide_eq_true ⟨hs, unreported, rfl, hs, due⟩
  · rw [run, laneTimer_of_lost (t := t.nextSuperframe.advance) due hs unreported,
      offerSyncAsk_of_lane (listen_setListen_same ..)]
    exact asked_setListen active rfl hs rfl rfl

end

/-! ### A search that is exhausted (R136) -/

theorem boundaryOf_of_exhausted {j : ListenLane} (judged : s.judgeLane t = (j, .exhausted)) (unstaged : j.staged = none)
    (unasked : j.request = none) : s.boundaryOf l t =
      ((s.setListen l (lostLane j)).offerSkip (s.syncAskCell j) .plain).setListen l
        { (lostLane j).advance with timer := some 7 } := by
  have still : ({ lostLane j with timer := some 8 } : ListenLane).advance.swap =
      { (lostLane j).advance with timer := some 8 } :=
    ListenLane.swap_of_settled (by simp [ListenLane.advance, lostLane, unstaged]) unasked
  simp only [boundaryOf, judged, reportVerdict, enterLost_setListen, modListen_setListen, still, laneTimer,
    listen_setListen_same]
  simp

/-! ### The third failure (R138, R60) -/

theorem boundaryOf_of_syncLost {j : ListenLane} {r : RecordId} {k : Call} (judged : s.judgeLane t = (j, .syncLost))
    (owner : t.owner = r) (tag : t.ownerTag = s.callTag r) (hk : s.call? r = some k) (connected : k.state = .connected)
    (plain : k.confRole = .none) (own : l ∈ k.listenLanes) :
    s.boundaryOf l t = (s.setListen l j).clearRecord r .syncLost := by
  have call : (s.setListen l j).call? r = some k := hk
  have named := ownerOf_of_lane (s := s.setListen l j) owner tag call
  have closed := listen_clearRecord_of_mem (l := l) .syncLost call (by simp [Call.isClearing, connected]) own
  have run : (s.setListen l j).syncLost r t.talker t.talkerTag = (s.setListen l j).clearRecord r .syncLost := by
    simp only [State.syncLost, call, plain, connected, reduceCtorEq, if_false]
  simp only [boundaryOf, judged, reportVerdict, named, run, modListen_of_closed closed]
  exact laneTimer_of_closed closed

end

end State

/-- The queue of a clearing whose record has an ACTIVE lane and a far end: SLOT-FREE and then CALL-CLEAR, as far as there are
places (R62, R96, R159). -/
structure ClearedByPlaces (s t : State) (r : RecordId) (c : Cause) (far : Station) (tag : Tag) (y : Slot) : Prop where
  two : s.highway.queue.length ≤ 22 →
    (∃ k, t.call? r = some k ∧ k.state = .clearing ∧ k.cause = c ∧ k.clears = 1) ∧
    Queues s t [broadcast s (.slot (.free y)), cellFrom s far (s.callTag r) tag (.callClear c)]
  one : s.highway.queue.length = 23 → t.call? r = none ∧ Queues s t [broadcast s (.slot (.free y))]
  none : s.highway.queue.length = 24 → t.call? r = none ∧ Queues s t [] ∧
    t.slots.claims = s.slots.claims ++ [{ kind := .release, slot := y, refused := true, fresh := true }]
  map : t.slots.map.get y = Option.none

theorem State.clearRecord_clearedByPlaces {s : State} {r : RecordId} {k : Call} {far : Station} {l : TalkId} {T : TalkLane}
    {y : Slot} (c : Cause) (hk : s.call? r = some k) (plain : k.confRole = .none) (told : k.farMayExist = true)
    (hf : k.farStation = some far) (hl : k.talkLane = some l) (hT : s.talk? l = some T) (active : T.state = .active)
    (hy : T.slot = some y) (up : s.station.state = .active) :
    ClearedByPlaces s (s.clearRecord r c) r c far k.farTag y := by
  obtain ⟨record, incarnation, -, sends, -, -⟩ := State.endRecord_spec r c c.tone s hk
  have off := State.endRecord_offHighway c c.tone hk
  rw [State.closeLaneOf_some hl] at off
  set u := s.endRecord r c c.tone with hu
  have tag : u.callTag r = s.callTag r := by rw [State.callTag, State.callTag, incarnation]
  have cell : u.cellTo far (u.callTag r) k.farTag (.callClear c) = cellFrom s far (s.callTag r) k.farTag (.callClear c) := by
    rw [State.cellTo, cellFrom, tag, State.self_of_station sends.1]
  have upNow : u.station.state = .active := by rw [sends.1]; exact up
  have run : s.clearRecord r c = u.offerCallClear r c far k.farTag := State.clearRecord_of_far hk plain told hf
  have sent (room : u.highway.queue.length < 24) : s.clearRecord r c = (u.enqueue
      ⟨cellFrom s far (s.callTag r) k.farTag (.callClear c), u.clearingName r⟩).awaitClears r 1 := by
    rw [run, State.offerCallClear, cell, State.offer_of_reserve _ upNow rfl room]
    rfl
  have refused (full : 24 ≤ u.highway.queue.length) : (s.clearRecord r c).call? r = none ∧
      (s.clearRecord r c).highway.queue = u.highway.queue := by
    obtain ⟨no, queue⟩ := State.offer_of_noPlace (s := u)
      (c := cellFrom s far (s.callTag r) k.farTag (.callClear c)) (u.clearingName r) (.inr full)
    rw [run, State.offerCallClear, cell, no]
    exact ⟨State.call_freeRecord_same r _, queue⟩
  have slots : (s.clearRecord r c).slots = u.slots := by
    rw [run, State.offerCallClear, (State.OffHighway.awaitClears r _ _).slots, State.offer_slots]
  refine ⟨fun room => ?_, fun last => ?_, fun full => ?_, ?_⟩
  · have place := (State.closeTalk_of_place hT active hy up (by omega)).1
    rw [← off.highway] at place
    rw [sent (by rw [place]; simp; omega)]
    obtain ⟨-, waits, -⟩ := State.awaitClears_spec r 1 (u.enqueue ⟨_, u.clearingName r⟩) record
    refine ⟨⟨_, waits (by simp), rfl, rfl, rfl⟩, ?_⟩
    rw [Queues, (State.OffHighway.awaitClears r 1 _).highway, State.enqueue_queue, place]
    simp
  · have place := (State.closeTalk_of_place hT active hy up (by omega)).1
    rw [← off.highway] at place
    obtain ⟨free, queue⟩ := refused (by rw [place]; simp; omega)
    refine ⟨free, ?_⟩
    rw [Queues, queue, place]
    simp
  · obtain ⟨same, claims⟩ := State.closeTalk_of_noPlace hT active hy full.ge
    rw [← off.highway] at same
    obtain ⟨free, queue⟩ := refused (by rw [same]; exact full.ge)
    refine ⟨free, .of_eq (queue.trans same), ?_⟩
    rw [slots, off.slots, claims]
  · rw [slots, off.slots, State.map_closeTalk hT active hy, upd_get_same]

/-- Settles O55: the timers, the search and the recovery of a lane that has lost its talker, and the end of its call. -/
theorem lostLanesAskAndAtLastReport : Obligations.LostLanesAskAndAtLastReport := by
  unfold Obligations.LostLanesAskAndAtLastReport
  refine ⟨fun s l t0 frame hl due unclocked unstaged unasked unread active => ?_,
    fun s l t0 im c key frame him hl hs hc goesOn unclocked unasked unstaged stopped whole hkey => ?_,
    fun s l t0 im c frame him hl hs hc restart unclocked unasked unstaged stopped missed => ?_,
    fun s l t0 im frame him hl hs unclocked unasked unstaged stopped whole =>
      ⟨fun reported => ?_, fun awaits unreported high => ?_, fun awaits unreported low few => ?_⟩,
    fun s l t0 im r k far tl T y frame him active hl hs awaits unreported third unclocked whole low owner tag hk connected
      plain lanes hf htl hT hTs hTy => ?_⟩
  · refine ⟨fun hs _ => ?_, fun hs _ unreported => ?_⟩
    · obtain ⟨expires, asked⟩ :=
        State.waitkeyExpiry_asked (s := s) (l := l) active due unclocked unstaged unasked (by omega) hs
      exact ⟨fun room => completes_waitkeyTimer frame hl ⟨asked.lane, asked.sent room⟩ expires,
        fun full => completes_waitkeyTimer frame hl ⟨asked.lane, asked.full full⟩ expires⟩
    · obtain ⟨expires, asked⟩ :=
        State.syncAskExpiry_asked (s := s) (l := l) active due unclocked unstaged unasked (by omega) hs unreported
      exact ⟨fun room => completes_syncAskTimer frame hl ⟨asked.lane, asked.sent room⟩ expires,
        fun full => completes_syncAskTimer frame hl ⟨asked.lane, asked.full full⟩ expires⟩
  · intro moved after tried held
    have noted := ListenLane.noteFigure_of_whole whole
    have untried (y : Slot) : s.Untried t0.noteFigure c.cursor y ↔ held y := by
      rw [noted]
      exact Iff.rfl
    have threshold := State.lockThreshold_of_image him
    refine ⟨fun high => ?_, fun low phase => ⟨fun y hy first => ?_, fun noSlot old => ?_⟩, fun low phase active room => ?_⟩
    · have judged := State.judgeByState_found (s := s) whole hs hc (by rw [threshold]; exact high)
      rw [noted] at judged
      refine completes_judged frame hl unclocked judged rfl unstaged unasked
        ⟨_, State.listen_setListen_same .., rfl, rfl, rfl, rfl, rfl, fun own => ?_, fun old previous hold => ?_⟩
      · simp only [ListenLane.advance, ListenLane.nextSuperframe, ListenLane.lockOn, ListenLane.enterLocked, own,
          Bool.false_eq_true, if_false, hkey, Option.map_some]
        exact ⟨rfl, rfl⟩
      · simp only [ListenLane.advance, ListenLane.nextSuperframe, ListenLane.lockOn, ListenLane.enterLocked, previous,
          if_true, hkey, hold, Option.map_some]
        exact ⟨rfl, rfl⟩
    · have next := State.nextCandidate_of_first goesOn phase ((untried y).2 hy) fun z hz => by
        have := first z ((untried z).1 hz)
        rw [noted]
        exact this
      have judged := State.judgeByState_next (s := s) whole hs hc (by rw [threshold]; exact low) next
      rw [noted] at judged
      exact completes_judged frame hl unclocked judged stopped unstaged unasked
        ⟨_, State.listen_setListen_same .., hs, rfl⟩
    · have next := State.nextCandidate_of_none goesOn phase fun y hy => noSlot y ((untried y).1 hy)
      rw [State.phaseThree, noted, if_pos (Option.isSome_iff_ne_none.2 old), ← noted] at next
      have judged := State.judgeByState_next (s := s) whole hs hc (by rw [threshold]; exact low) next
      rw [noted] at judged
      exact completes_judged frame hl unclocked judged stopped unstaged unasked
        ⟨_, State.listen_setListen_same .., hs, rfl⟩
    · have last : s.nextCandidate t0.noteFigure c = none := by
        rcases phase with third | ⟨phase, noSlot, noKey⟩
        · exact State.nextCandidate_of_phaseThree goesOn third
        · rw [State.nextCandidate_of_none goesOn phase fun y hy => noSlot y ((untried y).1 hy), State.phaseThree, noted]
          simp [noKey]
      have judged := State.judgeLane_of_unclocked (s := s) unclocked
      rw [State.judgeByState_exhausted whole hs hc (by rw [threshold]; exact low) last, noted] at judged
      have sent (u : ListenLane) : Queues s ((s.setListen l u).offerSkip (s.syncAskCell t0) .plain) [s.syncAskCell t0] :=
        (State.queues_offerSkip_of_reserve (s := s.setListen l u) .plain active rfl).1 room
      refine completes_listenBoundary frame hl ?_
      rw [State.boundaryOf_of_exhausted judged unstaged unasked]
      exact ⟨⟨_, State.listen_setListen_same .., rfl, rfl, by simp, rfl⟩, sent _⟩
  · have judged : ∃ j, s.judgeByState t0 = (j, .quiet) ∧ j.state = .search ∧ j.timer = none ∧ j.staged = none ∧
        j.request = none ∧ j.search = some t0.phaseOne := by
      rcases missed with part | ⟨whole, low⟩
      · have judged := State.judgeByState_search_of_part (s := s) (by omega) hs hc
        rw [if_pos restart] at judged
        exact ⟨_, judged, hs, stopped, unstaged, unasked, rfl⟩
      · have next := State.nextCandidate_of_restart (s := s) (t := t0.noteFigure) restart
        have judged := State.judgeByState_next (s := s) whole hs hc (by rwa [State.lockThreshold_of_image him]) next
        rw [ListenLane.noteFigure_of_whole whole] at judged
        exact ⟨_, judged, hs, stopped, unstaged, unasked, rfl⟩
    obtain ⟨j, judged, searching, timer, staged, request, candidate⟩ := judged
    exact completes_judged frame hl unclocked judged timer staged request
      ⟨rfl, _, State.listen_setListen_same .., searching, candidate⟩
  · have judged := State.judgeByState_lost (s := s) whole hs
    rw [if_neg (by simp [reported])] at judged
    exact completes_judged frame hl unclocked judged stopped unstaged unasked
      ⟨rfl, rfl, _, State.listen_setListen_same .., hs, rfl⟩
  · have judged := State.judgeByState_lost (s := s) whole hs
    rw [if_pos (by simp [awaits, unreported]), ListenLane.judgeRecovery, State.lockThreshold_of_image him,
      if_pos high] at judged
    exact completes_judged frame hl unclocked judged rfl unstaged unasked
      ⟨_, State.listen_setListen_same .., rfl, rfl, rfl, rfl⟩
  · have judged := State.judgeByState_lost (s := s) whole hs
    rw [if_pos (by simp [awaits, unreported]), ListenLane.judgeRecovery, State.lockThreshold_of_image him,
      if_neg (Nat.not_le.2 low), if_pos (show t0.recovery + 1 < 3 by omega)] at judged
    exact completes_judged frame hl unclocked judged rfl unstaged unasked
      ⟨_, State.listen_setListen_same .., rfl, rfl, rfl⟩
  · intro free ended
    have judged := State.judgeLane_of_unclocked (s := s) unclocked
    rw [State.judgeByState_lost whole hs, if_pos (by simp [awaits, unreported]), ListenLane.judgeRecovery,
      State.lockThreshold_of_image him, if_neg (Nat.not_le.2 low), if_neg (show ¬ t0.recovery + 1 < 3 by omega)] at judged
    have due : s.recoveryDue t0 = true := by
      rw [State.recoveryDue, judged]
      exact decide_eq_true rfl
    have own : l ∈ k.listenLanes := by simp [lanes]
    have inUse : k.isClearing = false := by simp [Call.isClearing, connected]
    have told : k.farMayExist = true := by simp [Call.farMayExist, connected]
    have run := State.boundaryOf_of_syncLost (l := l) judged owner tag hk connected plain own
    dsimp only at run
    set v := s.setListen l _ with hv
    have call : v.call? r = some k := hk
    have cleared := State.clearRecord_clearedByPlaces (s := v) .syncLost call plain told hf htl hT hTs hTy active
    have frame' : ended (v.clearRecord r .syncLost) := by
      refine ⟨State.listen_clearRecord_of_mem .syncLost call inUse own, ?_, cleared.map⟩
      rw [State.clearRecord_of_far call plain told hf]
      exact ((ClearFrame.offerCallClear r .syncLost far k.farTag _).talk tl).elim
        (·.trans (State.talk_endRecord_own .syncLost _ call htl)) id
    refine ⟨fun room => ?_, fun last => ?_, fun full => ?_⟩ <;> refine completes_recovery frame hl ?_ due <;> rw [run]
    · exact ⟨frame', cleared.two room⟩
    · exact ⟨frame', cleared.one last⟩
    · exact ⟨frame', cleared.none full⟩

end Sys2Proof.Machine
end

