-- ==== Sys2Proof/Proofs/CallOffers.lean ====
section
/-! PROOF. CALL-OFFER at the called station (R54, R55, R56). -/

namespace Sys2Proof.Machine

open Sys2Proof

namespace State

/-! ### The lowest FREE record (R46) -/

theorem firstFreeRecord_of_lowest {s : State} {a : RecordId} (h : LowestFreeRecord s a) : s.firstFreeRecord = some a := by
  rw [firstFreeRecord, ← Fin.find?_eq_find?_finRange, Fin.find?_eq_some_iff]
  exact ⟨by simp [h.1], fun j hj => by simpa [Option.isSome_iff_ne_none] using h.2 j hj⟩

theorem firstFreeRecord_of_full {s : State} (h : ∀ a, s.call? a ≠ none) : s.firstFreeRecord = none := by
  rw [firstFreeRecord, List.find?_eq_none]
  exact fun a _ => by simpa [Option.isSome_iff_ne_none] using h a

/-! ### The port of an offer (R55, R56) -/

theorem isBusy_iff {s : State} {p : Port} : s.isBusy p = true ↔
    s.front p ≠ none ∨ (s.callPort p).hookView = .off ∨ (s.callPort p).stack ≠ [] := by
  simp [isBusy, or_assoc, Option.isSome_iff_ne_none]

/-- A divert offer without a login of its number rings the lowest ADMITTED port that is not busy (R56). -/
theorem divertPort_of_lowest {s : State} {called : Ext} {p : Port} (away : s.admittedPort called = none)
    (admitted : s.admitted p ≠ none) (free : s.isBusy p = false)
    (lowest : ∀ q, q < p → s.admitted q = none ∨ s.isBusy q = true) : s.divertPort called = some p := by
  have first : (List.finRange 24).find? (fun q => (s.admitted q).isSome && !s.isBusy q) = some p := by
    rw [← Fin.find?_eq_find?_finRange, Fin.find?_eq_some_iff]
    refine ⟨by simp [Option.isSome_iff_ne_none.2 admitted, free], fun q hq => ?_⟩
    rcases lowest q hq with out | busy
    · simp [out]
    · simp [busy]
  simp only [divertPort, away, first]

theorem divertPort_of_allBusy {s : State} {called : Ext} (away : s.admittedPort called = none)
    (busy : ∀ p, s.admitted p ≠ none → s.isBusy p = true) : s.divertPort called = none := by
  have none_ : (List.finRange 24).find? (fun q => (s.admitted q).isSome && !s.isBusy q) = none := by
    rw [List.find?_eq_none]
    intro q _ h
    simp only [Bool.and_eq_true, Bool.not_eq_true', Option.isSome_iff_ne_none] at h
    rw [busy q h.1] at h
    cases h.2
  simp only [divertPort, away, none_]

section
variable {s : State} {offer : Cell}

/-! ### Answers without a record (R55) -/

/-- The answer to an offer that allocates no record. -/
def refusalOf (s : State) (offer : Cell) (o : AnswerOutcome) : Cell :=
  cellFrom s offer.source Tag.absent offer.sender (.callAnswer o)

theorem answerWith_of_room (o : AnswerOutcome) (room : QueueRoom 1 s) :
    s.answerWith offer o = queued s (s.refusalOf offer o) := offerSkip_of_room room _ _

/-! ### A record that rings (R55 steps 3 and 4) -/

/-- The call of an accepted offer. -/
def offeredCall (offer : Cell) (p : Port) (own caller : Ext) (x : Slot) (n : Nonce) : Call :=
  { state := .alerting, port := p, ownExt := own, role := .callee, farExt := some caller
    farStation := some offer.source, farTag := offer.sender, farSlot := some x, farNonce := some n, timer := some 3875 }

/-- The record of an accepted offer rings, and its answer is queued. -/
structure Rings (s t : State) (offer : Cell) (p : Port) (a : RecordId) (k : Call) : Prop where
  record : t.record a = { incarnation := (s.record a).incarnation + 1, call := some k }
  others : ∀ b, b ≠ a → t.record b = s.record b
  ring : (t.port p).ring = true
  adm : t.adm = s.adm
  answer : Queues s t [cellFrom s offer.source ⟨byteOf a.val, (s.record a).incarnation + 1⟩ offer.sender
    (.callAnswer .ringing)]

section
variable {p : Port} {a : RecordId} (own caller : Ext) (x : Slot) (n : Nonce)

theorem acceptOffer_of_full (full : ∀ a, s.call? a ≠ none) :
    s.acceptOffer offer p own caller x n = s.answerWith offer .congestion := by
  simp only [acceptOffer, firstFreeRecord_of_full full]

/-- The state in which an accepted offer is answered. -/
def ringingFor (a : RecordId) (k : Call) (s : State) : State := (s.allocate a k).setRing k.port true

theorem ringingFor_eq (k : Call) (up : (s.port k.port).state = .up) :
    s.ringingFor a k = (s.allocate a k).modPort k.port fun u => { u with ring := true } := by
  have up' : ((s.allocate a k).port k.port).state = .up := up
  simp only [ringingFor, setRing, up', if_true]

theorem acceptOffer_of_lowest {v : State} (hv : v = s.ringingFor a (offeredCall offer p own caller x n))
    (lowest : LowestFreeRecord s a) : s.acceptOffer offer p own caller x n =
      if (v.offer (v.answerCell offer (v.callTag a) .ringing) .plain).2 then
        (v.offer (v.answerCell offer (v.callTag a) .ringing) .plain).1
      else (v.offer (v.answerCell offer (v.callTag a) .ringing) .plain).1.clearNoCell a .congestion := by
  subst hv
  simp only [acceptOffer, firstFreeRecord_of_lowest lowest]
  rfl

variable (up : (s.port p).state = .up) (lowest : LowestFreeRecord s a)
include up lowest

theorem acceptOffer_rings (room : QueueRoom 1 s) :
    Rings s (s.acceptOffer offer p own caller x n) offer p a (offeredCall offer p own caller x n) := by
  set k := offeredCall offer p own caller x n with hk
  set v := s.ringingFor a k with hv
  have run : v = (s.allocate a k).modPort p fun u => { u with ring := true } := ringingFor_eq k up
  have record : v.record a = { incarnation := (s.record a).incarnation + 1, call := some k } := by
    rw [run]
    exact record_setRecord_same a _ s
  have answer : v.answerCell offer (v.callTag a) .ringing = cellFrom s offer.source
      ⟨byteOf a.val, (s.record a).incarnation + 1⟩ offer.sender (.callAnswer .ringing) := by
    have station : v.station = s.station := by rw [run]; rfl
    simp only [answerCell, cellTo, cellFrom, callTag, record, self_of_station station]
  have roomNow : QueueRoom 1 v := by rw [run]; exact room
  have offered := (QueueRoom.offer (n := 0) roomNow (cellFrom s offer.source
      ⟨byteOf a.val, (s.record a).incarnation + 1⟩ offer.sender (.callAnswer .ringing)) .plain).1
  rw [acceptOffer_of_lowest own caller x n hv lowest, answer, offered, if_pos rfl]
  refine ⟨record, fun b hb => ?_, ?_, ?_, ?_⟩
  · change v.record b = s.record b
    rw [run]
    exact record_setRecord_ne _ s hb
  · change (v.port p).ring = true
    rw [run, port_modPort_same]
  · change v.adm = s.adm
    rw [run]
    rfl
  · have queue : v.highway.queue = s.highway.queue := by rw [run]; rfl
    simp [Queues, queue]

/-- A RINGING that the queue refuses frees the record again. -/
theorem acceptOffer_refused (full : 20 ≤ s.highway.queue.length) :
    (s.acceptOffer offer p own caller x n).call? a = none ∧
    ((s.acceptOffer offer p own caller x n).port p).ring = false ∧
    (s.acceptOffer offer p own caller x n).highway.queue = s.highway.queue := by
  set k := offeredCall offer p own caller x n with hk
  set v := s.ringingFor a k with hv
  have run : v = (s.allocate a k).modPort p fun u => { u with ring := true } := ringingFor_eq k up
  have queue : v.highway.queue = s.highway.queue := by rw [run]; rfl
  obtain ⟨no, same⟩ := offer_refused (c := v.answerCell offer (v.callTag a) .ringing) (s := v) .plain rfl
    (.inr (by rw [queue]; exact full))
  rw [acceptOffer_of_lowest own caller x n hv lowest, no, if_neg Bool.false_ne_true]
  set u := (v.offer (v.answerCell offer (v.callTag a) .ringing) .plain).1 with hu
  have call : u.call? a = some k := by
    rw [call_of_calls (offer_calls _ _ v), run]
    exact congrArg (·.call) (record_setRecord_same a { incarnation := (s.record a).incarnation + 1, call := some k } s)
  have upNow : (u.port p).state = .up := by
    rw [port_of_ports (offer_ports _ _ v), run, port_modPort_same]
    exact up
  refine ⟨call_clearQuiet_same .., ?_, ?_⟩
  · exact ring_clearQuiet .congestion Cause.congestion.tone call rfl upNow
  · have off := clearQuiet_offHighway .congestion Cause.congestion.tone call
    rw [closeLaneOf_none rfl] at off
    rw [clearNoCell, off.highway, same, queue]

end

end

end State

/-! ### The command -/

section
variable {s : State} {x : Stored} {caller called : Ext} {ep : Epoch} {slot : Slot} {n : Nonce} {onward : List Digit}
  {P : State → Prop} (hx : s.nextCell .callC = some x) (hb : x.cell.body = .callOffer caller called ep slot n onward)
include hx hb

theorem completes_callOffer (h : P (State.whileActive State.actCallOffer x (taken s .callC x))) :
    Completes .callOffer s P := completes_of_consume rfl hx (by rw [hb]; rfl) h

theorem completes_homeOffer (active : s.station.state = .active) (divert : x.cell.divert = false)
    (h : P ((taken s .callC x).homeOffer x.cell caller called ep slot n)) : Completes .callOffer s P := by
  refine completes_callOffer hx hb ?_
  have on : (taken s .callC x).active = true := decide_eq_true active
  simpa only [State.whileActive, on, if_true, State.actCallOffer, hb, divert, Bool.false_eq_true, if_false] using h

theorem completes_divertOffer (active : s.station.state = .active) (divert : x.cell.divert = true)
    (h : P ((taken s .callC x).divertOffer x.cell caller called slot n)) : Completes .callOffer s P := by
  refine completes_callOffer hx hb ?_
  have on : (taken s .callC x).active = true := decide_eq_true active
  simpa only [State.whileActive, on, if_true, State.actCallOffer, hb, divert] using h

end

/-- Settles O29: the answer by the login, the port and the records that the offer finds. -/
theorem offersAreAnswered : Obligations.OffersAreAnswered := by
  intro s x caller called ep slot n onward hx hb busy answer rings
  set u := taken s .callC x with hu
  have refusal (o : AnswerOutcome) (room : QueueRoom 1 s) : u.answerWith x.cell o = queued u (answer o) :=
    State.answerWith_of_room (s := u) o room
  have free {p : Port} (h : ¬ busy p) : u.isBusy p = false := Bool.eq_false_iff.2 fun b => h (State.isBusy_iff.1 b)
  have taken_ {p : Port} (h : busy p) : u.isBusy p = true := State.isBusy_iff.2 h
  have atHome {p : Port} {r : Rights} {e : Epoch} (here : s.admittedPort called = some p)
      (login : s.admitted p = some (called, r, e)) : u.homeOffer x.cell caller called ep slot n =
        if e ≠ ep then u.answerWith x.cell .stale else if u.isBusy p then u.answerWith x.cell .busy
        else u.acceptOffer x.cell p called caller slot n := by
    have here' : u.admittedPort called = some p := here
    have login' : u.admitted p = some (called, r, e) := login
    simp only [State.homeOffer, here', login']
  have rung {p : Port} (own : Ext) {a : RecordId} (up : (s.port p).state = .up) (lowest : LowestFreeRecord s a)
      (room : QueueRoom 1 s) := State.acceptOffer_rings (s := u) (offer := x.cell) own caller slot n up lowest room
  refine ⟨fun idle => ?_, fun home => ⟨fun away room => ?_, fun p r e here admitted => ⟨fun stale room => ?_,
      fun same b room => ?_, fun same b full room => ?_, fun a same b up lowest room => ?_,
      fun a same b up lowest active full => ?_⟩⟩,
    fun divert => ⟨fun p here b room => ?_, fun away all room => ?_, fun p own r e a which admitted b up lowest room => ?_⟩⟩
  · refine completes_callOffer hx hb ?_
    have off : u.active = false := decide_eq_false idle
    rw [← hu, State.whileActive, off]
    rfl
  · refine completes_homeOffer hx hb room.1 home ?_
    have away' : u.admittedPort called = none := away
    simp only [← hu, State.homeOffer, away', refusal _ room]
  · refine completes_homeOffer hx hb room.1 home ?_
    rw [← hu, atHome here admitted, if_pos stale, refusal _ room]
  · refine completes_homeOffer hx hb room.1 home ?_
    rw [← hu, atHome here admitted, if_neg (not_not.2 same), if_pos (taken_ b), refusal _ room]
  · refine completes_homeOffer hx hb room.1 home ?_
    rw [← hu, atHome here admitted, if_neg (not_not.2 same), free b, if_neg Bool.false_ne_true,
      State.acceptOffer_of_full (s := u) called caller slot n full, refusal _ room]
  · refine completes_homeOffer hx hb room.1 home ?_
    rw [← hu, atHome here admitted, if_neg (not_not.2 same), free b, if_neg Bool.false_ne_true]
    obtain ⟨record, others, ring, adm, queue⟩ := rung called up lowest room
    exact ⟨record, others, ring, adm, queue⟩
  · refine completes_homeOffer hx hb active home ?_
    rw [← hu, atHome here admitted, if_neg (not_not.2 same), free b, if_neg Bool.false_ne_true]
    exact State.acceptOffer_refused (s := u) called caller slot n up lowest full
  · refine completes_divertOffer hx hb room.1 divert ?_
    have here' : u.admittedPort called = some p := here
    simp only [← hu, State.divertOffer, State.divertPort, here', taken_ b, if_true, refusal _ room]
  · refine completes_divertOffer hx hb room.1 divert ?_
    have none_ := State.divertPort_of_allBusy (s := u) away fun p hp => taken_ (all p hp)
    simp only [← hu, State.divertOffer, none_, refusal _ room]
  · refine completes_divertOffer hx hb room.1 divert ?_
    have port : u.divertPort called = some p := by
      rcases which with here | ⟨away, below⟩
      · have here' : u.admittedPort called = some p := here
        simp only [State.divertPort, here', free b, Bool.false_eq_true, if_false]
      · exact State.divertPort_of_lowest (s := u) away (by rw [show u.admitted p = _ from admitted]; simp) (free b)
          fun q hq => (below q hq).imp_right taken_
    have login : u.admitted p = some (own, r, e) := admitted
    simp only [← hu, State.divertOffer, port, login]
    obtain ⟨record, others, ring, adm, queue⟩ := rung own up lowest room
    exact ⟨record, others, ring, adm, queue⟩

end Sys2Proof.Machine
end

