-- ==== Sys2Proof/Proofs/CallTargets.lean ====
section
/-! PROOF. What a CALL cell names, and CALL-CLEAR (R54, R62 to R64, R81, R85 to R87). -/

namespace Sys2Proof.Machine

open Sys2Proof

namespace State

/-! ### What a CALL cell names (R64, R81) -/

section
variable {s : State} {x : Cell} {r : RecordId} {k : Call}

theorem recordOf_absent (s : State) : s.recordOf Tag.absent = none := rfl

theorem namedRecord_of_matches (hk : s.call? r = some k) (receiver : x.receiver = s.callTag r)
    (plain : k.confRole ≠ .controller) (far : k.farStation = some x.source) (sender : senderMatches x k = true) :
    s.namedRecord x = some r :=
  namedRecord_eq_some_iff.2 ⟨by rw [receiver, recordOf_callTag hk], k, hk, plain, far, sender⟩

theorem senderMatches_of_known (known : x.sender = k.farTag) : senderMatches x k = true := by
  rw [senderMatches, decide_eq_true known, Bool.true_or]

theorem namedRecord_of_stray (out : s.recordOf x.receiver = none) : s.namedRecord x = none := by
  simp only [namedRecord, out]

theorem namedMember_of_noConfs (none_ : ∀ e, s.calls.confs.get e = none) : s.namedMember x = none := by
  rw [namedMember, List.findSome?_eq_none_iff]
  intro e _
  simp only [none_ e]

theorem namedByFarTag_of_lowest {c : Cause} (hb : x.body = .callClear c) (receiver : x.receiver = Tag.absent)
    (hk : s.call? r = some k) (far : k.farStation = some x.source) (tag : k.farTag = x.sender)
    (lowest : ∀ q k', q < r → s.call? q = some k' → k'.farStation ≠ some x.source ∨ k'.farTag ≠ x.sender) :
    s.namedByFarTag x = some r := by
  simp only [namedByFarTag, hb, receiver, if_true]
  rw [← Fin.find?_eq_find?_finRange, Fin.find?_eq_some_iff]
  refine ⟨by simp [hk, far, tag], fun q hq => ?_⟩
  cases hq' : s.call? q with
  | none => rfl
  | some k' => exact decide_eq_false (not_and_or.2 (lowest q k' hq hq'))

theorem namedByFarTag_of_receiver (receiver : x.receiver ≠ Tag.absent) : s.namedByFarTag x = none := by
  unfold namedByFarTag
  split
  · exact if_neg receiver
  · rfl

theorem callTarget_of_named (h : s.namedRecord x = some r) : s.callTarget x = some (.record r) := by
  simp only [callTarget, h]

theorem callTarget_of_stray (record : s.namedRecord x = none) (none_ : ∀ e, s.calls.confs.get e = none)
    (receiver : x.receiver ≠ Tag.absent) : s.callTarget x = none := by
  simp only [callTarget, record, namedMember_of_noConfs none_, namedByFarTag_of_receiver receiver]

theorem findSome?_finRange_of_alone {n : Nat} {f : Fin n → Option CallTarget} {e : Fin n} {y : CallTarget}
    (here : f e = some y) (alone : ∀ e', e' ≠ e → f e' = none) : (List.finRange n).findSome? f = some y := by
  cases found : (List.finRange n).findSome? f with
  | none =>
    rw [List.findSome?_eq_none_iff.1 found e (List.mem_finRange e)] at here
    cases here
  | some z =>
    obtain ⟨e', -, at_⟩ := List.exists_of_findSome?_eq_some found
    have same : e' = e := by
      by_contra other
      rw [alone e' other] at at_
      cases at_
    rw [← at_, same, here]

/-- The one entry of the Conference Table is a member's when its first member is the sender under its link tag. -/
theorem namedMember_of_entry {e : ConfId} {m : Member} {ms : List Member}
    (entry : s.calls.confs.get e = some { controller := r, members := m :: ms })
    (alone : ∀ e', e' ≠ e → s.calls.confs.get e' = none) (station : m.station = x.source) (tag : m.tag = x.sender)
    (link : x.receiver = m.link) : s.namedMember x = some (.member e r m) := by
  have first : List.find? (fun m => decide (m.station = x.source ∧ m.tag = x.sender) &&
      (decide (x.receiver = s.callTag r ∨ x.receiver = m.link) || decide (x.body = .callClear .gone))) (m :: ms) =
      some m := List.find?_cons_of_pos (by simp [station, tag, link])
  refine findSome?_finRange_of_alone (e := e) ?_ fun e' other => ?_
  · simp only [entry, first, Option.map_some]
  · simp only [alone e' other]

end

/-! ### The act on a CALL cell (R58 to R64) -/

theorem actCallCell_of_stray {s : State} {x : Stored} (h : s.callTarget x.cell = none) :
    s.actCallCell x = s.recordFault .strayCell x.cell.source (some x.header) := by
  simp only [actCallCell, h, strayCell]

theorem actCallCell_clear {s : State} {x : Stored} {r : RecordId} {k : Call} {c : Cause} (hk : s.call? r = some k)
    (hb : x.cell.body = .callClear c) (h : s.callTarget x.cell = some (.record r)) :
    s.actCallCell x = s.clearQuiet r c (some .busy) := by
  simp only [actCallCell, h, hk, hb]

theorem actCallCell_member {s : State} {x : Stored} {e : ConfId} {r : RecordId} {m : Member} {c : Cause}
    (hb : x.cell.body = .callClear c) (h : s.callTarget x.cell = some (.member e r m)) :
    s.actCallCell x = s.membersLeave .confEnded e r [m] := by
  simp only [actCallCell, h, hb]

end State

/-! ### The commands -/

section
variable {s : State} {x : Stored} {P : State → Prop} {cmd : Instr} (hx : s.nextCell .callC = some x)
  (hc : x.cell.body.command = some cmd) (call : x.cell.body.cellClass = .call)
include hx hc call

theorem completes_idleCall (idle : s.station.state ≠ .active) (h : P (taken s .callC x)) : Completes cmd s P := by
  have off : (taken s .callC x).active = false := decide_eq_false idle
  have act (f : Stored → State → State) : P (State.whileActive f x (taken s .callC x)) := by
    rw [State.whileActive, off]
    exact h
  cases hb : x.cell.body <;> rw [hb] at hc call <;> cases call <;> cases hc <;>
    exact completes_of_consume rfl hx (by rw [hb]; rfl) (act _)

theorem completes_callCell (active : s.station.state = .active) (kind : x.cell.body.kind ≠ 0x20)
    (h : P ((taken s .callC x).actCallCell x)) : Completes cmd s P := by
  have on : (taken s .callC x).active = true := decide_eq_true active
  have act : P (State.whileActive State.actCallCell x (taken s .callC x)) := by
    rw [State.whileActive, on]
    exact h
  cases hb : x.cell.body <;> rw [hb] at hc call kind <;> cases call <;> cases hc
  case callOffer => exact absurd rfl kind
  all_goals exact completes_of_consume rfl hx (by rw [hb]; rfl) act

end

/-! ### CALL-CLEAR (R63) -/

/-- No CALL-CLEAR joins the queue. -/
def NoClearJoins (s t : State) : Prop :=
  ∀ q ∈ t.highway.queue, (∃ c, q.cell.body = .callClear c) → q ∈ s.highway.queue

theorem noClearJoins_of_slots {s t : State} {new : List Queued} (h : t.highway.queue = s.highway.queue ++ new)
    (slots : ∀ q ∈ new, ∃ x, q.cell.body = .slot x) : NoClearJoins s t := by
  rintro q hq ⟨c, hc⟩
  rw [h, List.mem_append] at hq
  refine hq.resolve_right fun join => ?_
  obtain ⟨x, hx⟩ := slots q join
  rw [hx] at hc
  cases hc

theorem noClearJoins_clearQuiet {s : State} {r : RecordId} {k : Call} (c : Cause) (tone : Option Tone)
    (hk : s.call? r = some k) : NoClearJoins s (s.clearQuiet r c tone) := by
  obtain ⟨new, queue, slots⟩ := State.queue_clearQuiet c tone hk
  exact noClearJoins_of_slots queue slots

section
variable {s : State} {x : Stored} {r : RecordId} {k : Call} {c : Cause} (hx : s.nextCell .callC = some x)
  (hb : x.cell.body = .callClear c)
include hx hb

theorem completes_callClear (active : s.station.state = .active) {P : State → Prop}
    (h : P ((taken s .callC x).actCallCell x)) : Completes .callClear s P :=
  completes_callCell hx (by rw [hb]; rfl) (by rw [hb]; rfl) active (by rw [hb, Body.kind]; decide) h

end

/-- One member of two leaves: its controller's record is a plain call with the other, who is told (R87). -/
structure Reverted (s t : State) (e : ConfId) (r : RecordId) (k : Call) (m : Member) (y : Slot) : Prop where
  entry : t.calls.confs.get e = none
  record : ∃ k', t.call? r = some k' ∧ k'.confRole = .none ∧ k'.state = k.state ∧ k'.farStation = some m.station ∧
    k'.farTag = m.tag ∧ k'.farSlot = some m.slot ∧ k'.farNonce = none ∧ k'.farExt = none
  told : ∃ n : Nonce, t.scr.noncesGiven = n :: s.scr.noncesGiven ∧
    Queues s t [cellFrom s m.station m.link m.tag (.confSet n [
      { station := s.self, tag := s.callTag r, slot := y },
      { station := m.station, tag := m.tag, slot := m.slot }])]

namespace State

section
variable {s : State} {e : ConfId} {r : RecordId} {k : Call} {l : TalkId} {t0 : TalkLane} {y : Slot}

theorem controllerSlot_of_lane (hk : s.call? r = some k) (lane : k.talkLane = some l) (hl : s.talk? l = some t0)
    (slot : t0.slot = some y) : s.controllerSlot r = y := by
  simp only [controllerSlot, hk, Option.bind_some, lane, hl, slot]

theorem revertConference_reverted (m : Member) (hk : s.call? r = some k) (lane : k.talkLane = some l)
    (hl : s.talk? l = some t0) (slot : t0.slot = some y) (room : QueueRoom 1 s) :
    Reverted s (s.revertConference e r m) e r k m y := by
  set u := (s.setConf e none).modCall r fun k => { k with
    confRole := .none, farStation := some m.station, farTag := m.tag, farSlot := some m.slot,
    farNonce := none, farExt := none } with hu
  have start : (s.setConf e none).call? r = some k := hk
  have call : u.call? r = some { k with
      confRole := .none, farStation := some m.station, farTag := m.tag, farSlot := some m.slot,
      farNonce := none, farExt := none } := by
    rw [hu, call_modCall_same, start]
    rfl
  have off : OffHighway s u := OffHighway.trans (t := s.setConf e none) {} (OffHighway.modCall r _ _)
  have tag : u.callTag r = s.callTag r := by
    rw [hu, modCall_of_call start]
    simp [callTag, setCall]
    rfl
  have places : u.confPlaces r [m] = [{ station := s.self, tag := s.callTag r, slot := y }, m.place] := by
    have own : u.controllerSlot r = y := controllerSlot_of_lane call lane ((off.talk_eq l).trans hl) slot
    simp only [confPlaces, own, off.self, tag, List.map_cons, List.map_nil]
  obtain ⟨all, told⟩ := confTold_of_room r (ms := [m]) (off.room room)
  have run : s.revertConference e r m =
      (u.drawNonce.1.offerConfSets r u.drawNonce.2 [m]).1.rekeyRecord r (some u.drawNonce.2) := by
    simp only [revertConference, ← hu, all]
  rw [run]
  obtain ⟨n, nonces, cells⟩ := told.told
  refine ⟨?_, ⟨_, (call_of_calls told.calls r).trans call, rfl, rfl, rfl, rfl, rfl, rfl, rfl⟩, n, ?_, ?_⟩
  · rw [told.calls, hu, modCall_of_call start]
    exact upd_get_same ..
  · rw [nonces, hu, modCall_of_call start]
    rfl
  · rw [Queues, off.highway, List.map_singleton, confSetCell, places, cellFrom, off.self] at cells
    exact cells

/-- One member stays of two (R85, R87). -/
theorem membersLeave_reverted {gone left : Member} (lost : Cause) (ne : gone ≠ left)
    (entry : s.calls.confs.get e = some { controller := r, members := [gone, left] }) (hk : s.call? r = some k)
    (lane : k.talkLane = some l) (hl : s.talk? l = some t0) (slot : t0.slot = some y) (room : QueueRoom 1 s) :
    Reverted s (s.membersLeave lost e r [gone]) e r k left y := by
  have stay : ([gone, left].filter fun m => !([gone].contains m)) = [left] := by simp [ne.symm]
  obtain ⟨-, confs, quiet, kept, talk, nonces⟩ := removeMembers_removed [gone] entry hk
  rw [stay] at confs
  set u := s.removeMembers e r [gone] with hu
  obtain ⟨incarnation, -, still⟩ := kept r
  obtain ⟨tm, ls, -, hk'⟩ := still k hk
  have hl' : u.talk? l = some t0 := by simpa only [talk?, talkPlace, talk] using hl
  have run : s.membersLeave lost e r [gone] = u.revertConference e r left := by
    simp only [membersLeave, ← hu, reform, confs, upd_get_same]
  rw [run]
  obtain ⟨entry, record, n, given, cells⟩ := revertConference_reverted (e := e) left hk' lane hl' slot (quiet.room room)
  refine ⟨entry, record, n, by rw [given, nonces], ?_⟩
  rw [Queues, quiet.queue_eq, cellFrom, self_of_station quiet.1, callTag, incarnation] at cells
  exact cells

end

end State

/-- Settles O31: whatever names a record ends it without a CALL-CLEAR, and what names nothing is stray. -/
theorem callClearsFreeAndStrayCellsAreRecorded : Obligations.CallClearsFreeAndStrayCellsAreRecorded := by
  refine ⟨fun s x hx => ?_, ?_⟩
  · set u := taken s .callC x with hu
    refine ⟨fun r k c active names hb => ?_, fun r k c active confs hb receiver hk far tag lowest => ?_,
      fun r k active hb hk member receiver far => ⟨fun sender => ?_, fun controller other absent confs => ?_⟩,
      fun cmd hc call => ⟨fun idle => ?_, fun active kind absent out confs => ?_⟩⟩
    · obtain ⟨hk, receiver, plain, far, sender⟩ := names
      have named := State.namedRecord_of_matches (s := u) hk receiver plain far (State.senderMatches_of_known sender)
      refine completes_callClear hx hb active ?_
      rw [State.actCallCell_clear (s := u) hk hb (State.callTarget_of_named named)]
      refine ⟨State.call_clearQuiet_same .., noClearJoins_clearQuiet (s := u) c _ hk,
        State.tone_clearQuiet (s := u) c hk .busy, fun state lane up => ?_⟩
      exact State.ring_clearQuiet (s := u) c _ hk (by simp [Call.ringing, state, lane]) up
    · have named := State.namedByFarTag_of_lowest (s := u) hb receiver hk far tag lowest
      have noRecord : u.namedRecord x.cell = none := State.namedRecord_of_stray (by rw [receiver, State.recordOf_absent])
      have target : u.callTarget x.cell = some (.record r) := by
        simp only [State.callTarget, noRecord, State.namedMember_of_noConfs (s := u) confs, named]
      refine completes_callClear hx hb active ?_
      rw [State.actCallCell_clear (s := u) hk hb target]
      exact ⟨State.call_clearQuiet_same .., noClearJoins_clearQuiet (s := u) c _ hk⟩
    · have named := State.namedRecord_of_matches (s := u) hk receiver (by simp [member]) far
        ((State.senderMatches_gone hb).2 (.inr ⟨member, sender⟩))
      refine completes_callClear hx hb active ?_
      rw [State.actCallCell_clear (s := u) hk hb (State.callTarget_of_named named)]
      exact ⟨State.call_clearQuiet_same .., noClearJoins_clearQuiet (s := u) .gone _ hk,
        State.tone_clearQuiet (s := u) .gone hk .busy⟩
    · have unnamed : u.namedRecord x.cell = none := by
        refine Option.eq_none_iff_forall_ne_some.2 fun q hq => ?_
        obtain ⟨here, k', hk', -, -, sender⟩ := State.namedRecord_eq_some_iff.1 hq
        rw [receiver] at here
        cases (State.recordOf_callTag (s := u) hk).symm.trans here
        obtain rfl : k = k' := Option.some.inj (hk.symm.trans hk')
        rcases (State.senderMatches_gone hb).1 sender with known | ⟨-, known⟩
        · exact other known
        · exact controller known
      refine completes_callClear hx hb active ?_
      exact State.actCallCell_of_stray (State.callTarget_of_stray (s := u) unnamed confs absent)
    · exact completes_idleCall hx hc call idle rfl
    · refine completes_callCell hx hc call active kind ?_
      have unnamed : u.namedRecord x.cell = none := State.namedRecord_of_stray (s := u) out
      exact State.actCallCell_of_stray (State.callTarget_of_stray (s := u) unnamed confs absent)
  · intro s x cause e r k gone left l t0 y hx active hb entry alone ne hk controller station tag receiver link lane hl
      slot room
    set u := taken s .callC x with hu
    have unnamed : u.namedRecord x.cell = none := by
      refine Option.eq_none_iff_forall_ne_some.2 fun q hq => ?_
      obtain ⟨here, k', hk', plain, -⟩ := State.namedRecord_eq_some_iff.1 hq
      rw [receiver] at here
      rcases link with out | own
      · cases (out : u.recordOf gone.link = none).symm.trans here
      · rw [own] at here
        cases (State.recordOf_callTag (s := u) hk).symm.trans here
        cases hk.symm.trans hk'
        exact plain controller
    have target : u.callTarget x.cell = some (.member e r gone) := by
      simp only [State.callTarget, unnamed, State.namedMember_of_entry (s := u) entry alone station tag receiver]
    refine completes_callClear hx hb active ?_
    rw [State.actCallCell_member hb target]
    obtain ⟨ended, record, told⟩ := State.membersLeave_reverted (s := u) .confEnded ne entry hk lane hl slot room
    exact ⟨ended, record, told⟩

end Sys2Proof.Machine
end

