-- ==== Sys2Proof/Proofs/OpenedLanes.lean ====
section
/-! PROOF. A record changes state, its offer is issued, its lanes open and their clocks start (R51, R57, R59, R110, R112,
R116, R125, R127). -/

namespace Sys2Proof.Machine.State

open Sys2Proof

/-- A record keeps its tag when its call changes. -/
theorem callTag_setCall (r : RecordId) (k : Call) (s : State) : (s.setCall r k).callTag r = s.callTag r := by
  rw [callTag, setCall, record_setRecord_same]
  rfl

/-! ### A record changes state (R116) -/

section
variable {s : State} {r : RecordId} {k k' : Call} (hk : s.call? r = some k) (st : CallState)
  (after : { k with state := st } = k')
include hk after

/-- Only the record changes, and the send mode of its lane. -/
theorem setCallState_rekeyed : Rekeyed (s.setCall r k') (s.setCallState r st) := by
  simp only [setCallState, modCall_of_call hk, after, call_setCall_same]
  split
  · exact .modTalk _ _ _
  · exact .refl _

theorem call_setCallState : (s.setCallState r st).call? r = some k' := by
  rw [call_of_calls (setCallState_rekeyed hk st after).calls, call_setCall_same]

theorem queue_setCallState : (s.setCallState r st).highway.queue = s.highway.queue := by
  rw [(setCallState_rekeyed hk st after).highway]
  rfl

theorem port_setCallState (p : Port) : (s.setCallState r st).port p = s.port p :=
  port_of_ports (setCallState_rekeyed hk st after).ports p

theorem listen_setCallState (m : ListenId) : (s.setCallState r st).listen? m = s.listen? m := by
  rw [listen?, listenPlace, (setCallState_rekeyed hk st after).listen]
  rfl

theorem talk_setCallState {l : TalkId} {t : TalkLane} (lane : k.talkLane = some l) (hl : s.talk? l = some t) :
    (s.setCallState r st).talk? l = some { t with mode := k'.sendMode } := by
  rw [setCallState_of_lane hk after lane hl, talk_setTalk_same]

end

/-! ### The offer of a call (R51, R57) -/

/-- The CALL-OFFER of a caller whose lane sends in slot `y`. -/
def offerCell (s : State) (r : RecordId) (k : Call) (far : Station) (y : Slot) (own : Nonce) : Cell :=
  { cellFrom s far (s.callTag r) Tag.absent (.callOffer k.ownExt (k.farExt.getD 0)
      (if k.divert then 0 else k.calledEpoch.getD 0) y own k.onward) with divert := k.divert }

/-- The state in which the offer is queued. -/
def afterOffer (s : State) (r : RecordId) (k : Call) (far : Station) (y : Slot) (own : Nonce) : State :=
  (s.enqueue ⟨s.offerCell r k far y own, .plain⟩).setCall r { k with timer := some 250 }

section
variable {s : State} {r : RecordId} {k : Call} {far : Station} {l : TalkId} {t : TalkLane} {y : Slot}
  (hk : s.call? r = some k) (routing : k.state = .routing) (hf : k.farStation = some far)
  (lane : k.talkLane = some l) (hl : s.talk? l = some t) (active : t.state = .active) (slot : t.slot = some y)
  (room : QueueRoom 1 s)
include hk routing hf lane hl active slot room

theorem issueOffer_of_room :
    s.issueOffer r = (s.afterOffer r k far y t.ownNonce).setCallState r .offering := by
  have own : k.talkLane.bind s.talk? = some t := by rw [lane, Option.bind_some, hl]
  have offered := (QueueRoom.offer (n := 0) room (s.offerCell r k far y t.ownNonce) .plain).1
  have run : s.issueOffer r =
      let o := s.offer (s.offerCell r k far y t.ownNonce) .plain
      if o.2 then (o.1.modCall r fun k => { k with timer := some 250 }).setCallState r .offering
      else o.1.clearNoCell r .congestion := by
    simp only [issueOffer, hk, routing, hf, own, active, slot]
    rfl
  have start : (s.enqueue ⟨s.offerCell r k far y t.ownNonce, .plain⟩).call? r = some k := hk
  simp only [run, offered, if_true, modCall_of_call start]
  rfl

/-- The offer changes no slot, and of its lane the send mode at most. -/
theorem issueOffer_lane : (s.issueOffer r).slots = s.slots ∧
    (s.issueOffer r).talk? l = some { t with mode := .silence } := by
  have call : (s.afterOffer r k far y t.ownNonce).call? r = some { k with timer := some 250 } := call_setCall_same ..
  rw [issueOffer_of_room hk routing hf lane hl active slot room]
  exact ⟨(setCallState_rekeyed call .offering rfl).slots, talk_setCallState call .offering rfl lane hl⟩

/-- With room the offer of an ACTIVE lane is queued, and the caller waits for its answer. -/
theorem issueOffer_offering : (s.issueOffer r).call? r = some { k with state := .offering, timer := some 250 } ∧
    Queues s (s.issueOffer r) [s.offerCell r k far y t.ownNonce] := by
  have call : (s.afterOffer r k far y t.ownNonce).call? r = some { k with timer := some 250 } := call_setCall_same ..
  rw [issueOffer_of_room hk routing hf lane hl active slot room]
  refine ⟨call_setCallState call .offering rfl, ?_⟩
  rw [Queues, queue_setCallState call .offering rfl]
  simp [afterOffer]

end

/-! ### A listen lane opens (R125, R127) -/

theorem freeListens_of_lowest {s : State} {m : ListenId} (h : LowestFreeListen s m) :
    ∃ rest, s.freeListens = m :: rest := by
  have first : (List.finRange 48).find? (fun l => (s.listen? l).isNone) = some m := by
    rw [← Fin.find?_eq_find?_finRange, Fin.find?_eq_some_iff]
    exact ⟨by simp [h.1], fun j hj => by simpa [Option.isSome_iff_ne_none] using h.2 j hj⟩
  have head : s.freeListens.head? = some m := by rw [freeListens, List.head?_filter, first]
  exact List.head?_eq_some_iff.1 head

theorem freeListens_of_full {s : State} (full : ∀ m, s.listen? m ≠ none) : s.freeListens = [] := by
  rw [freeListens, List.filter_eq_nil_iff]
  exact fun m _ => by simpa using full m

theorem openListen_of_full {s : State} (full : ∀ m, s.listen? m ≠ none) (r : RecordId) (u : Purpose) (st : Station)
    (tag : Tag) (x : Slot) (ns : Option (Nonce × Nonce)) : s.openListen r u st tag x ns = (s, false) := by
  simp only [openListen, freeListens_of_full full]

theorem modListen_of_lane {s : State} {m : ListenId} {t : ListenLane} (hm : s.listen? m = some t)
    (f : ListenLane → ListenLane) : s.modListen m f = s.setListen m (f t) := by
  simp only [modListen, hm]

/-- A SETUP lane as it opens on a talker, with the nonces of its first key. -/
def setupLane (s : State) (r : RecordId) (talker : Station) (tag : Tag) (x : Slot) (a b : Nonce) : ListenLane :=
  { state := .waitkey, owner := r, ownerTag := s.callTag r, purpose := .setup, talker := talker, talkerTag := tag
    slot := x, talkerNonce := some a, partnerNonce := some b, timer := some 8 }

/-- What the opening of a SETUP lane for a record leaves: the record lists it, and it waits for its first key. -/
structure SetupOpened (s t : State) (r : RecordId) (k : Call) (m : ListenId) (lane : ListenLane) : Prop where
  station : t.station = s.station
  slots : t.slots = s.slots
  ports : t.ports = s.ports
  adm : t.adm = s.adm
  talk : t.scr.talk = s.scr.talk
  calls : t.calls = (s.setCall r { k with listenLanes := k.listenLanes ++ [m] }).calls
  queue : t.highway.queue = s.highway.queue
  opened : ∃ q asked, t.listen? m = some { lane with request := q, firstAsked := asked }
  mixer : ∀ a b, lane.talkerNonce = some a → lane.partnerNonce = some b → s.scr.mixer.length < 16 →
    t.scr.mixer = s.scr.mixer ++ [{
      requester := .listen m ((s.listenPlace m).opening + 1), key := s.secret, nonceA := a, nonceB := b, count := 0 }]

theorem openListen_setup {s : State} {r : RecordId} {k : Call} {m : ListenId} (hk : s.call? r = some k)
    (lowest : LowestFreeListen s m) (talker : Station) (tag : Tag) (x : Slot) (a b : Nonce) :
    (s.openListen r .setup talker tag x (some (a, b))).2 = true ∧
    SetupOpened s (s.openListen r .setup talker tag x (some (a, b))).1 r k m (s.setupLane r talker tag x a b) := by
  obtain ⟨rest, free⟩ := freeListens_of_lowest lowest
  set lane := s.setupLane r talker tag x a b with hlane
  set v := s.setListenPlace m { opening := (s.listenPlace m).opening + 1, lane := some lane } with hv
  have hk' : v.call? r = some k := hk
  set u := v.setCall r { k with listenLanes := k.listenLanes ++ [m] } with hu
  have run : s.openListen r .setup talker tag x (some (a, b)) = (u.requestFirstListenKey m, true) := by
    simp only [openListen, free, Option.map_some,  if_true]
    rw [← setupLane.eq_1, ← hlane, ← hv, modCall_of_call hk']
  have here : u.listen? m = some lane := by
    have place : u.listenPlace m = { opening := (s.listenPlace m).opening + 1, lane := some lane } :=
      listenPlace_setListenPlace_same ..
    rw [listen?, place]
  have asked : u.listenOpening m = (s.listenPlace m).opening + 1 := by
    rw [listenOpening, show u.listenPlace m = _ from listenPlace_setListenPlace_same ..]
  rw [run]
  refine ⟨rfl, ?_⟩
  have request : u.requestFirstListenKey m =
      let q := u.mixRequest (.listen m ((s.listenPlace m).opening + 1)) s.secret a b 0
      if q.2 then
        q.1.modListen m fun t => { t with
          request := some { isFirst := true, talker := a, partner := b, count := 0, countdown := t.provingClock }
          firstAsked := true }
      else q.1 := by
    simp only [requestFirstListenKey, here, hlane, setupLane, asked]
    rfl
  rw [request]
  rcases mixRequest_cases (.listen m ((s.listenPlace m).opening + 1)) s.secret a b 0 u with ⟨few, h⟩ | ⟨many, h⟩
  · rw [h]
    dsimp only
    set w : State := { u with scr := { u.scr with mixer := u.scr.mixer ++ [{
      requester := .listen m ((s.listenPlace m).opening + 1), key := s.secret, nonceA := a, nonceB := b, count := 0 }] } }
      with hw
    have here' : w.listen? m = some lane := here
    rw [if_pos rfl, modListen_of_lane here']
    refine ⟨rfl, rfl, rfl, rfl, rfl, rfl, rfl, ⟨_, _, listen_setListen_same ..⟩, ?_⟩
    rintro a' b' ⟨⟩ ⟨⟩ -
    rfl
  · rw [h]
    exact ⟨rfl, rfl, rfl, rfl, rfl, rfl, rfl, ⟨none, false, here⟩, fun _ _ _ _ few => absurd few (Nat.not_lt.2 many)⟩

/-! ### The proving clocks start (R112, R127) -/

/-- A SETUP lane whose first key has no boundary yet takes it. -/
def clockStarted (b : Int) (t : ListenLane) : ListenLane :=
  if t.purpose = .setup ∧ t.provingClock.isNone then t.setProvingClock b else t

theorem clockStarted_of_fresh (b : Int) {t : ListenLane} (setup : t.purpose = .setup) (fresh : t.provingClock = none) :
    clockStarted b t = t.setProvingClock b := if_pos ⟨setup, by rw [fresh]; rfl⟩

theorem clockStarted_idem (b : Int) (t : ListenLane) : clockStarted b (clockStarted b t) = clockStarted b t := by
  by_cases fresh : t.purpose = .setup ∧ t.provingClock.isNone
  · have once : clockStarted b t = t.setProvingClock b := if_pos fresh
    rw [once]
    exact if_neg fun again => Bool.false_ne_true again.2
  · have never : clockStarted b t = t := if_neg fresh
    rw [never, never]

/-- A lane that a list of lanes names changes once under an idempotent change of them all. -/
theorem listen_foldl_modListen {f : ListenLane → ListenLane} (idem : ∀ t, f (f t) = f t) {m : ListenId}
    (ls : List ListenId) (s : State) : (ls.foldl (fun s l => s.modListen l f) s).listen? m =
    if m ∈ ls then (s.listen? m).map f else s.listen? m := by
  induction ls generalizing s with
  | nil => simp
  | cons l ls ih =>
    rw [List.foldl_cons, ih]
    by_cases same : m = l
    · subst same
      rw [listen_modListen_same]
      cases s.listen? m <;> simp [idem]
    · rw [listen_modListen_ne _ _ same]
      simp [same]

theorem foldl_modListen_offHighway (f : ListenLane → ListenLane) (ls : List ListenId) (s : State) :
    OffHighway s (ls.foldl (fun s l => s.modListen l f) s) := by
  induction ls generalizing s with
  | nil => exact .refl s
  | cons l ls ih => exact (OffHighway.modListen l f s).trans (ih _)

section
variable {s : State} {r : RecordId} {k : Call} (hk : s.call? r = some k) (b : Int)
include hk

theorem setProvingClocks_eq :
    s.setProvingClocks r b = k.listenLanes.foldl (fun s l => s.modListen l (clockStarted b)) s := by
  simp only [setProvingClocks, hk]
  rfl

theorem setProvingClocks_offHighway : OffHighway s (s.setProvingClocks r b) := by
  rw [setProvingClocks_eq hk]
  exact foldl_modListen_offHighway _ _ s

theorem setProvingClocks_calls : (s.setProvingClocks r b).calls = s.calls ∧ (s.setProvingClocks r b).ports = s.ports := by
  rw [setProvingClocks_eq hk]
  generalize k.listenLanes = ls
  clear hk
  induction ls generalizing s with
  | nil => exact ⟨rfl, rfl⟩
  | cons l ls ih =>
    rw [List.foldl_cons]
    exact ⟨(ih ..).1.trans (modListen_calls ..), (ih ..).2.trans (modListen_ports ..)⟩

theorem listen_setProvingClocks {m : ListenId} (listed : m ∈ k.listenLanes) :
    (s.setProvingClocks r b).listen? m = (s.listen? m).map (clockStarted b) := by
  rw [setProvingClocks_eq hk, listen_foldl_modListen (clockStarted_idem b), if_pos listed]

end

/-! ### The talk lane learns its partner's nonce (R110) -/

theorem requestFirstTalkKey_rekeyed (l : TalkId) (s : State) : Rekeyed s (s.requestFirstTalkKey l) := by
  unfold requestFirstTalkKey
  split
  · split
    · dsimp only
      split
      · exact (Rekeyed.mixRequest ..).trans (.modTalk ..)
      · exact Rekeyed.mixRequest ..
    · exact .refl s
  · exact .refl s

theorem talk_requestFirstTalkKey {s : State} {l : TalkId} {t : TalkLane} (hl : s.talk? l = some t) :
    ∃ q, (s.requestFirstTalkKey l).talk? l = some { t with request := q } := by
  have same (who : Requester) (key : Key) (a b : Nonce) (n : Nat) :
      (s.mixRequest who key a b n).1.talk? l = some t := by
    rcases mixRequest_cases who key a b n s with ⟨-, h⟩ | ⟨-, h⟩ <;> rw [h] <;> exact hl
  simp only [requestFirstTalkKey, hl]
  split
  · split
    · refine ⟨.first, ?_⟩
      rw [talk_modTalk_same, same]
      rfl
    · exact ⟨t.request, same ..⟩
  · exact ⟨t.request, hl⟩

theorem givePartner_rekeyed (l : TalkId) (n : Nonce) (s : State) : Rekeyed s (s.givePartner l n) := by
  unfold givePartner
  split
  · split
    · exact (Rekeyed.modTalk ..).trans (requestFirstTalkKey_rekeyed ..)
    · exact .refl s
  · exact .refl s

section
variable {s : State} {l : TalkId} {t : TalkLane} (hl : s.talk? l = some t)
include hl

/-- A lane without a first key takes its partner's nonce, and asks for the key. -/
theorem givePartner_of_keyless (keyless : t.noFirstKey = true) (n : Nonce) :
    s.givePartner l n = (s.setTalk l { t with partner := some n }).requestFirstTalkKey l := by
  simp only [givePartner, hl, keyless, if_true, modTalk_of_lane hl]

theorem talk_givePartner (keyless : t.noFirstKey = true) (n : Nonce) :
    ∃ q, (s.givePartner l n).talk? l = some { t with partner := some n, request := q } := by
  rw [givePartner_of_keyless hl keyless]
  exact talk_requestFirstTalkKey (talk_setTalk_same ..)

end

end Sys2Proof.Machine.State
end

