-- ==== Sys2Proof/Proofs/CallAnswers.lean ====
section
/-! PROOF. CALL-ANSWER and CALL-CONNECT at the caller (R58, R59, R64). -/

namespace Sys2Proof.Machine

open Sys2Proof

namespace State

/-! ### The answers that the record takes (R58, R64) -/

section
variable {s : State} {x : Stored} {r : RecordId} {k : Call} (hk : s.call? r = some k)
  (target : s.callTarget x.cell = some (.record r))
include hk target

theorem actCallCell_answer {o : AnswerOutcome} (hb : x.cell.body = .callAnswer o) :
    s.actCallCell x = if k.state = .offering then s.answered r k x.cell.sender o else s := by
  simp only [actCallCell, target, hk, hb]

theorem actCallCell_connect {slot : Slot} {n : Nonce} (hb : x.cell.body = .callConnect slot n) :
    s.actCallCell x = if k.role = .caller ∧ (k.state = .ringback ∨ k.state = .offering) then
      s.connected r k x.cell.sender slot n x.stamp else s := by
  simp only [actCallCell, target, hk, hb]

end

theorem call_setTone (p : Port) (y : Tone) (r : RecordId) (s : State) : (s.setTone p y).call? r = s.call? r := by
  simp [call?, record]

section
variable {s : State} {r : RecordId} {k : Call} (hk : s.call? r = some k)
include hk

/-- RINGING at an OFFERING record: RINGBACK. -/
theorem answered_ringing (sender : Tag) :
    (s.answered r k sender .ringing).call? r =
      some { k with farTag := sender, timer := some 3750, state := .ringback } ∧
    ((s.port k.port).state = .up → ((s.answered r k sender .ringing).port k.port).tone = .ringback) ∧
    (s.answered r k sender .ringing).highway.queue = s.highway.queue := by
  set v := s.setCall r { k with timer := some 3750, farTag := sender } with hv
  have run : s.answered r k sender .ringing = (v.setCallState r .ringback).setTone k.port .ringback := by
    simp only [answered, modCall_of_call hk, modCall_setCall]
    rfl
  have call : v.call? r = some { k with timer := some 3750, farTag := sender } := call_setCall_same ..
  rw [run]
  refine ⟨?_, fun up => ?_, ?_⟩
  · rw [call_setTone, call_setCallState call .ringback rfl]
  · have up' : ((v.setCallState r .ringback).port k.port).state = .up := by
      rw [port_setCallState call .ringback rfl]
      exact up
    rw [port_setTone_same _ up']
  · rw [setTone_highway, queue_setCallState call .ringback rfl]
    rfl

/-- The answers that end the call free its record without a CALL-CLEAR (R58, R63). -/
theorem answered_freed {c : Cause} {y : Tone} (sender : Tag) {o : AnswerOutcome} (offering : k.state = .offering)
    (tone : c.tone = some y)
    (run : s.answered r k sender o = (s.modCall r fun k => { k with timer := none }).clearNoCell r c) :
    (s.answered r k sender o).call? r = none ∧ NoClearJoins s (s.answered r k sender o) ∧
    ((s.port k.port).state = .up → (s.callPort k.port).hookView = .off →
      ((s.answered r k sender o).port k.port).tone = y) := by
  rw [run, modCall_of_call hk, clearNoCell, tone]
  set v := s.setCall r { k with timer := none } with hv
  have call : v.call? r = some { k with timer := none } := call_setCall_same ..
  refine ⟨call_clearQuiet_same .., noClearJoins_clearQuiet (s := v) c _ call, ?_⟩
  exact tone_clearQuiet c call y (by simp [Call.isFront, offering])

/-- The call whose STALE answer is retried. -/
def retriedCall (k : Call) : Call :=
  { k with timer := none, staleRetried := true, cause := .stale, farStation := none, calledEpoch := none,
           farTag := Tag.absent, state := .routing }

/-- A cache entry other than the one that the call was offered by. -/
def otherEntry (k : Call) (y : CacheEntry) : Bool :=
  !(decide (some y.ext = k.farExt) && decide (some y.epoch = k.calledEpoch))

/-- The retry looks the number up again in a state that differs in the record, the cache and the lane's send mode. -/
theorem answered_retry (sender : Tag) {l : TalkId} {t0 : TalkLane} (unretried : k.staleRetried = false)
    (plain : k.divert = false) (lane : k.talkLane = some l) (hl : s.talk? l = some t0) :
    s.answered r k sender .stale =
      (((s.cacheFilter (otherEntry k)).setCall r (retriedCall k)).setTalk l { t0 with mode := .silence }).runLookup r := by
  set v := (s.cacheFilter (otherEntry k)).setCall r { retriedCall k with state := k.state } with hv
  have filtered (keep : CacheEntry → Bool) (k' : Call) :
      (s.setCall r k').cacheFilter keep = (s.cacheFilter keep).setCall r k' := rfl
  have retried : s.answered r k sender .stale = (s.setCall r { k with timer := none }).retryStale r k := by
    simp only [answered, modCall_of_call hk]
    exact if_neg (by simp [unretried, plain])
  have run : s.answered r k sender .stale = (v.setCallState r .routing).runLookup r := by
    simp only [retried, retryStale, modCall_setCall]
    rw [filtered, modCall_setCall]
    rfl
  have call : v.call? r = some { retriedCall k with state := k.state } := call_setCall_same ..
  have hl' : v.talk? l = some t0 := hl
  rw [run, setCallState_of_lane (k' := retriedCall k) call rfl lane hl', hv, setCall_setCall]
  rfl

omit hk in
theorem routeTo_of_lane {k : Call} {l : TalkId} (hk : s.call? r = some k) (lane : k.talkLane = some l) (far : Station)
    (ep : Option Epoch) : s.routeTo r far ep =
      (s.setCall r { k with farStation := some far, calledEpoch := ep, farTag := Tag.absent }).issueOffer r := by
  simp only [routeTo, modCall_of_call hk, call_setCall_same, Option.bind_some, lane]

/-- STALE is retried with the own home record's location, which the caller's lane offers (R58). -/
theorem answered_stale {e : Ext} {rg : Range} {h : HomeRecord} {st : Station} {q : Port} {l : TalkId} {t0 : TalkLane}
    {y : Slot} (sender : Tag) (unretried : k.staleRetried = false)
    (plain : k.divert = false) (he : k.farExt = some e) (home : s.homeOf e = some s.self)
    (plan : s.calls.plan.get s.self = .present rg) (hr : s.homeRecord e = some h) (located : h.location = some (st, q))
    (lane : k.talkLane = some l) (hl : s.talk? l = some t0) (active : t0.state = .active) (slot : t0.slot = some y)
    (room : QueueRoom 1 s) :
    (s.answered r k sender .stale).call? r = some { k with
      state := .offering, staleRetried := true, cause := .stale, timer := some 250
      farStation := some st, calledEpoch := some h.epoch, farTag := Tag.absent } ∧
    Queues s (s.answered r k sender .stale) [cellFrom s st (s.callTag r) Tag.absent
      (.callOffer k.ownExt e h.epoch y t0.ownNonce k.onward)] := by
  have run := answered_retry hk sender unretried plain lane hl
  set v := ((s.cacheFilter (otherEntry k)).setCall r (retriedCall k)).setTalk l { t0 with mode := .silence } with hv
  have call : v.call? r = some (retriedCall k) := call_setCall_same ..
  have answer : v.homeAnswer e = .located st h.epoch := by
    have record : v.homeRecord e = some h := hr
    simp only [homeAnswer, record, located]
  have look : v.lookupAgain r = (v, .now (.located st h.epoch)) := by
    rw [lookupAgain_of_own (s := v) call he home plan rfl, answer]
  set found : Call := { retriedCall k with farStation := some st, calledEpoch := some h.epoch, farTag := Tag.absent }
  set w := v.setCall r found with hw
  have callW : w.call? r = some found := call_setCall_same ..
  have laneW : w.talk? l = some { t0 with mode := .silence } := talk_setTalk_same ..
  have given : v.giveResult r (.located st h.epoch) = v.routeTo r st (some h.epoch) := by
    simp only [giveResult, call]
    exact if_pos rfl
  have issued : s.answered r k sender .stale = w.issueOffer r := by
    rw [run, runLookup_of_now look (by simp), given, routeTo_of_lane call lane]
  obtain ⟨record, queue⟩ := issueOffer_offering callW rfl rfl lane laneW active slot (room : QueueRoom 1 w)
  rw [issued]
  refine ⟨record, ?_⟩
  have tag : w.callTag r = s.callTag r := 
    (callTag_setCall r found v).trans (callTag_setCall r (retriedCall k) (s.cacheFilter (otherEntry k)))
  have cell : w.offerCell r found st y t0.ownNonce = cellFrom s st (s.callTag r) Tag.absent
      (.callOffer k.ownExt e h.epoch y t0.ownNonce k.onward) := by
    have self : w.self = s.self := rfl
    have fields : found.ownExt = k.ownExt ∧ found.farExt = some e ∧ found.divert = false ∧
        found.calledEpoch = some h.epoch ∧ found.onward = k.onward := ⟨rfl, he, plain, rfl, rfl⟩
    obtain ⟨ownExt, farExt, divert, epoch, onward⟩ := fields
    simp [offerCell, cellFrom, self, tag, ownExt, farExt, divert, epoch, onward]
  have base : w.highway.queue = s.highway.queue := rfl
  rw [Queues, base] at queue
  rw [← cell]
  exact queue

end

/-! ### CALL-CONNECT (R59, R112, R127) -/

/-- The record that a CALL-CONNECT reaches. -/
def connectedCall (k : Call) (sender : Tag) (x : Slot) (n : Nonce) : Call :=
  { k with timer := none, farTag := sender, farSlot := some x, farNonce := some n }

/-- The talk lane takes its first boundary and its partner's nonce. -/
def connecting (s : State) (r : RecordId) (k : Call) (l : TalkId) (b : Int) (n : Nonce) : State :=
  ((s.setCall r k).setFirstBoundary l b).givePartner l n

theorem connecting_rekeyed (r : RecordId) (k : Call) (l : TalkId) (b : Int) (n : Nonce) (s : State) :
    Rekeyed (s.setCall r k) (s.connecting r k l b n) :=
  (Rekeyed.modTalk ..).trans (givePartner_rekeyed ..)

/-- What a CALL-CONNECT that is acted on leaves (R59). -/
structure Proves (s t : State) (r : RecordId) (k : Call) (l : TalkId) (own : Nonce) (m : ListenId) (far : Station)
    (sender : Tag) (slot : Slot) (n : Nonce) (b : Int) : Prop where
  record : t.call? r = some { k with
    state := .proving, timer := none, farTag := sender, farSlot := some slot, farNonce := some n
    listenLanes := k.listenLanes ++ [m] }
  tone : (s.port k.port).state = .up → (t.port k.port).tone = .none
  talk : ∃ t1, t.talk? l = some t1 ∧ t1.partner = some n ∧ t1.mode = .prove ∧ t1.firstBoundary = some b
  listen : ∃ t1, t.listen? m = some t1 ∧ t1.state = .waitkey ∧ t1.purpose = .setup ∧ t1.owner = r ∧ t1.talker = far ∧
    t1.talkerTag = sender ∧ t1.slot = slot ∧ t1.talkerNonce = some n ∧ t1.partnerNonce = some own ∧
    t1.provingClock = some b

section
variable {s : State} {r : RecordId} {k : Call} {far : Station} {l : TalkId} {sender : Tag} {slot : Slot} {n : Nonce}
  {stamp : Nat} (hk : s.call? r = some k) (hf : k.farStation = some far) (lane : k.talkLane = some l)
  (tag : k.state = .offering ∨ sender = k.farTag)
include hk hf lane tag

/-- The listen lane opens with the nonces of both talk lanes. -/
theorem connected_eq {w : State} (hw : s.connecting r (connectedCall k sender slot n) l (1 - (stamp : Int)) n = w) :
    ∃ own, (∀ t1, w.talk? l = some t1 → own = t1.ownNonce) ∧ s.connected r k sender slot n stamp =
      let o := w.openListen r .setup far sender slot (some (n, own))
      if o.2 then ((o.1.setProvingClocks r (1 - (stamp : Int))).setTone k.port .none).setCallState r .proving
      else o.1.clearRecord r .congestion := by
  have named : (if k.state = .offering then sender else k.farTag) = sender := by
    split
    · rfl
    · exact (tag.resolve_left ‹_›).symm
  refine ⟨match w.talk? l with
    | some t => t.ownNonce
    | none => 0, fun t1 h => by rw [h], ?_⟩
  subst hw
  unfold connected
  split
  · rename_i far' l' hf' lane'
    obtain rfl : far = far' := Option.some.inj (hf.symm.trans hf')
    obtain rfl : l = l' := Option.some.inj (lane.symm.trans lane')
    simp only [named, modCall_of_call hk]
    rfl
  · rename_i other
    exact absurd lane (other far l hf)

/-- Without a FREE listen lane the caller clears. -/
theorem connected_clears (plain : k.confRole = .none) (waits : k.state = .ringback ∨ k.state = .offering)
    (full : ∀ m, s.listen? m ≠ none) (room : QueueRoom 2 s) :
    ClearsTo s (s.connected r k sender slot n stamp) r .congestion far sender := by
  set w := s.connecting r (connectedCall k sender slot n) l (1 - (stamp : Int)) n with hw
  have rekeyed : Rekeyed (s.setCall r (connectedCall k sender slot n)) w := connecting_rekeyed ..
  obtain ⟨own, -, run⟩ := connected_eq hk hf lane tag hw.symm
  have full' : ∀ m, w.listen? m ≠ none := fun m => by
    rw [listen?, listenPlace, rekeyed.listen]
    exact full m
  have call : w.call? r = some (connectedCall k sender slot n) := by
    rw [call_of_calls rekeyed.calls, call_setCall_same]
  have incarnation : (w.record r).incarnation = (s.record r).incarnation := by
    rw [record_of_calls rekeyed.calls, setCall, record_setRecord_same]
  have told : (connectedCall k sender slot n).farMayExist = true := by
    rcases waits with h | h <;> simp [Call.farMayExist, connectedCall, h]
  have room' : QueueRoom 2 w := by
    rw [QueueRoom, rekeyed.station, rekeyed.highway]
    exact room
  rw [run, openListen_of_full full']
  exact (clearRecord_clearsTo (far := far) .congestion call (by simp [connectedCall, plain]) told hf room').of_start
    rekeyed.station incarnation

/-- With a FREE listen lane the caller proves the paths. -/
theorem connected_proves {t0 : TalkLane} {m : ListenId} (hl : s.talk? l = some t0) (unasked : t0.request = .none)
    (unstaged : t0.staged = none) (unkeyed : t0.activeKey = none) (lowest : LowestFreeListen s m) :
    Proves s (s.connected r k sender slot n stamp) r k l t0.ownNonce m far sender slot n (1 - (stamp : Int)) := by
  set b : Int := 1 - (stamp : Int) with hb
  set w := s.connecting r (connectedCall k sender slot n) l b n with hw
  have rekeyed : Rekeyed (s.setCall r (connectedCall k sender slot n)) w := connecting_rekeyed ..
  have call : w.call? r = some (connectedCall k sender slot n) := by
    rw [call_of_calls rekeyed.calls, call_setCall_same]
  have lowest' : LowestFreeListen w m := by
    simp only [LowestFreeListen, listen?, listenPlace, rekeyed.listen]
    exact lowest
  obtain ⟨q, talk⟩ : ∃ q, w.talk? l = some { t0 with firstBoundary := some b, partner := some n, request := q } := by
    have first : ((s.setCall r (connectedCall k sender slot n)).setFirstBoundary l b).talk? l = some { t0 with
        firstBoundary := some b
        staged := t0.staged.map fun g => if g.isFirst then { g with countdown := some b } else g } := by
      rw [setFirstBoundary, talk_modTalk_same]
      exact congrArg _ hl
    rw [unstaged] at first
    obtain ⟨q, talk⟩ := talk_givePartner first (by simp [TalkLane.noFirstKey, unasked, unkeyed]) n
    refine ⟨q, ?_⟩
    rw [hw, connecting, talk, unstaged]
    rfl
  obtain ⟨own, owns, run⟩ := connected_eq hk hf lane tag hw.symm
  obtain rfl : own = t0.ownNonce := by rw [owns _ talk]
  obtain ⟨ok, opened⟩ := openListen_setup call lowest' far sender slot n t0.ownNonce
  set u := (w.openListen r .setup far sender slot (some (n, t0.ownNonce))).1
  have callU : u.call? r = some { connectedCall k sender slot n with listenLanes := k.listenLanes ++ [m] } := by
    rw [call_of_calls opened.calls, call_setCall_same]
    rfl
  set v := u.setProvingClocks r b with hv
  have off : OffHighway u v := setProvingClocks_offHighway callU b
  obtain ⟨callsV, portsV⟩ := setProvingClocks_calls callU b
  set z := v.setTone k.port .none with hz
  have callZ : z.call? r = some { connectedCall k sender slot n with listenLanes := k.listenLanes ++ [m] } := by
    rw [hz, call_setTone, call_of_calls callsV, callU]
  have laneZ : z.talk? l = some { t0 with firstBoundary := some b, partner := some n, request := q } := by
    simp only [talk?, talkPlace, hz, setTone_scr, off.talk, opened.talk]
    exact talk
  simp only [run, ok, if_true]
  refine ⟨call_setCallState callZ .proving rfl, fun up => ?_, ⟨_, talk_setCallState callZ .proving rfl lane laneZ,
    rfl, rfl, rfl⟩, ?_⟩
  · have up' : (v.port k.port).state = .up := by
      rw [port_of_ports (portsV.trans (opened.ports.trans rekeyed.ports))]
      exact up
    have toned : (z.port k.port).tone = .none := by rw [hz, port_setTone_same .none up']
    rw [port_setCallState callZ .proving rfl, toned]
  · obtain ⟨q', asked, opened'⟩ := opened.opened
    have listed : m ∈ k.listenLanes ++ [m] := by simp
    have here := listen_setProvingClocks callU b listed
    rw [opened', Option.map_some, clockStarted_of_fresh b rfl rfl] at here
    have stays : v.listen? m = z.listen? m := by rw [hz, listen?, listenPlace, listen?, listenPlace, setTone_scr]
    rw [listen_setCallState callZ .proving rfl, ← stays, here]
    exact ⟨_, rfl, rfl, rfl, rfl, rfl, rfl, rfl, rfl, rfl, rfl⟩

end

end State

section
variable {s : State} {x : Stored} {r : RecordId} {k : Call} (hx : s.nextCell .callC = some x)
  (active : s.station.state = .active) (hk : s.call? r = some k) (receiver : x.cell.receiver = s.callTag r)
  (plain : k.confRole ≠ .controller) (far : k.farStation = some x.cell.source)
  (sender : State.senderMatches x.cell k = true) {P : State → Prop}
include hx active hk receiver plain far sender

theorem completes_callAnswer {o : AnswerOutcome} (hb : x.cell.body = .callAnswer o)
    (h : P (if k.state = .offering then (taken s .callC x).answered r k x.cell.sender o else taken s .callC x)) :
    Completes .callAnswer s P := by
  have target := State.callTarget_of_named (State.namedRecord_of_matches (s := taken s .callC x) hk receiver plain far
    sender)
  refine completes_callCell hx (by rw [hb]; rfl) (by rw [hb]; rfl) active (by rw [hb, Body.kind]; decide) ?_
  rw [State.actCallCell_answer (s := taken s .callC x) hk target hb]
  exact h

theorem completes_callConnect {slot : Slot} {n : Nonce} (hb : x.cell.body = .callConnect slot n)
    (h : P (if k.role = .caller ∧ (k.state = .ringback ∨ k.state = .offering) then
      (taken s .callC x).connected r k x.cell.sender slot n x.stamp else taken s .callC x)) :
    Completes .callConnect s P := by
  have target := State.callTarget_of_named (State.namedRecord_of_matches (s := taken s .callC x) hk receiver plain far
    sender)
  refine completes_callCell hx (by rw [hb]; rfl) (by rw [hb]; rfl) active (by rw [hb, Body.kind]; decide) ?_
  rw [State.actCallCell_connect (s := taken s .callC x) hk target hb]
  exact h

end

/-- Settles O30: what a CALL-ANSWER and a CALL-CONNECT do at the record that they name. -/
theorem answersAndConnectsReachTheCaller : Obligations.AnswersAndConnectsReachTheCaller := by
  intro s x r k hx active hk receiver plain far known adopts noClear
  set u := taken s .callC x with hu
  have adopted {b : Prop} [Decidable b] (hb : b) : (decide (x.cell.sender = k.farTag) || decide b) = true := by
    rw [decide_eq_true hb, Bool.or_true]
  refine ⟨fun o hb => ⟨fun same other => ?_, fun offering ringing names => ?_, fun offering ends => ?_,
      fun e rg h st q l t0 y offering stale unretried noDivert he home plan hr located lane hl on slot room => ?_⟩,
    fun slot n hb => ?_⟩
  · refine completes_callAnswer hx active hk receiver plain far (State.senderMatches_of_known same) hb ?_
    rw [if_neg other]
  · subst ringing
    have sender : State.senderMatches x.cell k = true := by
      rcases names with same | new
      · exact State.senderMatches_of_known same
      · rw [State.senderMatches, hb]
        exact adopted new
    refine completes_callAnswer hx active hk receiver plain far sender hb ?_
    rw [if_pos offering]
    exact State.answered_ringing (s := u) hk x.cell.sender
  · have sender : State.senderMatches x.cell k = true := by
      rcases ends with rfl | rfl | ⟨rfl, -⟩ <;> rw [State.senderMatches, hb, Bool.or_true]
    refine completes_callAnswer hx active hk receiver plain far sender hb ?_
    rw [if_pos offering]
    rcases ends with rfl | rfl | ⟨rfl, again⟩
    · exact State.answered_freed (s := u) (c := .busy) hk x.cell.sender offering rfl rfl
    · exact State.answered_freed (s := u) (c := .congestion) hk x.cell.sender offering rfl rfl
    · refine State.answered_freed (s := u) (c := .unreachable) hk x.cell.sender offering rfl ?_
      exact if_pos (by simpa using again)
  · subst stale
    have sender : State.senderMatches x.cell k = true := by rw [State.senderMatches, hb, Bool.or_true]
    refine completes_callAnswer hx active hk receiver plain far sender hb ?_
    rw [if_pos offering]
    exact State.answered_stale (s := u) hk x.cell.sender unretried noDivert he home plan hr located lane hl on slot room
  · intro takes
    have matched (ht : takes) : State.senderMatches x.cell k = true ∧
        (k.role = .caller ∧ (k.state = .ringback ∨ k.state = .offering)) ∧
        (k.state = .offering ∨ x.cell.sender = k.farTag) := by
      obtain ⟨role, ⟨same, ringback⟩ | ⟨offering, same | new⟩⟩ := ht
      · exact ⟨State.senderMatches_of_known same, ⟨role, .inl ringback⟩, .inr same⟩
      · exact ⟨State.senderMatches_of_known same, ⟨role, .inr offering⟩, .inl offering⟩
      · refine ⟨?_, ⟨role, .inr offering⟩, .inl offering⟩
        rw [State.senderMatches, hb]
        exact adopted new
    refine ⟨fun same other => ?_, fun l t0 m ht lane hl unasked unstaged unkeyed lowest => ?_,
      fun l t0 ht alone lane hl _ full room => ?_⟩
    · refine completes_callConnect hx active hk receiver plain far (State.senderMatches_of_known same) hb ?_
      rw [if_neg (by tauto)]
    · obtain ⟨sender, acts, tag⟩ := matched ht
      refine completes_callConnect hx active hk receiver plain far sender hb ?_
      rw [if_pos acts]
      obtain ⟨record, tone, talk, listen⟩ := State.connected_proves (s := u) (n := n) (slot := slot) (stamp := x.stamp)
        hk far lane tag hl unasked unstaged unkeyed lowest
      exact ⟨record, tone, talk, listen⟩
    · obtain ⟨sender, acts, tag⟩ := matched ht
      refine completes_callConnect hx active hk receiver plain far sender hb ?_
      rw [if_pos acts]
      exact State.connected_clears (s := u) hk far lane tag alone acts.2 full room

end Sys2Proof.Machine
end

