-- ==== Sys2Proof/Proofs/OffHook.lean ====
section
/-! PROOF. A set goes off-hook (R46, R48, R55, R57, R76, R110). -/

namespace Sys2Proof.Machine

open Sys2Proof

/-! ### What a hook event leaves of the sets -/

/-- Of no set's port more than the tone and the ring change, and no hook view. -/
structure SetsKept (s t : State) : Prop where
  ports : ∀ p, t.port p = { s.port p with tone := (t.port p).tone, ring := (t.port p).ring } := by exact fun _ => rfl
  hookView : ∀ p, (t.callPort p).hookView = (s.callPort p).hookView := by exact fun _ => rfl

namespace SetsKept

theorem refl (s : State) : SetsKept s s := {}

theorem trans {s t u : State} (a : SetsKept s t) (b : SetsKept t u) : SetsKept s u where
  ports p := by rw [b.ports p, a.ports p]
  hookView p := (b.hookView p).trans (a.hookView p)

theorem of_clearFrame {s t : State} (h : ClearFrame s t) : SetsKept s t := ⟨h.ports, h.hookView⟩

theorem of_eq {s t : State} (ports : t.ports = s.ports) (hooks : t.calls.ports = s.calls.ports) : SetsKept s t where
  ports p := by rw [State.port_of_ports ports]
  hookView p := by rw [State.callPort_of_calls hooks]

theorem modCallPort (p : Port) (f : CallPort → CallPort) (s : State) (h : ∀ c, (f c).hookView = c.hookView) :
    SetsKept s (s.modCallPort p f) where
  hookView q := by
    by_cases same : q = p
    · subst same
      rw [State.callPort_modCallPort_same, h]
    · rw [State.callPort_modCallPort_ne _ _ same]

theorem modCall (r : RecordId) (f : Call → Call) (s : State) : SetsKept s (s.modCall r f) := by
  unfold State.modCall
  split <;> exact {}

theorem setCallState (r : RecordId) (st : CallState) (s : State) : SetsKept s (s.setCallState r st) := by
  cases hk : s.call? r with
  | none =>
    have same : s.setCallState r st = s := by simp [State.setCallState, State.modCall, hk]
    rw [same]
    exact refl s
  | some k =>
    have moved := State.setCallState_rekeyed hk st rfl
    exact of_eq moved.ports (by rw [moved.calls]; rfl)

theorem popTop (p : Port) (s : State) : SetsKept s (s.popTop p) := by
  unfold State.popTop
  split
  · exact refl s
  · refine ((modCallPort p _ s ?_).trans (modCall _ _ _)).trans (setCallState _ _ _)
    exact fun _ => rfl

end SetsKept

namespace State

/-! ### A talk lane opens for a record (R110) -/

/-- What the opening of the lowest FREE talk lane leaves. -/
structure TalkOpened (s t : State) (r : RecordId) (k : Call) (l : TalkId) (partner : Option Nonce) : Prop where
  calls : t.calls = (s.setCall r { k with talkLane := some l }).calls
  ports : t.ports = s.ports
  lane : ∃ t0, t.talk? l = some t0 ∧ t0.state = .claiming ∧ t0.owner = r ∧ t0.partner = partner

theorem openTalk_opened {s : State} {r : RecordId} {k : Call} {l : TalkId} (hk : s.call? r = some k)
    (hl : LowestFreeTalk s l) (hz : ∃ z, Claimable s z) (partner : Option Nonce) :
    (s.openTalk r partner).2 = true ∧ TalkOpened s (s.openTalk r partner).1 r k l partner := by
  obtain ⟨z, hz⟩ := hz
  set t0 : TalkLane := {
    state := .claiming, owner := r, ownerTag := s.callTag r, ownNonce := s.drawNonce.2, partner := partner } with ht0
  set w := s.drawNonce.1.setTalkPlace l { opening := (s.talkPlace l).opening + 1, lane := some t0 } with hw
  have hk' : w.call? r = some k := hk
  set u := w.setCall r { k with talkLane := some l } with hu
  obtain ⟨x, hx⟩ := selectSlot_of_claimable (s := u) (z := z) hz
  set v := u.addClaim { kind := .claim, slot := x, lane := some l } with hv
  have run : s.openTalk r partner = (v.requestFirstTalkKey l, true) := by
    simp only [openTalk, firstFreeTalk_of_lowest hl, ← ht0, ← hw, modCall_of_call hk', ← hu, firstClaim, hx, ← hv,
      if_true]
  have lane : v.talk? l = some t0 := by
    have scr : v.scr = u.scr := by simp [hv, addClaim, offerClaim]
    have place : u.talkPlace l = { opening := (s.talkPlace l).opening + 1, lane := some t0 } :=
      talkPlace_setTalkPlace_same ..
    rw [talk?, talkPlace, scr, ← talkPlace, place]
  obtain ⟨q, asked⟩ := talk_requestFirstTalkKey lane
  obtain ⟨-, calls⟩ := requestFirstTalkKey_frame l v
  rw [run]
  exact ⟨rfl, calls.trans (addClaim_calls _ _), (requestFirstTalkKey_ports l v).trans (addClaim_ports _ _),
    _, asked, rfl, rfl, rfl⟩

theorem openTalk_of_full {s : State} (full : ∀ l, s.talk? l ≠ none) (r : RecordId) (partner : Option Nonce) :
    s.openTalk r partner = (s, false) := by
  have none_ : s.firstFreeTalk = none := by
    rw [firstFreeTalk, List.find?_eq_none]
    exact fun l _ => by simpa [Option.isSome_iff_ne_none] using full l
  simp only [openTalk, none_]

theorem firstClaim_setsKept (l : TalkId) (s : State) : SetsKept s (s.firstClaim l).1 := by
  unfold firstClaim
  split
  · exact .refl s
  · exact .of_eq (addClaim_ports _ _) (by rw [addClaim_calls])

theorem openTalk_setsKept (r : RecordId) (partner : Option Nonce) (s : State) :
    SetsKept s (s.openTalk r partner).1 := by
  unfold openTalk
  split
  · exact .refl s
  · rename_i l _
    dsimp only
    have base (x : TalkPlace) (f : Call → Call) : SetsKept s ((s.drawNonce.1.setTalkPlace l x).modCall r f) :=
      SetsKept.trans (t := s.drawNonce.1.setTalkPlace l x) {} (.modCall _ _ _)
    split
    · refine ((base _ _).trans (firstClaim_setsKept l _)).trans (.of_eq (requestFirstTalkKey_ports ..) ?_)
      rw [(requestFirstTalkKey_frame ..).2]
    · exact (base _ _).trans (firstClaim_setsKept l _)

/-! ### A ringing set answers (R57) -/

theorem calleeAnswers_setsKept (r : RecordId) (k : Call) (s : State) : SetsKept s (s.calleeAnswers r k) := by
  have first : SetsKept s ((s.setRing k.port false).modCall r fun k => { k with timer := none }) :=
    (SetsKept.of_clearFrame (.setRing _ _ _)).trans (.modCall _ _ _)
  unfold calleeAnswers
  dsimp only
  split
  · exact first.trans (openTalk_setsKept _ _ _)
  · exact (first.trans (openTalk_setsKept _ _ _)).trans (.of_clearFrame (.clearRecord _ _ _))

/-- The state of a callee that has answered, before its talk lane opens. -/
def answering (s : State) (r : RecordId) (k : Call) : State :=
  (s.modPort k.port fun u => { u with ring := false }).setCall r { k with timer := none }

theorem port_answering (r : RecordId) (k : Call) (s : State) :
    (s.answering r k).port k.port = { s.port k.port with ring := false } :=
  port_modPort_same k.port (fun u => { u with ring := false }) s

section
variable {s : State} {r : RecordId} {k : Call} (hk : s.call? r = some k) (up : (s.port k.port).state = .up)
include hk up

theorem calleeAnswers_eq : s.calleeAnswers r k =
    if ((s.answering r k).openTalk r k.farNonce).2 then ((s.answering r k).openTalk r k.farNonce).1
    else ((s.answering r k).openTalk r k.farNonce).1.clearRecord r .noSlot := by
  have hk' : (s.modPort k.port fun u => { u with ring := false }).call? r = some k := hk
  simp only [calleeAnswers, setRing, up, if_true, modCall_of_call hk']
  rfl

theorem calleeAnswers_opens {l : TalkId} (hl : LowestFreeTalk s l) (hz : ∃ z, Claimable s z) :
    ((s.calleeAnswers r k).port k.port).ring = false ∧
    (s.calleeAnswers r k).call? r = some { k with timer := none, talkLane := some l } ∧
    ∃ t0, (s.calleeAnswers r k).talk? l = some t0 ∧ t0.state = .claiming ∧ t0.owner = r ∧ t0.partner = k.farNonce := by
  have call : (s.answering r k).call? r = some { k with timer := none } := call_setCall_same ..
  obtain ⟨ok, calls, ports, lane⟩ := openTalk_opened (s := s.answering r k) call hl hz k.farNonce
  rw [calleeAnswers_eq hk up, ok, if_pos rfl]
  refine ⟨?_, ?_, lane⟩
  · rw [port_of_ports ports, port_answering]
  · rw [call_of_calls calls, call_setCall_same]

theorem calleeAnswers_clears {far : Station} (alerting : k.state = .alerting) (lane : k.talkLane = none)
    (plain : k.confRole = .none) (hf : k.farStation = some far) (off : (s.callPort k.port).hookView = .off)
    (full : ∀ l, s.talk? l ≠ none) (room : QueueRoom 1 s) :
    ((s.calleeAnswers r k).port k.port).ring = false ∧ ((s.calleeAnswers r k).port k.port).tone = .reorder ∧
    ClearsTo s (s.calleeAnswers r k) r .noSlot far k.farTag := by
  set v := s.answering r k with hv
  have call : v.call? r = some { k with timer := none } := call_setCall_same ..
  have none_ : v.openTalk r k.farNonce = (v, false) := openTalk_of_full (s := v) full r k.farNonce
  have run : s.calleeAnswers r k = v.clearRecord r .noSlot := by
    rw [calleeAnswers_eq hk up, none_]
    rfl
  have upNow : (v.port k.port).state = .up := by
    rw [hv, port_answering]
    exact up
  have told : Call.farMayExist { k with timer := none } = true := by simp [Call.farMayExist, alerting]
  have ringing : Call.ringing { k with timer := none } = true := by simp [Call.ringing, alerting, lane]
  have front : Call.isFront { k with timer := none } = true := by simp [Call.isFront, alerting]
  have incarnation : (v.record r).incarnation = (s.record r).incarnation := by
    rw [hv, answering, setCall, record_setRecord_same]
    rfl
  have closed : QueueRoom 1 (v.closeLaneOf { k with timer := none }) := by
    rw [closeLaneOf_none (k := { k with timer := none }) lane]
    exact room
  rw [run]
  refine ⟨?_, (clearRecord_hear r .noSlot .reorder v rfl).2 { k with timer := none } call front upNow off, ?_⟩
  · rw [clearRecord_of_far (k := { k with timer := none }) call plain told hf, port_of_ports (offerCallClear_ports ..)]
    exact ring_endRecord call .noSlot _ ringing upNow
  · exact (clearRecord_clearsTo_of_closed .noSlot call (by simp [plain]) told hf closed).of_start rfl incarnation

end

/-! ### A set goes off-hook for a new call (R46, R48) -/

theorem startDialing_setsKept (p : Port) (e : Ext) (s : State) : SetsKept s (s.startDialing p e) := by
  unfold startDialing
  split
  · rename_i a _
    exact SetsKept.trans (t := s.allocate a _) {} (.of_clearFrame (.setTone _ _ _))
  · exact .of_clearFrame (.setTone _ _ _)

section
variable {s : State} {p : Port} (e : Ext) (up : (s.port p).state = .up)
include up

theorem startDialing_of_lowest {a : RecordId} (lowest : LowestFreeRecord s a) :
    ((s.startDialing p e).port p).tone = .dial ∧
    (s.startDialing p e).record a = {
      incarnation := (s.record a).incarnation + 1
      call := some { state := .dialing, port := p, ownExt := e, role := .caller, timer := some 1250 } } ∧
    (∀ b, b ≠ a → (s.startDialing p e).record b = s.record b) ∧
    (s.startDialing p e).highway = s.highway ∧ (s.startDialing p e).slots = s.slots ∧
    (s.startDialing p e).scr = s.scr := by
  set v := s.allocate a { state := .dialing, port := p, ownExt := e, role := .caller, timer := some 1250 } with hv
  have run : s.startDialing p e = v.setTone p .dial := by simp only [startDialing, firstFreeRecord_of_lowest lowest, hv]
  have upNow : (v.port p).state = .up := up
  have records (b : RecordId) : (v.setTone p .dial).record b = v.record b := by simp only [record, setTone_records]
  rw [run]
  refine ⟨by rw [port_setTone_same _ upNow], (records a).trans (record_setRecord_same ..), fun b hb => ?_, ?_, ?_, ?_⟩
  · exact (records b).trans (record_setRecord_ne _ _ hb)
  · exact setTone_highway ..
  · exact setTone_slots ..
  · exact setTone_scr ..

theorem startDialing_of_full (full : ∀ a, s.call? a ≠ none) :
    ((s.startDialing p e).port p).tone = .reorder ∧ (s.startDialing p e).calls.records = s.calls.records := by
  simp only [startDialing, firstFreeRecord_of_full full]
  exact ⟨by rw [port_setTone_same _ up], setTone_records ..⟩

end

/-! ### A set goes off-hook for its held call (R76) -/

theorem answerRecall_setsKept (p : Port) (s : State) : SetsKept s (s.answerRecall p) := by
  unfold answerRecall
  refine (SetsKept.trans ?_ (.popTop _ _)).trans (.of_clearFrame (.setTone _ _ _))
  split
  · refine (SetsKept.of_clearFrame (.setRing _ _ _)).trans (.modCallPort _ _ _ ?_)
    exact fun _ => rfl
  · exact .refl s

/-- The recall of a port ends: it rings no longer. -/
def unrecalled (p : Port) (s : State) : State :=
  if (s.callPort p).recalled then (s.setRing p false).modCallPort p fun c => { c with recalled := false } else s

theorem unrecalled_port (p : Port) (s : State) (up : (s.port p).state = .up) :
    (s.unrecalled p).port p = { s.port p with ring := if (s.callPort p).recalled then false else (s.port p).ring } ∧
    (s.unrecalled p).callPort p = { s.callPort p with recalled := false } ∧
    (s.unrecalled p).calls.records = s.calls.records := by
  cases h : (s.callPort p).recalled with
  | true =>
    have run : s.unrecalled p = (s.modPort p fun u => { u with ring := false }).modCallPort p
        fun c => { c with recalled := false } := by rw [unrecalled, if_pos h, setRing, if_pos up]
    rw [run]
    refine ⟨?_, ?_, rfl⟩
    · exact port_modPort_same p (fun u => { u with ring := false }) s
    · exact callPort_modCallPort_same p (fun c => { c with recalled := false }) _
  | false =>
    simp only [unrecalled, h, Bool.false_eq_true, if_false]
    refine ⟨trivial, ?_, trivial⟩
    rw [← h]

section
variable {s : State} {p : Port} {top : RecordId} {rest : List RecordId} {k : Call}
  (stack : (s.callPort p).stack = top :: rest) (hk : s.call? top = some k)
include stack hk

/-- The top of the stack is CONNECTED again. -/
theorem popTop_of_stack : (s.popTop p).callPort p = { s.callPort p with stack := rest } ∧
    (s.popTop p).call? top = some { k with state := .connected, timer := none } ∧ (s.popTop p).ports = s.ports := by
  set v := (s.modCallPort p fun c => { c with stack := rest }).setCall top { k with timer := none } with hv
  have hk' : (s.modCallPort p fun c => { c with stack := rest }).call? top = some k := hk
  have run : s.popTop p = v.setCallState top .connected := by
    simp only [popTop, stack, modCall_of_call hk', hv]
  have call : v.call? top = some { k with timer := none } := call_setCall_same ..
  have moved := setCallState_rekeyed call .connected rfl
  rw [run]
  refine ⟨?_, call_setCallState call .connected rfl, moved.ports⟩
  rw [callPort_of_calls (congrArg (·.ports) moved.calls)]
  exact callPort_modCallPort_same p (fun c => { c with stack := rest }) s

theorem answerRecall_connects (up : (s.port p).state = .up) :
    (s.answerRecall p).callPort p = { s.callPort p with stack := rest, recalled := false, burst := none } ∧
    (s.answerRecall p).call? top = some { k with state := .connected, timer := none } ∧
    ((s.answerRecall p).port p).tone = .none ∧
    ((s.answerRecall p).port p).ring = (if (s.callPort p).recalled then false else (s.port p).ring) := by
  obtain ⟨port, callPort, records⟩ := unrecalled_port p s up
  set v := s.unrecalled p with hv
  have hk' : v.call? top = some k := by
    rw [call?, record, records]
    exact hk
  obtain ⟨popped, call, ports⟩ := popTop_of_stack (s := v) (p := p) (by rw [callPort]; exact stack) hk'
  have run : s.answerRecall p = (v.popTop p).setTone p .none := rfl
  have upNow : ((v.popTop p).port p).state = .up := by
    rw [port_of_ports ports, port]
    exact up
  rw [run]
  refine ⟨?_, by rw [call_setTone, call], by rw [port_setTone_same _ upNow], ?_⟩
  · rw [callPort_setTone_same _ upNow, popped, callPort]
  · rw [ring_setTone, port_of_ports ports, port]

end

end State

/-! ### The command -/

section
variable {s : State} {p : Port}

/-- The state in which an off-hook is acted on: the event has left, and the hook view is OFF. -/
def lifted (p : Port) (s : State) : State :=
  (s.modPort p fun u => u.release (.hook .off)).modCallPort p fun c => { c with hookView := .off }

theorem lifted_port (p : Port) (s : State) : (lifted p s).port p = (s.port p).release (.hook .off) :=
  State.port_modPort_same p (fun u => u.release (.hook .off)) s

theorem lifted_callPort (p : Port) (s : State) : (lifted p s).callPort p = { s.callPort p with hookView := .off } :=
  State.callPort_modCallPort_same p (fun c => { c with hookView := .off }) (s.modPort p fun u => u.release (.hook .off))

theorem completes_offHook {P : State → Prop} (due : s.dueEvent p = some (.hook .off))
    (h : P ((s.modPort p fun u => u.release (.hook .off)).offHook p)) : Completes (.offHook p) s P :=
  ⟨_, rfl, by simpa [State.takeHook, State.takeOffer, due] using h⟩

/-- The act of an off-hook, by the login, the front record and the stack of its port. -/
theorem offHook_unadmitted (out : s.admitted p = none) :
    (s.modPort p fun u => u.release (.hook .off)).offHook p = (lifted p s).setTone p .reorder := by
  have out' : (lifted p s).admitted p = none := out
  simp only [State.offHook, ← lifted.eq_1, out']

section
variable {login : Ext × Rights × Epoch} (admitted : s.admitted p = some login)
include admitted

theorem offHook_front {r : RecordId} {k : Call} (front : s.front p = some r) (hk : s.call? r = some k) :
    (s.modPort p fun u => u.release (.hook .off)).offHook p =
      if k.ringing then (lifted p s).calleeAnswers r k else lifted p s := by
  have admitted' : (lifted p s).admitted p = some login := admitted
  have front' : (lifted p s).front p = some r := front
  have hk' : (lifted p s).call? r = some k := hk
  simp only [State.offHook, ← lifted.eq_1, admitted', front', hk']

theorem offHook_idle (idle : s.front p = none) (stack : (s.callPort p).stack = []) :
    (s.modPort p fun u => u.release (.hook .off)).offHook p = (lifted p s).startDialing p login.1 := by
  have admitted' : (lifted p s).admitted p = some login := admitted
  have front' : (lifted p s).front p = none := idle
  have empty : ((lifted p s).callPort p).stack.isEmpty = true := by rw [lifted_callPort, stack]; rfl
  simp only [State.offHook, ← lifted.eq_1, admitted', front', empty, if_true]

theorem offHook_recall {top : RecordId} {rest : List RecordId} (idle : s.front p = none)
    (stack : (s.callPort p).stack = top :: rest) :
    (s.modPort p fun u => u.release (.hook .off)).offHook p = (lifted p s).answerRecall p := by
  have admitted' : (lifted p s).admitted p = some login := admitted
  have front' : (lifted p s).front p = none := idle
  have full : ((lifted p s).callPort p).stack.isEmpty = false := by rw [lifted_callPort, stack]; rfl
  simp only [State.offHook, ← lifted.eq_1, admitted', front', full, Bool.false_eq_true, if_false]

end

theorem offHook_setsKept : SetsKept (lifted p s) ((s.modPort p fun u => u.release (.hook .off)).offHook p) := by
  simp only [State.offHook, ← lifted.eq_1]
  split
  · exact .of_clearFrame (.setTone _ _ _)
  · split
    · split
      · split
        · exact State.calleeAnswers_setsKept _ _ _
        · exact .refl _
      · exact .refl _
    · split
      · exact State.startDialing_setsKept _ _ _
      · exact State.answerRecall_setsKept _ _

/-- An off-hook is reported and leaves its latch, whatever becomes of it. -/
theorem offHook_taken : (((s.modPort p fun u => u.release (.hook .off)).offHook p).callPort p).hookView = .off ∧
    (((s.modPort p fun u => u.release (.hook .off)).offHook p).port p).reportedHook = .off ∧
    (((s.modPort p fun u => u.release (.hook .off)).offHook p).port p).hook = none := by
  have kept := offHook_setsKept (s := s) (p := p)
  have port := kept.ports p
  rw [lifted_port] at port
  refine ⟨?_, by rw [port]; rfl, by rw [port]; rfl⟩
  rw [kept.hookView p, lifted_callPort]

end

end Sys2Proof.Machine
end

