-- ==== Sys2Proof/Proofs/HookEvents.lean ====
section
/-! PROOF. A conference ends with its controller (R66, R86), a set goes on-hook (R50, R76), and what the hook events do. -/

namespace Sys2Proof.Machine

open Sys2Proof

namespace State

/-! ### What a clearing leaves of the ports (R62) -/

theorem foldl_confEnded_ports (r : RecordId) (ms : List Member) (s : State) (n : Nat) :
    (ms.foldl (fun (a : State × Nat) m =>
      let o := a.1.offer (a.1.memberClear m .confEnded) (a.1.clearingName r)
      (o.1, if o.2 then a.2 + 1 else a.2)) (s, n)).1.ports = s.ports := by
  induction ms generalizing s n with
  | nil => rfl
  | cons m ms ih =>
    rw [List.foldl_cons, ih]
    exact offer_ports ..

theorem endConference_ports (r : RecordId) (s : State) : (s.endConference r).ports = s.ports := by
  unfold endConference
  split
  · exact freeRecord_ports ..
  · dsimp only
    rw [awaitClears_ports, modCall_ports]
    exact foldl_confEnded_ports ..

section
variable {s : State} {r : RecordId} {k : Call} (hk : s.call? r = some k) (c : Cause)
include hk

/-- After the ending of a record its clearing changes no port. -/
theorem clearRecord_ports (inUse : k.isClearing = false) :
    (s.clearRecord r c).ports = (s.endRecord r c c.tone).ports := by
  simp only [clearRecord, clearRecordTone, hk, inUse, Bool.false_eq_true, if_false]
  split
  · exact endConference_ports ..
  · split
    · exact offerCallClear_ports ..
    · exact freeRecord_ports ..
    · exact freeRecord_ports ..

/-- A record whose port is on-hook ends without a tone. -/
theorem endRecord_of_onHook (on : (s.callPort k.port).hookView = .on) (tone : Option Tone) :
    s.endRecord r c tone = s.endRecord r c none := by
  have mute : (k.isFront && decide ((s.callPort k.port).hookView = Hook.off)) = false := by simp [on]
  simp only [endRecord, hk, mute, Bool.false_eq_true, if_false]
  cases tone <;> rfl

theorem tone_endRecord_of_onHook (on : (s.callPort k.port).hookView = .on) (tone : Option Tone) (p : Port) :
    ((s.endRecord r c tone).port p).tone = (s.port p).tone := by
  have heard (x : Tone) : ((s.endRecord r c tone).port p).tone = (s.port p).tone ∨
      ((s.endRecord r c tone).port p).tone = x := by
    rw [endRecord_of_onHook hk c on tone, ← endRecord_of_onHook hk c on (some x)]
    exact ((endRecord_hear r c x s).1 p).2.2
  rcases heard .none with same | silent
  · exact same
  · rcases heard .dial with same | dial
    · exact same
    · cases silent.symm.trans dial

theorem tone_clearRecord_of_onHook (inUse : k.isClearing = false) (on : (s.callPort k.port).hookView = .on) (p : Port) :
    ((s.clearRecord r c).port p).tone = (s.port p).tone := by
  rw [port_of_ports (clearRecord_ports hk c inUse)]
  exact tone_endRecord_of_onHook hk c on c.tone p

end

/-! ### The members hear of the end of a conference, as far as there are places (R66, R159) -/

/-- The CALL-CLEAR that tells a member of the end. -/
def confEnded (s : State) (r : RecordId) (m : Member) : Queued :=
  clearingCell s r (cellFrom s m.station m.link m.tag (.callClear .confEnded))

theorem confEnded_of_kept {s t : State} {r : RecordId} (station : t.station = s.station)
    (incarnation : (t.record r).incarnation = (s.record r).incarnation) : t.confEnded r = s.confEnded r := by
  funext m
  simp only [confEnded, clearingCell, cellFrom, self_of_station station, incarnation]

theorem foldl_confEnded (r : RecordId) (ms : List Member) (s : State) (n : Nat) (active : s.station.state = .active) :
    let x := ms.foldl (fun (a : State × Nat) m =>
      let o := a.1.offer (a.1.memberClear m .confEnded) (a.1.clearingName r)
      (o.1, if o.2 then a.2 + 1 else a.2)) (s, n)
    x.1.highway.queue = s.highway.queue ++ (ms.map (s.confEnded r)).take (24 - s.highway.queue.length) ∧
    x.2 = n + min ms.length (24 - s.highway.queue.length) ∧ x.1.calls = s.calls ∧ x.1.scr = s.scr := by
  induction ms generalizing s n with
  | nil => simp
  | cons m ms ih =>
    dsimp only
    rw [List.foldl_cons]
    dsimp only
    by_cases room : s.highway.queue.length < 24
    · have offered := offer_of_reserve (c := s.memberClear m .confEnded) (s.clearingName r) active rfl room
      obtain ⟨queue, count, calls, scr⟩ := ih (s.enqueue ⟨s.memberClear m .confEnded, s.clearingName r⟩) (n + 1) active
      rw [offered]
      have same : (s.enqueue ⟨s.memberClear m .confEnded, s.clearingName r⟩).confEnded r = s.confEnded r :=
        confEnded_of_kept rfl rfl
      have places : 24 - s.highway.queue.length = 24 - (s.highway.queue.length + 1) + 1 := by omega
      rw [same] at queue
      simp only [enqueue_queue, List.length_append, List.length_singleton] at queue count
      refine ⟨?_, ?_, calls, scr⟩
      · rw [List.map_cons, places, List.take_succ_cons]
        exact queue.trans (List.append_assoc ..)
      · refine count.trans ?_
        rw [List.length_cons]
        omega
    · obtain ⟨refused, unsent⟩ := offer_of_noPlace (c := s.memberClear m .confEnded) (s.clearingName r)
        (.inr (Nat.not_lt.1 room))
      obtain ⟨station, -, -, -, -, calls', scr', -⟩ := offer_frame (s.memberClear m .confEnded) (s.clearingName r) s
      set u := (s.offer (s.memberClear m .confEnded) (s.clearingName r)).1 with hu
      obtain ⟨queue, count, calls, scr⟩ := ih u n (by rw [station]; exact active)
      have none_ : 24 - s.highway.queue.length = 0 := by omega
      rw [unsent, none_] at queue count
      rw [refused, none_]
      simp only [Bool.false_eq_true, if_false, Nat.min_zero, List.take_zero] at queue count ⊢
      exact ⟨queue, count, calls.trans calls', scr.trans scr'⟩

/-- How the record of a conference that ends waits for the told members. -/
structure ConferenceEnded (s t : State) (e : ConfId) (cf : Conf) (r : RecordId) (c : Cause) (l : TalkId) (y : Slot) :
    Prop where
  entry : t.calls.confs.get e = none
  lane : t.talk? l = none
  queue : t.highway.queue = s.highway.queue ++
    (({ cell := broadcast s (.slot (.free y)), name := .slotCell (.free y) } : Queued) ::
      cf.members.map (s.confEnded r)).take (24 - s.highway.queue.length)
  freed : min cf.members.length (24 - s.highway.queue.length - 1) = 0 → t.call? r = none
  waits : min cf.members.length (24 - s.highway.queue.length - 1) ≠ 0 → ∃ k', t.call? r = some k' ∧
    k'.state = .clearing ∧ k'.cause = c ∧ k'.confRole = .none ∧
    k'.clears = min cf.members.length (24 - s.highway.queue.length - 1) ∧ k'.talkLane = none ∧ k'.listenLanes = []

theorem clearRecord_conferenceEnded {s : State} {r : RecordId} {k : Call} {e : ConfId} {cf : Conf} {l : TalkId}
    {t0 : TalkLane} {y : Slot} (hk : s.call? r = some k) (c : Cause) (inUse : k.isClearing = false)
    (controller : k.confRole = .controller) (entry : s.calls.confs.get e = some cf) (owner : cf.controller = r)
    (alone : ∀ e' cf', s.calls.confs.get e' = some cf' → cf'.controller = r → e' = e) (lane : k.talkLane = some l)
    (hl : s.talk? l = some t0) (on : t0.state = .active) (slot : t0.slot = some y) (active : s.station.state = .active) :
    ConferenceEnded s (s.clearRecord r c) e cf r c l y := by
  obtain ⟨record, incarnation, -, sends, -, confs⟩ := endRecord_spec r c c.tone s hk
  have off := endRecord_offHighway c c.tone hk
  have closed := talk_endRecord_own c c.tone hk lane
  set u := s.endRecord r c c.tone with hu
  have found : u.confOf r = some (e, cf) := by
    obtain ⟨⟨e', cf'⟩, hx⟩ := confOf_isSome (s := u) (by rw [confs]; exact entry) owner
    obtain ⟨entry', owner'⟩ := confOf_spec hx
    rw [confs] at entry'
    obtain rfl := alone e' cf' entry' owner'
    obtain rfl : cf = cf' := Option.some.inj (entry.symm.trans entry')
    exact hx
  have same : u.confEnded r = s.confEnded r := confEnded_of_kept sends.1 incarnation
  obtain ⟨told, count, calls, scr⟩ := foldl_confEnded r cf.members u 0 (by rw [sends.1]; exact active)
  set x := cf.members.foldl (fun (a : State × Nat) m =>
      let o := a.1.offer (a.1.memberClear m .confEnded) (a.1.clearingName r)
      (o.1, if o.2 then a.2 + 1 else a.2)) (u, 0) with hx
  have recordX : (x.1.setConf e none).call? r =
      some { k with cause := c, talkLane := none, listenLanes := [], timer := none } :=
    (call_of_calls (s := u) (t := x.1) calls r).trans record
  set w := (x.1.setConf e none).setCall r
    { k with cause := c, talkLane := none, listenLanes := [], timer := none, confRole := .none } with hw
  have run : s.clearRecord r c = w.awaitClears r x.2 := by
    have ended : s.clearRecord r c = u.endConference r := by
      simp [clearRecord, clearRecordTone, hk, inUse, controller, hu]
    simp only [ended, endConference, found, ← hx, modCall_of_call recordX, ← hw]
  obtain ⟨freed, waits, -, -, quiet, -, tables⟩ := awaitClears_spec r x.2 w (call_setCall_same ..)
  have offW := OffHighway.awaitClears r x.2 w
  have closedQueue : u.highway.queue = (s.closeTalk l).highway.queue := by rw [off.highway, closeLaneOf_some lane]
  -- The SLOT-FREE of the lane takes the first of the free places, if there is one.
  have places : u.highway.queue ++ (cf.members.map (s.confEnded r)).take (24 - u.highway.queue.length) =
      s.highway.queue ++ (({ cell := broadcast s (.slot (.free y)), name := .slotCell (.free y) } : Queued) ::
        cf.members.map (s.confEnded r)).take (24 - s.highway.queue.length) ∧
      24 - u.highway.queue.length = 24 - s.highway.queue.length - 1 := by
    by_cases room : s.highway.queue.length < 24
    · rw [closedQueue, (closeTalk_of_place hl on slot active room).1]
      have one : 24 - s.highway.queue.length = 24 - (s.highway.queue.length + 1) + 1 := by omega
      refine ⟨?_, by simp only [List.length_append, List.length_singleton]; omega⟩
      rw [one, List.take_succ_cons, List.length_append, List.length_singleton]
      exact List.append_assoc ..
    · rw [closedQueue, (closeTalk_of_noPlace hl on slot (Nat.not_lt.1 room)).1]
      have none_ : 24 - s.highway.queue.length = 0 := by omega
      rw [none_]
      exact ⟨rfl, rfl⟩
  obtain ⟨cells, left_⟩ := places
  have heard : x.2 = min cf.members.length (24 - s.highway.queue.length - 1) := by rw [count, left_, Nat.zero_add]
  rw [run]
  refine ⟨?_, ?_, ?_, fun none_ => freed (by rw [heard, none_]), fun some_ =>
    ⟨_, waits (by rw [heard]; exact some_), rfl, rfl, rfl, heard, rfl, rfl⟩⟩
  · rw [tables]
    exact upd_get_same ..
  · rw [offW.talk_eq]
    have kept : w.talk? l = u.talk? l := by
      have talk : w.scr.talk = u.scr.talk := congrArg (·.talk) scr
      simp only [talk?, talkPlace, talk]
    rw [kept, closed]
  · rw [offW.highway]
    have queue : w.highway.queue = x.1.highway.queue := rfl
    rw [queue, told, same, cells]

theorem tone_setRing (p q : Port) (on : Bool) (s : State) : ((s.setRing p on).port q).tone = (s.port q).tone := by
  rcases setRing_cases p on s with ⟨-, h⟩ | ⟨-, h⟩
  · rw [h]
    by_cases same : q = p
    · subst same
      rw [port_modPort_same]
    · rw [port_modPort_ne _ _ same]
  · rw [h]

end State

/-! ### A set goes on-hook (R50, R76) -/

/-- The state of a port that has gone on-hook: the event has left, the hook view is ON, and no tone is heard. -/
def hungUp (p : Port) (s : State) : State :=
  ((s.modPort p fun u => u.release (.hook .on)).modCallPort p fun c => { c with hookView := .on }).setTone p .none

/-- The call of the port has ended. -/
def hangUp (p : Port) (s : State) : State :=
  match s.front p with
  | some r => s.clearRecord r .normal
  | none => s

/-- The held call of the port rings it again. -/
def recallTop (p : Port) (s : State) : State :=
  match (s.callPort p).stack with
  | [] => s
  | top :: _ =>
    ((s.modCallPort p fun c => { c with recalled := true }).setRing p true).modCall top
      fun k => { k with timer := some 3875 }

section
variable {s : State} {p : Port}

theorem onHook_eq : (s.modPort p fun u => u.release (.hook .on)).onHook p = recallTop p (hangUp p (hungUp p s)) := rfl

theorem completes_onHook {P : State → Prop} (due : s.dueEvent p = some (.hook .on))
    (h : P (recallTop p (hangUp p (hungUp p s)))) : Completes (.onHook p) s P :=
  ⟨_, rfl, by simpa [State.takeHook, State.takeOffer, due, onHook_eq] using h⟩

section
variable (up : (s.port p).state = .up)
include up

theorem hungUp_port : (hungUp p s).port p = { (s.port p).release (.hook .on) with tone := .none } ∧
    (hungUp p s).callPort p = { s.callPort p with hookView := .on, burst := none } := by
  set v := (s.modPort p fun u => u.release (.hook .on)).modCallPort p fun c => { c with hookView := .on } with hv
  have port : v.port p = (s.port p).release (.hook .on) :=
    State.port_modPort_same p (fun u => u.release (.hook .on)) s
  have callPort : v.callPort p = { s.callPort p with hookView := .on } :=
    State.callPort_modCallPort_same p (fun c => { c with hookView := .on }) _
  have upNow : (v.port p).state = .up := by rw [port]; exact up
  exact ⟨by rw [hungUp, ← hv, State.port_setTone_same _ upNow, port],
    by rw [hungUp, ← hv, State.callPort_setTone_same _ upNow, callPort]⟩

end

theorem hungUp_rest : (hungUp p s).calls.records = s.calls.records ∧ (hungUp p s).calls.confs = s.calls.confs ∧
    (hungUp p s).highway = s.highway ∧ (hungUp p s).scr = s.scr ∧ (hungUp p s).station = s.station :=
  ⟨State.setTone_records .., State.setTone_confs .., State.setTone_highway .., State.setTone_scr ..,
    State.setTone_station ..⟩

theorem hungUp_call (r : RecordId) : (hungUp p s).call? r = s.call? r := State.call_setTone ..

theorem hungUp_front : (hungUp p s).front p = s.front p := by
  simp only [State.front, hungUp_call]

theorem hangUp_setsKept : SetsKept s (hangUp p s) := by
  unfold hangUp
  split
  · exact .of_clearFrame (.clearRecord _ _ _)
  · exact .refl s

theorem recallTop_setsKept : SetsKept s (recallTop p s) := by
  unfold recallTop
  split
  · exact .refl s
  · refine ((SetsKept.modCallPort _ _ _ ?_).trans (.of_clearFrame (.setRing _ _ _))).trans (.modCall _ _ _)
    exact fun _ => rfl

theorem tone_recallTop : ((recallTop p s).port p).tone = (s.port p).tone := by
  unfold recallTop
  split
  · rfl
  · rw [State.port_of_ports (State.modCall_ports ..), State.tone_setRing]
    rfl

theorem hangUp_of_front {r : RecordId} (front : s.front p = some r) : hangUp p s = s.clearRecord r .normal := by
  simp only [hangUp, front]

theorem hangUp_of_idle (idle : s.front p = none) : hangUp p s = s := by simp only [hangUp, idle]

theorem recallTop_of_empty (stack : (s.callPort p).stack = []) : recallTop p s = s := by
  simp only [recallTop, stack]

/-- A record that is FREE stays so, whatever call the port is rung for. -/
theorem call_recallTop_of_free {r : RecordId} (free : s.call? r = none) : (recallTop p s).call? r = none := by
  unfold recallTop
  split
  · exact free
  · rename_i top _ _
    set v := (s.modCallPort p fun c => { c with recalled := true }).setRing p true with hv
    have free' : v.call? r = none := (State.call_of_calls (State.setRing_calls ..).1 r).trans free
    by_cases same : r = top
    · subst same
      rw [State.call_modCall_same, free']
      rfl
    · rw [State.call_modCall_ne _ _ same, free']

/-- The held call rings its port, and its recall is timed. -/
theorem recallTop_rings {top : RecordId} {rest : List RecordId} {k : Call} (up : (s.port p).state = .up)
    (stack : (s.callPort p).stack = top :: rest) (hk : s.call? top = some k) :
    ((recallTop p s).callPort p).recalled = true ∧ ((recallTop p s).port p).ring = true ∧
    ((recallTop p s).callPort p).stack = top :: rest ∧
    (recallTop p s).call? top = some { k with timer := some 3875 } := by
  set v := s.modCallPort p fun c => { c with recalled := true } with hv
  have hk' : (v.setRing p true).call? top = some k := (State.call_of_calls (State.setRing_calls ..).1 top).trans hk
  have run : recallTop p s = (v.setRing p true).setCall top { k with timer := some 3875 } := by
    simp only [recallTop, stack, ← hv, State.modCall_of_call hk']
  have callPort : (recallTop p s).callPort p = { s.callPort p with recalled := true } := by
    have same : (recallTop p s).callPort p = v.callPort p := by
      rw [run]
      exact State.callPort_of_calls (congrArg (·.ports) (State.setRing_calls p true v).1) p
    rw [same]
    exact State.callPort_modCallPort_same p (fun c => { c with recalled := true }) s
  have upNow : (v.port p).state = .up := up
  refine ⟨by rw [callPort], ?_, by rw [callPort]; exact stack, by rw [run, State.call_setCall_same]⟩
  have rung : (v.setRing p true).port p = { v.port p with ring := true } := by
    rw [State.setRing, if_pos upNow]
    exact State.port_modPort_same p (fun u => { u with ring := true }) v
  rw [run]
  exact congrArg (·.ring) rung

/-- An on-hook is reported and leaves its latch, and the set is silent. -/
theorem onHook_taken (up : (s.port p).state = .up) :
    ((recallTop p (hangUp p (hungUp p s))).callPort p).hookView = .on ∧
    ((recallTop p (hangUp p (hungUp p s))).port p).reportedHook = .on ∧
    ((recallTop p (hangUp p (hungUp p s))).port p).tone = .none ∧
    ((recallTop p (hangUp p (hungUp p s))).port p).digits = [] := by
  obtain ⟨port, callPort⟩ := hungUp_port up
  have kept : SetsKept (hungUp p s) (recallTop p (hangUp p (hungUp p s))) := hangUp_setsKept.trans recallTop_setsKept
  have fields := kept.ports p
  have view : ((hungUp p s).callPort p).hookView = .on := by rw [callPort]
  have silent : ((hangUp p (hungUp p s)).port p).tone = .none := by
    have start : ((hungUp p s).port p).tone = .none := by rw [port]
    cases front : (hungUp p s).front p with
    | none => rw [hangUp_of_idle front, start]
    | some r =>
      obtain ⟨k, hk, own, inUse⟩ := State.front_spec front
      have notClearing : k.isClearing = false := by
        cases st : k.state <;> simp [Call.isFront, Call.isClearing, st] at inUse ⊢
      rw [hangUp_of_front front, State.tone_clearRecord_of_onHook hk .normal notClearing (by rw [own, view]), start]
  refine ⟨(kept.hookView p).trans view, ?_, tone_recallTop.trans silent, ?_⟩
  · rw [fields, port]
    rfl
  · rw [fields, port]
    rfl

end

/-- Settles O27: what an off-hook and an on-hook do, by the login, the front record and the held calls of their port. -/
theorem hookEventsStartAndEndCalls : Obligations.HookEventsStartAndEndCalls := by
  intro s p up
  refine ⟨fun due => ⟨?_, fun out => ?_, fun e x y admitted idle stack => ⟨fun a lowest => ?_, fun full => ?_⟩,
      fun r k admitted front => ?_, fun top rest k admitted idle stack hk => ?_⟩,
    fun due => ⟨?_, fun idle stack => ?_, fun r k front plain => ?_,
      fun r k e cf l t0 y front controller entry owner alone stack lane hl on slot active => ?_,
      fun top rest k idle stack hk => ?_⟩⟩
  · exact completes_offHook due offHook_taken
  · have upNow : ((lifted p s).port p).state = .up := by rw [lifted_port]; exact up
    refine completes_offHook due ?_
    rw [offHook_unadmitted out]
    exact ⟨by rw [State.port_setTone_same _ upNow], State.setTone_records ..⟩
  · have upNow : ((lifted p s).port p).state = .up := by rw [lifted_port]; exact up
    refine completes_offHook due ?_
    rw [offHook_idle admitted idle stack]
    exact State.startDialing_of_lowest (s := lifted p s) e upNow lowest
  · have upNow : ((lifted p s).port p).state = .up := by rw [lifted_port]; exact up
    refine completes_offHook due ?_
    rw [offHook_idle admitted idle stack]
    exact State.startDialing_of_full (s := lifted p s) e upNow full
  · obtain ⟨login, admitted⟩ := Option.ne_none_iff_exists'.1 admitted
    obtain ⟨frontP, hk⟩ := front
    obtain ⟨k', hk', own, -⟩ := State.front_spec frontP
    obtain rfl : k = k' := Option.some.inj (hk.symm.trans hk')
    subst own
    have upNow : ((lifted k.port s).port k.port).state = .up := by rw [lifted_port]; exact up
    refine ⟨fun silent => ?_, fun alerting lane l hl hz => ?_, fun far alerting lane full plain hf room => ?_⟩
    · refine completes_offHook due ?_
      rw [offHook_front admitted frontP hk, if_neg (by simp [Call.ringing, silent])]
      exact ⟨rfl, rfl, rfl⟩
    · refine completes_offHook due ?_
      rw [offHook_front admitted frontP hk, if_pos (by simp [Call.ringing, alerting, lane])]
      exact State.calleeAnswers_opens (s := lifted k.port s) hk upNow hl hz
    · refine completes_offHook due ?_
      rw [offHook_front admitted frontP hk, if_pos (by simp [Call.ringing, alerting, lane])]
      exact State.calleeAnswers_clears (s := lifted k.port s) hk upNow alerting lane plain hf (by rw [lifted_callPort]) full
        room
  · obtain ⟨login, admitted⟩ := Option.ne_none_iff_exists'.1 admitted
    have upNow : ((lifted p s).port p).state = .up := by rw [lifted_port]; exact up
    have answered := State.answerRecall_connects (s := lifted p s) (by rw [lifted_callPort]; exact stack) hk upNow
    rw [lifted_callPort, lifted_port] at answered
    refine completes_offHook due ?_
    rw [offHook_recall admitted idle stack]
    exact answered
  · exact completes_onHook due (onHook_taken up)
  · obtain ⟨records, -, highway, scr, -⟩ := hungUp_rest (s := s) (p := p)
    obtain ⟨-, callPort⟩ := hungUp_port up
    refine completes_onHook due ?_
    rw [hangUp_of_idle (hungUp_front.trans idle), recallTop_of_empty (by rw [callPort]; exact stack)]
    exact ⟨records, highway, scr⟩
  · obtain ⟨frontP, hk⟩ := front
    obtain ⟨k', hk', own, inUse⟩ := State.front_spec frontP
    obtain rfl : k = k' := Option.some.inj (hk.symm.trans hk')
    have callV := (hungUp_call (p := p) r).trans hk
    have frontV := hungUp_front.trans frontP
    have notClearing : k.state ≠ .clearing := fun st => by simp [Call.isFront, st] at inUse
    have cleared := State.clearRecord_cleared r .normal (hungUp p s) callV notClearing
    refine ⟨fun early => ?_, fun far notDialing notRouting hf room stack => ?_⟩
    · refine completes_onHook due (call_recallTop_of_free ?_)
      rw [hangUp_of_front frontV]
      exact cleared.quiet plain early
    · obtain ⟨records, -, highway, -, station⟩ := hungUp_rest (s := s) (p := p)
      have notHeld : k.state ≠ .held := fun st => by simp [Call.isFront, st] at inUse
      have told : k.farMayExist = true := by
        cases st : k.state <;> simp [Call.farMayExist, st] at notDialing notRouting notClearing ⊢
      have empty : (((hungUp p s).clearRecord r .normal).callPort p).stack = [] := by
        rw [cleared.heldLists p, if_neg fun h => notHeld h.1, (hungUp_port up).2]
        exact stack
      have room' : QueueRoom 2 (hungUp p s) := by rw [QueueRoom, station, highway]; exact room
      refine completes_onHook due ?_
      rw [hangUp_of_front frontV, recallTop_of_empty empty]
      exact (State.clearRecord_clearsTo .normal callV plain told hf room').of_start station
        (by rw [State.record, records, ← State.record])
  · obtain ⟨frontP, hk⟩ := front
    obtain ⟨k', hk', own, inUse⟩ := State.front_spec frontP
    obtain rfl : k = k' := Option.some.inj (hk.symm.trans hk')
    obtain ⟨records, confs, highway, scr, station⟩ := hungUp_rest (s := s) (p := p)
    have callV := (hungUp_call (p := p) r).trans hk
    have notClearing : k.state ≠ .clearing := fun st => by simp [Call.isFront, st] at inUse
    have notHeld : k.state ≠ .held := fun st => by simp [Call.isFront, st] at inUse
    have cleared := State.clearRecord_cleared r .normal (hungUp p s) callV notClearing
    have empty : (((hungUp p s).clearRecord r .normal).callPort p).stack = [] := by
      rw [cleared.heldLists p, if_neg fun h => notHeld h.1, (hungUp_port up).2]
      exact stack
    have laneV : (hungUp p s).talk? l = some t0 := by rw [State.talk?, State.talkPlace, scr]; exact hl
    have ended := State.clearRecord_conferenceEnded callV .normal (by simp [Call.isClearing, notClearing]) controller
      (by rw [confs]; exact entry) owner (by rw [confs]; exact alone) lane laneV on slot (by rw [station]; exact active)
    have members : (hungUp p s).confEnded r = s.confEnded r :=
      State.confEnded_of_kept station (by rw [State.record, records, ← State.record])
    have freed : broadcast (hungUp p s) (.slot (.free y)) = broadcast s (.slot (.free y)) := by
      rw [broadcast, broadcast, State.self_of_station station]
    obtain ⟨entry', lane', queue, freed', waits⟩ := ended
    rw [members, highway, freed] at queue
    rw [highway] at freed' waits
    refine completes_onHook due ?_
    rw [hangUp_of_front (hungUp_front.trans frontP), recallTop_of_empty empty]
    exact ⟨entry', lane', queue, freed', waits⟩
  · obtain ⟨port, callPort⟩ := hungUp_port up
    refine completes_onHook due ?_
    rw [hangUp_of_idle (hungUp_front.trans idle)]
    exact recallTop_rings (by rw [port]; exact up) (by rw [callPort]; exact stack) ((hungUp_call top).trans hk)

end Sys2Proof.Machine
end

