-- ==== Sys2Proof/Proofs/ClaimAttempts.lean ====
section
/-! PROOF. The attempts of a claim after its first (R91, R92, R94, R100). -/

namespace Sys2Proof.Machine

open Sys2Proof

/-! ### The order in which a station tries the slots (R91) -/

/-- The slots in the order in which a station tries them. -/
def candidate (s : State) (i : Nat) : Slot := Fin.ofNat 256 (16 * s.self.val + i)

theorem exists_candidate (s : State) (x : Slot) : ∃ i, i < 256 ∧ candidate s i = x := by
  obtain ⟨i, hi, hx⟩ := List.mem_map.1 (State.mem_slotsFrom s.self x)
  exact ⟨i, List.mem_range.1 hi, hx⟩

/-- The first index at which a property holds. -/
theorem find?_map_range_of_first {α : Type} {f : Nat → α} {p : α → Bool} {i n : Nat} (hi : i < n) (here : p (f i) = true)
    (first : ∀ j, j < i → p (f j) = false) : ((List.range n).map f).find? p = some (f i) := by
  have found : (List.range n).find? (p ∘ f) = some i := by
    rw [List.find?_range_eq_some]
    exact ⟨here, List.mem_range.2 hi, fun j hj => by simp [first j hj]⟩
  rw [List.find?_map, found]
  rfl

namespace State

section
variable {s : State}

/-- The test by which an attempt selects its slot. -/
theorem selectable_iff {x : Slot} :
    ((s.holder x).isNone && !s.slots.claims.any fun e => e.names x) = true ↔ Claimable s x := by
  simp [Claimable, holder, Claim.names]

theorem selectSlot_of_first {i : Nat} (hi : i < 256) (here : Claimable s (candidate s i))
    (first : ∀ j, j < i → ¬ Claimable s (candidate s j)) : s.selectSlot = some (candidate s i) := by
  refine find?_map_range_of_first (f := candidate s) hi (selectable_iff.2 here) fun j hj => ?_
  rw [← Bool.not_eq_true]
  exact fun h => first j hj (selectable_iff.1 h)

theorem selectSlot_of_none (none_ : ∀ x, ¬ Claimable s x) : s.selectSlot = none :=
  List.find?_eq_none.2 fun x _ h => none_ x (selectable_iff.1 h)

/-! ### The attempt after a failed one (R94, R100) -/

/-- An entry at its next attempt. -/
def attempted (e : Claim) (x : Slot) (refused : Bool) : Claim :=
  { e with slot := x, attempt := e.attempt + 1, carried := none, refused := refused, fresh := refused }

/-- The claims list in which a lane's entry is at its next attempt. -/
def reattempted (l : TalkId) (e : Claim) (cs : List Claim) : List Claim :=
  cs.map fun c => if c.serves l then e else c

theorem reattempted_eq (l : TalkId) (e : Claim) (cs : List Claim) :
    reattempted l e cs = cs.map fun c => if c.lane = some l then e else c := by
  simp [reattempted, Claim.serves]

section
variable {l : TalkId} {e : Claim} {x : Slot} (entry : s.claimOf l = some e)
include entry

/-- The cell of the next attempt is offered; the entry notes whether the queue has refused it. -/
theorem retryClaim_of_slot (few : e.attempt < 3) (found : s.selectSlot = some x) (b : Bool)
    (offered : (s.offerClaim { e with slot := x, attempt := e.attempt + 1, carried := none }).2 = !b) :
    s.retryClaim l = (s.offerClaim { e with slot := x, attempt := e.attempt + 1, carried := none }).1.setClaims
      (reattempted l (attempted e x b) s.slots.claims) := by
  have slots := (offer_frame (s.cellToAll (.slot (Claim.cell
    { e with slot := x, attempt := e.attempt + 1, carried := none }))) (.slotCell (Claim.cell
    { e with slot := x, attempt := e.attempt + 1, carried := none })) s).2.2.1
  simp only [retryClaim, nextAttempt, entry, Nat.not_le.2 few, if_false, found, if_true, offered, Bool.not_not]
  simp only [offerClaim, slots]
  rfl

/-- After the third attempt, or without a slot, the entry is removed and the lane reports NO-SLOT. -/
theorem retryClaim_of_spent (spent : 3 ≤ e.attempt ∨ s.selectSlot = none) :
    s.retryClaim l = (s.removeClaimOf l).reportNoSlot l := by
  by_cases many : 3 ≤ e.attempt
  · simp only [retryClaim, nextAttempt, entry, many, if_true, Bool.false_eq_true, if_false]
  · have none_ := spent.resolve_left many
    simp only [retryClaim, nextAttempt, entry, many, if_false, none_, Bool.false_eq_true]

end

/-- The SLOT cell of an entry, as it is queued. -/
def slotQueued (s : State) (e : Claim) : Queued := ⟨broadcast s (.slot e.cell), .slotCell e.cell⟩

theorem offerClaim_of_place (e : Claim) (active : s.station.state = .active) (room : s.highway.queue.length < 24) :
    s.offerClaim e = (s.enqueue (s.slotQueued e), true) :=
  offer_of_reserve (c := broadcast s (.slot e.cell)) _ active rfl room

theorem offerClaim_of_noPlace (e : Claim) (full : s.station.state ≠ .active ∨ 24 ≤ s.highway.queue.length) :
    (s.offerClaim e).2 = false ∧ (s.offerClaim e).1.highway.queue = s.highway.queue :=
  offer_of_noPlace (c := broadcast s (.slot e.cell)) _ full

end

/-! ### A lane without a slot (R94, R100) -/

theorem reportNoSlot_of_lane {s : State} {l : TalkId} {t : TalkLane} (hl : s.talk? l = some t) :
    s.reportNoSlot l = s.clearRecord t.owner .noSlot := by
  simp only [reportNoSlot, talkOwner, hl, Option.map_some]
  rfl

/-- No entry serves a lane that is closed or has been released. -/
theorem removeClaimOf_serves (l : TalkId) (s : State) : ∀ c ∈ (s.removeClaimOf l).slots.claims, c.lane ≠ some l := by
  intro c hc
  simpa [Claim.serves] using (List.mem_filter.1 hc).2

theorem orphanClaim_serves {s : State} {l j : TalkId} (h : ∀ c ∈ s.slots.claims, c.lane ≠ some j) :
    ∀ c ∈ (s.orphanClaim l).slots.claims, c.lane ≠ some j := by
  intro c hc
  obtain ⟨e, he, after⟩ := List.mem_filterMap.1 hc
  split at after
  · split at after
    · cases after
    · cases after
      exact fun h => nomatch h
  · cases after
    exact h c he

theorem closeTalk_serves {s : State} {l j : TalkId} (h : ∀ c ∈ s.slots.claims, c.lane ≠ some j) :
    ∀ c ∈ (s.closeTalk l).slots.claims, c.lane ≠ some j := by
  unfold closeTalk
  split
  · exact h
  · dsimp only
    split
    · intro c hc
      rw [releaseSlot, addClaim_claims, List.mem_append, List.mem_singleton] at hc
      rcases hc with old | rfl
      · exact h c old
      · exact fun h => nomatch h
    · exact h
    all_goals exact orphanClaim_serves (s := s.setTalkPlace l _) h

section
variable {s : State} {r : RecordId} {k : Call} (hk : s.call? r = some k) (plain : k.confRole ≠ .controller)
  (routing : k.state = .routing) (c : Cause)
include hk plain routing

/-- A ROUTING record is FREE at once, and its talk lane closes. -/
theorem clearRecord_of_routing : s.clearRecord r c = (s.endRecord r c c.tone).freeRecord r := by
  simp [clearRecord, clearRecordTone, hk, plain, Call.isClearing, Call.farMayExist, routing]

theorem clearRecord_routing_offHighway : OffHighway (s.closeLaneOf k) (s.clearRecord r c) := by
  rw [clearRecord_of_routing hk plain routing]
  exact (endRecord_offHighway c c.tone hk).trans (.freeRecord _ _)

theorem call_clearRecord_routing : (s.clearRecord r c).call? r = none := by
  rw [clearRecord_of_routing hk plain routing, call_freeRecord_same]

theorem talk_clearRecord_routing {l : TalkId} (lane : k.talkLane = some l) : (s.clearRecord r c).talk? l = none := by
  rw [(clearRecord_routing_offHighway hk plain routing c).talk_eq, closeLaneOf_some lane, talk_closeTalk_same]

end

end State

/-! ### CLAIM_RETRY (R92, R94) -/

section
variable {s : State} {l : TalkId} {e : Claim} {P : State → Prop} (entry : s.claimOf l = some e)
include entry

theorem completes_claimRetry (refused : e.refused = true) (old : e.fresh = false) (h : P (s.retryClaim l)) :
    Completes (.claimRetry l) s P :=
  ⟨_, rfl, by simpa [State.claimRetry, entry, refused, old] using h⟩

theorem completes_claimRetry_of_fresh (fresh : e.fresh = true) (h : P s) : Completes (.claimRetry l) s P :=
  ⟨_, rfl, by simpa [State.claimRetry, entry, fresh] using h⟩

end

section
variable {s : State} {l : TalkId} {t0 : TalkLane} {e : Claim} (entry : s.claimOf l = some e)
include entry

theorem retryClaim_accepted {x : Slot} (few : e.attempt < 3) (found : s.selectSlot = some x)
    (active : s.station.state = .active) (room : s.highway.queue.length < 24) :
    s.retryClaim l = (s.enqueue (s.slotQueued (State.attempted e x false))).setClaims
      (State.reattempted l (State.attempted e x false) s.slots.claims) := by
  have offered := State.offerClaim_of_place (s := s) { e with slot := x, attempt := e.attempt + 1, carried := none } active
    room
  rw [State.retryClaim_of_slot entry few found false (by rw [offered]; rfl), offered]
  rfl

theorem retryClaim_refused {x : Slot} (few : e.attempt < 3) (found : s.selectSlot = some x)
    (full : s.station.state ≠ .active ∨ 24 ≤ s.highway.queue.length) :
    (s.retryClaim l).slots.claims = State.reattempted l (State.attempted e x true) s.slots.claims ∧
    (s.retryClaim l).highway.queue = s.highway.queue ∧ (s.retryClaim l).calls = s.calls ∧
    (s.retryClaim l).slots.map = s.slots.map ∧ (s.retryClaim l).scr = s.scr ∧ (s.retryClaim l).station = s.station := by
  obtain ⟨refused, queue⟩ := State.offerClaim_of_noPlace (s := s)
    { e with slot := x, attempt := e.attempt + 1, carried := none } full
  have frame := State.offer_frame (s.cellToAll (.slot (Claim.cell
    { e with slot := x, attempt := e.attempt + 1, carried := none }))) (.slotCell (Claim.cell
    { e with slot := x, attempt := e.attempt + 1, carried := none })) s
  obtain ⟨station, -, slots, -, -, calls, scr, -⟩ := frame
  rw [State.retryClaim_of_slot entry few found true (by rw [refused]; rfl)]
  exact ⟨rfl, queue, calls, congrArg (·.map) slots, scr, station⟩

end

end Sys2Proof.Machine
end

