-- ==== Sys2Proof/Proofs/SlotJudgments.lean ====
section
/-! PROOF. The judgment of SLOT cells, and the outcome of a claim (R89, R93, R94, R96, R100). -/

namespace Sys2Proof.Machine

open Sys2Proof

/-! ### Who wins a slot, and who gives one up (R93) -/

/-- A station's SLOT cells of the frame claim a slot. -/
def Claimed (cells : List (Station × SlotCell)) (st : Station) (x : Slot) : Prop :=
  (st, SlotCell.claim x) ∈ cells ∨ ∃ o, (st, SlotCell.move o x) ∈ cells

/-- A station is the lowest claimant of a slot that was FREE as the frame began. -/
def Wins (start : Vector (Option Station) 256) (cells : List (Station × SlotCell)) (st : Station) (x : Slot) : Prop :=
  start.get x = none ∧ Claimed cells st x ∧ ∀ st', Claimed cells st' x → st ≤ st'

/-- The holder of a slot as the frame began gives it up. -/
def GivenUp (start : Vector (Option Station) 256) (cells : List (Station × SlotCell)) (x : Slot) : Prop :=
  ∃ st, start.get x = some st ∧
    ((st, SlotCell.free x) ∈ cells ∨ ∃ y, (st, SlotCell.move x y) ∈ cells ∧ Wins start cells st y)

section
variable {start now : Vector (Option Station) 256} {cells : List (Station × SlotCell)} {st : Station} {x : Slot}

theorem SlotCell.claims_eq_some_iff {c : SlotCell} : c.claims = some x ↔ c = .claim x ∨ ∃ o, c = .move o x := by
  cases c <;> simp [SlotCell.claims]

theorem any_claims_iff :
    (cells.any fun c => c.1 == st && c.2.claims == some x) = true ↔ Claimed cells st x := by
  simp only [List.any_eq_true, Bool.and_eq_true, beq_iff_eq, SlotCell.claims_eq_some_iff, Claimed]
  constructor
  · rintro ⟨⟨st', c⟩, mem, rfl, rfl | ⟨o, rfl⟩⟩
    · exact .inl mem
    · exact .inr ⟨o, mem⟩
  · rintro (mem | ⟨o, mem⟩)
    · exact ⟨_, mem, rfl, .inl rfl⟩
    · exact ⟨_, mem, rfl, .inr ⟨o, rfl⟩⟩

theorem lowestClaimant_eq_some_iff : lowestClaimant cells x = some st ↔
    Claimed cells st x ∧ ∀ st', Claimed cells st' x → st ≤ st' := by
  rw [lowestClaimant, ← Fin.find?_eq_find?_finRange, Fin.find?_eq_some_iff]
  refine and_congr any_claims_iff ⟨fun h st' claimed => ?_, fun h st' below => ?_⟩
  · by_contra below
    exact Bool.eq_false_iff.1 (h st' (lt_of_not_ge below)) (any_claims_iff.2 claimed)
  · exact Bool.eq_false_iff.2 fun claimed => absurd (h st' (any_claims_iff.1 claimed)) (not_le.2 below)

theorem slotWinner_eq_some_iff : slotWinner start cells x = some st ↔ Wins start cells st x := by
  unfold slotWinner Wins
  cases start.get x with
  | none => simp [lowestClaimant_eq_some_iff]
  | some h => simp

theorem slotWinner_eq_none_iff : slotWinner start cells x = none ↔ ∀ st, ¬ Wins start cells st x := by
  rw [Option.eq_none_iff_forall_ne_some]
  exact forall_congr' fun st => not_congr slotWinner_eq_some_iff

theorem givenUp_iff : givenUp start cells x = true ↔ GivenUp start cells x := by
  simp only [givenUp, List.any_eq_true, Bool.and_eq_true, beq_iff_eq, GivenUp]
  constructor
  · rintro ⟨⟨st, c⟩, mem, held, after⟩
    refine ⟨st, held, ?_⟩
    cases c with
    | claim y => cases after
    | free y =>
      obtain rfl : y = x := by simpa using after
      exact .inl mem
    | move old new =>
      obtain ⟨rfl, wins⟩ : old = x ∧ slotWinner start cells new = some st := by simpa using after
      exact .inr ⟨new, mem, slotWinner_eq_some_iff.1 wins⟩
  · rintro ⟨st, held, mem | ⟨y, mem, wins⟩⟩
    · exact ⟨_, mem, held, by simp⟩
    · exact ⟨_, mem, held, by simp [slotWinner_eq_some_iff.2 wins]⟩

theorem judgedHolder_of_wins (wins : Wins start cells st x) : judgedHolder start now cells x = some st := by
  simp only [judgedHolder, slotWinner_eq_some_iff.2 wins]

theorem judgedHolder_of_given (given : GivenUp start cells x) : judgedHolder start now cells x = none := by
  have none_ : slotWinner start cells x = none := by
    obtain ⟨st, held, -⟩ := given
    simp only [slotWinner, held]
  simp only [judgedHolder, none_, givenUp_iff.2 given, if_true]

theorem judgedHolder_of_kept (none_ : ∀ st, ¬ Wins start cells st x) (kept : ¬ GivenUp start cells x) :
    judgedHolder start now cells x = now.get x := by
  have unwon := slotWinner_eq_none_iff.2 none_
  have still : givenUp start cells x = false := Bool.eq_false_iff.2 fun h => kept (givenUp_iff.1 h)
  simp only [judgedHolder, unwon, still, Bool.false_eq_true, if_false]

theorem judgedHolder_eq_none_iff : judgedHolder start now cells x = none ↔
    (∀ st, ¬ Wins start cells st x) ∧ (GivenUp start cells x ∨ now.get x = none) := by
  by_cases won : ∃ st, Wins start cells st x
  · obtain ⟨st, wins⟩ := won
    rw [judgedHolder_of_wins wins]
    exact iff_of_false (by simp) fun h => h.1 st wins
  · have none_ := not_exists.1 won
    by_cases given : GivenUp start cells x
    · rw [judgedHolder_of_given given]
      exact iff_of_true rfl ⟨none_, .inl given⟩
    · rw [judgedHolder_of_kept none_ given]
      exact ⟨fun h => ⟨none_, .inr h⟩, fun h => h.2.resolve_left given⟩

end

/-! ### The judgment of one entry (R93, R94) -/

/-- The map is judged, and the SLOT cells of the frame are gone. -/
def judgedState (s : State) : State :=
  { s with
    slots := { s.slots with
      map := Vector.ofFn fun x => judgedHolder s.slots.atFrameStart s.slots.map s.highway.slotCells x }
    highway := { s.highway with slotCells := [], judged := true } }

@[simp] theorem judgedState_claims (s : State) : (judgedState s).slots.claims = s.slots.claims := by
  simp only [judgedState]

@[simp] theorem judgedState_station (s : State) : (judgedState s).station = s.station := rfl
@[simp] theorem judgedState_calls (s : State) : (judgedState s).calls = s.calls := rfl
@[simp] theorem judgedState_scr (s : State) : (judgedState s).scr = s.scr := rfl
@[simp] theorem judgedState_queue (s : State) : (judgedState s).highway.queue = s.highway.queue := rfl

theorem judgedState_map (s : State) (x : Slot) : (judgedState s).slots.map.get x =
    judgedHolder s.slots.atFrameStart s.slots.map s.highway.slotCells x := by
  simp [judgedState, Vector.get_eq_getElem]

/-- This station wins a slot in the frame that is judged. -/
def WinsHere (s : State) (x : Slot) : Prop := Wins s.slots.atFrameStart s.highway.slotCells s.self x

section
variable {s : State} {e : Claim} {f : Fin 64} (hears : s.hearing = true) (frame : s.clock.frame ≠ 0)
  (unjudged : s.highway.judged = false) (claims : s.slots.claims = [e]) (carried : e.carried = some f)
include hears frame unjudged claims carried

/-- The one entry, which the frame has carried, learns its outcome. -/
theorem slotJudgment_eq : s.slotJudgment = ((judgedState s).claimOutcome e
    (slotWinner s.slots.atFrameStart s.highway.slotCells e.slot == some s.self)).freeIdleSlots := by
  have run : s.hearing = true ∧ s.clock.frame ≠ 0 ∧ s.highway.judged = false := ⟨hears, frame, unjudged⟩
  have one : s.slots.claims.filter (fun e => e.carried.isSome) = [e] := by simp [claims, carried]
  simp only [State.slotJudgment, if_pos run, one, List.foldl_cons, List.foldl_nil]
  rfl

theorem slotJudgment_of_won (won : WinsHere s e.slot) :
    s.slotJudgment = ((judgedState s).claimOutcome e true).freeIdleSlots := by
  rw [slotJudgment_eq hears frame unjudged claims carried, slotWinner_eq_some_iff.2 won, beq_self_eq_true]

theorem slotJudgment_of_lost (lost : ¬ WinsHere s e.slot) :
    s.slotJudgment = ((judgedState s).claimOutcome e false).freeIdleSlots := by
  have no : (slotWinner s.slots.atFrameStart s.highway.slotCells e.slot == some s.self) = false :=
    beq_eq_false_iff_ne.2 fun h => lost (slotWinner_eq_some_iff.1 h)
  rw [slotJudgment_eq hears frame unjudged claims carried, no]

end

/-! ### The slots on which no lane stands (R89) -/

/-- What R93 makes of the slots that this station neither holds nor wins. -/
def JudgedMap (s t : State) : Prop := ∀ x : Slot,
  (∀ st, Wins s.slots.atFrameStart s.highway.slotCells st x → st ≠ s.self → t.slots.map.get x = some st) ∧
  (GivenUp s.slots.atFrameStart s.highway.slotCells x → t.slots.map.get x = none) ∧
  ((∀ st, ¬ Wins s.slots.atFrameStart s.highway.slotCells st x) →
    ¬ GivenUp s.slots.atFrameStart s.highway.slotCells x → s.slots.map.get x ≠ some s.self →
    t.slots.map.get x = s.slots.map.get x)

@[simp] theorem freeIdleSlots_highway (u : State) : u.freeIdleSlots.highway = u.highway := by
  unfold State.freeIdleSlots; rfl

@[simp] theorem freeIdleSlots_calls (u : State) : u.freeIdleSlots.calls = u.calls := by
  unfold State.freeIdleSlots; rfl

@[simp] theorem call_freeIdleSlots (r : RecordId) (u : State) : u.freeIdleSlots.call? r = u.call? r :=
  State.call_of_calls (freeIdleSlots_calls u) r

@[simp] theorem talk_freeIdleSlots (l : TalkId) (u : State) : u.freeIdleSlots.talk? l = u.talk? l := by
  simp only [State.talk?, State.talkPlace, State.freeIdleSlots_scr]

@[simp] theorem listen_freeIdleSlots (m : ListenId) (u : State) : u.freeIdleSlots.listen? m = u.listen? m := by
  simp only [State.listen?, State.listenPlace, State.freeIdleSlots_scr]

theorem map_freeIdleSlots_of_other {u : State} {x : Slot} (other : u.slots.map.get x ≠ some u.self) :
    u.freeIdleSlots.slots.map.get x = u.slots.map.get x := by
  rw [State.freeIdleSlots_get, if_neg fun h => other h.1]

theorem map_freeIdleSlots_of_active {u : State} {l : TalkId} {x : Slot} (active : u.activeSlot l = some x) :
    u.freeIdleSlots.slots.map.get x = u.slots.map.get x := by
  rw [State.freeIdleSlots_get, if_neg fun h => h.2 l active]

theorem judgedMap_freeIdleSlots {s u : State} (map : u.slots.map = (judgedState s).slots.map)
    (station : u.station = s.station) : JudgedMap s u.freeIdleSlots := by
  have self : u.self = s.self := State.self_of_station station
  refine fun x => ⟨fun st wins other => ?_, fun given => ?_, fun none_ kept other => ?_⟩
  · have held : u.slots.map.get x = some st := by rw [map, judgedState_map, judgedHolder_of_wins wins]
    rw [map_freeIdleSlots_of_other (by rw [held, self]; exact fun h => other (Option.some.inj h)), held]
  · have free : u.slots.map.get x = none := by rw [map, judgedState_map, judgedHolder_of_given given]
    rw [map_freeIdleSlots_of_other (by rw [free]; simp), free]
  · have same : u.slots.map.get x = s.slots.map.get x := by
      rw [map, judgedState_map, judgedHolder_of_kept none_ kept]
    rw [map_freeIdleSlots_of_other (by rw [same, self]; exact other), same]

/-! ### What a clearing leaves in the slot map and among the talk lanes (R62) -/

namespace State

section
variable {s : State} {r : RecordId} {k : Call} (hk : s.call? r = some k) (plain : k.confRole ≠ .controller)
  (inUse : k.isClearing = false) (c : Cause)
include hk plain inUse

/-- In the slot map and among the talk lanes the clearing of a plain record is the closing of its talk lane. -/
theorem clearRecord_slots : (s.clearRecord r c).slots = (s.closeLaneOf k).slots ∧
    (s.clearRecord r c).scr.talk = (s.closeLaneOf k).scr.talk ∧ (s.clearRecord r c).station = s.station := by
  have off := endRecord_offHighway c c.tone hk
  have station := closeLaneOf_station k s
  simp only [clearRecord, clearRecordTone, hk, inUse, Bool.false_eq_true, if_false, plain]
  set u := s.endRecord r c c.tone
  have freed : (u.freeRecord r).slots = (s.closeLaneOf k).slots ∧
      (u.freeRecord r).scr.talk = (s.closeLaneOf k).scr.talk ∧ (u.freeRecord r).station = s.station :=
    ⟨off.slots, off.talk, off.station.trans station⟩
  split
  · rename_i far _ _
    obtain ⟨st, -, slots, -, -, -, scr, -⟩ := offer_frame (u.cellTo far (u.callTag r) k.farTag (.callClear c))
      (u.clearingName r) u
    have waits := OffHighway.awaitClears r (if (u.offer (u.cellTo far (u.callTag r) k.farTag (.callClear c))
      (u.clearingName r)).2 then 1 else 0) (u.offer (u.cellTo far (u.callTag r) k.farTag (.callClear c))
      (u.clearingName r)).1
    exact ⟨waits.slots.trans (slots.trans off.slots), waits.talk.trans ((congrArg (·.talk) scr).trans off.talk),
      waits.station.trans (st.trans (off.station.trans station))⟩
  · exact freed
  · exact freed

end

end State

end Sys2Proof.Machine
end

