-- ==== Sys2Proof/Proofs/ClaimsWon.lean ====
section
/-! PROOF. A claim is won for a record: its lane is ACTIVE, and the record offers or connects (R57, R94, R100). -/

namespace Sys2Proof.Machine

open Sys2Proof

/-- A lane that has won a slot. -/
def wonLane (t0 : TalkLane) (x : Slot) : TalkLane := { t0 with state := .active, slot := some x }

/-- The state in which the record of a lane is told that it has won a slot with the one entry of the claims list. -/
def laneWon (s : State) (l : TalkId) (t0 : TalkLane) (x : Slot) : State :=
  ((judgedState s).setClaims []).setTalk l (wonLane t0 x)

namespace State

/-! ### The lane wins (R94) -/

section
variable {s : State} {l : TalkId} {t0 : TalkLane} {e : Claim} (claims : s.slots.claims = [e]) (lane : e.lane = some l)
  (hl : s.talk? l = some t0)
include claims lane

theorem judgedState_claimOf : (judgedState s).claimOf l = some e := by
  have list : (judgedState s).slots.claims = [e] := (judgedState_claims s).trans claims
  rw [claimOf, list]
  exact List.find?_cons_of_pos (decide_eq_true lane)

theorem judgedState_removeClaimOf : (judgedState s).removeClaimOf l = (judgedState s).setClaims [] := by
  have list : (judgedState s).slots.claims = [e] := (judgedState_claims s).trans claims
  have none_ : ([e] : List Claim).filter (fun e => !e.serves l) = [] :=
    List.filter_cons_of_neg (by simp [Claim.serves, lane])
  rw [removeClaimOf, list, none_]

include hl

theorem judgedState_laneWon :
    ((judgedState s).removeClaimOf l).modTalk l (fun t => { t with state := .active, slot := some e.slot }) =
      laneWon s l t0 e.slot := by
  have judged : ((judgedState s).setClaims []).talk? l = some t0 := hl
  rw [judgedState_removeClaimOf claims lane, modTalk_of_lane judged]
  exact rfl

omit claims lane hl in
theorem talkOwner_laneWon (x : Slot) : (laneWon s l t0 x).talkOwner l = some t0.owner := by
  rw [talkOwner, laneWon, talk_setTalk_same, Option.map_some]
  exact rfl

theorem claimOutcome_of_wonClaim (kind : e.kind = .claim) :
    (judgedState s).claimOutcome e true = (laneWon s l t0 e.slot).laneHolds t0.owner := by
  simp only [claimOutcome, lane, laneWins, judgedState_laneWon claims lane hl, talkOwner_laneWon, kind]

theorem claimOutcome_of_wonMove (kind : e.kind = .move) :
    (judgedState s).claimOutcome e true = (laneWon s l t0 e.slot).issueOffer t0.owner := by
  simp only [claimOutcome, lane, laneWins, judgedState_laneWon claims lane hl, talkOwner_laneWon, kind]

end

section
variable {s : State} {r : RecordId} {k : Call} (hk : s.call? r = some k)
include hk

theorem laneHolds_of_routing (routing : k.state = .routing) : s.laneHolds r = s.issueOffer r := by
  simp only [laneHolds, hk, routing]

theorem laneHolds_of_alerting (alerting : k.state = .alerting) : s.laneHolds r = s.calleeConnects r k := by
  simp only [laneHolds, hk, alerting]

/-- A record that is not ROUTING offers nothing. -/
theorem issueOffer_of_notRouting (other : k.state ≠ .routing) : s.issueOffer r = s := by
  simp only [issueOffer, hk]
  split
  · rename_i routing _ _
    exact absurd routing other
  · rfl

end

/-! ### The callee connects (R57) -/

section
variable {s : State} {r : RecordId} {k : Call} {far : Station} {fx : Slot} {fn : Nonce} {l : TalkId} {t : TalkLane}
  {x : Slot} (hk : s.call? r = some k) (alerting : k.state = .alerting)
  (plain : k.confRole = .none) (hf : k.farStation = some far) (hfx : k.farSlot = some fx) (hfn : k.farNonce = some fn)
  (lane : k.talkLane = some l) (hl : s.talk? l = some t) (slot : t.slot = some x)
include hk hf hfx hfn lane hl slot

/-- The cell by which the callee connects. -/
def connectQueued (s : State) (r : RecordId) (far : Station) (tag : Tag) (x : Slot) (own : Nonce) : Queued :=
  ⟨cellFrom s far (s.callTag r) tag (.callConnect x own), .callConnect r (s.record r).incarnation⟩

omit hk in
theorem calleeConnects_eq : s.calleeConnects r k =
    let o := s.openListen r .setup far k.farTag fx (some (fn, t.ownNonce))
    if o.2 then
      let q := o.1.connectQueued r far k.farTag x t.ownNonce
      let c := o.1.offer q.cell q.name
      if c.2 then c.1.setCallState r .proving else c.1.clearRecord r .congestion
    else o.1.clearRecord r .congestion := by
  have own : k.talkLane.bind s.talk? = some t := by rw [lane, Option.bind_some, hl]
  simp only [calleeConnects, hf, hfx, hfn, own, slot, Option.getD_some]
  rfl

/-- What a callee whose lane has won its slot leaves (R57). -/
structure CalleeConnected (s u : State) (r : RecordId) (k : Call) (far : Station) (fx : Slot) (fn : Nonce) (l : TalkId)
    (t : TalkLane) (x : Slot) (m : ListenId) : Prop where
  slots : u.slots = s.slots
  station : u.station = s.station
  talk : u.talk? l = some { t with mode := .prove }
  call : u.call? r = some { k with state := .proving, listenLanes := k.listenLanes ++ [m] }
  queue : u.highway.queue = s.highway.queue ++ [s.connectQueued r far k.farTag x t.ownNonce]
  listen : ∃ q asked, u.listen? m =
    some { s.setupLane r far k.farTag fx fn t.ownNonce with request := q, firstAsked := asked }
  mixer : s.scr.mixer.length < 16 → u.scr.mixer = s.scr.mixer ++ [{
    requester := .listen m ((s.listenPlace m).opening + 1), key := s.secret, nonceA := fn, nonceB := t.ownNonce,
    count := 0 }]

theorem calleeConnects_connected {m : ListenId} (lowest : LowestFreeListen s m) (room : QueueRoom 1 s) :
    CalleeConnected s (s.calleeConnects r k) r k far fx fn l t x m := by
  obtain ⟨ok, opened⟩ := openListen_setup hk lowest far k.farTag fx fn t.ownNonce
  have run := calleeConnects_eq (r := r) hf hfx hfn lane hl slot
  set u := (s.openListen r .setup far k.farTag fx (some (fn, t.ownNonce))).1 with hu
  have cell : u.connectQueued r far k.farTag x t.ownNonce = s.connectQueued r far k.farTag x t.ownNonce := by
    have incarnation : (u.record r).incarnation = (s.record r).incarnation := by
      rw [record_of_calls opened.calls, setCall, record_setRecord_same]
    simp only [connectQueued, cellFrom, self_of_station opened.station, callTag, incarnation]
  have roomU : QueueRoom 1 u := by rw [QueueRoom, opened.station, opened.queue]; exact room
  have offered := (QueueRoom.offer (n := 0) roomU (s.connectQueued r far k.farTag x t.ownNonce).cell
    (s.connectQueued r far k.farTag x t.ownNonce).name).1
  set v := u.enqueue (s.connectQueued r far k.farTag x t.ownNonce) with hv
  have proving : s.calleeConnects r k = v.setCallState r .proving := by
    simp only [run, ok, if_true, ← hu, cell, offered]
  have call : v.call? r = some { k with listenLanes := k.listenLanes ++ [m] } := by
    have start : u.call? r = some { k with listenLanes := k.listenLanes ++ [m] } := by
      rw [call_of_calls opened.calls, call_setCall_same]
    exact start
  have laneV : v.talk? l = some t := by
    have same : v.scr.talk = s.scr.talk := opened.talk
    simpa only [talk?, talkPlace, same] using hl
  have settled := setCallState_of_lane call (k' := { k with listenLanes := k.listenLanes ++ [m], state := .proving }) rfl lane
    laneV
  rw [proving, settled]
  refine ⟨opened.slots, opened.station, talk_setTalk_same .., call_setCall_same .., ?_, opened.opened,
    opened.mixer fn t.ownNonce rfl rfl⟩
  have queue : v.highway.queue = u.highway.queue ++ [s.connectQueued r far k.farTag x t.ownNonce] := rfl
  rw [opened.queue] at queue
  exact queue

include alerting plain

/-- Without a FREE listen lane the callee clears, and its slot is given up. -/
theorem calleeConnects_clears (on : t.state = .active) (full : ∀ m, s.listen? m ≠ none) (room : QueueRoom 2 s) :
    ClearsTo s (s.calleeConnects r k) r .congestion far k.farTag ∧
    (s.calleeConnects r k).slots.map.get x = none := by
  have told : k.farMayExist = true := by simp [Call.farMayExist, alerting]
  have inUse : k.isClearing = false := by simp [Call.isClearing, alerting]
  have notController : k.confRole ≠ .controller := by simp [plain]
  have run : s.calleeConnects r k = s.clearRecord r .congestion := by
    simp only [calleeConnects_eq hf hfx hfn lane hl slot, openListen_of_full full, Bool.false_eq_true, if_false]
  rw [run]
  refine ⟨clearRecord_clearsTo .congestion hk notController told hf room, ?_⟩
  rw [(clearRecord_slots hk notController inUse .congestion).1, closeLaneOf_some lane, map_closeTalk hl on slot]
  exact upd_get_same ..

end

end State

end Sys2Proof.Machine
end

