-- ==== Sys2Proof/Proofs/ClaimOutcomes.lean ====
section
/-! PROOF. What becomes of the claims at a CLAIM_RETRY and at a SLOT_JUDGMENT (R92 to R94, R96, R100). -/

namespace Sys2Proof.Machine

open Sys2Proof

theorem completes_slotJudgment {s : State} {P : State → Prop} (h : P s.slotJudgment) : Completes .slotJudgment s P :=
  ⟨_, rfl, h⟩

/-! ### A claim is won -/

theorem winsHere_of_lowest {s : State} {x : Slot} (free : s.slots.atFrameStart.get x = none)
    (heard : Claimed s.highway.slotCells s.self x)
    (lowest : ∀ st c, (st, c) ∈ s.highway.slotCells → c = .claim x ∨ (∃ o, c = .move o x) → s.self ≤ st) :
    WinsHere s x := by
  refine ⟨free, heard, fun st claimed => ?_⟩
  rcases claimed with mem | ⟨o, mem⟩
  · exact lowest st _ mem (.inl rfl)
  · exact lowest st _ mem (.inr ⟨o, rfl⟩)

section
variable {s : State} {l : TalkId} {t0 : TalkLane} {x : Slot}

theorem laneWon_talk : (laneWon s l t0 x).talk? l = some (wonLane t0 x) := State.talk_setTalk_same ..

theorem laneWon_slots : (laneWon s l t0 x).slots.claims = [] ∧ (laneWon s l t0 x).slots.map = (judgedState s).slots.map :=
  ⟨rfl, rfl⟩

/-- The slot that a lane has won is this station's, while the lane is ACTIVE on it. -/
theorem map_of_won {u : State} (won : WinsHere s x) (slots : u.slots = (laneWon s l t0 x).slots) {t1 : TalkLane}
    (hl : u.talk? l = some t1) (on : t1.state = .active) (slot : t1.slot = some x) :
    u.freeIdleSlots.slots.map.get x = some s.self ∧ u.freeIdleSlots.slots.claims = [] := by
  have active : u.activeSlot l = some x := by simp only [State.activeSlot, hl, on, if_true, slot]
  refine ⟨?_, ?_⟩
  · rw [map_freeIdleSlots_of_active active, slots, laneWon_slots.2, judgedState_map, judgedHolder_of_wins won]
  · rw [State.freeIdleSlots_claims, slots, laneWon_slots.1]

end

section
variable {s : State} {e : Claim} {f : Fin 64} {l : TalkId} {t0 : TalkLane} (hears : s.hearing = true)
  (frame : s.clock.frame ≠ 0) (unjudged : s.highway.judged = false) (claims : s.slots.claims = [e])
  (carried : e.carried = some f) (lane : e.lane = some l) (hl : s.talk? l = some t0) (won : WinsHere s e.slot)
include hears frame unjudged claims carried lane hl won

theorem slotJudgment_of_wonClaim (kind : e.kind = .claim) :
    s.slotJudgment = ((laneWon s l t0 e.slot).laneHolds t0.owner).freeIdleSlots := by
  rw [slotJudgment_of_won hears frame unjudged claims carried won,
      State.claimOutcome_of_wonClaim claims lane hl kind]

theorem slotJudgment_of_wonMove (kind : e.kind = .move) :
    s.slotJudgment = ((laneWon s l t0 e.slot).issueOffer t0.owner).freeIdleSlots := by
  rw [slotJudgment_of_won hears frame unjudged claims carried won,
      State.claimOutcome_of_wonMove claims lane hl kind]

end

/-! ### A claim is lost -/

section
variable {s : State} {e : Claim} {f : Fin 64} {l : TalkId} (hears : s.hearing = true)
  (frame : s.clock.frame ≠ 0) (unjudged : s.highway.judged = false) (claims : s.slots.claims = [e])
  (carried : e.carried = some f) (lane : e.lane = some l) (lost : ¬ WinsHere s e.slot)
include hears frame unjudged claims carried lane lost

theorem slotJudgment_of_lostLane : s.slotJudgment = ((judgedState s).retryClaim l).freeIdleSlots := by
  rw [slotJudgment_of_lost hears frame unjudged claims carried lost]
  simp only [State.claimOutcome, lane]

end

/-- The next attempt for an entry may name a slot, once the map is judged. -/
def Fits (s : State) (e : Claim) (x : Slot) : Prop :=
  (∀ st, ¬ Wins s.slots.atFrameStart s.highway.slotCells st x) ∧
  (GivenUp s.slots.atFrameStart s.highway.slotCells x ∨ s.slots.map.get x = none) ∧ e.slot ≠ x ∧ e.oldSlot ≠ some x

section
variable {s : State} {e : Claim} (claims : s.slots.claims = [e])
include claims

theorem claimable_judgedState_iff {x : Slot} : Claimable (judgedState s) x ↔ Fits s e x := by
  rw [Claimable, judgedState_map, judgedHolder_eq_none_iff, judgedState_claims, claims]
  simp [Fits, and_assoc]

theorem selectSlot_judgedState_of_first {i : Nat} (hi : i < 256) (here : Fits s e (candidate s i))
    (first : ∀ j, j < i → ¬ Fits s e (candidate s j)) : (judgedState s).selectSlot = some (candidate s i) :=
  State.selectSlot_of_first (s := judgedState s) hi ((claimable_judgedState_iff claims).2 here)
    fun j hj h => first j hj ((claimable_judgedState_iff claims).1 h)

theorem selectSlot_judgedState_of_none (none_ : ∀ i, i < 256 → ¬ Fits s e (candidate s i)) :
    (judgedState s).selectSlot = none := by
  refine State.selectSlot_of_none fun x claimable => ?_
  obtain ⟨i, hi, rfl⟩ := exists_candidate s x
  exact none_ i hi ((claimable_judgedState_iff claims).1 claimable)

end

/-- The state in which the record of a lane that gets no slot is told. -/
def laneLost (s : State) : State := (judgedState s).setClaims []

/-- A closing lane that is not ACTIVE changes nothing where no entry serves it. -/
theorem closeTalk_of_unclaimed {s : State} {l : TalkId} {t : TalkLane} (hl : s.talk? l = some t)
    (idle : t.state ≠ .active) (none_ : s.slots.claims = []) :
    (s.closeTalk l).slots.claims = [] ∧ (s.closeTalk l).slots.map = s.slots.map ∧
    (s.closeTalk l).highway = s.highway ∧ (s.closeTalk l).station = s.station := by
  rw [State.closeTalk_of_idle hl idle]
  refine ⟨?_, rfl, rfl, rfl⟩
  have still : (s.setTalkPlace l { s.talkPlace l with lane := none }).slots.claims = [] := none_
  rw [State.orphanClaim, still]
  rfl

section
variable {s : State} {e : Claim} {l : TalkId} {t0 : TalkLane} (claims : s.slots.claims = [e]) (lane : e.lane = some l)
  (hl : s.talk? l = some t0)
include claims lane hl

/-- After the third attempt, or without a slot, the lane's record is told. -/
theorem retryClaim_judged_of_spent (spent : 3 ≤ e.attempt ∨ (judgedState s).selectSlot = none) :
    (judgedState s).retryClaim l = (laneLost s).clearRecord t0.owner .noSlot := by
  have hl' : (laneLost s).talk? l = some t0 := hl
  rw [State.retryClaim_of_spent (State.judgedState_claimOf claims lane) spent,
    State.judgedState_removeClaimOf claims lane]
  exact State.reportNoSlot_of_lane hl'

end

section
variable {s : State} {l : TalkId} {t0 : TalkLane} {k : Call} (hl : s.talk? l = some t0)
  (hk : s.call? t0.owner = some k) (plain : k.confRole ≠ .controller) (own : k.talkLane = some l)
  (idle : t0.state ≠ .active)
include hl hk plain own idle

/-- The clearing of a record whose lane has got no slot changes no slot of the map. -/
theorem laneLost_cleared (inUse : k.isClearing = false) : ((laneLost s).clearRecord t0.owner .noSlot).slots.claims = [] ∧
    ((laneLost s).clearRecord t0.owner .noSlot).talk? l = none ∧
    JudgedMap s ((laneLost s).clearRecord t0.owner .noSlot).freeIdleSlots := by
  have hl' : (laneLost s).talk? l = some t0 := hl
  have hk' : (laneLost s).call? t0.owner = some k := hk
  obtain ⟨slots, talk, station⟩ := State.clearRecord_slots hk' plain inUse .noSlot
  obtain ⟨none_, map, -, -⟩ := closeTalk_of_unclaimed hl' idle rfl
  rw [State.closeLaneOf_some own] at slots talk
  refine ⟨by rw [slots, none_], ?_, judgedMap_freeIdleSlots ?_ station⟩
  · have closed := State.talk_closeTalk_same l (laneLost s)
    simpa only [State.talk?, State.talkPlace, talk] using closed
  · rw [slots, map]
    rfl

/-- A ROUTING record whose lane has got no slot is FREE at once. -/
theorem laneLost_routing (routing : k.state = .routing) :
    ((laneLost s).clearRecord t0.owner .noSlot).call? t0.owner = none ∧
    ((laneLost s).clearRecord t0.owner .noSlot).highway.queue = s.highway.queue := by
  have hl' : (laneLost s).talk? l = some t0 := hl
  have hk' : (laneLost s).call? t0.owner = some k := hk
  have off := State.clearRecord_routing_offHighway hk' plain routing .noSlot
  obtain ⟨-, -, highway, -⟩ := closeTalk_of_unclaimed hl' idle rfl
  rw [State.closeLaneOf_some own] at off
  refine ⟨State.call_clearRecord_routing hk' plain routing .noSlot, ?_⟩
  rw [off.highway, highway]
  rfl

/-- A later record whose lane has got no slot tells its far end. -/
theorem laneLost_clearsTo {far : Station} (told : k.farMayExist = true) (hf : k.farStation = some far)
    (room : QueueRoom 1 s) :
    ClearsTo s ((laneLost s).clearRecord t0.owner .noSlot) t0.owner .noSlot far k.farTag := by
  have hl' : (laneLost s).talk? l = some t0 := hl
  have hk' : (laneLost s).call? t0.owner = some k := hk
  obtain ⟨-, -, highway, station⟩ := closeTalk_of_unclaimed hl' idle rfl
  have closed : QueueRoom 1 ((laneLost s).closeLaneOf k) := by
    rw [State.closeLaneOf_some own, QueueRoom, station, highway]
    exact room
  exact (State.clearRecord_clearsTo_of_closed .noSlot hk' plain told hf closed).of_start rfl rfl

end

/-! ### An entry whose lane has closed (R96) -/

section
variable {s : State} {e : Claim} (claims : s.slots.claims = [e])
include claims

theorem filter_others : (judgedState s).slots.claims.filter (fun c => c != e) = [] := by
  rw [judgedState_claims, claims]
  exact List.filter_cons_of_neg (by simp)

/-- A slot won for a closed lane is given up at once. -/
theorem releaseOrphan_released (active : s.station.state = .active) (room : s.highway.queue.length < 24) :
    ((judgedState s).releaseOrphan e).slots.claims = [{ kind := .release, slot := e.slot }] ∧
    ((judgedState s).releaseOrphan e).slots.map.get e.slot = none ∧
    ((judgedState s).releaseOrphan e).calls = s.calls ∧
    ((judgedState s).releaseOrphan e).highway.queue = s.highway.queue ++
      [{ cell := broadcast s (.slot (.free e.slot)), name := .slotCell (.free e.slot) }] := by
  set v := ((judgedState s).setClaims []).setSlot e.slot none with hv
  have run : (judgedState s).releaseOrphan e = v.addClaim { kind := .release, slot := e.slot } := by
    rw [State.releaseOrphan, filter_others claims]
  have offered := State.offerClaim_of_place (s := v) { kind := .release, slot := e.slot } active room
  rw [run]
  refine ⟨?_, ?_, State.addClaim_calls _ _, ?_⟩
  · rw [State.addClaim_claims, offered]
    rfl
  · rw [State.addClaim_map]
    exact State.map_setSlot_same ..
  · simp only [State.addClaim, offered]
    rfl

end

/-! ### CLAIM_RETRY -/

/-- A ROUTING record whose lane gets no further attempt is FREE at once. -/
theorem claimRetry_of_spent {s : State} {l : TalkId} {t0 : TalkLane} {e : Claim} {k : Call}
    (hl : s.talk? l = some t0) (hk : s.call? t0.owner = some k) (routing : k.state = .routing)
    (plain : k.confRole ≠ .controller) (own : k.talkLane = some l) (entry : s.claimOf l = some e) (refused : e.refused = true)
    (old : e.fresh = false) (spent : 3 ≤ e.attempt ∨ ∀ x, ¬ Claimable s x) :
    Completes (.claimRetry l) s fun t =>
      (∀ c ∈ t.slots.claims, c.lane ≠ some l) ∧ t.call? t0.owner = none ∧ t.talk? l = none := by
  set w := s.removeClaimOf l with hw
  have hl' : w.talk? l = some t0 := hl
  have hk' : w.call? t0.owner = some k := hk
  refine completes_claimRetry entry refused old ?_
  rw [State.retryClaim_of_spent entry (spent.imp_right State.selectSlot_of_none), ← hw,
    State.reportNoSlot_of_lane hl']
  have off := State.clearRecord_routing_offHighway hk' plain routing .noSlot
  rw [State.closeLaneOf_some own] at off
  refine ⟨?_, State.call_clearRecord_routing hk' plain routing .noSlot,
    State.talk_clearRecord_routing hk' plain routing .noSlot own⟩
  rw [off.slots]
  exact State.closeTalk_serves (State.removeClaimOf_serves l s)

/-- Settles O18: CLAIM_RETRY, and SLOT_JUDGMENT for the one entry of the claims list, won or lost. -/
theorem claimsAreRetriedAndWon : Obligations.ClaimsAreRetriedAndWon := by
  refine ⟨fun s l t0 e r k hl owner hk routing plain own lane => ⟨fun entry refused old => ⟨fun i hi here first few kind
      active => ⟨fun room => ?_, fun full => ?_⟩, fun spent => ?_⟩, fun entry _ fresh => ?_,
      fun f far hears frame unjudged claims kind carried free heard lowest hf room => ?_⟩,
    fun s l t0 e r k f hears frame unjudged claims lane carried free heard lowest hl owner hk own =>
      ⟨fun far fx fn kind alerting plain hf hfx hfn unheard => ⟨fun m low few room => ?_, fun full room => ?_⟩,
        fun old kind from_ moving other => ?_⟩,
    fun s e f hears frame unjudged claims carried kind => ⟨fun l t0 r k lane hl idle owner hk own plain lost =>
      ⟨fun i hi here first few => ⟨fun active room => ?_, fun full => ?_⟩,
        fun spent => ⟨fun routing => ?_, fun far notDialing notRouting notClearing hf room => ?_⟩⟩,
      fun orphan => ⟨fun won active room => ?_, fun lost => ?_⟩⟩⟩
  · subst owner
    refine completes_claimRetry entry refused old ?_
    rw [retryClaim_accepted entry few (State.selectSlot_of_first hi here first) active room, State.reattempted_eq]
    have cell : s.slotQueued (State.attempted e (candidate s i) false) =
        ⟨broadcast s (.slot (.claim (candidate s i))), .slotCell (.claim (candidate s i))⟩ := by
      simp only [State.slotQueued, Claim.cell, State.attempted, kind]
    rw [cell]
    exact ⟨rfl, rfl, rfl, rfl⟩
  · subst owner
    refine completes_claimRetry entry refused old ?_
    obtain ⟨list, queue, calls, -⟩ := retryClaim_refused entry few (State.selectSlot_of_first hi here first)
      (.inr full.ge)
    rw [State.reattempted_eq] at list
    exact ⟨list, queue, calls⟩
  · subst owner
    exact claimRetry_of_spent hl hk routing (by simp [plain]) own entry refused old spent
  · exact completes_claimRetry_of_fresh entry fresh rfl
  · subst owner
    have won : WinsHere s e.slot := winsHere_of_lowest free (.inl heard) lowest
    have hk' : (laneWon s l t0 e.slot).call? t0.owner = some k := hk
    have roomW : QueueRoom 1 (laneWon s l t0 e.slot) := room
    obtain ⟨call, queue⟩ := State.issueOffer_offering hk' routing hf own laneWon_talk rfl rfl roomW
    obtain ⟨slots, talk⟩ := State.issueOffer_lane hk' routing hf own laneWon_talk rfl rfl roomW
    obtain ⟨map, none_⟩ := map_of_won won slots talk rfl rfl
    refine completes_slotJudgment ?_
    rw [slotJudgment_of_wonClaim hears frame unjudged claims carried lane hl won kind,
      State.laneHolds_of_routing hk' routing]
    simp only [talk_freeIdleSlots, call_freeIdleSlots, Queues, freeIdleSlots_highway]
    exact ⟨map, none_, ⟨_, talk, rfl, rfl⟩, call, queue⟩
  · subst owner
    have cell : e.cell = .claim e.slot := by simp only [Claim.cell, kind]
    have won : WinsHere s e.slot := winsHere_of_lowest free (.inl (cell ▸ heard)) lowest
    have hk' : (laneWon s l t0 e.slot).call? t0.owner = some k := hk
    obtain ⟨slots, -, talk, call, queue, ⟨q, asked, listen⟩, mixer⟩ := State.calleeConnects_connected
      (s := laneWon s l t0 e.slot) hk' hf hfx hfn own laneWon_talk rfl low room
    obtain ⟨map, none_⟩ := map_of_won won slots talk rfl rfl
    rw [unheard] at call
    refine completes_slotJudgment ?_
    rw [slotJudgment_of_wonClaim hears frame unjudged claims carried lane hl won kind,
      State.laneHolds_of_alerting hk' alerting]
    simp only [talk_freeIdleSlots, call_freeIdleSlots, freeIdleSlots_highway, listen_freeIdleSlots,
      State.freeIdleSlots_scr]
    exact ⟨map, none_, talk, call, queue, ⟨_, listen, rfl, rfl, rfl, rfl, rfl, rfl, rfl, rfl, rfl⟩, mixer few⟩
  · subst owner
    have cell : e.cell = .claim e.slot := by simp only [Claim.cell, kind]
    have won : WinsHere s e.slot := winsHere_of_lowest free (.inl (cell ▸ heard)) lowest
    have hk' : (laneWon s l t0 e.slot).call? t0.owner = some k := hk
    obtain ⟨clears, free_⟩ := State.calleeConnects_clears (s := laneWon s l t0 e.slot) hk' alerting plain hf hfx hfn own
      laneWon_talk rfl rfl full room
    refine completes_slotJudgment ?_
    rw [slotJudgment_of_wonClaim hears frame unjudged claims carried lane hl won kind,
      State.laneHolds_of_alerting hk' alerting]
    refine ⟨(clears.of_start rfl rfl).of_end (call_freeIdleSlots _ _) (by rw [freeIdleSlots_highway]), ?_⟩
    rw [map_freeIdleSlots_of_other (by rw [free_]; simp), free_]
  · subst owner
    have cell : e.cell = .move old e.slot := by simp only [Claim.cell, kind, from_, Option.getD_some]
    have won : WinsHere s e.slot := winsHere_of_lowest free (.inr ⟨old, cell ▸ heard⟩) lowest
    have hk' : (laneWon s l t0 e.slot).call? t0.owner = some k := hk
    obtain ⟨map, none_⟩ := map_of_won won rfl laneWon_talk rfl rfl
    refine completes_slotJudgment ?_
    rw [slotJudgment_of_wonMove hears frame unjudged claims carried lane hl won kind,
      State.issueOffer_of_notRouting hk' other]
    simp only [talk_freeIdleSlots, freeIdleSlots_calls, freeIdleSlots_highway]
    exact ⟨map, none_, laneWon_talk, rfl, rfl⟩
  · subst owner
    have found := selectSlot_judgedState_of_first claims hi here first
    refine completes_slotJudgment ?_
    rw [slotJudgment_of_lostLane hears frame unjudged claims carried lane lost,
      retryClaim_accepted (State.judgedState_claimOf claims lane) few found active room, State.reattempted_eq,
      judgedState_claims, claims, List.map_singleton, if_pos lane]
    simp only [State.freeIdleSlots_claims, State.setClaims_claims, talk_freeIdleSlots, freeIdleSlots_calls,
      freeIdleSlots_highway]
    exact ⟨rfl, hl, rfl, judgedMap_freeIdleSlots rfl rfl, rfl⟩
  · subst owner
    have found := selectSlot_judgedState_of_first claims hi here first
    obtain ⟨list, queue, calls, map, scr, station⟩ := retryClaim_refused (State.judgedState_claimOf claims lane) few found
      full
    rw [State.reattempted_eq, judgedState_claims, claims, List.map_singleton, if_pos lane] at list
    refine completes_slotJudgment ?_
    rw [slotJudgment_of_lostLane hears frame unjudged claims carried lane lost]
    simp only [State.freeIdleSlots_claims, talk_freeIdleSlots, freeIdleSlots_calls, freeIdleSlots_highway]
    refine ⟨list, ?_, calls, judgedMap_freeIdleSlots map station, queue⟩
    simp only [State.talk?, State.talkPlace, scr]
    exact hl
  · subst owner
    have none_ := spent.imp_right (selectSlot_judgedState_of_none claims)
    have inUse : k.isClearing = false := by simp [Call.isClearing, routing]
    obtain ⟨list, talk, map⟩ := laneLost_cleared hl hk plain own idle inUse
    obtain ⟨call, queue⟩ := laneLost_routing hl hk plain own idle routing
    refine completes_slotJudgment ?_
    rw [slotJudgment_of_lostLane hears frame unjudged claims carried lane lost,
      retryClaim_judged_of_spent claims lane hl none_]
    simp only [State.freeIdleSlots_claims, talk_freeIdleSlots, call_freeIdleSlots, freeIdleSlots_highway]
    exact ⟨list, call, talk, map, queue⟩
  · subst owner
    have none_ := spent.imp_right (selectSlot_judgedState_of_none claims)
    have inUse : k.isClearing = false := by simp [Call.isClearing, notClearing]
    have told : k.farMayExist = true := by
      cases st : k.state <;> simp [Call.farMayExist, st] at notDialing notRouting notClearing ⊢
    obtain ⟨list, talk, map⟩ := laneLost_cleared hl hk plain own idle inUse
    have clears := laneLost_clearsTo hl hk plain own idle told hf room
    refine completes_slotJudgment ?_
    rw [slotJudgment_of_lostLane hears frame unjudged claims carried lane lost,
      retryClaim_judged_of_spent claims lane hl none_]
    simp only [State.freeIdleSlots_claims, talk_freeIdleSlots]
    exact ⟨list, clears.of_end (call_freeIdleSlots _ _) (by rw [freeIdleSlots_highway]), talk, map⟩
  · obtain ⟨list, map, calls, queue⟩ := releaseOrphan_released claims active room
    have outcome : (judgedState s).claimOutcome e true = (judgedState s).releaseOrphan e := by
      simp only [State.claimOutcome, orphan]
    refine completes_slotJudgment ?_
    rw [slotJudgment_of_won hears frame unjudged claims carried won, outcome]
    simp only [State.freeIdleSlots_claims, freeIdleSlots_calls, freeIdleSlots_highway]
    exact ⟨by rw [map_freeIdleSlots_of_other (by rw [map]; simp), map], list, calls, queue⟩
  · have outcome : (judgedState s).claimOutcome e false = laneLost s := by
      simp only [State.claimOutcome, orphan, filter_others claims]
      rfl
    refine completes_slotJudgment ?_
    rw [slotJudgment_of_lost hears frame unjudged claims carried lost, outcome]
    simp only [State.freeIdleSlots_claims, freeIdleSlots_calls, freeIdleSlots_highway]
    exact ⟨rfl, rfl, judgedMap_freeIdleSlots rfl rfl, rfl⟩

end Sys2Proof.Machine
end
